-- ==== Sys2Proof/Word.lean ====
section
/-!
DEFINITION. The word types of the machine and their plainest arithmetic (R2, R10).
-/
namespace Sys2Proof

/-- One byte of memory. -/
abbrev Byte := BitVec 8

/-- A 32-bit word: lane registers, sequencer registers, lane and scalar program counters. -/
abbrev W32 := BitVec 32

/-- A 64-bit word: scalar registers, CSRs, register pairs, descriptor words. -/
abbrev W64 := BitVec 64

/-- A 3-bit data label (R50, R63, R123). -/
abbrev Label := BitVec 3

/-- The larger of two labels, compared as unsigned numbers (R50). -/
def Label.join (a b : Label) : Label := if a.toNat < b.toNat then b else a

/-- The largest label of a list, 0 for none (R50). -/
def Label.joinAll (l : List Label) : Label := l.foldl Label.join 0

/-- A sparse table: entries by ascending key, no key twice. -/
abbrev Table (α : Type) := List (Nat × α)

end Sys2Proof
end

