-- ==== Sys2Proof/Syntax.lean ====
section
/-!
DEFINITION. The abstract syntax: one constructor of `Instr` per row of the spec's table of operations and events.
Scalar rows carry the fields of R281 to R285, lane rows the one format of R286, sequencer rows the fields of R289.
Rows without an encoding are the device's events and packets; their arguments name the object they act on.
-/
namespace Sys2Proof

/-- The fields of a lane instruction below its opcode (R286): type, predicate and its negation, write-back
suppression, destination, three sources, the immediate flag, the modifier and the immediate. -/
structure LaneFields where
  ty   : BitVec 4
  pred : BitVec 3
  neg  : Bool
  wbs  : Bool
  dst  : BitVec 10
  a    : BitVec 11
  b    : BitVec 11
  c    : BitVec 11
  i    : Bool
  md   : BitVec 3
  imm  : BitVec 32
  deriving DecidableEq, Repr, Inhabited

/-- The rows of the table of operations and events. -/
inductive Instr where
  /-- R306. Scalar 64-bit wrapping addition of s[sa] and s[sb] into sd. -/
  | add (d a b : BitVec 6)
  /-- R306. Scalar 64-bit wrapping subtraction into sd. -/
  | sub (d a b : BitVec 6)
  /-- R306. Scalar bitwise AND into sd. -/
  | and (d a b : BitVec 6)
  /-- R306. Scalar bitwise OR into sd. -/
  | or (d a b : BitVec 6)
  /-- R306. Scalar bitwise exclusive OR into sd. -/
  | xor (d a b : BitVec 6)
  /-- R306. Scalar left shift by b[5:0]. -/
  | shl (d a b : BitVec 6)
  /-- R306. Scalar logical right shift by b[5:0]. -/
  | shr (d a b : BitVec 6)
  /-- R306. Scalar arithmetic right shift by b[5:0]. -/
  | sar (d a b : BitVec 6)
  /-- R306. Scalar low 64 bits of the product. -/
  | mul (d a b : BitVec 6)
  /-- R306. Scalar high 64 bits of the unsigned product. -/
  | mulhn (d a b : BitVec 6)
  /-- R306. Scalar high 64 bits of the signed product. -/
  | mulh (d a b : BitVec 6)
  /-- R306. Scalar unsigned division, all ones on division by zero. -/
  | divn (d a b : BitVec 6)
  /-- R306. Scalar unsigned remainder, a on division by zero. -/
  | remn (d a b : BitVec 6)
  /-- R306. Scalar signed minimum. -/
  | min (d a b : BitVec 6)
  /-- R306. Scalar signed maximum. -/
  | max (d a b : BitVec 6)
  /-- R306. Scalar unsigned minimum. -/
  | minn (d a b : BitVec 6)
  /-- R306. Scalar unsigned maximum. -/
  | maxn (d a b : BitVec 6)
  /-- R306. Scalar set if equal. -/
  | seq (d a b : BitVec 6)
  /-- R306. Scalar set if not equal. -/
  | sne (d a b : BitVec 6)
  /-- R306. Scalar set if signed less than. -/
  | slt (d a b : BitVec 6)
  /-- R306. Scalar set if unsigned less than. -/
  | sltn (d a b : BitVec 6)
  /-- R307. Scalar addition of a signed 14-bit immediate. -/
  | addi (d a : BitVec 6) (imm : BitVec 14)
  /-- R307. Scalar AND with a sign-extended immediate. -/
  | andi (d a : BitVec 6) (imm : BitVec 14)
  /-- R307. Scalar OR with a sign-extended immediate. -/
  | ori (d a : BitVec 6) (imm : BitVec 14)
  /-- R307. Scalar exclusive OR with a sign-extended immediate. -/
  | xori (d a : BitVec 6) (imm : BitVec 14)
  /-- R307. Scalar left shift by an immediate 0-63. -/
  | shli (d a sh : BitVec 6)
  /-- R307. Scalar logical right shift by an immediate. -/
  | shri (d a sh : BitVec 6)
  /-- R307. Scalar arithmetic right shift by an immediate. -/
  | sari (d a sh : BitVec 6)
  /-- R307. Scalar set if signed less than the immediate. -/
  | slti (d a : BitVec 6) (imm : BitVec 14)
  /-- R307. Scalar set if unsigned less than the immediate. -/
  | sltni (d a : BitVec 6) (imm : BitVec 14)
  /-- R308. Writes the sign-extended 20-bit immediate shifted left by 14 to sd. -/
  | lui (d : BitVec 6) (imm : BitVec 20)
  /-- R309. Branches when s[sa] is zero. -/
  | bz (a : BitVec 6) (disp : BitVec 20)
  /-- R309. Branches when s[sa] is nonzero. -/
  | bnz (a : BitVec 6) (disp : BitVec 20)
  /-- R309. Branches when s[sa] is negative. -/
  | bltz (a : BitVec 6) (disp : BitVec 20)
  /-- R309. Branches when s[sa] is zero or positive. -/
  | bgez (a : BitVec 6) (disp : BitVec 20)
  /-- R309. Jumps by a 26-bit displacement. -/
  | jmp (disp : BitVec 26)
  /-- R309. Writes PC + 4 to sd and jumps. -/
  | call (d : BitVec 6) (disp : BitVec 20)
  /-- R309. Jumps to the address in s[sa]. -/
  | jr (a : BitVec 6)
  /-- R310. Scalar load from team memory or chip scratchpad. -/
  | sld (d a b : BitVec 6) (sz : BitVec 2) (sx sp : Bool)
  /-- R311. Scalar store to team memory or chip scratchpad. -/
  | sst (a b c : BitVec 6) (sz : BitVec 2) (sp : Bool)
  /-- R312. Reads an 8-byte launch argument into sd. -/
  | argld (d a : BitVec 6) (imm : BitVec 14)
  /-- R313. Copies s[sa] into a live block-constant register. -/
  | kmov (d a : BitVec 6)
  /-- R314. Enqueues a lane block with a snapshot of k0-k15, waiting while the queue is full. -/
  | lrun (entry : BitVec 20)
  /-- R315. Waits until the lane-block queue is empty and orders block accesses before later scalar ones. -/
  | lsync
  /-- R317. Makes the scalar candidate not ready until others issue or 64 cycles pass. -/
  | yield
  /-- R319. Deschedules the warp until a counter reaches n, then resumes at the target. -/
  | yieldc (cls : BitVec 3) (n : BitVec 8) (disp : BitVec 12)
  /-- R318. Waits until the counter of a class is at most n. -/
  | waitc (cls : BitVec 3) (n : BitVec 8)
  /-- R316. Waits for queue, counters and returns, then ends the warp. -/
  | exit
  /-- R320. Arrives at a named barrier and returns the phase token. -/
  | barArrive (d : BitVec 6) (n : BitVec 4) (e : BitVec 6)
  /-- R320. Waits until the barrier phase differs from the token. -/
  | barWait (a : BitVec 6) (n : BitVec 4)
  /-- R320. Arrives at a named barrier and waits for the phase to flip. -/
  | barSync (d : BitVec 6) (n : BitVec 4) (e : BitVec 6)
  /-- R321. Memory fence of the named order and scope. -/
  | fence (ord : BitVec 2) (scope : BitVec 3)
  /-- R322. Takes an offered accumulator token for the warps. -/
  | tokacq (t : BitVec 3)
  /-- R322. Returns an accumulator token held by the warps. -/
  | tokrel (t : BitVec 3)
  /-- R323. Engine copy between memories, counted on .cpy. -/
  | copy (a b c : BitVec 6) (dir : BitVec 3) (stat : Bool)
  /-- R324. Engine two-dimensional copy described by a shape record. -/
  | copy2d (a b c : BitVec 6) (dir : BitVec 3) (stat : Bool)
  /-- R160. Stores team-memory data into a nameless pool unit and queues its name. -/
  | nstore (a b role : BitVec 6)
  /-- R161. Removes the oldest name of the name queue into sd. -/
  | namepop (d : BitVec 6)
  /-- R162. Returns pool units to the free-space map. -/
  | relq (a b role : BitVec 6)
  /-- R156. Waits until view tiles dirtied by this warp are rebuilt, counted on .vw. -/
  | vfence
  /-- R329. Starts a fabric collective from a team-memory descriptor. -/
  | coll (a : BitVec 6)
  /-- R330. Enqueues a child grid from a GRID slot in team memory. -/
  | launch (a b : BitVec 6)
  /-- R327. Release-writes a value to a signal word and waits for visibility. -/
  | signalSetInsn (b c : BitVec 6) (scope : BitVec 3)
  /-- R327. Release-adds to a signal word and waits for visibility. -/
  | signalAdd (b c : BitVec 6) (scope : BitVec 3)
  /-- R327. Waits until a signal word satisfies a comparison, acquiring at the scope. -/
  | signalWaitInsn (b c : BitVec 6) (cmp : BitVec 2) (ext : Bool) (scope : BitVec 3)
  /-- R326. Scalar atomic on main memory, counted on .at. -/
  | satom (a b c : BitVec 6) (aop : BitVec 3) (w32 : Bool) (ordsc : BitVec 4)
  /-- R331. Pushes a task word onto a deque. -/
  | dqpush (a : BitVec 6) (dsc : BitVec 2) (role : BitVec 6)
  /-- R331. Pops a task word from the bottom of a deque. -/
  | dqpop (d : BitVec 6) (dsc : BitVec 2) (role : BitVec 6)
  /-- R331. Steals a task word from the top of a deque. -/
  | dqsteal (d : BitVec 6) (dsc : BitVec 2) (role : BitVec 6)
  /-- R332. Lowers the gang's bound register by an unsigned minimum. -/
  | bndmin (a : BitVec 6)
  /-- R332. Reads the local copy of the gang's bound register. -/
  | bndrd (d : BitVec 6)
  /-- R333. Writes a description of a role binding to sd. -/
  | role (d role : BitVec 6)
  /-- R334. Reads a CSR into sd. -/
  | csrr (d : BitVec 6) (csr : BitVec 12)
  /-- R334. Writes s[sa] to a CSR under its access codes. -/
  | csrw (a : BitVec 6) (csr : BitVec 12)
  /-- R335. Raises trap SOFT with the immediate. -/
  | trap (imm : BitVec 20)
  /-- R97. Adjusts hotness of pages toward a tier and retires at once. -/
  | placeHint (a b : BitVec 6) (tier : BitVec 2)
  /-- R97. Requests migration of pages to a tier with a status record, counted on .cpy. -/
  | placeReq (a b c : BitVec 6) (tier : BitVec 2)
  /-- R337. Seals registers into an image in main memory. -/
  | savev (a b : BitVec 6)
  /-- R338. Checks and restores registers from a sealed image. -/
  | restv (a b : BitVec 6)
  /-- R337. Seals a team-memory range into an image. -/
  | savet (a b c : BitVec 6)
  /-- R338. Checks and restores team memory from a sealed image. -/
  | restt (a b c : BitVec 6)
  /-- R404. Leaves handler mode and restores the trap frame. -/
  | tret
  /-- R250. Returns from a handler skipping the faulting instruction. -/
  | tretSkip
  /-- R133. Sets a leaf PTE of a context and updates exception tables. -/
  | mapedit (a b c : BitVec 6)
  /-- R134. Waits until accesses under replaced translations are performed. -/
  | mapsync (a b c : BitVec 6)
  /-- R135. Waits until edits are folded in and returns the FIX count. -/
  | refitf (d c : BitVec 6)
  /-- R406. Lowers the label of one register. -/
  | lbldn (index : BitVec 12) (level : BitVec 3) (kind : BitVec 2)
  /-- R346. Lane move of a register or immediate. -/
  | mov (f : LaneFields)
  /-- R347. Writes the lane number. -/
  | laneid (f : LaneFields)
  /-- R348. Selects A or B by C. -/
  | sel (f : LaneFields)
  /-- R349. Writes a predicate from predicates or an immediate. -/
  | pset (f : LaneFields)
  /-- R350. Lane integer addition. -/
  | iadd (f : LaneFields)
  /-- R350. Lane integer subtraction. -/
  | isub (f : LaneFields)
  /-- R350. Lane integer multiplication. -/
  | imul (f : LaneFields)
  /-- R350. Lane integer high product. -/
  | imulh (f : LaneFields)
  /-- R350. Lane integer multiply-add. -/
  | imad (f : LaneFields)
  /-- R350. Lane integer minimum. -/
  | imin (f : LaneFields)
  /-- R350. Lane integer maximum. -/
  | imax (f : LaneFields)
  /-- R350. Lane integer absolute value. -/
  | iabs (f : LaneFields)
  /-- R350. Lane bitwise AND. -/
  | iand (f : LaneFields)
  /-- R350. Lane bitwise OR. -/
  | ior (f : LaneFields)
  /-- R350. Lane bitwise exclusive OR. -/
  | ixor (f : LaneFields)
  /-- R350. Lane bitwise NOT. -/
  | inot (f : LaneFields)
  /-- R350. Lane left shift. -/
  | ishl (f : LaneFields)
  /-- R350. Lane logical right shift. -/
  | ishr (f : LaneFields)
  /-- R350. Lane arithmetic right shift. -/
  | isar (f : LaneFields)
  /-- R351. Lane integer comparison into a predicate. -/
  | icmp (f : LaneFields)
  /-- R352. Lane population count. -/
  | popc (f : LaneFields)
  /-- R352. Lane count of leading zeros. -/
  | clz (f : LaneFields)
  /-- R352. Lane bit reversal. -/
  | brev (f : LaneFields)
  /-- R353. Lane bit-field extract. -/
  | bfe (f : LaneFields)
  /-- R353. Lane bit-field insert. -/
  | bfi (f : LaneFields)
  /-- R354. Lane integer division toward zero. -/
  | idiv (f : LaneFields)
  /-- R354. Lane integer remainder. -/
  | irem (f : LaneFields)
  /-- R355. Lane floating addition, rounded once. -/
  | fadd (f : LaneFields)
  /-- R355. Lane floating subtraction. -/
  | fsub (f : LaneFields)
  /-- R355. Lane floating multiplication. -/
  | fmul (f : LaneFields)
  /-- R355. Lane fused multiply-add. -/
  | ffma (f : LaneFields)
  /-- R356. Lane floating minimum. -/
  | fmin (f : LaneFields)
  /-- R356. Lane floating maximum. -/
  | fmax (f : LaneFields)
  /-- R357. Lane floating comparison into a predicate. -/
  | fcmp (f : LaneFields)
  /-- R358. Lane classification test into a predicate. -/
  | fclass (f : LaneFields)
  /-- R355. Lane correctly rounded reciprocal. -/
  | frcp (f : LaneFields)
  /-- R355. Lane correctly rounded reciprocal square root. -/
  | frsq (f : LaneFields)
  /-- R355. Lane correctly rounded square root. -/
  | fsqrt (f : LaneFields)
  /-- R355. Lane correctly rounded power of two. -/
  | fex2 (f : LaneFields)
  /-- R355. Lane correctly rounded base-2 logarithm. -/
  | flg2 (f : LaneFields)
  /-- R355. Lane correctly rounded division. -/
  | fdiv (f : LaneFields)
  /-- R359. Lane conversion between types. -/
  | cvt (f : LaneFields)
  /-- R360. Lane conversion of a value into one packed element. -/
  | pack (f : LaneFields)
  /-- R360. Lane exact unpacking of one packed element. -/
  | unpk (f : LaneFields)
  /-- R361. Lane dot product of four 8-bit integers plus addend. -/
  | dp4i (f : LaneFields)
  /-- R361. Lane dot product of eight 4-bit integers plus addend. -/
  | dp8i (f : LaneFields)
  /-- R362. Lane dot product of four 8-bit floats plus f32 addend. -/
  | dp4f (f : LaneFields)
  /-- R362. Lane dot product of eight e2m1 floats plus f32 addend. -/
  | dp8f (f : LaneFields)
  /-- R363. Lane multiplication by an E8M0 scale with one rounding. -/
  | mxscale (f : LaneFields)
  /-- R364. Lane quantisation of a 32-lane MX block. -/
  | qcvt (f : LaneFields)
  /-- R365. Lane dequantisation of a code and scale to f32. -/
  | dqcvt (f : LaneFields)
  /-- R366. Lane read from an indexed source lane. -/
  | shfl (f : LaneFields)
  /-- R366. Lane read from a source lane by xor, up or down. -/
  | shflx (f : LaneFields)
  /-- R367. Reduction over participating lanes. -/
  | vred (f : LaneFields)
  /-- R367. Inclusive scan over participating lanes. -/
  | vscan (f : LaneFields)
  /-- R368. Any, all or ballot vote over participating lanes. -/
  | vvote (f : LaneFields)
  /-- R369. Broadcast of the lowest participating lane's value. -/
  | vfirst (f : LaneFields)
  /-- R370. Lane load from team memory. -/
  | ldt (f : LaneFields)
  /-- R370. Lane store to team memory. -/
  | stt (f : LaneFields)
  /-- R370. Lane load from the chip scratchpad. -/
  | ldc (f : LaneFields)
  /-- R370. Lane store to the chip scratchpad. -/
  | stc (f : LaneFields)
  /-- R370. Lane load from its spill slice. -/
  | lds (f : LaneFields)
  /-- R370. Lane store to its spill slice. -/
  | sts (f : LaneFields)
  /-- R371. Lane atomic on team memory. -/
  | att (f : LaneFields)
  /-- R371. Lane atomic on the chip scratchpad. -/
  | atc (f : LaneFields)
  /-- R372. Lane read of an accumulator tile element. -/
  | accrd (f : LaneFields)
  /-- R372. Lane write of an accumulator tile element. -/
  | accwr (f : LaneFields)
  /-- R374. Lane gather of main-memory rows into team memory, counted on .gs. -/
  | gath (f : LaneFields)
  /-- R375. Lane scatter of team-memory rows to main memory. -/
  | scat (f : LaneFields)
  /-- R375. Lane scatter with indivisible element additions. -/
  | scatAdd (f : LaneFields)
  /-- R376. Lane atomic on main memory, counted on .at. -/
  | matom (f : LaneFields)
  /-- R377. Lane branch, splitting the entry when lanes disagree. -/
  | bra (f : LaneFields)
  /-- R378. Lane call writing the return index. -/
  | lcall (f : LaneFields)
  /-- R378. Lane return to per-lane targets. -/
  | lret (f : LaneFields)
  /-- R169. Arms a reconvergence barrier with the entry's lanes. -/
  | rcvMark (f : LaneFields)
  /-- R169. Arrives at a reconvergence barrier. -/
  | rcvWait (f : LaneFields)
  /-- R380. Puts the entry at block end. -/
  | lend (f : LaneFields)
  /-- R381. Pops task words for idle lanes from a deque. -/
  | refill (f : LaneFields)
  /-- R382. Takes participating lanes out of their entry. -/
  | idle (f : LaneFields)
  /-- R383. Raises SOFT from participating lanes. -/
  | ltrap (f : LaneFields)
  /-- R391. Dense matrix multiply-accumulate into tiles in K-steps. -/
  | mma (shape : BitVec 5) (acc : BitVec 3) (ra rb rf : BitVec 4) (zero reuse : Bool)
  /-- R393. Sparse matrix multiply-accumulate. -/
  | mmas (shape : BitVec 5) (acc : BitVec 3) (ra rb rf : BitVec 4) (spm : BitVec 2) (zero reuse : Bool)
  /-- R395. Zeroes the named tiles. -/
  | mzero (shape : BitVec 5) (acc : BitVec 3)
  /-- R396. Loads tile elements from team memory. -/
  | mload (shape : BitVec 5) (acc : BitVec 3) (ra : BitVec 4) (pitch : BitVec 20)
  /-- R396. Stores tile elements to team memory. -/
  | mstore (shape : BitVec 5) (acc : BitVec 3) (ra : BitVec 4) (pitch : BitVec 20)
  /-- R397. Quantises tile rows into team memory. -/
  | mquant (shape : BitVec 5) (acc : BitVec 3) (ra rb : BitVec 4) (fmt : BitVec 4) (clip : Bool) (p : BitVec 7) (f : BitVec 6) (src : Bool) (pitch : BitVec 13)
  /-- R398. Rescales tile elements in place. -/
  | mscale (shape : BitVec 5) (acc : BitVec 3) (ra rb : BitVec 4) (src col row : Bool)
  /-- R399. Sets a sequencer register. -/
  | mset (ra : BitVec 4) (imm : BitVec 32)
  /-- R399. Adds to a sequencer register. -/
  | madd (ra rb rf : BitVec 4) (reg : Bool) (imm : BitVec 32)
  /-- R399. Decrements a counter and branches while nonzero. -/
  | mloop (ra : BitVec 4) (disp : BitVec 32)
  /-- R399. Sequencer jump. -/
  | mjmp (disp : BitVec 32)
  /-- R400. Waits for earlier instructions, releases the A latch and ends the stream. -/
  | mhalt
  /-- R401. Sequencer wait for a barrier phase. -/
  | mwait (n ra : BitVec 4)
  /-- R401. Sequencer arrival at a barrier after its operand reads. -/
  | marrive (n ra : BitVec 4) (tok : Bool) (e : BitVec 6)
  /-- R402. Offers a tile's token to the warps. -/
  | mtrel (acc : BitVec 3)
  /-- R402. Takes a tile's token back to the sequencer. -/
  | mtacq (acc : BitVec 3)
  /-- R403. Waits until every earlier sequencer instruction completes. -/
  | mfence
  /-- R166. Two READY entries with equal PC and PARENT fuse at an issue decision. -/
  | entryFuse (w : Nat)
  /-- R167. A SPLITWAIT entry retries its split once an entry is freed. -/
  | splitRetry (w e : Nat)
  /-- R201. An issue candidate ready for 64 cycles is raised. -/
  | candidateRaise (core quad : Nat)
  /-- R317. A yielded scalar candidate becomes ready again after 64 cycles. -/
  | yieldTimeout (w : Nat)
  /-- R319. A descheduled warp resumes at its target once the counter condition holds. -/
  | yieldcResume (w : Nat)
  /-- R216. An engine operation finishes its work and retires in issue order, decrementing its counter. -/
  | counterRetire (op : Nat)
  /-- R160. Cove chooses a pool unit, writes the data and produces the name. -/
  | nstorePlace (op unit : Nat)
  /-- R248. A warp takes a trap, writes the trap CSRs, saves the frame and enters the handler or its outcome. -/
  | trapEntry (w : Nat)
  /-- R208. A PREEMPT notice is delivered to a persistent warp at its next scalar boundary. -/
  | preemptNotice (w : Nat)
  /-- R197. When cores free up or every 10 us the distributor walks its order list and places gangs. -/
  | distributorWalk
  /-- R200. A launch held for BFWAIT blocks lower launches from placing. -/
  | backfillLimit (launch : Nat)
  /-- R184. A hub copy engine reads, checks and performs the next copy descriptor of a COPY slot. -/
  | copyDescriptor (launch slot : Nat)
  /-- R187. A finished packet writes its record and signal and decrements INFLIGHT. -/
  | packetRetire (p : Nat)
  /-- R188. A queue's coalescing timer expires and fires the pending MSI-X message. -/
  | coalesceTimer (fn q : Nat)
  /-- R180. A write to TAIL lets the function core fetch packets up to it. -/
  | doorbell (fn q : Nat) (tail : BitVec 16)
  /-- R180. QCFG.EN going 0 to 1 resets HEAD, TAIL and the coalescing state. -/
  | queueEnable (fn q : Nat)
  /-- R180. QCFG.EN going 1 to 0 stops fetching. -/
  | queueDisable (fn q : Nat)
  /-- R6. A write to a register with no behaviour of its own, under its access codes. -/
  | registerWrite (fn off : Nat) (val : BitVec 64)
  /-- R185. Packet that validates and launches a bundle of sub-launches. -/
  | bundle (p : Nat)
  /-- R183. Packet that does no work and completes with its signal. -/
  | signalSet (p : Nat)
  /-- R183. Packet that holds its queue until a watched word meets a condition. -/
  | signalWait (p : Nat)
  /-- R183. MAP packet with the effect of MAPEDIT. -/
  | mapEdit (p : Nat)
  /-- R183. MAP packet with the effect of MAPSYNC. -/
  | mapSync (p : Nat)
  /-- R183. MAP packet with the effect of REFITF. -/
  | mapRefit (p : Nat)
  /-- R147. Registers a view of a master tensor. -/
  | viewreg (p : Nat)
  /-- R148. Deregisters a view after its rebuilds publish. -/
  | viewdereg (p : Nat)
  /-- R159. Registers a nameless pool. -/
  | poolreg (p : Nat)
  /-- R159. Deregisters a nameless pool after its operations finish. -/
  | pooldereg (p : Nat)
  /-- R183. Packet recording TIME when it starts. -/
  | timestamp (p : Nat)
  /-- R183. Packet that does no work. -/
  | nop (p : Nat)
  /-- R179. Lighthouse validates and acts on a function core's mailbox request. -/
  | mailboxRequest (fn : Nat)
  /-- R179. A mailbox entry unanswered for 100 ms resets the function core. -/
  | mailboxTimeout (fn : Nat)
  /-- R193. Management command setting SLICE. -/
  | setslice
  /-- R193. Management command setting a function's weight. -/
  | setweight
  /-- R193. Management command creating a context. -/
  | ctxcreate
  /-- R193. Management command removing a context. -/
  | ctxremove
  /-- R256. Warps still resident 100 us after removal began are stopped. -/
  | removalForceStop (slot : Nat)
  /-- R193. Management command starting the pre-emption of a context. -/
  | preempt
  /-- R193. Management command returning a SAVED context to RUN. -/
  | resume
  /-- R230. Management command extending a host measurement register. -/
  | mslextend
  /-- R193. Management command writing a management register. -/
  | regwrite
  /-- R193. Management command reading a management register. -/
  | regread
  /-- R233. Management command performing an authorised life-cycle transition. -/
  | lcchange
  /-- R193. Attaches the debugger to a context. -/
  | dbgattach
  /-- R193. Detaches the debugger and resumes stopped warps. -/
  | dbgdetach
  /-- R193. Sets or clears a breakpoint. -/
  | dbgbreak
  /-- R193. Stops every warp of the context under DEBUG. -/
  | dbghalt
  /-- R195. Copies part of a stopped warp's frame to or from a host buffer. -/
  | dbgframe
  /-- R193. Resumes warps stopped under DEBUG. -/
  | dbgresume
  /-- R194. MEVCFG.EN going 0 to 1 resets the event ring index and DROPPED. -/
  | eventRingEnable
  /-- R190. A time slice expires and the next function takes it, pre-empting where needed. -/
  | sliceEnd
  /-- R207. A draining context with no resident team is reported SAVED. -/
  | drainComplete (slot : Nat)
  /-- R207. The pre-emption deadline expires in DRAIN and the context is removed. -/
  | preemptDeadline (slot : Nat)
  /-- R212. The watchdog timer reaches WDOG and the context is removed. -/
  | watchdogExpiry (slot : Nat)
  /-- R189. A HOLD start waits 250 us and starts anyway, counting HOLDTO. -/
  | holdTimeout (launch : Nat)
  /-- R189. A die reaches its new operating point and held starts proceed. -/
  | operatingPointReached (die : Nat)
  /-- R89. Every DECAY ms each hotness counter is halved. -/
  | hotnessDecay
  /-- R92. The tide engine selects a page and installs IN_MOTION entries. -/
  | migrationClaim (slot vpn dst : Nat)
  /-- R92. The tide engine copies and verifies one line of a page in MOTION. -/
  | migrationCopyLine (mig : Nat)
  /-- R93. Accesses stall, a tombstone is set, dirty lines are copied and entries move to MAPPED(dst). -/
  | cutOver (mig : Nat)
  /-- R93. After the last die acknowledges, the tombstone goes, the PTE is written and src is freed. -/
  | cutoverAck (mig : Nat)
  /-- R138. The refitter rebuilds a queued window's segments and absorbs FIX entries. -/
  | refit (slot : Nat)
  /-- R151. An Orangery unit takes a stale tile and snapshots its master. -/
  | rebuildSnapshot (unit : Nat)
  /-- R151. A rebuilt view tile is published and FT set. -/
  | rebuildPublish (unit : Nat)
  /-- R82. A scrubber reads, corrects or marks the next line of its pass. -/
  | scrubRead (unit : Nat)
  /-- R83. A scrubber's lag crosses a threshold and its escalation step changes. -/
  | scrubStepChange (unit : Nat)
  /-- R81. A key slot enters ROTATING with sweep ranges. -/
  | keyRotationStart (slot : Nat)
  /-- R81. A sweep reseals the pointer line under the new key. -/
  | keySweepStep (slot range : Nat)
  /-- R240. SAVECTR reaching 2^40 gives the context a fresh save key. -/
  | saveKeyRenew (slot : Nat)
  /-- R78. Belvedere installs a new key pair before a link counter reaches 2^64. -/
  | linkRekey (link : Nat)
  /-- R79. A flit group failing its tag shuts the link and halts the device. -/
  | integrityFault (link : Nat)
  /-- R74. A root port link goes down and its window completes with POISON. -/
  | cxlLinkDown (port : Nat)
  /-- R213. A fabric route goes down and COLL_ABORT is sent for its collectives. -/
  | peerRouteDown (route : Nat)
  /-- R213. A received COLL_ABORT completes the named collective as ABORTED. -/
  | collAbort (ident : BitVec 64)
  /-- R140. A PRI page-request group response confirms or refuses host pages. -/
  | prgResponse (fn group : Nat) (code : BitVec 4)
  /-- R140. The device completes a host ATS invalidation. -/
  | atsInvalidation (fn page : Nat)
  /-- R232. SPDM request answered by Belvedere. -/
  | getVersion (fn : Nat)
  /-- R232. SPDM request answered by Belvedere. -/
  | getCapabilities (fn : Nat)
  /-- R232. SPDM request answered by Belvedere. -/
  | negotiateAlgorithms (fn : Nat)
  /-- R232. SPDM request answered by Belvedere. -/
  | getDigests (fn : Nat)
  /-- R232. SPDM request answered by Belvedere. -/
  | getCertificate (fn : Nat)
  /-- R232. SPDM challenge signed with the Alias key. -/
  | challenge (fn : Nat)
  /-- R232. SPDM request returning measurement registers or context records. -/
  | getMeasurements (fn : Nat) (index : BitVec 8)
  /-- R27. Power-on holds the dies in reset and runs the boot sequence. -/
  | powerOn
  /-- R234. A cold reset wipes state and reboots. -/
  | coldReset
  /-- R234. A warm reset wipes SRAM and keys, keeps DRAM for zeroing, and reboots. -/
  | warmReset
  /-- R234. A function-level reset removes the function's contexts and resets its queues. -/
  | flr (fn : Nat)
  /-- R183. The front end re-reads the watched word of a SIGNAL_WAIT packet every 1 us (host words at least every 10 us), and a signal.wait instruction re-reads its word likewise, completing when the condition holds. -/
  | signalWordPoll (p : Nat) (warp : Bool)
  /-- R74. Lighthouse re-enumerates a CXL root port whose link went down, after which accesses to its part of the window no longer complete with POISON status. -/
  | cxlPortReenumeration (port : Nat)
  /-- R189. While the module exceeds 2,300 W, FC2 dies lower their clock in 25 MHz steps, no lower than 1.10 GHz, and raise it again when power falls back. -/
  | modulePowerOverLimit (above : Bool)
  /-- R189. Thermal protection lowers a die's clock, the one cause that can lower an FC3 operating point. -/
  | thermalProtection (die mhz : Nat)
  /-- R140. The host's response to an ATS translation request confirms a leased host page as present or not present, moving a launch out of RESIDENCY or into PRI requests. -/
  | atsTranslationCompletion (fn page : Nat) (present : Bool)
  /-- R140. The host re-enables PRI for a function after a Response Failure, and the function's page requests may go out again. -/
  | priReenable (fn : Nat)
  deriving DecidableEq, Repr, Inhabited

end Sys2Proof
end

