-- ==== Sys2Proof/Machine/State.lean ====
section
/-!
DEFINITION. The whole state of the device as plain data, the reasons a step can stop, and the state after reset.
Objects that come and go (contexts, grids, gangs, teams, warps, operations, packets) live in sparse tables under number
keys; large arrays (registers of lanes, memories, tiles) are sparse tables that list no entry equal to the default.
Docstrings name the rule of spec/ that gives the item; "model" marks the model's own bookkeeping (notes/assumptions).
-/
namespace Sys2Proof.Machine

/-- Model: who executes the instruction that `exec` is given. -/
inductive Agent where
  /-- No agent: a device event. -/
  | none
  /-- The scalar stream of a warp (R21). -/
  | scalar (warp : Nat)
  /-- A split entry of a warp's running lane block (R164). -/
  | lane (warp entry : Nat)
  /-- The sequencer of a team (R384). -/
  | seq (team : Nat)
  deriving DecidableEq, Repr, Inhabited

/-- Model: what the outside world does to the device (INVENTORY, Host interface). -/
inductive Env where
  /-- The host writes one byte of its own memory, at a physical address of the host range (R71, R88). -/
  | hostWrite (pa : Nat) (v : Byte)
  /-- A main-memory line develops an error, correctable or not (R85); a CXL device returns a line with data poison (R74). -/
  | dramError (line : Nat) (ue : Bool)
  /-- A checked word of a team's memory develops an error (R67). -/
  | teamError (team word : Nat) (ue : Bool)
  /-- A barrier word of a team develops an error (R67). -/
  | barrierError (team word : Nat) (ue : Bool)
  /-- A checked word of a grid's scratchpad copy on a die develops an error (R67). -/
  | scratchError (grid die word : Nat) (ue : Bool)
  /-- A word of a warp's spill stack develops an error (R67). -/
  | spillError (warp word : Nat) (ue : Bool)
  /-- A word of a deque's ring, by its place in the ring, develops an error (R65, R67). -/
  | dequeError (deque word : Nat) (ue : Bool)
  /-- A column of a core's array mismatches its residue at the next K-step not yet so marked (R253). -/
  | residue (core : Nat)
  /-- A host page becomes present or absent at the host (R140). -/
  | hostPage (page : Nat) (present : Bool)
  /-- The host writes AtomicOp Requester Enable of a function (R77). -/
  | atomicOps (fn : Nat) (on : Bool)
  /-- The host writes the outstanding page-request allowance of a function (R140). -/
  | priAllowance (fn n : Nat)
  /-- Lighthouse programs a fabric route: label, link state, node and peer context tag (R175, R238). -/
  | route (index : Nat) (up : Bool) (lab : Label) (node tag : Nat)
  /-- Lighthouse programs an HDM decoder range (R71, R73): of one root port, or with the default two-way interleave on PA[12]. -/
  | hdm (base len : Nat) (port : Option Nat)
  /-- A peer's exchange for a collective arrives: its fields agree or not, and its source bytes (R329). -/
  | collPeer (ident : W64) (rank : Nat) (agrees : Bool) (bytes : List Byte)
  /-- A boot step fails on a die (R228). -/
  | bootFault (step die : Nat)
  /-- An image is written into Belvedere's flash: the one that boot extends into MSL0, MSL14 or MSL15, with the root key digest
  that its signature ends at, its version and its digest (R228). -/
  | flash (msl : Nat) (root : BitVec 512) (version : Nat) (digest : BitVec 512)
  /-- A die presents another certificate chain and measurement at the next boot: its register MSL1 to MSL13, the root key
  digest that the chain ends at, and its measurement digest (R229). -/
  | dieCert (msl : Nat) (root meas : BitVec 512)
  /-- A function core writes a mailbox entry with a reserved field set (R179). -/
  | mailboxReserved (fn : Nat)
  /-- Lighthouse copies a kernel's code into a protected context: page numbers with their bytes (R237). -/
  | measure (slot : Nat) (pages : List (Nat × List Byte))
  /-- An agent of a function other than a system warp or Lighthouse makes a memory-mapped access to a P field (R6). -/
  | pField (fn : Nat)
  /-- Lighthouse writes 1 to VALID of an entry of an error log, which frees it (R85). -/
  | logFree (inst index : Nat)
  deriving DecidableEq, Repr, Inhabited

/-- Model: one turn of the schedule (log 1). -/
inductive Turn where
  /-- The scalar issue selector of a quadrant issues (R201). -/
  | scalar (core quad : Nat)
  /-- The lane issue selector of a quadrant issues (R168, R201). -/
  | lane (core quad : Nat)
  /-- The sequencer of a team issues (R384). -/
  | seq (team : Nat)
  /-- A device event happens. -/
  | event (i : Instr)
  /-- An engine performs piece `i` of an issued operation (R105). -/
  | engine (op i : Nat)
  /-- The outside world acts. -/
  | env (e : Env)
  /-- Time passes, in nanoseconds (R48). -/
  | elapse (ns : Nat)
  /-- The next plain chip-scratchpad access of a warp is performed late (R106 note 6, log 12). -/
  | late (warp : Nat)
  /-- A late store of a warp is performed (R106 note 6, log 12). -/
  | drain (warp i : Nat)
  /-- A late load of a warp is performed (R106 note 6, log 12). -/
  | reload (warp i : Nat)
  /-- A chip-scratchpad load of a warp to come is performed now; `use` marks the next one as the load (R106 note 6, log 12). -/
  | early (warp : Nat) (use : Bool)
  deriving DecidableEq, Repr, Inhabited

/-- A 64-bit value with its data label (R50). -/
structure LVal where
  val : W64
  lab : Label
  deriving DecidableEq, Repr, Inhabited

/-- A 32-bit value with its data label (R50). -/
structure LWord where
  val : W32
  lab : Label
  deriving DecidableEq, Repr, Inhabited

/-- An on-chip memory with SECDED (R63, R67): bytes (default 0), labels per granule (default the context's starting
label), checked words with a latent correctable error, and words with an uncorrectable error, true once found. -/
structure Sram where
  bytes : Table Byte
  labs  : Table Label
  ce    : List Nat
  ue    : Table Bool
  deriving DecidableEq, Repr, Inhabited

/-- A latch of a split entry (R37): 64 bits per lane (default 0), label, valid bit, and the operation whose return
it awaits (R376). -/
structure Latch where
  vals  : Table W64
  lab   : Label
  valid : Bool
  await : Option Nat
  deriving DecidableEq, Repr, Inhabited

/-- The STATE field of a split entry (R164). -/
inductive EState where
  /-- 0: can issue. -/
  | ready
  /-- 1: waits at a reconvergence barrier. -/
  | rcvWait
  /-- 2: at the end of the block. -/
  | atLend
  /-- 3: waits for a free entry. -/
  | splitWait
  deriving DecidableEq, Repr, Inhabited

/-- A split entry (R164). Its table index is its key. -/
structure Entry where
  mask   : W64
  state  : EState
  parent : BitVec 4
  rcvn   : BitVec 3
  pc     : W32
  b0     : Latch
  b1     : Latch
  b2     : Latch
  b3     : Latch
  deriving DecidableEq, Repr, Inhabited

/-- A reconvergence barrier (R169). -/
structure Rcv where
  armed   : Bool
  exp     : W64
  arr     : W64
  rparent : BitVec 4
  deriving DecidableEq, Repr, Inhabited

/-- A queued lane block (R202): entry index and snapshot of k0–k15 (R35). -/
structure Block where
  entry : BitVec 20
  k     : Table LVal
  deriving DecidableEq, Repr, Inhabited

/-- An entry of the name queue (R161): its operation and, once that has retired, the name. -/
structure NameEnt where
  op   : Nat
  name : Option LVal
  deriving DecidableEq, Repr, Inhabited

/-- A trap due or pending in a warp, with its rank of R247 (1 scalar, 2 lane, 3 sequencer report, 4 retirement point,
5 PREEMPT, 6 DEBUG). -/
structure DueTrap where
  rank  : Nat
  code  : BitVec 8
  val   : W64
  lanes : W64
  entry : Option Nat
  pcL   : W32
  deriving DecidableEq, Repr, Inhabited

/-- A tile version that a master write of a warp reached (R156). -/
structure TileVer where
  ctx  : Nat
  view : Nat
  tile : Nat
  ver  : W32
  deriving DecidableEq, Repr, Inhabited

/-- One translation that an operation took at issue (R131): frame, destination frame while the page was in motion,
attributes (PTE bits [19:1]), POISON status, whether a `MAPEDIT` has replaced it since (R134), and whether the operation took it
to write (R149). -/
structure Trans where
  ppn    : Nat
  attr   : BitVec 19
  poison : Bool
  old    : Bool
  wr     : Bool
  deriving DecidableEq, Repr, Inhabited

/-- The plain chip-scratchpad accesses of one instruction (R108): the copy, in ascending order each agent (a lane, 64 for the scalar
stream) with its offset and bytes, and the label of what is stored. Of a load the bytes are so many zeros. A store so described that
its agents have issued and that is not yet performed stands in `Warp.late` (R106 note 6). -/
structure LateStore where
  grid  : Nat
  die   : Nat
  parts : List (Nat × Nat × List Byte)
  lab   : Label
  deriving DecidableEq, Repr, Inhabited

/-- The atomic operations on a word (R326, R371). -/
inductive Aop where
  /-- Read. -/
  | ld
  /-- Write. -/
  | st
  /-- Exchange. -/
  | swap
  /-- Compare and exchange. -/
  | cas
  /-- Wrapping addition. -/
  | add
  /-- Bitwise OR. -/
  | or
  /-- Unsigned minimum. -/
  | minn
  /-- Unsigned maximum. -/
  | maxn
  /-- Signed minimum. -/
  | min
  /-- Signed maximum. -/
  | max
  /-- f32 addition, rounded to nearest even. -/
  | fadd
  /-- f16 addition, rounded to nearest even. -/
  | hadd
  /-- bf16 addition, rounded to nearest even. -/
  | badd
  deriving DecidableEq, Repr, Inhabited

/-- A plain chip-scratchpad load that its agents have issued and that may yet be performed (R106 note 6): its accesses, the register
that it writes and whether a pair (none: a latch alone), the format of what it returns (the type of a lane load; of a scalar load
whether it extends the sign), and the split entry with the latch that holds the result. Of an atomic that changes its words (R371) also
what it makes of a word, and each agent's comparand; the bytes are then its operands. -/
structure LateLoad where
  acc   : LateStore
  reg   : Option Nat
  wide  : Bool
  ty    : BitVec 4
  sx    : Bool
  entry : Nat
  latch : Nat
  rmw   : Option (Aop × List W64)
  deriving DecidableEq, Repr, Inhabited

/-- A scratchpad copy as a load to come has read it (R106 note 6): grid and die, the copy, the ranges that the warp has since
loaded or stored, the agents that something has since ordered after it (lane numbers, 64 for the scalar stream), and whether the
next load takes it. -/
structure EarlyRead where
  grid : Nat
  die  : Nat
  copy : Sram
  seen : List (Nat × Nat)
  dead : List Nat
  use  : Bool
  deriving DecidableEq, Repr, Inhabited

/-- What a warp's scalar stream waits at (R304, R211). -/
inductive Wait where
  /-- Not waiting. -/
  | none
  /-- Waits at its instruction, which is examined again at each issue; `ext` marks an external wait. -/
  | hold (ext : Bool)
  /-- `BAR.SYNC` has arrived and waits with its token (R320). -/
  | barSync (token : W32)
  /-- Descheduled by `YIELDC` (R319): class, count, target. -/
  | yieldc (cls n : Nat) (target : W32)
  /-- `YIELD`: the warps that have still to issue, and the cycles since (R317). -/
  | yield (others : List Nat) (age : Nat)
  /-- `REFITF` waits for the tickets up to this one of its slot (R135). -/
  | refitf (slot ticket : Nat)
  /-- `MAPSYNC` waits for these accesses, each by its operation (or child grid) and its page, and for these warps, each at its
  `signal.wait` of that number, recorded at issue (R134). -/
  | mapsync (accs : List (Nat × Nat)) (sigs : List (Nat × Nat))
  /-- `signal.wait` waits on its word, with the translation that it took at issue (R131, R327); `ext` marks an external wait. -/
  | signal (va : Nat) (t : Trans) (ext : Bool)
  deriving DecidableEq, Repr, Inhabited

/-- What a trap frame remembers of its cause, to resume as R250 lays down. -/
inductive FrameKind where
  /-- An instruction fault of the scalar stream. -/
  | scalarFault
  /-- An instruction fault of a lane instruction in split entry `entry`. -/
  | laneFault (entry : Nat)
  /-- SOFT from `TRAP`. -/
  | softScalar
  /-- SOFT from `LTRAP` in split entry `entry`. -/
  | softLane (entry : Nat)
  /-- A retirement-point trap, PREEMPT, DEBUG or the report of a sequencer fault: resumes at the boundary. -/
  | boundary
  deriving DecidableEq, Repr, Inhabited

/-- A trap frame (R244): the saved scalar PC, split entries and reconvergence barriers; what the scalar stream waited at,
so that a `BAR.SYNC` that had arrived does not arrive again when `TRET` executes it again (log 19). -/
structure Frame where
  kind    : FrameKind
  pc      : W32
  entries : Table Entry
  rcv     : Table Rcv
  wait    : Wait
  deriving DecidableEq, Repr, Inhabited

/-- A resident warp (R16, R28). Registers are sparse over their starting values: v and p over 0, s and k over 0 with the
context's starting label, labels over that label. Key of a lane register: 64 × register + lane. `passed` names the
breakpoints that the warp has taken and passes once when it resumes (R193). `sigWaits` counts the waits at `signal.wait` that have
begun (R134). `lateNext`, `late`, `lateLd` and `early` hold the scratchpad accesses that are performed out of order (R106 note 6). -/
structure Warp where
  team    : Nat
  num     : Nat
  core    : Nat
  quad    : Nat
  slot    : Nat
  width   : Nat
  regs    : Nat
  lab0    : Label
  pc      : W32
  s       : Table LVal
  sPend   : List Nat
  k       : Table LVal
  kPend   : List Nat
  v       : Table W32
  vLab    : Table Label
  vPend   : List Nat
  p       : Table W64
  pLab    : Table Label
  spill   : Sram
  entries : Table Entry
  rcv     : Table Rcv
  rr      : Nat
  queue   : List Block
  running : Bool
  names   : List NameEnt
  pend    : Table (List Nat)
  fstat   : BitVec 7
  cause   : W64
  tval    : W64
  pcS     : W32
  pcL     : W32
  flmask  : W64
  handler : Bool
  frame   : Option Frame
  due     : List DueTrap
  wait    : Wait
  sAge    : Nat
  sRaised : Bool
  lWait   : Bool
  lAge    : Nat
  lRaised : Bool
  debug   : Bool
  passed  : List (Option Nat × W32)
  mwOps   : List Nat
  mwTiles : List TileVer
  sigWaits : Nat
  lateNext : Bool
  late    : List LateStore
  lateLd  : List LateLoad
  early   : Option EarlyRead
  deriving DecidableEq, Repr, Inhabited

/-- A barrier word (R172). -/
structure Bar where
  phase : W32
  exp   : BitVec 6
  count : BitVec 6
  deriving DecidableEq, Repr, Inhabited

/-- The states of an accumulator token (R41). -/
inductive Tok where
  /-- With the sequencer. -/
  | seq
  /-- Offered by `MTREL`. -/
  | offered
  /-- With the warps. -/
  | warps
  /-- Returned by `TOKREL`. -/
  | returned
  deriving DecidableEq, Repr, Inhabited

/-- The held A operand of the sequencer (R392): what agreement compares, the rows of element codes with their scale codes
(none: absent in the bitmap), and the label. -/
structure ALatch where
  m      : Nat
  kc     : Bool
  ty     : Nat
  blk    : Nat
  sc     : Bool
  sparse : Bool
  rows   : List (List (Option (Nat × Nat)))
  lab    : Label
  deriving DecidableEq, Repr, Inhabited

/-- The run state of a sequencer (R244, R252). -/
inductive SeqRun where
  /-- Issues instructions. -/
  | running
  /-- Executed `MHALT`. -/
  | halted
  /-- Stopped by a fault: cause code. -/
  | stopped (code : BitVec 8)
  deriving DecidableEq, Repr, Inhabited

/-- The sequencer of a team (R43). -/
structure Seqr where
  pc     : W32
  m      : Table LWord
  sc     : W32
  alatch : Option ALatch
  run    : SeqRun
  waits  : Bool
  deriving DecidableEq, Repr, Inhabited

/-- A resident team (R16, R56, R40). Tile element key: 4096 × tile + 64 × row + column. -/
structure Team where
  grid    : Nat
  num     : Nat
  gang    : Nat
  core    : Nat
  slot    : Nat
  warps   : List Nat
  lab0    : Label
  mem     : Sram
  bars    : Table Bar
  barErr  : Sram
  tiles   : Table W32
  tileLab : Table Label
  tokens  : Table Tok
  seqr    : Option Seqr
  mfstat  : BitVec 7
  noticed : Bool
  deriving DecidableEq, Repr, Inhabited

/-- A gang (R20, R206): its bound register, the copy in each core, the deliveries in flight, and its word 1 of the group
binding table (R174): role number to PTARGET. -/
structure Gang where
  grid   : Nat
  num    : Nat
  die    : Nat
  teams  : List Nat
  bound  : LVal
  copies : Table LVal
  flying : List (Nat × LVal)
  ptgt   : Table (BitVec 14)
  deriving DecidableEq, Repr, Inhabited

/-- A kernel header as Lighthouse read it (R302, R303). -/
structure Kernel where
  image   : Nat
  soff    : Nat
  slen    : Nat
  loff    : Nat
  llen    : Nat
  moff    : Nat
  mlen    : Nat
  tdoff   : Nat
  tlen    : Nat
  regs    : Nat
  width   : Nat
  warps   : Nat
  pair    : Bool
  idem    : Bool
  pers    : Bool
  prot    : Bool
  gpref   : Nat
  gfall   : Nat
  teammem : Nat
  spill   : Nat
  nargs   : Nat
  handler : W32
  deriving DecidableEq, Repr, Inhabited

/-- A lease range (R139): base, length, rights r, w, x; prefetch span in pages (R141). -/
structure Lease where
  base : Nat
  len  : Nat
  r    : Bool
  w    : Bool
  x    : Bool
  span : Nat
  deriving DecidableEq, Repr, Inhabited

/-- The hold causes of R198, in code order. -/
inductive HoldCause where
  /-- Some lease range is not ready. -/
  | residency
  /-- The function does not hold the slice. -/
  | slice
  /-- No die takes the scratchpad allocation. -/
  | scratch
  /-- No die has room for the whole gang. -/
  | gang
  /-- No die has room for one team. -/
  | room
  /-- The start waits for its operating point. -/
  | freq
  deriving DecidableEq, Repr, Inhabited

/-- A grid, from the acceptance of its launch to its retirement (R16, R64, R139, R174, R197). `resumeQ` holds the teams that
exited on their notices, each with its gang number and the die that it left (R209). `fcDie` is the die of its
first gang while its launch holds for operating points (R189); `complVa` is the completion word of a child with the translation that the `LAUNCH` took (R131, R330);
`before` names the operations that must retire before a child starts (R115). -/
structure Grid where
  ctx      : Nat
  gridId   : W64
  kernel   : Kernel
  trapvec  : W32
  args     : List W64
  leases   : List Lease
  revoked  : List Nat
  roles    : List W64
  scrUnits : Nat
  scratch  : Table Sram
  teams    : Nat
  nextTeam : Nat
  nGangs   : Nat
  live     : Nat
  relaunch : List (Nat × Nat)
  resumeQ  : List (Nat × Nat × Nat)
  nRelaunch : Nat
  prio     : Nat
  fc       : Nat
  holdBit  : Bool
  ready    : Bool
  started  : Bool
  cause    : Option HoldCause
  causeNs  : Nat
  bfNs     : Nat
  blocks   : Bool
  fcNs     : Nat
  fcDie    : Option Nat
  absent   : List Nat
  failed   : Option (BitVec 8)
  killed   : Option (BitVec 8)
  seqFail  : Option (BitVec 8)
  packet   : Option (Nat × Nat)
  complVa  : Option (Nat × Trans)
  before   : List Nat
  deriving DecidableEq, Repr, Inhabited

/-- A place in one of the memories (R51, R69): an offset of team memory, of the scratchpad, or a virtual address. -/
inductive Loc where
  /-- Team-memory offset. -/
  | team (off : Nat)
  /-- Chip-scratchpad offset. -/
  | scr (off : Nat)
  /-- Main-memory virtual address. -/
  | main (va : Nat)
  /-- Bytes that the command read at its issue (R375). -/
  | held (bs : List Byte)
  /-- The engine's own buffer, where the bytes of a move stand between their read and their write. -/
  | buf (off : Nat)
  deriving DecidableEq, Repr, Inhabited

/-- A piece of a move: the read of at most 8 aligned bytes into the buffer, or the write of at most 8 aligned bytes from it or
of held bytes (R76); the lanes whose row it belongs to, none for the scalar stream. -/
structure Piece where
  src  : Loc
  dst  : Loc
  len  : Nat
  lanes : List Nat
  deriving DecidableEq, Repr, Inhabited

/-- One read-modify-write of a word of main memory (R76): address, bytes, operation, comparand, operand, and the lane
that receives the old value. -/
structure Rmw where
  va   : Nat
  len  : Nat
  aop  : Aop
  cmp  : W64
  opnd : W64
  lane : Nat
  deriving DecidableEq, Repr, Inhabited

/-- The fields of a collective descriptor (R328). -/
structure CollDesc where
  ident : W64
  src   : Nat
  dst   : Nat
  reca  : Nat
  count : Nat
  rbase : Nat
  root  : Nat
  rank  : Nat
  ndev  : Nat
  red   : Nat
  dtype : BitVec 4
  op    : Nat
  routes : List Nat
  deriving DecidableEq, Repr, Inhabited

/-- What an engine operation does (R24). -/
inductive OpKind where
  /-- `COPY`, `COPY2D`, `GATH`, `SCAT`: pieces, and the status word's offset (R325). -/
  | move (ps : List Piece) (stat : Option Nat)
  /-- `SATOM`, `MATOM`, `SCAT.ADD`: read-modify-writes in order. -/
  | rmws (rs : List Rmw)
  /-- `DQPUSH` through a role on a deque key. -/
  | dqPush (role dq : Nat) (w : LVal)
  /-- `DQPOP` through a role on a deque key. -/
  | dqPop (role dq : Nat)
  /-- `DQSTEAL` on a deque key. -/
  | dqSteal (dq : Nat)
  /-- `REFILL` of split entry `entry`: the words already popped for lanes, in ascending lane order (R381). -/
  | refill (entry : Nat) (ws : List (Nat × LVal))
  /-- `NSTORE`: the pool, the source bytes, and the attempts that have failed (R160). -/
  | nstore (pool : Nat) (bytes : List Byte) (tries : Nat)
  /-- `RELQ`: pool, first unit, count (R162). -/
  | relq (pool first count : Nat)
  /-- `COLL`: descriptor, and what each peer rank has sent (R329). -/
  | coll (d : CollDesc) (got : Table (List Byte)) (bad aborted : Bool)
  /-- `VFENCE`: master writes still to retire and tile versions still to be fresh (R156). -/
  | vfence (ops : List Nat) (tiles : List TileVer)
  /-- `PLACE.req`: pages still to do, status address, counts done, skipped, aborted (R97). -/
  | place (pages : List Nat) (tier status nDone nSkip nAbort : Nat)
  /-- `SAVEV`: the image captured at issue (R337). -/
  | savev (va : Nat) (image : List Byte)
  /-- `SAVET`: image address, header, offset and bytes (R337). -/
  | savet (va : Nat) (head : List Byte) (off len : Nat) (seq : BitVec 48)
  /-- `RESTV`: image address, base, count, scalar option (R338). -/
  | restv (va base count : Nat) (scal : Bool)
  /-- `RESTT`: image address, offset, bytes (R338). -/
  | restt (va off len : Nat)
  deriving DecidableEq, Repr, Inhabited

/-- Where the return of an operation goes (R31). -/
inductive Ret where
  /-- Nowhere. -/
  | none
  /-- A scalar register. -/
  | s (d : Nat)
  /-- Lane registers of these lanes: v index, 64-bit pair or not, and the latch that awaits it with its entry. -/
  | v (d : Nat) (wide : Bool) (lanes : List Nat)
  /-- A latch of a split entry only (WBS = 1, R376). -/
  | latch
  deriving DecidableEq, Repr, Inhabited

/-- An engine operation between its issue and its retirement point (R105, R216): `lanes` are the lanes that issued it,
none for the scalar stream; `order` is 0 `.rlx`, 1 acquire, 2 release, 3 both (R103); `rows` are the rows of a gather, each with its
address, length and place in the buffer (R374). `buf` holds the bytes that a move has read,
none where a byte was delivered without data; `wrote` the ranges that it wrote under a translation with WATCH (R149). -/
structure Op where
  warp   : Nat
  team   : Nat
  grid   : Nat
  ctx    : Nat
  die    : Nat
  core   : Nat
  cls    : Nat
  kind   : OpKind
  ret    : Ret
  lab    : Label
  trans  : Table Trans
  todo   : List Nat
  got    : Table LVal
  buf    : Table (Option (Byte × Label))
  wrote  : List (Nat × Nat)
  staleN : Nat
  done   : Bool
  trap   : Option (BitVec 8 × W64)
  slot   : Option (Nat × Nat)
  lanes  : List Nat
  order  : Nat
  rows   : List (Nat × Nat × Nat)
  deriving DecidableEq, Repr, Inhabited

/-- A segment descriptor (R126). -/
structure Seg where
  valid  : Bool
  susp   : Bool
  vstart : Nat
  seq    : BitVec 16
  slope  : BitVec 3
  pbase  : Nat
  count  : Nat
  attr   : BitVec 19
  deriving DecidableEq, Repr, Inhabited

/-- The STATE field of an exception entry (R127). -/
inductive ExcState where
  /-- 0. -/
  | mapped
  /-- 1. -/
  | unmapped
  /-- 2. -/
  | inMotion
  /-- 3. -/
  | poison
  deriving DecidableEq, Repr, Inhabited

/-- An exception entry of one die's table (R127). -/
structure Exc where
  fix   : Bool
  state : ExcState
  vpn   : Nat
  ctx   : Nat
  ppn   : Nat
  attr  : BitVec 19
  dppn  : Nat
  deriving DecidableEq, Repr, Inhabited

/-- The state of a view tile (R153). -/
structure VTile where
  mv       : W32
  ft       : W32
  busy     : Bool
  poisoned : Bool
  queued   : Bool
  deriving DecidableEq, Repr, Inhabited

/-- A registered view (R144): descriptor, shard addresses, tiles (key τ in row order), sweep mark and position, and the
pages revoked from its lease (R152). `live` is false from the acceptance of its registration to its completion (R147). -/
structure View where
  mva    : Nat
  mld    : Nat
  ct     : Nat
  rt     : Nat
  dld    : Nat
  tfmt   : BitVec 4
  tiled  : Bool
  mbf16  : Bool
  policy : BitVec 2
  clip   : Bool
  clipp  : Nat
  clipf  : Nat
  shards : List (Nat × Nat)
  tiles  : Table VTile
  mark   : Bool
  revoked : List Nat
  live   : Bool
  deriving DecidableEq, Repr, Inhabited

/-- A nameless pool (R158): units in use and units retired. -/
structure Pool where
  base    : Nat
  pages   : Nat
  wfull   : Bool
  usz     : Nat
  used    : List Nat
  retired : List Nat
  deriving DecidableEq, Repr, Inhabited

/-- The pre-emption states of a context (R207) and its removal (R256). -/
inductive Pre where
  /-- Runs. -/
  | run
  /-- Drains; the nanoseconds that the deadline timer has still to run (R207, R210). -/
  | drain (left : Nat)
  /-- Saved. -/
  | saved
  /-- Being removed: CAUSE, nanoseconds since, and whether an FLR caused it. -/
  | removing (cause : BitVec 8) (ns : Nat) (flr : Bool)
  deriving DecidableEq, Repr, Inhabited

/-- A breakpoint (R193): kernel image, stream (lane or scalar), and PC. -/
structure Brk where
  image : Nat
  lane  : Bool
  pc    : W32
  deriving DecidableEq, Repr, Inhabited

/-- A context (R49, R193, R226). `refitQ` holds the pages that wait for a refit with their tickets (R133, R136), `toFold` those
whose window no refit has read since (R135). -/
structure Ctx where
  fn       : Nat
  label    : Label
  prot     : Bool
  mfctx    : Bool
  sys      : Bool
  root     : Nat
  keySlot  : Nat
  savectr  : W64
  saveseq  : BitVec 48
  code     : BitVec 512
  mutableC : Bool
  nodes    : List Nat
  nodePool : List Nat
  codePgs  : List Nat
  segs     : List Seg
  refitCtr : BitVec 16
  refitQ   : List (Nat × Nat)
  toFold   : List (Nat × Nat)
  tickets  : Nat
  folded   : Nat
  views    : Table View
  pools    : Table Pool
  poolLast : Table Nat
  dqs      : List Nat
  dqArea   : Table Nat
  pre      : Pre
  sliced   : Bool
  wdogNs   : Nat
  dbg      : Option (Table Brk)
  children : Nat
  invalid  : Bool
  deriving DecidableEq, Repr, Inhabited

/-- A deque descriptor and its ring (R203), with the words of the ring that have a latent correctable error and those with an
uncorrectable one, true once found (R67); its key is 4,096 × die + physical deque. -/
structure Deque where
  log2cap : Nat
  owner   : Option (W64 × W32)
  ctx     : Nat
  base    : Nat
  bottom  : W32
  top     : W32
  ring    : Table LVal
  ce      : List Nat
  ue      : Table Bool
  deriving DecidableEq, Repr, Inhabited

/-- A migration record (R92), from the claim to the last acknowledgement. While `cut` holds, the tombstone stands at src:
`tomb` names, in arrival order, the operations whose accesses it forwards to dst (R93). -/
structure Mig where
  ctx  : Nat
  vpn  : Nat
  src  : Nat
  dst  : Nat
  c    : BitVec 256
  d    : BitVec 256
  pass : Nat
  pos  : Nat
  ue   : Bool
  cut  : Bool
  tomb : List Nat
  op   : Option Nat
  deriving DecidableEq, Repr, Inhabited

/-- A rebuild in an Orangery unit (R151): the tile, the version m, the converted bytes with their addresses, the data
label, and whether the unit only holds the entry while another rebuilds the tile. -/
structure Rebuild where
  ctx   : Nat
  view  : Nat
  tile  : Nat
  m     : W32
  out   : List (Nat × Byte)
  lab   : Label
  held  : Bool
  deriving DecidableEq, Repr, Inhabited

/-- An entry of an error log (R85). -/
structure ErrEntry where
  ue   : Bool
  src  : Nat
  line : Nat
  ts   : W64
  sym  : BitVec 10
  deriving DecidableEq, Repr, Inhabited

/-- A scrubber (R82, R83): lines of its pass done, step, and TIME when the pass began. -/
structure Scrub where
  pos   : Nat
  step  : Nat
  start : W64
  deriving DecidableEq, Repr, Inhabited

/-- A sweep range of a rotating key slot (R81). -/
structure Sweep where
  base  : Nat
  limit : Nat
  ptr   : Nat
  deriving DecidableEq, Repr, Inhabited

/-- A loaded key slot (R81, R236): identifiers of the at-rest key, of the next one while rotating, and of the save
key, the recorded ranges of the slot's off-package frames (base and limit in bytes), the sweeps of a rotation, and how
often 2^40 saves have renewed the save key (R240). -/
structure KeySlot where
  xts    : Nat
  next   : Option Nat
  save   : Nat
  ranges : List (Nat × Nat)
  sweeps : List Sweep
  epoch  : Nat
  deriving DecidableEq, Repr, Inhabited

/-- Main memory and its tiers (R69). Bytes by physical address (default 0). An error log holds its entries oldest first, each with
its place of 64 (R85). `owed` names frames that Lighthouse has still to zero before their next use, `zeroed` the LPDDR and CXL frames
that it has zeroed since the last device reset, which every other of those frames is owed too (R235). -/
structure Mem where
  bytes   : Table Byte
  sealed  : Table Nat
  poison  : List Nat
  listed  : List Nat
  latent  : Table Bool
  logs    : Table (List (Nat × ErrEntry))
  refs    : Table Nat
  owed    : List Nat
  zeroed  : List Nat
  keys    : Table KeySlot
  nextKey : Nat
  hdm     : List (Nat × Nat × Option Nat)
  down    : List Nat
  scrubs  : Table Scrub
  hot     : Table Nat
  sampled : Table Nat
  sample  : Table Nat
  migs    : Table Mig
  pressH  : Bool
  pressL  : Bool
  deriving DecidableEq, Repr, Inhabited

/-- The translation tables shared by the contexts and the host-page state (R120, R140): pages that the host grants, pages
confirmed by ATS, page-request groups outstanding (key 65,536 × function + group: grid and pages), allowances, functions
whose page requests have stopped, and those with AtomicOps enabled. Key of an exception entry: 8 × (16,384 × die + set)
+ way. -/
structure Xlat where
  exc      : Table Exc
  host     : List Nat
  present  : List Nat
  asked    : Table (Nat × List Nat)
  ats      : List (Nat × Nat)
  allow    : Table Nat
  priStop  : List Nat
  atomics  : List Nat
  deriving DecidableEq, Repr, Inhabited

/-- A queue of a function (R180, R188): PEND holds the nanoseconds since it was set; `period` counts enables. -/
structure Queue where
  base     : W64
  en       : Bool
  ict      : BitVec 16
  vec      : BitVec 11
  log2n    : BitVec 6
  tail     : BitVec 16
  head     : BitVec 16
  inflight : BitVec 16
  pend     : Option Nat
  period   : Nat
  deriving DecidableEq, Repr, Inhabited

/-- The progress of a packet (R181, R187). -/
inductive PStage where
  /-- Fetched; a request waits in the mailbox. -/
  | fetched
  /-- Lighthouse has validated the request (R179). -/
  | valid
  /-- Started; its work runs. -/
  | started
  /-- Its work has finished; it retires next. -/
  | finished
  deriving DecidableEq, Repr, Inhabited

/-- A sub-launch of a bundle (R184): what it is, and once it has ended its status, cause and detail. -/
inductive SubKind where
  /-- An empty slot. -/
  | empty
  /-- GRID: the key of its grid. -/
  | grid (g : Nat)
  /-- COPY: list address, count, next descriptor. -/
  | copy (va n next : Nat)
  /-- COLL: its operation. -/
  | coll (va : Nat) (op : Nat)
  /-- REFRESH: view and versions still awaited (R157). -/
  | refresh (view : Nat) (tiles : List TileVer)
  deriving DecidableEq, Repr, Inhabited

/-- A sub-launch with its outcome. -/
structure Sub where
  kind   : SubKind
  ended  : Option (Nat × BitVec 8)
  detail : W64
  deriving DecidableEq, Repr, Inhabited

/-- A packet from its fetch to its retirement (R182). -/
structure Packet where
  fn     : Nat
  q      : Nat
  period : Nat
  words  : List W64
  stage  : PStage
  status : Nat
  cause  : BitVec 8
  slot   : Nat
  detail : W64
  subs   : List Sub
  tiles  : List TileVer
  ticket : Nat
  syncOps : List Nat
  syncAccs : List (Nat × Nat)
  syncSigs : List (Nat × Nat)
  newView : Bool
  silent : Bool
  deriving DecidableEq, Repr, Inhabited

/-- A mailbox entry of a function core (R179): its packet, a reserved field set, and nanoseconds unanswered. -/
structure Mail where
  packet : Nat
  bad    : Bool
  ns     : Nat
  deriving DecidableEq, Repr, Inhabited

/-- A message that the device sends to the outside. -/
inductive Out where
  /-- An MSI-X message: function and vector (R188, R194). -/
  | msix (fn : Nat) (vec : BitVec 11)
  /-- A page-request group: function, group, pages (R140). -/
  | pageRequest (fn group : Nat) (pages : List Nat)
  /-- An ATS translation request for a page (R140). -/
  | atsRequest (fn page : Nat)
  /-- COLL_ABORT to a peer's route (R213). -/
  | collAbort (route : Nat) (ident : W64)
  /-- An ATS invalidation completion (R140). -/
  | atsDone (fn page : Nat)
  /-- SAVED told to the owning function's mailbox (R258). -/
  | saved (fn slot : Nat)
  /-- An SPDM answer: function, request, words (R232). -/
  | spdm (fn : Nat) (req : Nat) (ws : List (BitVec 512))
  deriving DecidableEq, Repr, Inhabited

/-- The run state of Belvedere (R192). -/
inductive Run where
  /-- 0. -/
  | boot
  /-- 1. -/
  | run
  /-- 2. -/
  | halt
  deriving DecidableEq, Repr, Inhabited

/-- The life-cycle states (R233). -/
inductive LifeCycle where
  /-- 0. -/
  | manufacture
  /-- 1. -/
  | development
  /-- 2. -/
  | production
  /-- 3. -/
  | rma
  /-- 4. -/
  | decommissioned
  deriving DecidableEq, Repr, Inhabited

/-- The management interface and the device-wide registers; `cmd` is the command block that MDOOR read (R193), (R191 to R195, R84, R91, R141, R214, R224, R225). -/
structure Mgmt where
  run      : Run
  cmdBusy  : Bool
  bootFail : Bool
  failStep : BitVec 8
  failDie  : BitVec 8
  mevBase  : W64
  mevCfg   : W64
  mevTail  : BitVec 16
  dropped  : BitVec 16
  mevHead  : BitVec 16
  mcmd     : Table W64
  cmd      : Table W64
  mresult  : W64
  slice    : Nat
  weight   : Table Nat
  holder   : Nat
  sliceNs  : Nat
  sched    : W64
  scrub    : W64
  tide     : W64
  pfctl    : Table W64
  pmsel    : Table W64
  ctrctl   : W64
  decayNs  : Nat
  deriving DecidableEq, Repr, Inhabited

/-- An image in Belvedere's flash, or what a die presents: the root key digest that its signature ends at, its version, its digest
(R228, R229). -/
structure Image where
  root    : BitVec 512
  version : Nat
  digest  : BitVec 512
  deriving DecidableEq, Repr, Inhabited

/-- A certificate: the certified public key and the key that signed it (R231). -/
structure Cert where
  key    : BitVec 512
  signer : BitVec 512
  deriving DecidableEq, Repr, Inhabited

/-- Belvedere (R226 to R233): fuses, measurement registers (default 0), identity seeds, link keys with nonce counters,
SPDM sessions, a boot fault to come, and in its flash the retirement map (R222), the images under their registers 0, 14 and 15
and what the dies present under theirs, 1 to 13 (R228, R229), and the DeviceID certificate; the Alias certificate (R231). -/
structure Belv where
  uds     : BitVec 256
  lc      : LifeCycle
  vroot   : BitVec 512
  fwsvn   : W64
  msl     : Table (BitVec 512)
  ids     : Option (BitVec 256 × BitVec 256)
  links   : Table (Nat × W64)
  down    : List Nat
  spdm    : Table Nat
  fault   : Option (Nat × Nat)
  spares  : Table Nat
  flash   : Table Image
  devCert : Cert
  aliasCert : Option Cert
  deriving DecidableEq, Repr, Inhabited

/-- The operating point of a die (R189), in MHz: the clock it runs, the cap of thermal protection, and nanoseconds since
its target changed. -/
structure Power where
  mhz : Nat
  cap : Option Nat
  ns  : Nat
  deriving DecidableEq, Repr, Inhabited

/-- A fabric route (R175, R213, R238). -/
structure Route where
  up   : Bool
  lab  : Label
  node : Nat
  tag  : Nat
  deriving DecidableEq, Repr, Inhabited

/-- Work on the device: warps, teams, gangs, grids and engine operations under their keys, the distributor's order list
by acceptance, and the keys of operations whose issuer is gone (R117). -/
structure Work where
  warps : Table Warp
  teams : Table Team
  gangs : Table Gang
  grids : Table Grid
  ops   : Table Op
  order : List Nat
  nextGrid : W64
  deriving DecidableEq, Repr, Inhabited

/-- The command side (R177): queues (key 16 × function + queue), packets, mailboxes. -/
structure Front where
  queues  : Table Queue
  packets : Table Packet
  mail    : Table (List Mail)
  deriving DecidableEq, Repr, Inhabited

/-- The whole device. -/
structure State where
  agenda  : List Turn
  cur     : Agent
  cands   : List Nat
  freeCtr : Nat
  nextId  : Nat
  outbox  : List Out
  time    : W64
  cycles  : Table Nat
  mem     : Mem
  xlat    : Xlat
  work    : Work
  ctxs    : Table Ctx
  deques  : Table Deque
  units   : Table Rebuild
  stale   : List (Nat × Nat × Nat)
  front   : Front
  mgmt    : Mgmt
  belv    : Belv
  power   : Table Power
  overPow : Bool
  routes  : Table Route
  ctrs    : Table W64
  residue : Table Nat
  deriving DecidableEq, Repr, Inhabited

/-- The reasons the machine can stop with a fault: none. Every fault of the spec is a trap that the device takes and goes
on from (R251), and every encoding is an instruction or raises ILLEGAL (R292), so no step ends in a fault. -/
inductive Fault where
  deriving DecidableEq, Repr

/-- The reasons a step can be refused. -/
inductive Refusal where
  /-- Raised by `exec` for an instruction that the model does not give a meaning; safe: nothing is claimed of it. -/
  | notModelled (mnemonic : String)
  deriving DecidableEq, Repr

/-- The outcome of a step. -/
abbrev Res := Host.Outcome State Fault Refusal

/-- Main memory after a cold reset (R234, R88): every byte 0, no key loaded. -/
def Mem.reset : Mem :=
  { bytes := [], sealed := [], poison := [], listed := [], latent := [], logs := [], refs := [], owed := [], zeroed := [], keys := [],
    nextKey := 1, hdm := [], down := [], scrubs := [], hot := [], sampled := [], sample := [], migs := [], pressH := false,
    pressL := false }

/-- The translation tables after reset: empty (R129); no host page present, AtomicOps off (log 7, 8). -/
def Xlat.reset : Xlat := { exc := [], host := [], present := [], asked := [], ats := [], allow := [], priStop := [], atomics := [] }

/-- A queue's registers at reset (R180). -/
def Queue.reset : Queue :=
  { base := 0, en := false, ict := 50, vec := 0, log2n := 6, tail := 0, head := 0, inflight := 0, pend := none,
    period := 0 }

/-- No work (R234). -/
def Work.reset : Work :=
  { warps := [], teams := [], gangs := [], grids := [], ops := [], order := [], nextGrid := 1 }

/-- The management registers at reset (R84, R91, R190 to R192, R194, R214, R225). -/
def Mgmt.reset : Mgmt :=
  { run := .boot, cmdBusy := false, bootFail := false, failStep := 0, failDie := 0, mevBase := 0, mevCfg := 0,
    mevTail := 0, dropped := 0, mevHead := 0, mcmd := [], cmd := [], mresult := 0, slice := 4, weight := [], holder := 0,
    sliceNs := 0, sched := 0x000007D001F41408, scrub := 0x000000005A002001, tide := 0x000040020A050401,
    pfctl := [], pmsel := [], ctrctl := 0, decayNs := 0 }

/-- Belvedere at reset: registers 0, keys erased (R230, R234); the fuses' values are log 11's. -/
def Belv.reset : Belv :=
  { uds := 0, lc := .production, vroot := 0, fwsvn := 0, msl := [], ids := none, links := [], down := [], spdm := [],
    fault := none, spares := [], flash := [], devCert := ⟨0, 0⟩, aliasCert := none }

/-- The device right after a cold reset, before the boot sequence (R27, R228, R234): every die held in reset, MSTATUS.RUN
= BOOT, memory zero, no context, every register at its reset value. -/
def State.reset : State :=
  { agenda := [], cur := .none, cands := [], freeCtr := 0, nextId := 1, outbox := [], time := 0, cycles := [], mem := Mem.reset,
    xlat := Xlat.reset, work := Work.reset, ctxs := [], deques := [], units := [], stale := [],
    front := { queues := [], packets := [], mail := [] }, mgmt := Mgmt.reset, belv := Belv.reset, power := [],
    overPow := false, routes := [], ctrs := [], residue := [] }

end Sys2Proof.Machine
end

