-- ==== Sys2Proof/Machine/Table.lean ====
section
/-!
DEFINITION. Operations on sparse tables: entries stand by ascending key, no key twice. A table with a default value lists
no entry equal to it, so equal contents are equal data. Also sorted sets of numbers, and small list helpers.
-/
namespace Sys2Proof.Machine

/-- Looks a key up. -/
def tFind {α : Type} (t : Table α) (k : Nat) : Option α :=
  match t with
  | [] => none
  | (j, x) :: r => if j = k then some x else tFind r k

/-- Puts an entry, replacing the one of its key. -/
def tPut {α : Type} (t : Table α) (k : Nat) (x : α) : Table α :=
  match t with
  | [] => [(k, x)]
  | (j, y) :: r => if j = k then (k, x) :: r else if k < j then (k, x) :: (j, y) :: r else (j, y) :: tPut r k x

/-- Removes the entry of a key. -/
def tDel {α : Type} (t : Table α) (k : Nat) : Table α := t.filter fun e => e.1 != k

/-- Reads a sparse array with a default. -/
def tGet {α : Type} (t : Table α) (d : α) (k : Nat) : α := (tFind t k).getD d

/-- Writes a sparse array with a default, in canonical form. -/
def tSet {α : Type} [DecidableEq α] (t : Table α) (d : α) (k : Nat) (x : α) : Table α :=
  if x = d then tDel t k else tPut t k x

/-- Applies `f` to the entry of a key, if there is one. -/
def tMod {α : Type} (t : Table α) (k : Nat) (f : α → α) : Table α :=
  match t with
  | [] => []
  | (j, y) :: r => if j = k then (j, f y) :: r else (j, y) :: tMod r k f

/-- The keys are strictly rising and none of the values is the default. -/
def tWf {α : Type} [DecidableEq α] (d : α) (t : Table α) : Bool :=
  match t with
  | [] => true
  | [(_, x)] => x != d
  | (j, x) :: (k, y) :: r => decide (j < k) && x != d && tWf d ((k, y) :: r)

/-- The keys are strictly rising. -/
def tSorted {α : Type} (t : Table α) : Bool :=
  match t with
  | [] => true
  | [_] => true
  | (j, _) :: (k, y) :: r => decide (j < k) && tSorted ((k, y) :: r)

/-- Removes every key of a range from a table. -/
def tDelRange {α : Type} (t : Table α) (lo n : Nat) : Table α :=
  t.filter fun e => !(decide (lo ≤ e.1) && decide (e.1 < lo + n))

/-- Maps the values. -/
def tMap {α β : Type} (t : Table α) (f : Nat → α → β) : Table β := t.map fun e => (e.1, f e.1 e.2)

/-- Adds a number to a sorted set. -/
def setAdd (l : List Nat) (k : Nat) : List Nat :=
  match l with
  | [] => [k]
  | j :: r => if j = k then l else if k < j then k :: l else j :: setAdd r k

/-- Removes a number from a list. -/
def setDel (l : List Nat) (k : Nat) : List Nat := l.filter (· != k)

/-- Membership in a list of numbers. -/
def memb (l : List Nat) (k : Nat) : Bool := l.any (· == k)

/-- The smallest number below `n` (counted from `i`) that `p` accepts. -/
def findNat (p : Nat → Bool) : Nat → Nat → Option Nat
  | 0, _ => none
  | n + 1, i => if p i then some i else findNat p n (i + 1)

/-- The numbers i, i+1, …, i+n−1. -/
def rangeFrom (i n : Nat) : List Nat := (List.range n).map (i + ·)

/-- Removes the first element that `p` accepts. -/
def dropFirst {α : Type} (p : α → Bool) : List α → List α
  | [] => []
  | x :: r => if p x then r else x :: dropFirst p r

/-- Replaces the element at a position. -/
def setAt {α : Type} : List α → Nat → α → List α
  | [], _, _ => []
  | _ :: r, 0, x => x :: r
  | y :: r, n + 1, x => y :: setAt r n x

/-- Inserts into a list sorted by a key, after equal keys. -/
def insBy {α : Type} (key : α → Nat) (x : α) : List α → List α
  | [] => [x]
  | y :: r => if key x < key y then x :: y :: r else y :: insBy key x r

/-- Sorts by a key, keeping the order of equal keys. -/
def sortBy {α : Type} (key : α → Nat) : List α → List α
  | [] => []
  | x :: r => insBy' key x (sortBy key r)
where
  /-- Inserts before equal keys. -/
  insBy' (key : α → Nat) (x : α) : List α → List α
  | [] => [x]
  | y :: r => if key y < key x then y :: insBy' key x r else x :: y :: r

/-- The element with the smallest key, the first of equals. -/
def argMin {α : Type} (key : α → Nat) : List α → Option α
  | [] => none
  | x :: r => match argMin key r with
    | none => some x
    | some y => if key y < key x then some y else some x

end Sys2Proof.Machine
end

