-- ==== Sys2Proof/Machine/Bits.lean ====
section
/-!
DEFINITION. Bit fields, sign extension and byte order (R2, R8 to R10).
-/
namespace Sys2Proof.Machine

/-- Bits [hi:lo] of a number. -/
def fld (x hi lo : Nat) : Nat := x / 2 ^ lo % 2 ^ (hi + 1 - lo)

/-- Bit i of a number. -/
def bitAt (x i : Nat) : Bool := x / 2 ^ i % 2 == 1

/-- A truth value as a number. -/
def b2n (b : Bool) : Nat := if b then 1 else 0

/-- The value of the low w bits read as two's complement. -/
def sextI (x w : Nat) : Int := if bitAt x (w - 1) && decide (w ≠ 0) then ((x % 2 ^ w : Nat) : Int) - ((2 ^ w : Nat) : Int) else ((x % 2 ^ w : Nat) : Int)

/-- An exact integer narrowed to w bits. -/
def truncI (x : Int) (w : Nat) : Nat := (x % ((2 ^ w : Nat) : Int)).toNat

/-- An exact integer narrowed to a 64-bit word. -/
def w64 (x : Int) : W64 := BitVec.ofInt 64 x

/-- The n low bytes of a number, lowest first (R2). -/
def toBytes : Nat → Nat → List Byte
  | 0, _ => []
  | n + 1, x => BitVec.ofNat 8 x :: toBytes n (x / 256)

/-- The number that bytes hold, lowest first (R2). -/
def ofBytes : List Byte → Nat
  | [] => 0
  | b :: r => b.toNat + 256 * ofBytes r

/-- The smallest multiple of m that is at least x. -/
def roundUp (x m : Nat) : Nat := (x + m - 1) / m * m

/-- The lanes of a mask in ascending order, below a width (R165). -/
def lanesOf (m : W64) (width : Nat) : List Nat := (List.range width).filter fun i => m.getLsbD i

/-- The mask of a list of lanes. -/
def maskOf (l : List Nat) : W64 := l.foldl (fun m i => m ||| (1 <<< i)) 0

/-- All lanes of a warp of this width. -/
def fullMask (width : Nat) : W64 := BitVec.ofNat 64 (2 ^ width - 1)

/-- Splits a list into its first n elements and the rest, as a list of chunks. -/
def chunks {α : Type} (n : Nat) : Nat → List α → List (List α)
  | 0, _ => []
  | f + 1, l => if l.isEmpty then [] else l.take n :: chunks n f (l.drop n)

end Sys2Proof.Machine
end

