-- ==== Sys2Proof/Machine/Num.lean ====
section
/-!
DEFINITION. Numbers and arithmetic (R260 to R275): the element formats, exact values, the one rounding function, exact
sums and products, the correctly rounded functions of R355, scaled blocks and matrix steps. An exact value is ±m × 2^e;
where a result is irrational, its last bit marks that the value lies strictly beyond the bits above it (log 22).
-/
namespace Sys2Proof.Machine

/-! ### Flags (R46) -/

/-- The flags of FSTAT and MFSTAT. -/
abbrev Flags := BitVec 7
/-- Inexact. -/
def fNX : Flags := 1
/-- Underflow. -/
def fUF : Flags := 2
/-- Overflow. -/
def fOF : Flags := 4
/-- Division by zero. -/
def fDZ : Flags := 8
/-- Invalid. -/
def fNV : Flags := 16
/-- Saturated. -/
def fSAT : Flags := 32
/-- Nonfinite block. -/
def fNFB : Flags := 64

/-! ### Formats (R260, R261) -/

/-- A floating-point format: width, mantissa bits, bias, the magnitude code of its largest finite value, that of its
canonical NaN if it has one, and whether it has Inf. -/
structure FFmt where
  w    : Nat
  mb   : Nat
  bias : Nat
  top  : Nat
  nan  : Option Nat
  inf  : Bool
  deriving DecidableEq, Repr

/-- f32. -/
def fmtF32 : FFmt := { w := 32, mb := 23, bias := 127, top := 0x7F7FFFFF, nan := some 0x7FC00000, inf := true }
/-- f16. -/
def fmtF16 : FFmt := { w := 16, mb := 10, bias := 15, top := 0x7BFF, nan := some 0x7E00, inf := true }
/-- bf16. -/
def fmtBf16 : FFmt := { w := 16, mb := 7, bias := 127, top := 0x7F7F, nan := some 0x7FC0, inf := true }
/-- e4m3. -/
def fmtE4m3 : FFmt := { w := 8, mb := 3, bias := 7, top := 0x7E, nan := some 0x7F, inf := false }
/-- e5m2. -/
def fmtE5m2 : FFmt := { w := 8, mb := 2, bias := 15, top := 0x7B, nan := some 0x7E, inf := true }
/-- e3m2. -/
def fmtE3m2 : FFmt := { w := 6, mb := 2, bias := 3, top := 0x1F, nan := none, inf := false }
/-- e2m3. -/
def fmtE2m3 : FFmt := { w := 6, mb := 3, bias := 1, top := 0x1F, nan := none, inf := false }
/-- e2m1. -/
def fmtE2m1 : FFmt := { w := 4, mb := 1, bias := 1, top := 0x7, nan := none, inf := false }

/-- An element type (R260, R261): floating-point, or an integer with its width and sign. -/
inductive NTy where
  /-- A floating-point format. -/
  | flt (f : FFmt)
  /-- An integer. -/
  | int (w : Nat) (signed : Bool)
  deriving DecidableEq, Repr

/-- The type of a type code. -/
def nty (code : Nat) : NTy :=
  match code with
  | 0 => .int 32 true
  | 1 => .int 32 false
  | 2 => .int 64 true
  | 3 => .int 64 false
  | 4 => .flt fmtF32
  | 5 => .flt fmtF16
  | 6 => .flt fmtBf16
  | 7 => .flt fmtE4m3
  | 8 => .flt fmtE5m2
  | 9 => .flt fmtE3m2
  | 10 => .flt fmtE2m3
  | 11 => .flt fmtE2m1
  | 12 => .int 8 true
  | 13 => .int 8 false
  | 14 => .int 16 true
  | _ => .int 16 false

/-- The width of a type in bits. -/
def NTy.width : NTy → Nat
  | .flt f => f.w
  | .int w _ => w

/-- The floating-point format of a type code; f32 for a code that names none. -/
def fltOf (code : Nat) : FFmt :=
  match nty code with
  | .flt f => f
  | .int _ _ => fmtF32

/-- The least exponent of a normal value. -/
def FFmt.emin (f : FFmt) : Int := 1 - (f.bias : Int)

/-- The exponent of the largest finite value. -/
def FFmt.emax (f : FFmt) : Int := ((f.top / 2 ^ f.mb : Nat) : Int) - (f.bias : Int)

/-! ### Exact values -/

/-- An exact value: NaN (signalling or not), an infinity, or ±m × 2^e, zero with its sign. -/
inductive Num where
  /-- NaN. -/
  | nan (sig : Bool)
  /-- ±Inf. -/
  | inf (neg : Bool)
  /-- ±m × 2^e. -/
  | fin (neg : Bool) (m : Nat) (e : Int)
  deriving DecidableEq, Repr, Inhabited

/-- An integer as a value. -/
def Num.ofInt (x : Int) : Num := .fin (decide (x < 0)) x.natAbs 0

/-- 1. -/
def Num.one : Num := .fin false 1 0

/-- NaN. -/
def Num.isNan : Num → Bool
  | .nan _ => true
  | _ => false
/-- A signalling NaN. -/
def Num.isSig : Num → Bool
  | .nan s => s
  | _ => false
/-- ±Inf. -/
def Num.isInf : Num → Bool
  | .inf _ => true
  | _ => false
/-- ±0. -/
def Num.isZero : Num → Bool
  | .fin _ m _ => m == 0
  | _ => false
/-- The sign. -/
def Num.sign : Num → Bool
  | .nan _ => false
  | .inf n => n
  | .fin n _ _ => n
/-- The value with the other sign. -/
def Num.neg : Num → Num
  | .nan s => .nan s
  | .inf n => .inf (!n)
  | .fin n m e => .fin (!n) m e
/-- NV if one of the operands is a signalling NaN (R264). -/
def sigFlag (xs : List Num) : Flags := if xs.any Num.isSig then fNV else 0

/-- The value of a code of a floating-point format (R260). -/
def FFmt.value (f : FFmt) (code : Nat) : Num :=
  let c := code % 2 ^ f.w
  let neg := c / 2 ^ (f.w - 1) == 1
  let mag := c % 2 ^ (f.w - 1)
  let m := mag % 2 ^ f.mb
  let e := mag / 2 ^ f.mb
  if f.inf ∧ mag > f.top then
    (if m = 0 then .inf neg else .nan (decide (f.w ≠ 8 ∧ m < 2 ^ (f.mb - 1))))
  else if f.nan = some mag then .nan false
  else if e = 0 then .fin neg m (f.emin - (f.mb : Int))
  else .fin neg (2 ^ f.mb + m) ((e : Int) - (f.bias : Int) - (f.mb : Int))

/-- The value of a code of a type. -/
def NTy.value (t : NTy) (code : Nat) : Num :=
  match t with
  | .flt f => f.value code
  | .int w true => .ofInt (sextI code w)
  | .int w false => .fin false (code % 2 ^ w) 0

/-! ### Rounding (R266, R267) -/

/-- The rounding modes. -/
inductive RM where
  /-- 0: nearest, ties to even. -/
  | rne
  /-- 1: toward zero. -/
  | rtz
  /-- 2: toward −∞. -/
  | rdn
  /-- 3: toward +∞. -/
  | rup
  deriving DecidableEq, Repr

/-- The mode of a mod field. -/
def rmOf (md : BitVec 3) : RM :=
  match md.toNat with
  | 1 => .rtz
  | 2 => .rdn
  | 3 => .rup
  | _ => .rne

/-- m × 2^sh rounded to an integer, by the sign for the directed modes; whether that was exact. -/
def roundShift (md : RM) (neg : Bool) (m : Nat) (sh : Int) : Nat × Bool :=
  if 0 ≤ sh then (m * 2 ^ sh.toNat, true)
  else
    let d := (-sh).toNat
    let q := m / 2 ^ d
    let r := m % 2 ^ d
    let half := 2 ^ (d - 1)
    let up : Bool := match md with
      | .rne => decide (r > half) || (r == half && q % 2 == 1)
      | .rtz => false
      | .rdn => neg && r != 0
      | .rup => !neg && r != 0
    (if up then q + 1 else q, r == 0)

/-- Floor(Log2(m × 2^e)) for m ≠ 0. -/
def log2E (m : Nat) (e : Int) : Int := (Nat.log2 m : Int) + e

/-- The sign bit of a code. -/
def signBit (w : Nat) (neg : Bool) : Nat := if neg then 2 ^ (w - 1) else 0

/-- `Overflowed` (R267): the code and flags of a value beyond the largest finite one. -/
def FFmt.overflowed (f : FFmt) (md : RM) (sat neg : Bool) : Nat × Flags :=
  let big := signBit f.w neg + f.top
  let away : Bool := match md with
    | .rne => true
    | .rtz => false
    | .rdn => neg
    | .rup => !neg
  if sat ∨ f.nan = none then (big, fSAT)
  else if !away then (big, 0)
  else if f.inf then (signBit f.w neg + (f.top / 2 ^ f.mb + 1) * 2 ^ f.mb, 0)
  else (f.nan.getD 0, fNV)

/-- `Round` to a floating-point format (R267). -/
def FFmt.round (f : FFmt) (md : RM) (sat : Bool) (x : Num) : Nat × Flags :=
  match x with
  | .nan s => match f.nan with
    | some c => (c, if s then fNV else 0)
    | none => (0, fNV)
  | .inf n =>
    if f.inf ∧ !sat then (signBit f.w n + (f.top / 2 ^ f.mb + 1) * 2 ^ f.mb, 0)
    else
      let (c, fl) := f.overflowed md sat n
      (c, fl ||| (if f.inf then 0 else fNV))
  | .fin n m e =>
    if m = 0 then (signBit f.w n, 0)
    else
      let ex := max (log2E m e) f.emin
      let (q, exact) := roundShift md n m (e - (ex - (f.mb : Int)))
      let mag := (ex - f.emin).toNat * 2 ^ f.mb + q
      if mag > f.top then
        let (c, fl) := f.overflowed md sat n
        (c, fl ||| fOF ||| fNX)
      else (signBit f.w n + mag, if exact then 0 else if log2E m e < f.emin then fNX ||| fUF else fNX)

/-- The bounds of an integer type. -/
def intBounds (w : Nat) (signed : Bool) : Int × Int :=
  if signed then (-((2 ^ (w - 1) : Nat) : Int), ((2 ^ (w - 1) : Nat) : Int) - 1) else (0, ((2 ^ w : Nat) : Int) - 1)

/-- `Round` to an integer type (R267). -/
def roundInt (w : Nat) (signed : Bool) (md : RM) (x : Num) : Nat × Flags :=
  let (lo, hi) := intBounds w signed
  match x with
  | .nan _ => (0, fNV)
  | .inf n => (truncI (if n then lo else hi) w, fNV ||| fSAT)
  | .fin n m e =>
    let (q, exact) := roundShift md n m e
    let y : Int := if n then -(q : Int) else (q : Int)
    let nx : Flags := if exact then 0 else fNX
    if y > hi then (truncI hi w, nx ||| fNV ||| fSAT)
    else if y < lo then (truncI lo w, nx ||| fNV ||| fSAT)
    else (truncI y w, nx)

/-- `Round` to a type. -/
def NTy.round (t : NTy) (md : RM) (sat : Bool) (x : Num) : Nat × Flags :=
  match t with
  | .flt f => f.round md sat x
  | .int w s => roundInt w s md x

/-! ### Exact arithmetic (R265, R355) -/

/-- ±m × 2^e as an integer multiple of 2^b, for b ≤ e. -/
def alignTo (neg : Bool) (m : Nat) (e b : Int) : Int :=
  let v : Int := ((m * 2 ^ (e - b).toNat : Nat) : Int)
  if neg then -v else v

/-- The sum of two values; an exact zero from opposite signs takes the sign of the mode (R265). NV for Inf − Inf. -/
def Num.add (md : RM) (a b : Num) : Num × Flags :=
  match a, b with
  | .nan _, _ => (.nan false, 0)
  | _, .nan _ => (.nan false, 0)
  | .inf n, .inf p => if n = p then (.inf n, 0) else (.nan false, fNV)
  | .inf n, _ => (.inf n, 0)
  | _, .inf n => (.inf n, 0)
  | .fin n m e, .fin p q f =>
    let c := min e f
    let s := alignTo n m e c + alignTo p q f c
    if s = 0 then (.fin (if m = 0 ∧ q = 0 ∧ n = p then n else md == .rdn) 0 0, 0)
    else (.fin (decide (s < 0)) s.natAbs c, 0)

/-- The product of two values. NV for 0 × Inf. -/
def Num.mul (a b : Num) : Num × Flags :=
  match a, b with
  | .nan _, _ => (.nan false, 0)
  | _, .nan _ => (.nan false, 0)
  | .inf n, y => if y.isZero then (.nan false, fNV) else (.inf (n != y.sign), 0)
  | x, .inf n => if x.isZero then (.nan false, fNV) else (.inf (x.sign != n), 0)
  | .fin n m e, .fin p q f => (.fin (n != p) (m * q) (e + f), 0)

/-- A quotient of two numbers with 64 bits below the divisor's, its last bit sticky. -/
def divBits (m q : Nat) (e : Int) (neg : Bool) : Num :=
  let k := 64 + Nat.log2 q
  let n := m * 2 ^ k
  .fin neg (2 * (n / q) + (if n % q = 0 then 0 else 1)) (e - (k : Int) - 1)

/-- The quotient of two values. -/
def Num.div (a b : Num) : Num × Flags :=
  match a, b with
  | .nan _, _ => (.nan false, 0)
  | _, .nan _ => (.nan false, 0)
  | .inf _, .inf _ => (.nan false, fNV)
  | .inf n, y => (.inf (n != y.sign), 0)
  | x, .inf n => (.fin (x.sign != n) 0 0, 0)
  | .fin n m e, .fin p q f =>
    if q = 0 then (if m = 0 then (.nan false, fNV) else (.inf (n != p), fDZ))
    else if m = 0 then (.fin (n != p) 0 0, 0)
    else (divBits m q (e - f) (n != p), 0)

/-- The integer square root, bit by bit from bit i − 1 down. -/
def isqrtBits (n : Nat) : Nat → Nat → Nat
  | 0, r => r
  | i + 1, r => isqrtBits n i (if (r + 2 ^ i) * (r + 2 ^ i) ≤ n then r + 2 ^ i else r)

/-- The integer square root. -/
def isqrt (n : Nat) : Nat := isqrtBits n (Nat.log2 n / 2 + 1) 0

/-- The square root of m × 2^e, its last bit sticky. -/
def sqrtBits (m : Nat) (e : Int) : Num :=
  let m1 := if e % 2 = 0 then m else 2 * m
  let e1 := if e % 2 = 0 then e else e - 1
  let n := m1 * 2 ^ 128
  let r := isqrt n
  .fin false (2 * r + (if r * r = n then 0 else 1)) (e1 / 2 - 65)

/-- The square root (R355). -/
def Num.sqrt (a : Num) : Num × Flags :=
  match a with
  | .nan _ => (.nan false, 0)
  | .inf n => if n then (.nan false, fNV) else (.inf false, 0)
  | .fin n m e => if m = 0 then (.fin n 0 0, 0) else if n then (.nan false, fNV) else (sqrtBits m e, 0)

/-- The reciprocal square root (R355). -/
def Num.rsqrt (a : Num) : Num × Flags :=
  match a with
  | .nan _ => (.nan false, 0)
  | .inf n => if n then (.nan false, fNV) else (.fin false 0 0, 0)
  | .fin n m e =>
    if m = 0 then (.inf n, fDZ)
    else if n then (.nan false, fNV)
    else
      let m1 := if e % 2 = 0 then m else 2 * m
      let e1 := if e % 2 = 0 then e else e - 1
      let k := 64 + Nat.log2 m1
      let n2 := 2 ^ (2 * k)
      let r := isqrt (n2 / m1)
      (.fin false (2 * r + (if r * r * m1 = n2 then 0 else 1)) (-(e1 / 2) - (k : Int) - 1), 0)

/-- The fixed point of the series below: 2^-200. -/
def fixBits : Nat := 200

/-- 2·(z + z³/3 + z⁵/5 + …) in fixed point: `p` is the power z^(2i+1). -/
def atanhSum (zz : Nat) : Nat → Nat → Nat → Nat → Nat
  | 0, _, _, acc => 2 * acc
  | n + 1, i, p, acc => atanhSum zz n (i + 1) (p * zz / 2 ^ fixBits) (acc + p / (2 * i + 1))

/-- ln(a / b) in fixed point for 1 ≤ a/b ≤ 2, by 2·atanh((a − b)/(a + b)). -/
def lnFix (a b : Nat) : Nat :=
  let z := (a - b) * 2 ^ fixBits / (a + b)
  atanhSum (z * z / 2 ^ fixBits) 70 0 z 0

/-- y + y²/2! + … in fixed point: the sum from the term `t` = y^(i−1)/(i−1)! on. -/
def expSum (y : Nat) : Nat → Nat → Nat → Nat → Nat
  | 0, _, _, acc => acc
  | n + 1, i, t, acc => expSum y n (i + 1) (t * y / 2 ^ fixBits / (i + 1)) (acc + t)

/-- 2^a (R355). -/
def Num.exp2 (a : Num) : Num :=
  match a with
  | .nan _ => .nan false
  | .inf n => if n then .fin false 0 0 else .inf false
  | .fin n m e =>
    if m = 0 then .one
    else if 12 ≤ log2E m e then .fin false 3 (if n then -4096 else 4096)
    else if log2E m e < -60 then .fin false (if n then 2 ^ 90 - 1 else 2 ^ 90 + 1) (-90)
    else
      let x := alignTo n m (e + fixBits) 0
      let one : Int := ((2 ^ fixBits : Nat) : Int)
      let k := x / one
      let f := (x % one).toNat
      if f = 0 then .fin false 1 k
      else
        let y := f * lnFix 2 1 / 2 ^ fixBits
        let v := 2 ^ fixBits + expSum y 60 1 y 0
        .fin false (2 * (v / 2 ^ 60) + 1) (k - 141)

/-- log2 a (R355). -/
def Num.log2 (a : Num) : Num × Flags :=
  match a with
  | .nan _ => (.nan false, 0)
  | .inf n => if n then (.nan false, fNV) else (.inf false, 0)
  | .fin n m e =>
    if m = 0 then (.inf true, fDZ)
    else if n then (.nan false, fNV)
    else
      let k := Nat.log2 m
      let ex : Int := (k : Int) + e
      if m = 2 ^ k then (.fin (decide (ex < 0)) ex.natAbs 0, 0)
      else
        let f := lnFix m (2 ^ k) * 2 ^ fixBits / lnFix 2 1
        let t := ex * ((2 ^ fixBits : Nat) : Int) + (f : Int)
        (.fin (decide (t < 0)) (2 * (t.natAbs / 2 ^ 60) + 1) (-141), 0)

/-- The order of two values that are not NaN: a < b, −0 equal to +0. -/
def Num.lt (a b : Num) : Bool :=
  match a, b with
  | .inf n, .inf p => n && !p
  | .inf n, _ => n
  | _, .inf p => !p
  | .fin n m e, .fin p q f => let c := min e f; decide (alignTo n m e c < alignTo p q f c)
  | _, _ => false

/-- Equality of two values that are not NaN. -/
def Num.same (a b : Num) : Bool := !a.isNan && !b.isNan && !a.lt b && !b.lt a

/-! ### Lane operations on one format (R355 to R358) -/

/-- One rounding of an exact result, with the flags of the operation and of its operands. -/
def finish (f : FFmt) (md : RM) (ops : List Num) (r : Num × Flags) : Nat × Flags :=
  let (c, fl) := f.round md false r.1
  (c, fl ||| r.2 ||| sigFlag ops)

/-- `fadd`. -/
def fAdd (f : FFmt) (md : RM) (a b : Nat) : Nat × Flags :=
  finish f md [f.value a, f.value b] ((f.value a).add md (f.value b))
/-- `fsub`. -/
def fSub (f : FFmt) (md : RM) (a b : Nat) : Nat × Flags :=
  finish f md [f.value a, f.value b] ((f.value a).add md (f.value b).neg)
/-- `fmul`. -/
def fMul (f : FFmt) (md : RM) (a b : Nat) : Nat × Flags := finish f md [f.value a, f.value b] ((f.value a).mul (f.value b))
/-- `fdiv`. -/
def fDiv (f : FFmt) (md : RM) (a b : Nat) : Nat × Flags := finish f md [f.value a, f.value b] ((f.value a).div (f.value b))
/-- `ffma`: the product, then the sum, rounded once. -/
def fFma (f : FFmt) (md : RM) (a b c : Nat) : Nat × Flags :=
  let (p, fp) := (f.value a).mul (f.value b)
  let (s, fs) := p.add md (f.value c)
  finish f md [f.value a, f.value b, f.value c] (s, fp ||| fs)
/-- `frcp`. -/
def fRcp (f : FFmt) (md : RM) (a : Nat) : Nat × Flags := finish f md [f.value a] (Num.one.div (f.value a))
/-- `fsqrt`. -/
def fSqrt (f : FFmt) (md : RM) (a : Nat) : Nat × Flags := finish f md [f.value a] (f.value a).sqrt
/-- `frsq`. -/
def fRsq (f : FFmt) (md : RM) (a : Nat) : Nat × Flags := finish f md [f.value a] (f.value a).rsqrt
/-- `fex2`. -/
def fEx2 (f : FFmt) (md : RM) (a : Nat) : Nat × Flags := finish f md [f.value a] ((f.value a).exp2, 0)
/-- `flg2`. -/
def fLg2 (f : FFmt) (md : RM) (a : Nat) : Nat × Flags := finish f md [f.value a] (f.value a).log2

/-- The key by which −0 lies below +0 (R356). -/
def belowKey (a b : Num) : Bool := a.lt b || (a.isZero && b.isZero && a.sign && !b.sign)

/-- `fmin` and `fmax` (R356). -/
def fPick (f : FFmt) (larger : Bool) (a b : Nat) : Nat × Flags :=
  let x := f.value a
  let y := f.value b
  let fl := sigFlag [x, y]
  if x.isNan ∧ y.isNan then (f.nan.getD 0, fl)
  else if x.isNan then (b % 2 ^ f.w, fl)
  else if y.isNan then (a % 2 ^ f.w, fl)
  else ((if (if larger then belowKey x y else belowKey y x) then b else a) % 2 ^ f.w, fl)

/-- `fcmp` (R357). -/
def fCmp (f : FFmt) (cc a b : Nat) : Bool × Flags :=
  let x := f.value a
  let y := f.value b
  let un := x.isNan || y.isNan
  let quiet := cc ≤ 1 ∨ cc ≥ 6
  let fl := if quiet then sigFlag [x, y] else if un then fNV else 0
  let r := match cc with
    | 0 => x.same y
    | 1 => !x.same y
    | 2 => !un && x.lt y
    | 3 => !un && !y.lt x
    | 4 => !un && y.lt x
    | 5 => !un && !x.lt y
    | 6 => un
    | _ => !un
  (r, fl)

/-- The class bit of a code (R358). -/
def fClass (f : FFmt) (a : Nat) : Nat :=
  match f.value a with
  | .nan s => if s then 8 else 9
  | .inf n => if n then 0 else 7
  | .fin n m e =>
    if m = 0 then (if n then 3 else 4)
    else if log2E m e < f.emin then (if n then 2 else 5)
    else if n then 1 else 6

/-! ### Scaled blocks (R269 to R272) -/

/-- The value of an E8M0 scale code times a value; code 0xFF gives NaN. -/
def scaleBy (c : Nat) (x : Num) : Num :=
  if c % 256 = 255 then .nan false
  else match x with
    | .fin n m e => .fin n m (e + ((c % 256 : Nat) : Int) - 127)
    | y => y

/-- The value of an element code of a matrix or quantised element: MX INT8 is the code × 2^−6 (R261). -/
def mxValue (code c : Nat) : Num :=
  if code = 12 then match (NTy.int 8 true).value c with
    | .fin n m e => .fin n m (e - 6)
    | y => y
  else (nty code).value c

/-- `QuantS8` of an exact y (R271). -/
def quantS8 (y : Num) : Nat × Flags :=
  match y with
  | .fin n m e =>
    let (q, exact) := roundShift .rne n m e
    let nx : Flags := if exact then 0 else fNX
    if q > 127 then (truncI (if n then -127 else 127) 8, nx ||| fSAT) else (truncI (if n then -(q : Int) else q) 8, nx)
  | _ => (0, 0)

/-- One element of a block rounded under the scale 2^X (R270). -/
def roundElem (code : Nat) (X : Int) (x : Num) : Nat × Flags :=
  match x with
  | .fin n m e => if code = 12 then quantS8 (.fin n m (e - X + 6)) else (fltOf code).round .rne true (.fin n m (e - X))
  | _ => (0, 0)

/-- Emax of an element type (R260, R261). -/
def emaxOf (code : Nat) : Int := if code = 12 then 0 else (fltOf code).emax

/-- Clamps a scale exponent. -/
def clampX (x : Int) : Int := max (-127) (min 127 x)

/-- `RoundAll`: codes and flags (R270). -/
def roundAll (code : Nat) (X : Int) (xs : List Num) : List Nat × Flags :=
  let rs := xs.map (roundElem code X)
  (rs.map (·.1), rs.foldl (fun f r => f ||| r.2) 0)

/-- The exponents of the nonzero elements. -/
def expsOf (xs : List Num) : List Int := xs.filterMap fun x => match x with
  | .fin _ m e => if m = 0 then none else some (log2E m e)
  | _ => none

/-- Inserts into an ascending list. -/
def insInt (x : Int) : List Int → List Int
  | [] => [x]
  | y :: r => if x ≤ y then x :: y :: r else y :: insInt x r

/-- Elements that are not zero and whose code has the value zero. -/
def flushed (code : Nat) (xs : List Num) (cs : List Nat) : Nat :=
  ((xs.zip cs).filter fun p => !p.1.isZero && (mxValue code p.2).isZero).length

/-- `QuantBlock` (R270, R272): the scale code, the element codes and the flags. -/
def quantBlock (code : Nat) (clip : Option (Nat × Nat)) (xs : List Num) : Nat × List Nat × Flags :=
  if xs.any (fun x => x.isNan || x.isInf) then (255, xs.map fun _ => 0, fNFB)
  else
    let es := (expsOf xs).foldl (fun l x => insInt x l) []
    let X : Int := match es.getLast? with
      | none => -127
      | some t => clampX (t - emaxOf code)
    let (cs, fl) := roundAll code X xs
    let again : Option Int := match clip with
      | some (p, f) =>
        if flushed code xs cs > f then
          let k := max 1 ((p * es.length + 99) / 100)
          (es[k - 1]?).map fun l => clampX (l - emaxOf code)
        else none
      | none => none
    match again with
    | some X2 => let (c2, f2) := roundAll code X2 xs; ((X2 + 127).toNat, c2, f2)
    | none => ((X + 127).toNat, cs, fl)

/-! ### Matrix steps (R273, R274) -/

/-- The exact sum of finite values as an integer multiple of 2^b. -/
def sumFin (b : Int) : List Num → Int
  | [] => 0
  | .fin n m e :: r => alignTo n m e b + sumFin b r
  | _ :: r => sumFin b r

/-- The least exponent of the finite values. -/
def minExp : List Num → Int
  | [] => 0
  | .fin _ _ e :: r => min e (minExp r)
  | _ :: r => minExp r

/-- The sum of a step's products and NV of R274: cases 1 to 4 in order. Each pair is the two factors; a signalling one raises NV, as
any signalling NaN that is read does (R264, R268). -/
def stepSum (ps : List (Num × Num)) : Num × Flags :=
  let prods := ps.map fun p => (p.1.mul p.2).1
  let factorNan := ps.any fun p => p.1.isNan || p.2.isNan
  if prods.any Num.isNan then (.nan false, if factorNan then sigFlag (ps.flatMap fun p => [p.1, p.2]) else fNV)
  else
    let infs := prods.filter Num.isInf
    if infs.any (·.sign) ∧ infs.any (fun x => !x.sign) then (.nan false, fNV)
    else match infs with
      | x :: _ => (x, 0)
      | [] =>
        let b := minExp prods
        let s := sumFin b prods
        if s = 0 then (.fin (prods.all fun x => x.isZero && x.sign) 0 0, 0)
        else (.fin (decide (s < 0)) s.natAbs b, 0)

/-- `Round(C + S, f32, md)` with its flags (R274); a signalling C raises NV (R264). -/
def accF32 (md : RM) (c : Nat) (s : Num × Flags) : Nat × Flags :=
  let (x, fl) := (fmtF32.value c).add md s.1
  let (r, f2) := fmtF32.round md false x
  (r, s.2 ||| fl ||| f2 ||| sigFlag [fmtF32.value c])

end Sys2Proof.Machine
end

