-- ==== Sys2Proof/Machine/Atomic.lean ====
section
/-!
DEFINITION. What an atomic operation makes of a word (R61, R326, R371), and the operations that a lane atomic's AOP and
type name.
-/
namespace Sys2Proof.Machine

/-- The new value of a word of w bits, with the flags of a floating-point addition. -/
def Aop.apply (a : Aop) (w old cmp opnd : Nat) : Nat × Flags :=
  let o := old % 2 ^ w
  let x := opnd % 2 ^ w
  match a with
  | .ld => (o, 0)
  | .st => (x, 0)
  | .swap => (x, 0)
  | .cas => (if o = cmp % 2 ^ w then x else o, 0)
  | .add => ((o + x) % 2 ^ w, 0)
  | .or => (o ||| x, 0)
  | .minn => (if x < o then x else o, 0)
  | .maxn => (if o < x then x else o, 0)
  | .min => (if sextI x w < sextI o w then x else o, 0)
  | .max => (if sextI o w < sextI x w then x else o, 0)
  | .fadd => fAdd fmtF32 .rne o x
  | .hadd => fAdd fmtF16 .rne o x
  | .badd => fAdd fmtBf16 .rne o x

/-- The operation that a lane atomic's AOP names for its type (R371). -/
def aopLane (ty : BitVec 4) (aop : Nat) : Aop :=
  let signed : Bool := ty == 0 || ty == 2
  match aop with
  | 0 => .ld
  | 1 => .st
  | 2 => .swap
  | 3 => .cas
  | 4 => if ty = 4 then .fadd else .add
  | 5 => .or
  | 6 => if signed then .min else .minn
  | _ => if signed then .max else .maxn

end Sys2Proof.Machine
end

