-- ==== Sys2Proof/Config.lean ====
section
/-!
DEFINITION. The free values: what the spec leaves open, as constants without a body. Nothing can be proved of their
values, so a statement about them holds whatever they are. Most are applied to `State.freeCtr`, a counter that each use
advances (log 2); the others to the data that decides them.
-/
namespace Sys2Proof.Config
open Sys2Proof.Machine

/-- The agent that moves next when the agenda is empty (log 1). -/
opaque nextTurn : Nat → Turn

/-- A free choice of a number (log 2). -/
opaque freeNat : Nat → Nat

/-- A free byte (log 2). -/
opaque freeByte : Nat → Byte

/-- A free choice of a bit (log 2). -/
opaque freeBool : Nat → Bool

/-- Byte `i` of a line read under key `key` that was sealed under another (R80, log 16). -/
opaque unsealed (key line i : Nat) : Byte

/-- Byte `i` of the AES-256-GCM key stream of a save key under a nonce (R242, log 17). -/
opaque gcmStream (key : Nat) (nonce : BitVec 96) (i : Nat) : Byte

/-- The AES-256-GCM tag of a header and a ciphertext under a save key and a nonce (R242, log 17). -/
opaque gcmTag (key : Nat) (nonce : BitVec 96) (head body : List Byte) : BitVec 128

/-- The first 64 bytes of SHAKE256 (R230, R231, R237, log 17). -/
opaque shake256 : List Byte → BitVec 512

/-- The digest of the image that the maker put into flash for measurement register `n` (R228, log 17, log 79). -/
opaque bootDigest (n : Nat) : BitVec 512

/-- The measurement that the manifest in a Belvedere image lists for a die type: 1 hub, 2 base, 10 compute (R229, log 79). -/
opaque manifest (digest : BitVec 512) (type : Nat) : BitVec 512

/-- The digest of the configuration record with these spare columns retired (R228 step 4, log 79). -/
opaque configDigest (spares : Table Nat) : BitVec 512

/-- The public key of the ML-DSA-65 key pair of a seed (R231, log 17). -/
opaque publicKey (seed : BitVec 256) : BitVec 512

/-- The 16 fuse bits LCSTATE of a life-cycle state (R227, log 17). -/
opaque lcFuses : LifeCycle → BitVec 16

/-- The digest with which a new life-cycle state extends MSL17 (R230, log 17). -/
opaque stateDigest : LifeCycle → BitVec 512

/-- The body of an SPDM answer signed with the Alias key of this seed (R232, log 17). -/
opaque spdmBody (seed : BitVec 256) (req : Nat) (msg : List (BitVec 512)) : List (BitVec 512)

/-- The transition that a signed authorisation grants this device, if its signature and binding verify (R233, log 17). -/
opaque authorises (seed : BitVec 256) (auth : List Byte) : Option LifeCycle

/-- The corrected symbol index of a correctable error (R85, log 18). -/
opaque symbolOf (line : Nat) : BitVec 10

end Sys2Proof.Config
end

