-- ==== Sys2Proof/Machine/Access.lean ====
section
/-!
DEFINITION. Access to the objects of the state, registers and their labels (R28 to R36, R50), device counters (R220 to
R225), free values, and messages to the outside.
-/
namespace Sys2Proof.Machine

/-- The warp with this key. -/
def State.warp (s : State) (w : Nat) : Option Warp := tFind s.work.warps w
/-- The team with this key. -/
def State.team (s : State) (t : Nat) : Option Team := tFind s.work.teams t
/-- The gang with this key. -/
def State.gang (s : State) (g : Nat) : Option Gang := tFind s.work.gangs g
/-- The grid with this key. -/
def State.grid (s : State) (g : Nat) : Option Grid := tFind s.work.grids g
/-- The operation with this key. -/
def State.op (s : State) (o : Nat) : Option Op := tFind s.work.ops o
/-- The context in this slot. -/
def State.ctx (s : State) (c : Nat) : Option Ctx := tFind s.ctxs c
/-- The packet with this key. -/
def State.packet (s : State) (p : Nat) : Option Packet := tFind s.front.packets p

/-- Stores a warp. -/
def State.putWarp (s : State) (w : Nat) (x : Warp) : State := { s with work := { s.work with warps := tPut s.work.warps w x } }
/-- Stores a team. -/
def State.putTeam (s : State) (t : Nat) (x : Team) : State := { s with work := { s.work with teams := tPut s.work.teams t x } }
/-- Stores a gang. -/
def State.putGang (s : State) (g : Nat) (x : Gang) : State := { s with work := { s.work with gangs := tPut s.work.gangs g x } }
/-- Stores a grid. -/
def State.putGrid (s : State) (g : Nat) (x : Grid) : State := { s with work := { s.work with grids := tPut s.work.grids g x } }
/-- Stores an operation. -/
def State.putOp (s : State) (o : Nat) (x : Op) : State := { s with work := { s.work with ops := tPut s.work.ops o x } }
/-- Stores a context. -/
def State.putCtx (s : State) (c : Nat) (x : Ctx) : State := { s with ctxs := tPut s.ctxs c x }
/-- Stores a packet. -/
def State.putPacket (s : State) (p : Nat) (x : Packet) : State := { s with front := { s.front with packets := tPut s.front.packets p x } }

/-- Changes a warp. -/
def State.modWarp (s : State) (w : Nat) (f : Warp → Warp) : State := { s with work := { s.work with warps := tMod s.work.warps w f } }
/-- Changes a team. -/
def State.modTeam (s : State) (t : Nat) (f : Team → Team) : State := { s with work := { s.work with teams := tMod s.work.teams t f } }
/-- Changes a gang. -/
def State.modGang (s : State) (g : Nat) (f : Gang → Gang) : State := { s with work := { s.work with gangs := tMod s.work.gangs g f } }
/-- Changes a grid. -/
def State.modGrid (s : State) (g : Nat) (f : Grid → Grid) : State := { s with work := { s.work with grids := tMod s.work.grids g f } }
/-- Changes an operation. -/
def State.modOp (s : State) (o : Nat) (f : Op → Op) : State := { s with work := { s.work with ops := tMod s.work.ops o f } }
/-- Changes a context. -/
def State.modCtx (s : State) (c : Nat) (f : Ctx → Ctx) : State := { s with ctxs := tMod s.ctxs c f }
/-- Changes a packet. -/
def State.modPacket (s : State) (p : Nat) (f : Packet → Packet) : State := { s with front := { s.front with packets := tMod s.front.packets p f } }
/-- Changes main memory. -/
def State.modMem (s : State) (f : Mem → Mem) : State := { s with mem := f s.mem }
/-- Changes the management registers. -/
def State.modMgmt (s : State) (f : Mgmt → Mgmt) : State := { s with mgmt := f s.mgmt }

/-- Belvedere lets the dies run (R192). -/
def State.isRunning (s : State) : Bool := s.mgmt.run == .run

/-- A fresh key for an object (log 3). -/
def State.fresh (s : State) : Nat × State := (s.nextId, { s with nextId := s.nextId + 1 })

/-- A free number (log 2). -/
def State.freeNat (s : State) : Nat × State := (Config.freeNat s.freeCtr, { s with freeCtr := s.freeCtr + 1 })

/-- n free bytes (log 2). -/
def State.freeBytes (s : State) (n : Nat) : List Byte × State :=
  ((List.range n).map fun i => Config.freeByte (s.freeCtr + i), { s with freeCtr := s.freeCtr + n })

/-- A message to the outside. -/
def State.emit (s : State) (o : Out) : State := { s with outbox := s.outbox ++ [o] }

/-! ### Registers -/

/-- An s register; s0 reads zero with label 0 (R33). -/
def Warp.readS (w : Warp) (r : Nat) : LVal := if r = 0 then ⟨0, 0⟩ else tGet w.s ⟨0, w.lab0⟩ r

/-- Writes an s register, value and label; a write to s0 is discarded (R33). -/
def Warp.writeS (w : Warp) (r : Nat) (x : LVal) : Warp := if r = 0 then w else { w with s := tSet w.s ⟨0, w.lab0⟩ r x }

/-- A live k register (R35). -/
def Warp.readK (w : Warp) (r : Nat) : LVal := tGet w.k ⟨0, w.lab0⟩ r

/-- Writes a live k register (R35). -/
def Warp.writeK (w : Warp) (r : Nat) (x : LVal) : Warp := { w with k := tSet w.k ⟨0, w.lab0⟩ r x }

/-- A lane's v register (R28). -/
def Warp.readV (w : Warp) (r lane : Nat) : W32 := tGet w.v 0 (64 * r + lane)

/-- Writes a lane's v register. -/
def Warp.writeV (w : Warp) (r lane : Nat) (x : W32) : Warp := { w with v := tSet w.v 0 (64 * r + lane) x }

/-- The label of a v register (R28). -/
def Warp.labV (w : Warp) (r : Nat) : Label := tGet w.vLab w.lab0 r

/-- Sets the label of a v register. -/
def Warp.setLabV (w : Warp) (r : Nat) (l : Label) : Warp := { w with vLab := tSet w.vLab w.lab0 r l }

/-- The lanes in which a predicate is true; p0 is always true (R36). -/
def Warp.predMask (w : Warp) (p : Nat) : W64 := if p = 0 then BitVec.allOnes 64 else tGet w.p 0 p

/-- Sets a predicate's lanes; a write to p0 is discarded (R36). -/
def Warp.setPred (w : Warp) (p : Nat) (m : W64) : Warp := if p = 0 then w else { w with p := tSet w.p 0 p m }

/-- The label of a predicate. -/
def Warp.labP (w : Warp) (p : Nat) : Label := tGet w.pLab w.lab0 p

/-- Sets the label of a predicate. -/
def Warp.setLabP (w : Warp) (p : Nat) (l : Label) : Warp := { w with pLab := tSet w.pLab w.lab0 p l }

/-- The registers a warp owns: declared count rounded up to 8 (R30). -/
def Warp.c (w : Warp) : Nat := roundUp w.regs 8

/-- The operations counted on a class, oldest first (R216). -/
def Warp.pendOf (w : Warp) (cls : Nat) : List Nat := (tFind w.pend cls).getD []

/-- An engine counter: issued and not yet retired (R215). -/
def Warp.count (w : Warp) (cls : Nat) : Nat := (w.pendOf cls).length

/-- All six engine counters are 0. -/
def Warp.quiet (w : Warp) : Bool := (List.range 6).all fun c => w.count c == 0

/-- Some latch of an entry awaits the return of an operation (R376). -/
def Entry.awaits (e : Entry) : Bool := e.b0.await.isSome || e.b1.await.isSome || e.b2.await.isSome || e.b3.await.isSome

/-- Some return of the warp is still in flight: to a register, or to a latch alone (R31, R376). -/
def Warp.inFlight (w : Warp) : Bool :=
  !(w.sPend.isEmpty && w.kPend.isEmpty && w.vPend.isEmpty) || w.entries.any fun e => e.2.awaits

/-- An invalid latch (R37). -/
def Latch.none : Latch := { vals := [], lab := 0, valid := false, await := Option.none }

/-- Some agents of a warp can no longer take what was read ahead for them: lanes, 64 for the scalar stream (R106 note 6). -/
def Warp.noEarly (x : Warp) (agents : List Nat) : Warp :=
  { x with early := x.early.map fun e => { e with dead := agents.foldl setAdd e.dead } }

/-- The names of an agent for accesses that stand apart: its lanes, 64 for the scalar stream. -/
def earlyNames (lanes : List Nat) : List Nat := if lanes.isEmpty then [64] else lanes

/-- An unarmed barrier (R169). -/
def Rcv.none : Rcv := { armed := false, exp := 0, arr := 0, rparent := 0 }

/-- An empty on-chip memory. -/
def Sram.zero : Sram := { bytes := [], labs := [], ce := [], ue := [] }

/-- The barrier word of a team (R172). -/
def Team.bar (t : Team) (n : Nat) : Bar := tGet t.bars ⟨0, 0, 0⟩ n

/-- A tile's token (R41). -/
def Team.tok (t : Team) (n : Nat) : Tok := tGet t.tokens .seq n

/-- A tile element (R40). -/
def Team.elem (t : Team) (tile row col : Nat) : W32 := tGet t.tiles 0 (4096 * tile + 64 * row + col)

/-- Writes a tile element. -/
def Team.setElem (t : Team) (tile row col : Nat) (x : W32) : Team :=
  { t with tiles := tSet t.tiles 0 (4096 * tile + 64 * row + col) x }

/-- The label of a tile. -/
def Team.labT (t : Team) (tile : Nat) : Label := tGet t.tileLab t.lab0 tile

/-- Raises the label of a tile (R50). -/
def Team.raiseTile (t : Team) (tile : Nat) (l : Label) : Team :=
  { t with tileLab := tSet t.tileLab t.lab0 tile (Label.join (t.labT tile) l) }

/-- A sequencer register (R43). -/
def Team.readM (t : Team) (r : Nat) : LWord :=
  match t.seqr with
  | some q => tGet q.m ⟨0, t.lab0⟩ r
  | none => ⟨0, t.lab0⟩

/-- Changes the sequencer of a team. -/
def Team.modSeq (t : Team) (f : Seqr → Seqr) : Team := { t with seqr := t.seqr.map f }

/-- Writes a sequencer register (R43). -/
def Team.writeM (t : Team) (r : Nat) (x : LWord) : Team := t.modSeq fun q => { q with m := tSet q.m ⟨0, t.lab0⟩ r x }

/-- The compute die of a core number 48d + i (R221). -/
def dieOf (core : Nat) : Nat := core / 48

/-! ### Device counters -/

/-- A device counter index (R221). -/
def ctrIx (code inst : Nat) : Nat := code * 65536 + inst

/-- The counters are frozen (R225). -/
def State.frozen (s : State) : Bool := s.mgmt.ctrctl.getLsbD 0

/-- Adds to an event counter, saturating; nothing while frozen (R220, R225). -/
def State.count (s : State) (code inst n : Nat) : State :=
  if s.frozen then s
  else { s with ctrs := tSet s.ctrs 0 (ctrIx code inst)
                  (BitVec.ofNat 64 (min ((tGet s.ctrs 0 (ctrIx code inst)).toNat + n) (2 ^ 64 - 1))) }

/-- The programmable counters of a die add an event of a core (none: no core) and a context (R224). -/
def State.pmc (s : State) (die : Nat) (core : Option Nat) (ctx : Nat) (ev n : Nat) : State :=
  s.mgmt.pmsel.foldl (fun s e =>
    let x := e.2.toNat
    let hit := e.1 / 16 = die ∧ bitAt x 31 ∧ fld x 15 0 = ev ∧ (bitAt x 30 = false ∨ fld x 29 24 = ctx) ∧
      (fld x 23 16 = 0xFF ∨ core.map (· % 48) = some (fld x 23 16))
    if hit then s.count 0x60 e.1 n else s) s

/-- The core of the agent whose instruction executes. -/
def State.curCore (s : State) : Option Nat :=
  match s.cur with
  | .scalar w => (s.warp w).map (·.core)
  | .lane w _ => (s.warp w).map (·.core)
  | .seq t => (s.team t).map (·.core)
  | .none => none

/-- A field of SCHEDCTL (R214). -/
def State.sched (s : State) (hi lo : Nat) : Nat := fld s.mgmt.sched.toNat hi lo

/-- The watchdog limit in ms (R214). -/
def State.wdog (s : State) : Nat := s.sched 47 32
/-- The pre-emption deadline in ns; 0 acts as 1 (R214). -/
def State.pdeadNs (s : State) : Nat := max 1 (s.sched 31 16) * 10000
/-- The backfill limit in ns; 0 acts as 1 (R214). -/
def State.bfwaitNs (s : State) : Nat := max 1 (s.sched 15 8) * 100000
/-- The relaunch limit (R214). -/
def State.rlim (s : State) : Nat := s.sched 7 0

/-- The warps of a context. -/
def State.warpsOfCtx (s : State) (c : Nat) : List (Nat × Warp) :=
  s.work.warps.filter fun e => match s.team e.2.team with
    | some t => match s.grid t.grid with
      | some g => g.ctx == c
      | none => false
    | none => false

/-- The team, grid and context of a warp. -/
def State.home (s : State) (w : Warp) : Option (Team × Grid × Ctx) :=
  match s.team w.team with
  | some t => match s.grid t.grid with
    | some g => match s.ctx g.ctx with
      | some c => some (t, g, c)
      | none => none
    | none => none
  | none => none

/-- A successful issue of a warp restarts the watchdog timer of its context (R212). -/
def State.progress (s : State) (w : Nat) : State :=
  match s.warp w with
  | some x => match s.home x with
    | some (_, g, _) => s.modCtx g.ctx fun c => { c with wdogNs := 0 }
    | none => s
  | none => s

/-- The split entries that a warp occupies on its quadrant: live ones and those saved in its frame. -/
def Warp.usedEntries (x : Warp) : List Nat :=
  x.entries.map (·.1) ++ match x.frame with
    | some f => f.entries.map (·.1)
    | none => []

end Sys2Proof.Machine
end

