-- ==== Sys2Proof/Machine/Flags.lean ====
section
/-!
DEFINITION. Where raised flags go (R46, R344): the flags of a lane instruction into FSTAT of its warp, those of a sequencer
instruction into MFSTAT of its team.
-/
namespace Sys2Proof.Machine

/-- ORs flags into FSTAT (R46). -/
def Warp.flag (x : Warp) (f : Flags) : Warp := { x with fstat := x.fstat ||| f }

/-- ORs flags into MFSTAT (R46). -/
def Team.flag (t : Team) (f : Flags) : Team := { t with mfstat := t.mfstat ||| f }

/-- The flags of several results together. -/
def joinFlags (l : List Flags) : Flags := l.foldl (· ||| ·) 0

end Sys2Proof.Machine
end

