-- ==== Sys2Proof/Machine/Legal.lean ====
section
/-!
DEFINITION. Which instructions are legal whatever the machine's state (R292): the operand forms of every lane instruction
(R286, R287, R339 to R383), the field limits of scalar (R283 to R285, R306 to R335) and sequencer instructions (R290,
R384 to R403).
-/
namespace Sys2Proof.Machine

/-- What a source field of a lane instruction names. -/
inductive SrcK where
  /-- Unused: 0. -/
  | no
  /-- A 32-bit operand. -/
  | w32
  /-- A 64-bit operand. -/
  | w64
  /-- A k register only. -/
  | kreg
  /-- A predicate number. -/
  | pred
  deriving DecidableEq, Repr

/-- What the destination field of a lane instruction names. -/
inductive DstK where
  /-- Unused: 0. -/
  | no
  /-- The mark of `SCAT.ADD`: 1. -/
  | one
  /-- A v register. -/
  | w32
  /-- An even pair. -/
  | w64
  /-- A predicate. -/
  | pred
  deriving DecidableEq, Repr

/-- The form of a lane instruction: permitted types, destination, sources, whether an immediate may stand for B, whether
write-back may be suppressed, whether mod and the constant are legal, and whether it must be unpredicated. -/
structure LaneSpec where
  tys  : List Nat
  dst  : DstK
  a    : SrcK
  b    : SrcK
  c    : SrcK
  imm  : Bool
  wbs  : Bool
  md   : Bool
  k    : Bool
  unpr : Bool
  deriving DecidableEq, Repr

/-- 64-bit types: s64 and n64. -/
def isWide (ty : BitVec 4) : Bool := ty == 2 || ty == 3

/-- A source of the instruction's type. -/
def srcTy (ty : BitVec 4) : SrcK := if isWide ty then .w64 else .w32
/-- A destination of the instruction's type. -/
def dstTy (ty : BitVec 4) : DstK := if isWide ty then .w64 else .w32

/-- s32, n32, s64, n64. -/
def tInt : List Nat := [0, 1, 2, 3]
/-- f32, f16, bf16. -/
def tFlt : List Nat := [4, 5, 6]
/-- s32, n32, f32, s64, n64. -/
def tAny32 : List Nat := [0, 1, 4, 2, 3]
/-- Loadable and storable types (R370). -/
def tMem : List Nat := [0, 1, 2, 3, 4, 5, 6, 12, 13, 14, 15]
/-- The types of `pack` and `unpk` (R360). -/
def tPack : List Nat := [5, 6, 7, 8, 11, 12, 13, 14, 15]

/-- The width in bits of a type code. -/
def tyBits (ty : Nat) : Nat :=
  match ty with
  | 2 => 64
  | 3 => 64
  | 5 => 16
  | 6 => 16
  | 14 => 16
  | 15 => 16
  | 7 => 8
  | 8 => 8
  | 12 => 8
  | 13 => 8
  | 9 => 6
  | 10 => 6
  | 11 => 4
  | _ => 32

/-- The type code names an integer. -/
def tyIsInt (ty : Nat) : Bool := decide (ty ≤ 3) || decide (12 ≤ ty)

/-- A two-operand form: type, destination and A, B of the type, an immediate for B. -/
def form2 (f : LaneFields) (tys : List Nat) (md : Bool) : LaneSpec :=
  { tys := tys, dst := dstTy f.ty, a := srcTy f.ty, b := srcTy f.ty, c := .no, imm := true, wbs := true, md := md,
    k := f.imm == 0, unpr := false }

/-- A one-operand form without immediate. -/
def form1 (f : LaneFields) (tys : List Nat) (md : Bool) : LaneSpec := { form2 f tys md with b := .no, imm := false }

/-- The order of a memory atomic's ORDSC: 0 `.rlx`, 1 `.acq`, 2 `.rel`, 3 `.ar` (R326). -/
def ordOf (ordsc : Nat) : Nat := (ordsc + 4) / 5

/-- `.rel` on `.ld` and `.acq` on `.st` are refused (R103). -/
def ordOk (aop ordsc : Nat) : Bool := !((aop == 0 && ordOf ordsc == 2) || (aop == 1 && ordOf ordsc == 1))

/-- The order of an instruction's access (R103, R109 to R111, R115): 0 none, 1 acquire, 2 release, 3 both. -/
def accessOrder : Instr → Nat
  | .barArrive _ _ _ => 2
  | .barWait _ _ => 1
  | .barSync _ _ _ => 3
  | .fence o _ => o.toNat
  | .tokacq _ => 1
  | .tokrel _ => 2
  | .launch _ _ => 2
  | .signalSetInsn _ _ _ => 2
  | .signalAdd _ _ _ => 2
  | .signalWaitInsn _ _ _ _ _ => 1
  | .satom _ _ _ _ _ o => ordOf o.toNat
  | .dqpush _ _ _ => 2
  | .dqpop _ _ _ => 1
  | .dqsteal _ _ _ => 1
  | .att f => ordOf (fld f.imm.toNat 31 28)
  | .atc f => ordOf (fld f.imm.toNat 31 28)
  | .matom f => ordOf (fld f.imm.toNat 31 28)
  | .refill _ => 1
  | _ => 0

/-- The instruction makes an access that R98 gives its agent's program order. -/
def accesses (i : Instr) : Bool :=
  accessOrder i != 0 || match i with
  | .sld _ _ _ _ _ _ => true
  | .sst _ _ _ _ _ => true
  | .lrun _ => true
  | .copy _ _ _ _ _ => true
  | .copy2d _ _ _ _ _ => true
  | .nstore _ _ _ => true
  | .namepop _ => true
  | .relq _ _ _ => true
  | .vfence => true
  | .coll _ => true
  | .satom _ _ _ _ _ _ => true
  | .bndmin _ => true
  | .bndrd _ => true
  | .placeReq _ _ _ _ => true
  | .savev _ _ => true
  | .savet _ _ _ => true
  | .restv _ _ => true
  | .restt _ _ _ => true
  | .ldt _ => true
  | .stt _ => true
  | .ldc _ => true
  | .stc _ => true
  | .att _ => true
  | .atc _ => true
  | .accrd _ => true
  | .accwr _ => true
  | .gath _ => true
  | .scat _ => true
  | .scatAdd _ => true
  | .matom _ => true
  | _ => false

/-- An on-chip load or store (R370). -/
def formMem (f : LaneFields) (store : Bool) : LaneSpec :=
  { tys := tMem, dst := if store then .no else dstTy f.ty, a := .w32, b := if store then srcTy f.ty else .no, c := .no,
    imm := false, wbs := !store, md := f.md == 0, k := true, unpr := false }

/-- An on-chip atomic (R371). -/
def formAt (f : LaneFields) : LaneSpec :=
  { tys := [0, 1, 2, 3, 4], dst := if f.md = 1 then .no else dstTy f.ty, a := .w32, b := srcTy f.ty,
    c := if f.md = 3 then srcTy f.ty else .no, imm := false, wbs := f.md != 1,
    md := !(f.ty == 4 && decide (4 < f.md.toNat)),
    k := fld f.imm.toNat 27 24 == 0 && ordOk f.md.toNat (fld f.imm.toNat 31 28), unpr := false }

/-- A gather or scatter (R374, R375). -/
def formGs (f : LaneFields) (tys : List Nat) (add : Bool) : LaneSpec :=
  { tys := tys, dst := if add then .one else .no, a := .kreg, b := .kreg, c := .w32, imm := false, wbs := false,
    md := f.md != 7 && !(add && isWide f.ty && f.md == 0), k := true, unpr := false }

/-- A control form that takes no operand but a constant. -/
def formCtl (k unpr : Bool) : LaneSpec :=
  { tys := [0], dst := .no, a := .no, b := .no, c := .no, imm := false, wbs := false, md := true, k := k, unpr := unpr }

/-- A rounding mode (R266). -/
def rmOk (f : LaneFields) : Bool := decide (f.md.toNat ≤ 3)

/-- A binary or ternary dot product with its addend (R361, R362). -/
def formDot (f : LaneFields) (tys : List Nat) (imm : Bool) (md : Bool) : LaneSpec :=
  { tys := tys, dst := .w32, a := .w32, b := .w32, c := .w32, imm := imm, wbs := true, md := md, k := f.imm == 0, unpr := false }

/-- The fields and the form of a lane instruction; none for an instruction of another stream. -/
def laneSpec (i : Instr) : Option (LaneFields × LaneSpec) :=
  match i with
  | .mov f => some (f, { form2 f (List.range 16) (f.md == 0) with a := if f.i then .no else srcTy f.ty, b := .no })
  | .laneid f => some (f, { formCtl (f.imm == 0) false with dst := .w32, wbs := true, md := f.md == 0 })
  | .sel f => some (f, { form2 f tAny32 (f.md == 0) with c := .w32 })
  | .pset f => some (f, { formCtl (if f.md = 4 then decide (f.imm.toNat ≤ 1) else f.imm == 0) false with
      dst := .pred, a := if f.md = 4 then .no else .pred, b := if f.md = 4 then .no else .pred, md := decide (f.md.toNat ≤ 4) })
  | .iadd f => some (f, form2 f tInt (f.md == 0))
  | .isub f => some (f, form2 f tInt (f.md == 0))
  | .imul f => some (f, form2 f tInt (f.md == 0))
  | .imulh f => some (f, form2 f tInt (f.md == 0))
  | .imad f => some (f, { form2 f tInt (f.md == 0) with c := srcTy f.ty })
  | .imin f => some (f, form2 f tInt (f.md == 0))
  | .imax f => some (f, form2 f tInt (f.md == 0))
  | .iabs f => some (f, form1 f [0, 2] (f.md == 0))
  | .iand f => some (f, form2 f tInt (f.md == 0))
  | .ior f => some (f, form2 f tInt (f.md == 0))
  | .ixor f => some (f, form2 f tInt (f.md == 0))
  | .inot f => some (f, form1 f tInt (f.md == 0))
  | .ishl f => some (f, { form2 f tInt (f.md == 0) with b := .w32 })
  | .ishr f => some (f, { form2 f tInt (f.md == 0) with b := .w32 })
  | .isar f => some (f, { form2 f tInt (f.md == 0) with b := .w32 })
  | .icmp f => some (f, { form2 f tInt (decide (f.md.toNat ≤ 5)) with dst := .pred, wbs := false })
  | .popc f => some (f, form1 f [1, 3] (f.md == 0))
  | .clz f => some (f, form1 f [1, 3] (f.md == 0))
  | .brev f => some (f, form1 f [1, 3] (f.md == 0))
  | .bfe f => some (f, { form2 f tInt (f.md == 0) with b := .w32 })
  | .bfi f => some (f, { form2 f [1, 3] (f.md == 0) with c := .w32 })
  | .idiv f => some (f, form2 f tInt (f.md == 0))
  | .irem f => some (f, form2 f tInt (f.md == 0))
  | .fadd f => some (f, form2 f tFlt (rmOk f))
  | .fsub f => some (f, form2 f tFlt (rmOk f))
  | .fmul f => some (f, form2 f tFlt (rmOk f))
  | .ffma f => some (f, { form2 f tFlt (rmOk f) with c := .w32 })
  | .fmin f => some (f, form2 f tFlt (f.md == 0))
  | .fmax f => some (f, form2 f tFlt (f.md == 0))
  | .fcmp f => some (f, { form2 f tFlt true with dst := .pred, wbs := false })
  | .fclass f => some (f, { form1 f tFlt (f.md == 0) with dst := .pred, wbs := false, k := decide (f.imm.toNat < 1024) })
  | .frcp f => some (f, form1 f tFlt (rmOk f))
  | .frsq f => some (f, form1 f tFlt (rmOk f))
  | .fsqrt f => some (f, form1 f tFlt (rmOk f))
  | .fex2 f => some (f, form1 f tFlt (rmOk f))
  | .flg2 f => some (f, form1 f tFlt (rmOk f))
  | .fdiv f => some (f, form2 f tFlt (rmOk f))
  | .cvt f => some (f, { form1 f (List.range 16) (rmOk f) with
      a := srcTy (f.imm.extractLsb' 0 4),
      k := decide (f.imm.toNat < 32) && !(tyIsInt f.ty.toNat && f.imm.getLsbD 4) })
  | .pack f => some (f, { form1 f tPack (rmOk f) with
      dst := .w32, b := .w32, k := decide (f.imm.toNat < 16) && decide (f.imm.toNat % 8 < 32 / tyBits f.ty.toNat) &&
        !(tyIsInt f.ty.toNat && f.imm.getLsbD 3) })
  | .unpk f => some (f, { form1 f tPack (f.md == 0) with
      dst := .w32, k := decide (f.imm.toNat < 8) && decide (f.imm.toNat < 32 / tyBits f.ty.toNat) })
  | .dp4i f => some (f, formDot f [0] true (decide (f.md.toNat < 4)))
  | .dp8i f => some (f, formDot f [0] true (decide (f.md.toNat < 4)))
  | .dp4f f => some (f, formDot f [7, 8] false (rmOk f))
  | .dp8f f => some (f, formDot f [11] false (rmOk f))
  | .mxscale f => some (f, form2 f tFlt (rmOk f))
  | .qcvt f =>
    let n := f.imm.toNat
    some (f, { form1 f [7, 8, 9, 10, 11, 12] (f.md == 0) with
      k := decide (n < 2 ^ 14) && (if f.imm.getLsbD 13 then decide (fld n 6 0 ≤ 100) && decide (fld n 12 7 ≤ 32) else n == 0) })
  | .dqcvt f => some (f, form1 f [7, 8, 9, 10, 11, 12] (rmOk f))
  | .shfl f => some (f, { form2 f tAny32 (f.md == 0) with b := .w32 })
  | .shflx f => some (f, { form2 f tAny32 (decide (f.md.toNat ≤ 2)) with b := .w32 })
  | .vred f => some (f, form1 f [0, 1, 2, 3, 4] (decide (f.md.toNat ≤ 5) && !(f.ty == 4 && decide (3 ≤ f.md.toNat))))
  | .vscan f => some (f, form1 f [0, 1, 2, 3, 4] (decide (f.md.toNat ≤ 5) && !(f.ty == 4 && decide (3 ≤ f.md.toNat))))
  | .vvote f => some (f, { formCtl (f.imm == 0) false with
      dst := if f.md = 2 then .w64 else .pred, a := .w32, wbs := f.md == 2, md := decide (f.md.toNat ≤ 2) })
  | .vfirst f => some (f, form1 f tAny32 (f.md == 0))
  | .ldt f => some (f, formMem f false)
  | .stt f => some (f, formMem f true)
  | .ldc f => some (f, formMem f false)
  | .stc f => some (f, formMem f true)
  | .lds f => some (f, formMem f false)
  | .sts f => some (f, formMem f true)
  | .att f => some (f, formAt f)
  | .atc f => some (f, formAt f)
  | .accrd f => some (f, { formMem f false with tys := [0, 4], md := true })
  | .accwr f => some (f, { formMem f true with tys := [0, 4], md := true })
  | .gath f => some (f, formGs f [0, 1] false)
  | .scat f => some (f, formGs f [0, 1] false)
  | .scatAdd f => some (f, formGs f [0, 1, 2, 3, 4] true)
  | .matom f =>
    let ret := f.imm.getLsbD 27
    some (f, { formAt f with
      dst := if ret then dstTy f.ty else .no, a := .w64, wbs := ret,
      k := fld f.imm.toNat 26 0 == 0 && ordOk f.md.toNat (fld f.imm.toNat 31 28) && !(f.md == 0 && !ret) && !(f.md == 1 && ret) })
  | .bra f => some (f, { formCtl true false with md := f.md == 0 })
  | .lcall f => some (f, { formCtl true false with dst := .w32, wbs := true, md := f.md == 0 })
  | .lret f => some (f, { formCtl (f.imm == 0) false with a := .w32, md := f.md == 0 })
  | .rcvMark f => some (f, { formCtl (decide (f.imm.toNat < 8)) true with md := f.md == 0 })
  | .rcvWait f => some (f, { formCtl (decide (8 ≤ f.imm.toNat) && decide (f.imm.toNat < 16)) true with md := f.md == 0 })
  | .lend f => some (f, { formCtl (f.imm == 0) true with md := f.md == 0 })
  | .refill f => some (f, { formCtl (decide (f.imm.toNat < 256)) false with dst := .w64, wbs := true, md := f.md == 0 })
  | .idle f => some (f, { formCtl (f.imm == 0) false with md := f.md == 0 })
  | .ltrap f => some (f, { formCtl true false with md := f.md == 0 })
  | _ => none

/-- A source field is well formed (R30). -/
def SrcK.ok (k : SrcK) (x : BitVec 11) : Bool :=
  let n := x.toNat
  match k with
  | .no => n == 0
  | .pred => decide (n < 8)
  | .kreg => decide (1008 ≤ n) && decide (n < 1024)
  | .w32 => decide (n < 640) || decide (1008 ≤ n ∧ n < 1024) || decide (1024 ≤ n ∧ n < 1028)
  | .w64 => (decide (n < 640) && n % 2 == 0) || decide (1008 ≤ n ∧ n < 1024) || decide (1024 ≤ n ∧ n < 1028)

/-- A destination field is well formed (R30, R36). -/
def DstK.ok (k : DstK) (x : BitVec 10) : Bool :=
  let n := x.toNat
  match k with
  | .no => n == 0
  | .one => n == 1
  | .pred => decide (n < 8)
  | .w32 => decide (n < 640)
  | .w64 => decide (n < 640) && n % 2 == 0

/-- An immediate fits its type (R287). -/
def immFits (ty : Nat) (imm : W32) : Bool :=
  match ty with
  | 12 => imm == (imm.extractLsb' 0 8).signExtend 32
  | 14 => imm == (imm.extractLsb' 0 16).signExtend 32
  | n => decide (imm.toNat < 2 ^ tyBits n)

/-- A lane instruction is legal in its fields (R30, R36, R286, R287, R341, R342). -/
def LaneSpec.legal (p : LaneSpec) (f : LaneFields) : Bool :=
  memb' p.tys f.ty.toNat && p.md && (if f.i then p.imm && f.b == 0 && immFits f.ty.toNat f.imm else p.k) &&
  p.a.ok f.a && (f.i || p.b.ok f.b) && p.c.ok f.c && p.dst.ok f.dst && (!f.wbs || (p.wbs && f.dst == 0)) &&
  (!p.unpr || (f.pred == 0 && !f.neg))
where
  /-- Membership. -/
  memb' (l : List Nat) (n : Nat) : Bool := l.any (· == n)

/-- A v register that an operand names lies beyond what the warp owns (R30). -/
def SrcK.beyond (k : SrcK) (c : Nat) (x : BitVec 11) : Bool :=
  match k with
  | .w32 => decide (x.toNat < 640 ∧ c ≤ x.toNat)
  | .w64 => decide (x.toNat < 640 ∧ c ≤ x.toNat + 1)
  | _ => false

/-- A destination lies beyond what the warp owns (R30). -/
def DstK.beyond (k : DstK) (c : Nat) (x : BitVec 10) : Bool :=
  match k with
  | .w32 => decide (c ≤ x.toNat)
  | .w64 => decide (c ≤ x.toNat + 1)
  | _ => false

/-! ### Sequencer instructions -/

/-- Rows or columns of a shape code (R290). -/
def dimOf (code : Nat) : Nat := 16 * 2 ^ code

/-- M of a shape. -/
def shapeM (sh : BitVec 5) : Nat := dimOf (fld sh.toNat 4 3)
/-- N of a shape. -/
def shapeN (sh : BitVec 5) : Nat := dimOf (fld sh.toNat 2 1)

/-- The accumulator that a shape permits (R290). -/
def accOk (sh : BitVec 5) (acc : BitVec 3) : Bool :=
  let big := decide (shapeM sh = 128) 
  let wide := decide (shapeN sh = 128)
  if big && wide then acc.toNat % 4 == 0 else if big || wide then acc.toNat % 2 == 0 else true

/-- The width of a view or `mquant` target code, if it is one (R144, R397). -/
def targetBits (fmt : Nat) : Option Nat :=
  match fmt with
  | 6 => some 16
  | 7 => some 8
  | 8 => some 8
  | 9 => some 6
  | 10 => some 6
  | 11 => some 4
  | 12 => some 8
  | _ => none

/-- A field limit of an instruction of any stream (R292). -/
def legalStatic (i : Instr) : Bool :=
  match laneSpec i with
  | some (f, p) => p.legal f
  | none => match i with
    | .fence ord scope => ord != 0 && decide (scope.toNat ≤ 4)
    | .barArrive _ _ e => e != 0
    | .barSync _ _ e => e != 0
    | .kmov d _ => decide (d.toNat ≤ 15)
    | .waitc c _ => decide (c.toNat ≤ 5)
    | .yieldc c _ _ => decide (c.toNat ≤ 5)
    | .copy _ _ _ dir _ => dir != 7
    | .copy2d _ _ _ dir _ => dir != 7
    | .sld _ _ _ sz sx _ => !(sx && sz == 3)
    | .signalSetInsn _ _ scope => decide (scope.toNat ≤ 4)
    | .signalAdd _ _ scope => decide (scope.toNat ≤ 4)
    | .signalWaitInsn _ _ cmp _ scope => decide (scope.toNat ≤ 4) && cmp != 3
    | .satom a _ c aop _ ordsc => ordOk aop.toNat ordsc.toNat && (aop != 0 || c == 0) && (aop != 1 || a == 0)
    | .placeHint _ _ t => t != 3
    | .placeReq _ _ _ t => t != 3
    | .lbldn index _ kind => match kind.toNat with
      | 0 => decide (index.toNat ≤ 63)
      | 1 => decide (index.toNat ≤ 15)
      | 2 => decide (index.toNat < 640)
      | _ => decide (index.toNat ≤ 7)
    | .mma sh acc _ _ _ _ _ => accOk sh acc
    | .mmas sh acc _ _ _ _ _ _ => accOk sh acc
    | .mzero sh acc => accOk sh acc && !sh.getLsbD 0
    | .mload sh acc _ _ => accOk sh acc && !sh.getLsbD 0
    | .mstore sh acc _ pitch => accOk sh acc && !sh.getLsbD 0 && (pitch == 0 || decide (4 * shapeN sh ≤ pitch.toNat))
    | .mquant sh acc _ rb fmt clip p fl _ pitch =>
      accOk sh acc && !sh.getLsbD 0 && (match targetBits fmt.toNat with
        | none => false
        | some w => (decide (32 ≤ shapeN sh) || fmt == 6) && (pitch == 0 || decide (shapeN sh * w / 8 ≤ pitch.toNat))) &&
      (fmt != 6 || rb == 0) && (if clip then decide (p.toNat ≤ 100) && decide (fl.toNat ≤ 32) else p == 0 && fl == 0)
    | .mscale sh acc ra rb _ col row => accOk sh acc && !sh.getLsbD 0 && (row || ra == 0) && (col || rb == 0)
    | .madd _ _ rf reg imm => if reg then imm == 0 else rf == 0
    | .marrive _ ra tok e => e != 0 && (tok || ra == 0)
    | _ => true

end Sys2Proof.Machine
end

