-- ==== Sys2Proof/WellFormed.lean ====
section
/-!
DEFINITION. Well-formed instructions: those that no state is needed to refuse (R292). What depends on the state (a register
beyond those the warp owns, privilege, handler mode) is checked where the instruction executes.
-/
namespace Sys2Proof

/-- The instruction is legal in all its fields (R292). -/
def Instr.wf (i : Instr) : Bool := Machine.legalStatic i

end Sys2Proof
end

