-- ==== Sys2Proof/Decode.lean ====
section
/-!
DEFINITION. The decoder of the three streams (R280 to R291), total on any bytes, rejecting by name what the tables leave
unassigned and every nonzero fixed or reserved field; after it the encoder, from the same tables. What depends on values
of fields that the table's row names is `Instr.wf`; what depends on the launch is checked by the meanings.
-/
namespace Sys2Proof
open Sys2Proof.Machine

/-- The three instruction streams (R21). -/
inductive Stream where
  /-- `.scode`: 32-bit words. -/
  | scalar
  /-- `.lcode`: 96-bit words. -/
  | lane
  /-- `.mcode`: 64-bit words. -/
  | seq
  deriving DecidableEq, Repr

/-- Why bytes are no instruction (R292, R293). -/
inductive Reject where
  /-- The opcode is unassigned. -/
  | opcode
  /-- The fn of the ALU group is unassigned. -/
  | function
  /-- A fixed or reserved field does not hold its value. -/
  | reserved
  /-- Fewer bytes than a word of the stream. -/
  | short
  deriving DecidableEq, Repr

/-- One bit of a word. -/
def bitF {n : Nat} (w : BitVec n) (i : Nat) : Bool := w.getLsbD i

/-- The ALU group by fn (R284). -/
def decodeAlu (w : BitVec 32) : Except Reject Instr :=
  let d := w.extractLsb' 20 6
  let a := w.extractLsb' 14 6
  let b := w.extractLsb' 8 6
  match (w.extractLsb' 0 8).toNat with
  | 0 => .ok (.add d a b)
  | 1 => .ok (.sub d a b)
  | 2 => .ok (.and d a b)
  | 3 => .ok (.or d a b)
  | 4 => .ok (.xor d a b)
  | 5 => .ok (.shl d a b)
  | 6 => .ok (.shr d a b)
  | 7 => .ok (.sar d a b)
  | 8 => .ok (.mul d a b)
  | 9 => .ok (.mulhn d a b)
  | 10 => .ok (.mulh d a b)
  | 11 => .ok (.divn d a b)
  | 12 => .ok (.remn d a b)
  | 13 => .ok (.min d a b)
  | 14 => .ok (.max d a b)
  | 15 => .ok (.minn d a b)
  | 16 => .ok (.maxn d a b)
  | 17 => .ok (.seq d a b)
  | 18 => .ok (.sne d a b)
  | 19 => .ok (.slt d a b)
  | 20 => .ok (.sltn d a b)
  | _ => .error .function

/-- A scalar word (R283, R285). -/
def decodeScalar (w : BitVec 32) : Except Reject Instr :=
  match (w.extractLsb' 26 6).toNat with
  | 1 => decodeAlu w
  | 2 => .ok (.addi (w.extractLsb' 20 6) (w.extractLsb' 14 6) (w.extractLsb' 0 14))
  | 3 => .ok (.andi (w.extractLsb' 20 6) (w.extractLsb' 14 6) (w.extractLsb' 0 14))
  | 4 => .ok (.ori (w.extractLsb' 20 6) (w.extractLsb' 14 6) (w.extractLsb' 0 14))
  | 5 => .ok (.xori (w.extractLsb' 20 6) (w.extractLsb' 14 6) (w.extractLsb' 0 14))
  | 6 => 
    if w &&& 0x3fc0 = 0x0 then .ok (.shli (w.extractLsb' 20 6) (w.extractLsb' 14 6) (w.extractLsb' 0 6)) else .error .reserved
  | 7 => 
    if w &&& 0x3fc0 = 0x0 then .ok (.shri (w.extractLsb' 20 6) (w.extractLsb' 14 6) (w.extractLsb' 0 6)) else .error .reserved
  | 8 => 
    if w &&& 0x3fc0 = 0x0 then .ok (.sari (w.extractLsb' 20 6) (w.extractLsb' 14 6) (w.extractLsb' 0 6)) else .error .reserved
  | 9 => .ok (.slti (w.extractLsb' 20 6) (w.extractLsb' 14 6) (w.extractLsb' 0 14))
  | 10 => .ok (.sltni (w.extractLsb' 20 6) (w.extractLsb' 14 6) (w.extractLsb' 0 14))
  | 11 => .ok (.lui (w.extractLsb' 20 6) (w.extractLsb' 0 20))
  | 12 => .ok (.bz (w.extractLsb' 20 6) (w.extractLsb' 0 20))
  | 13 => .ok (.bnz (w.extractLsb' 20 6) (w.extractLsb' 0 20))
  | 14 => .ok (.bltz (w.extractLsb' 20 6) (w.extractLsb' 0 20))
  | 15 => .ok (.bgez (w.extractLsb' 20 6) (w.extractLsb' 0 20))
  | 16 => .ok (.jmp (w.extractLsb' 0 26))
  | 17 => .ok (.call (w.extractLsb' 20 6) (w.extractLsb' 0 20))
  | 18 => 
    if w &&& 0x3f03fff = 0x0 then .ok (.jr (w.extractLsb' 14 6)) else .error .reserved
  | 19 => 
    if w &&& 0xf = 0x0 then .ok (.sld (w.extractLsb' 20 6) (w.extractLsb' 14 6) (w.extractLsb' 8 6) (w.extractLsb' 6 2) (bitF w 5) (bitF w 4)) else .error .reserved
  | 20 => 
    if w &&& 0x2f = 0x0 then .ok (.sst (w.extractLsb' 20 6) (w.extractLsb' 14 6) (w.extractLsb' 8 6) (w.extractLsb' 6 2) (bitF w 4)) else .error .reserved
  | 21 => .ok (.argld (w.extractLsb' 20 6) (w.extractLsb' 14 6) (w.extractLsb' 0 14))
  | 22 => 
    if w &&& 0x3fff = 0x0 then .ok (.kmov (w.extractLsb' 20 6) (w.extractLsb' 14 6)) else .error .reserved
  | 23 => 
    if w &&& 0x3f00000 = 0x0 then .ok (.lrun (w.extractLsb' 0 20)) else .error .reserved
  | 24 => 
    if w &&& 0x3ffffff = 0x0 then .ok (.lsync) else .error .reserved
  | 25 => 
    if w &&& 0x3ffffff = 0x0 then .ok (.yield) else .error .reserved
  | 26 => 
    if w &&& 0x3800000 = 0x0 then .ok (.yieldc (w.extractLsb' 20 3) (w.extractLsb' 12 8) (w.extractLsb' 0 12)) else .error .reserved
  | 27 => 
    if w &&& 0x3ffc700 = 0x0 then .ok (.waitc (w.extractLsb' 11 3) (w.extractLsb' 0 8)) else .error .reserved
  | 28 => 
    if w &&& 0x3ffffff = 0x0 then .ok (.exit) else .error .reserved
  | 29 => 
    if w &&& 0xff0c0 = 0x0 then .ok (.barArrive (w.extractLsb' 20 6) (w.extractLsb' 8 4) (w.extractLsb' 0 6)) else
    if w &&& 0x3f030ff = 0x1000 then .ok (.barWait (w.extractLsb' 14 6) (w.extractLsb' 8 4)) else
    if w &&& 0xff0c0 = 0x2000 then .ok (.barSync (w.extractLsb' 20 6) (w.extractLsb' 8 4) (w.extractLsb' 0 6)) else .error .reserved
  | 30 => 
    if w &&& 0x3ffffe0 = 0x0 then .ok (.fence (w.extractLsb' 3 2) (w.extractLsb' 0 3)) else .error .reserved
  | 31 => 
    if w &&& 0x3fffff8 = 0x0 then .ok (.tokacq (w.extractLsb' 0 3)) else .error .reserved
  | 32 => 
    if w &&& 0x3fffff8 = 0x0 then .ok (.tokrel (w.extractLsb' 0 3)) else .error .reserved
  | 33 => 
    if w &&& 0xf = 0x0 then .ok (.copy (w.extractLsb' 20 6) (w.extractLsb' 14 6) (w.extractLsb' 8 6) (w.extractLsb' 5 3) (bitF w 4)) else .error .reserved
  | 34 => 
    if w &&& 0xf = 0x0 then .ok (.copy2d (w.extractLsb' 20 6) (w.extractLsb' 14 6) (w.extractLsb' 8 6) (w.extractLsb' 5 3) (bitF w 4)) else .error .reserved
  | 35 => 
    if w &&& 0x3fc0 = 0x0 then .ok (.nstore (w.extractLsb' 20 6) (w.extractLsb' 14 6) (w.extractLsb' 0 6)) else .error .reserved
  | 36 => 
    if w &&& 0xfffff = 0x0 then .ok (.namepop (w.extractLsb' 20 6)) else .error .reserved
  | 37 => 
    if w &&& 0x3fc0 = 0x0 then .ok (.relq (w.extractLsb' 20 6) (w.extractLsb' 14 6) (w.extractLsb' 0 6)) else .error .reserved
  | 38 => 
    if w &&& 0x3ffffff = 0x0 then .ok (.vfence) else .error .reserved
  | 39 => 
    if w &&& 0xfffff = 0x0 then .ok (.coll (w.extractLsb' 20 6)) else .error .reserved
  | 40 => 
    if w &&& 0x3fff = 0x0 then .ok (.launch (w.extractLsb' 20 6) (w.extractLsb' 14 6)) else .error .reserved
  | 41 => 
    if w &&& 0x3f000f8 = 0x0 then .ok (.signalSetInsn (w.extractLsb' 14 6) (w.extractLsb' 8 6) (w.extractLsb' 0 3)) else
    if w &&& 0x3f000f8 = 0x40 then .ok (.signalAdd (w.extractLsb' 14 6) (w.extractLsb' 8 6) (w.extractLsb' 0 3)) else
    if w &&& 0x3f000c0 = 0x80 then .ok (.signalWaitInsn (w.extractLsb' 14 6) (w.extractLsb' 8 6) (w.extractLsb' 4 2) (bitF w 3) (w.extractLsb' 0 3)) else .error .reserved
  | 42 => .ok (.satom (w.extractLsb' 20 6) (w.extractLsb' 14 6) (w.extractLsb' 8 6) (w.extractLsb' 5 3) (bitF w 4) (w.extractLsb' 0 4))
  | 43 => 
    if w &&& 0xfff00 = 0x0 then .ok (.dqpush (w.extractLsb' 20 6) (w.extractLsb' 6 2) (w.extractLsb' 0 6)) else .error .reserved
  | 44 => 
    if w &&& 0xfff00 = 0x0 then .ok (.dqpop (w.extractLsb' 20 6) (w.extractLsb' 6 2) (w.extractLsb' 0 6)) else .error .reserved
  | 45 => 
    if w &&& 0xfff00 = 0x0 then .ok (.dqsteal (w.extractLsb' 20 6) (w.extractLsb' 6 2) (w.extractLsb' 0 6)) else .error .reserved
  | 46 => 
    if w &&& 0xfffff = 0x0 then .ok (.bndmin (w.extractLsb' 20 6)) else .error .reserved
  | 47 => 
    if w &&& 0xfffff = 0x0 then .ok (.bndrd (w.extractLsb' 20 6)) else .error .reserved
  | 48 => 
    if w &&& 0xfffc0 = 0x0 then .ok (.role (w.extractLsb' 20 6) (w.extractLsb' 0 6)) else .error .reserved
  | 49 => 
    if w &&& 0xff000 = 0x0 then .ok (.csrr (w.extractLsb' 20 6) (w.extractLsb' 0 12)) else .error .reserved
  | 50 => 
    if w &&& 0x3f03000 = 0x0 then .ok (.csrw (w.extractLsb' 14 6) (w.extractLsb' 0 12)) else .error .reserved
  | 51 => 
    if w &&& 0x3f00000 = 0x0 then .ok (.trap (w.extractLsb' 0 20)) else .error .reserved
  | 52 => 
    if w &&& 0x3ff9 = 0x0 then .ok (.placeHint (w.extractLsb' 20 6) (w.extractLsb' 14 6) (w.extractLsb' 1 2)) else
    if w &&& 0xf9 = 0x1 then .ok (.placeReq (w.extractLsb' 20 6) (w.extractLsb' 14 6) (w.extractLsb' 8 6) (w.extractLsb' 1 2)) else .error .reserved
  | 53 => 
    if w &&& 0x3fff = 0x0 then .ok (.savev (w.extractLsb' 20 6) (w.extractLsb' 14 6)) else .error .reserved
  | 54 => 
    if w &&& 0x3fff = 0x0 then .ok (.restv (w.extractLsb' 20 6) (w.extractLsb' 14 6)) else .error .reserved
  | 55 => 
    if w &&& 0xff = 0x0 then .ok (.savet (w.extractLsb' 20 6) (w.extractLsb' 14 6) (w.extractLsb' 8 6)) else .error .reserved
  | 56 => 
    if w &&& 0xff = 0x0 then .ok (.restt (w.extractLsb' 20 6) (w.extractLsb' 14 6) (w.extractLsb' 8 6)) else .error .reserved
  | 57 => 
    if w &&& 0x3ffffff = 0x0 then .ok (.tret) else
    if w &&& 0x3ffffff = 0x1 then .ok (.tretSkip) else .error .reserved
  | 58 => 
    if w &&& 0xff = 0x0 then .ok (.mapedit (w.extractLsb' 20 6) (w.extractLsb' 14 6) (w.extractLsb' 8 6)) else .error .reserved
  | 59 => 
    if w &&& 0xff = 0x0 then .ok (.mapsync (w.extractLsb' 20 6) (w.extractLsb' 14 6) (w.extractLsb' 8 6)) else .error .reserved
  | 60 => 
    if w &&& 0xfc0ff = 0x0 then .ok (.refitf (w.extractLsb' 20 6) (w.extractLsb' 8 6)) else .error .reserved
  | 61 => 
    if w &&& 0x3f00007 = 0x0 then .ok (.lbldn (w.extractLsb' 8 12) (w.extractLsb' 5 3) (w.extractLsb' 3 2)) else .error .reserved
  | _ => .error .opcode

/-- The fields of a lane instruction (R286). -/
def laneFields (w : BitVec 96) : LaneFields :=
  { ty := w.extractLsb' 84 4, pred := w.extractLsb' 81 3, neg := bitF w 80, wbs := bitF w 79, dst := w.extractLsb' 69 10,
    a := w.extractLsb' 58 11, b := w.extractLsb' 47 11, c := w.extractLsb' 36 11, i := bitF w 35,
    md := w.extractLsb' 32 3, imm := w.extractLsb' 0 32 }

/-- A lane instruction (R288). `SCAT.ADD` is `SCAT` with bit 0 of dst (R375); `RCV` by bit 3 of its constant (R379). -/
def decodeLane (w : BitVec 96) : Except Reject Instr :=
  let f := laneFields w
  match (w.extractLsb' 88 8).toNat with
  | 1 => .ok (.mov f)
  | 2 => .ok (.laneid f)
  | 3 => .ok (.sel f)
  | 4 => .ok (.pset f)
  | 16 => .ok (.iadd f)
  | 17 => .ok (.isub f)
  | 18 => .ok (.imul f)
  | 19 => .ok (.imulh f)
  | 20 => .ok (.imad f)
  | 21 => .ok (.imin f)
  | 22 => .ok (.imax f)
  | 23 => .ok (.iabs f)
  | 24 => .ok (.iand f)
  | 25 => .ok (.ior f)
  | 26 => .ok (.ixor f)
  | 27 => .ok (.inot f)
  | 28 => .ok (.ishl f)
  | 29 => .ok (.ishr f)
  | 30 => .ok (.isar f)
  | 31 => .ok (.icmp f)
  | 32 => .ok (.popc f)
  | 33 => .ok (.clz f)
  | 34 => .ok (.brev f)
  | 35 => .ok (.bfe f)
  | 36 => .ok (.bfi f)
  | 37 => .ok (.idiv f)
  | 38 => .ok (.irem f)
  | 48 => .ok (.fadd f)
  | 49 => .ok (.fsub f)
  | 50 => .ok (.fmul f)
  | 51 => .ok (.ffma f)
  | 52 => .ok (.fmin f)
  | 53 => .ok (.fmax f)
  | 54 => .ok (.fcmp f)
  | 55 => .ok (.fclass f)
  | 56 => .ok (.frcp f)
  | 57 => .ok (.frsq f)
  | 58 => .ok (.fsqrt f)
  | 59 => .ok (.fex2 f)
  | 60 => .ok (.flg2 f)
  | 61 => .ok (.fdiv f)
  | 64 => .ok (.cvt f)
  | 65 => .ok (.pack f)
  | 66 => .ok (.unpk f)
  | 67 => .ok (.dp4i f)
  | 68 => .ok (.dp8i f)
  | 69 => .ok (.dp4f f)
  | 70 => .ok (.dp8f f)
  | 71 => .ok (.mxscale f)
  | 72 => .ok (.qcvt f)
  | 73 => .ok (.dqcvt f)
  | 80 => .ok (.shfl f)
  | 81 => .ok (.shflx f)
  | 82 => .ok (.vred f)
  | 83 => .ok (.vscan f)
  | 84 => .ok (.vvote f)
  | 85 => .ok (.vfirst f)
  | 96 => .ok (.ldt f)
  | 97 => .ok (.stt f)
  | 98 => .ok (.ldc f)
  | 99 => .ok (.stc f)
  | 100 => .ok (.lds f)
  | 101 => .ok (.sts f)
  | 102 => .ok (.att f)
  | 103 => .ok (.atc f)
  | 104 => .ok (.accrd f)
  | 105 => .ok (.accwr f)
  | 112 => .ok (.gath f)
  | 113 => if f.dst = 1 then .ok (.scatAdd f) else .ok (.scat f)
  | 114 => .ok (.matom f)
  | 128 => .ok (.bra f)
  | 129 => .ok (.lcall f)
  | 130 => .ok (.lret f)
  | 131 => if f.imm.getLsbD 3 then .ok (.rcvWait f) else .ok (.rcvMark f)
  | 132 => .ok (.lend f)
  | 133 => .ok (.refill f)
  | 134 => .ok (.idle f)
  | 135 => .ok (.ltrap f)
  | _ => .error .opcode

/-- A sequencer instruction (R289, R291). -/
def decodeSeq (w : BitVec 64) : Except Reject Instr :=
  match (w.extractLsb' 56 8).toNat with
  | 1 => if w &&& 0xcffffffff = 0 then .ok (.mma (w.extractLsb' 51 5) (w.extractLsb' 48 3) (w.extractLsb' 44 4) (w.extractLsb' 40 4) (w.extractLsb' 36 4) (bitF w 33) (bitF w 32)) else .error .reserved
  | 2 => if w &&& 0xffffffff = 0 then .ok (.mmas (w.extractLsb' 51 5) (w.extractLsb' 48 3) (w.extractLsb' 44 4) (w.extractLsb' 40 4) (w.extractLsb' 36 4) (w.extractLsb' 34 2) (bitF w 33) (bitF w 32)) else .error .reserved
  | 3 => if w &&& 0xffffffffffff = 0 then .ok (.mzero (w.extractLsb' 51 5) (w.extractLsb' 48 3)) else .error .reserved
  | 4 => if w &&& 0xffffff00000 = 0 then .ok (.mload (w.extractLsb' 51 5) (w.extractLsb' 48 3) (w.extractLsb' 44 4) (w.extractLsb' 0 20)) else .error .reserved
  | 5 => if w &&& 0xffffff00000 = 0 then .ok (.mstore (w.extractLsb' 51 5) (w.extractLsb' 48 3) (w.extractLsb' 44 4) (w.extractLsb' 0 20)) else .error .reserved
  | 6 => if w &&& 0xff00000000 = 0 then .ok (.mquant (w.extractLsb' 51 5) (w.extractLsb' 48 3) (w.extractLsb' 44 4) (w.extractLsb' 40 4) (w.extractLsb' 28 4) (bitF w 27) (w.extractLsb' 20 7) (w.extractLsb' 14 6) (bitF w 13) (w.extractLsb' 0 13)) else .error .reserved
  | 7 => if w &&& 0xfffffffff8 = 0 then .ok (.mscale (w.extractLsb' 51 5) (w.extractLsb' 48 3) (w.extractLsb' 44 4) (w.extractLsb' 40 4) (bitF w 2) (bitF w 1) (bitF w 0)) else .error .reserved
  | 16 => if w &&& 0xff0fff00000000 = 0 then .ok (.mset (w.extractLsb' 44 4) (w.extractLsb' 0 32)) else .error .reserved
  | 17 => if w &&& 0xff000e00000000 = 0 then .ok (.madd (w.extractLsb' 44 4) (w.extractLsb' 40 4) (w.extractLsb' 36 4) (bitF w 32) (w.extractLsb' 0 32)) else .error .reserved
  | 18 => if w &&& 0xff0fff00000000 = 0 then .ok (.mloop (w.extractLsb' 44 4) (w.extractLsb' 0 32)) else .error .reserved
  | 19 => if w &&& 0xffffff00000000 = 0 then .ok (.mjmp (w.extractLsb' 0 32)) else .error .reserved
  | 20 => if w &&& 0xffffffffffffff = 0 then .ok (.mhalt) else .error .reserved
  | 32 => if w &&& 0xff0ffffffffff0 = 0 then .ok (.mwait (w.extractLsb' 0 4) (w.extractLsb' 44 4)) else .error .reserved
  | 33 => if w &&& 0xff0ffffffec0f0 = 0 then .ok (.marrive (w.extractLsb' 0 4) (w.extractLsb' 44 4) (bitF w 16) (w.extractLsb' 8 6)) else .error .reserved
  | 34 => if w &&& 0xf8ffffffffffff = 0 then .ok (.mtrel (w.extractLsb' 48 3)) else .error .reserved
  | 35 => if w &&& 0xf8ffffffffffff = 0 then .ok (.mtacq (w.extractLsb' 48 3)) else .error .reserved
  | 36 => if w &&& 0xffffffffffffff = 0 then .ok (.mfence) else .error .reserved
  | _ => .error .opcode

/-- Bytes of a word of the stream (R280). -/
def Stream.bytes : Stream → Nat
  | .scalar => 4
  | .lane => 12
  | .seq => 8

/-- A word of a stream given as a number. -/
def decodeWord (s : Stream) (w : Nat) : Except Reject Instr :=
  match s with
  | .scalar => decodeScalar (BitVec.ofNat 32 w)
  | .lane => decodeLane (BitVec.ofNat 96 w)
  | .seq => decodeSeq (BitVec.ofNat 64 w)

/-- The first instruction of a list of bytes, and the rest (R280: words are little-endian). -/
def decode (s : Stream) (bs : List Byte) : Except Reject (Instr × List Byte) :=
  if bs.length < s.bytes then .error .short
  else match decodeWord s (ofBytes (bs.take s.bytes)) with
    | .ok i => .ok (i, bs.drop s.bytes)
    | .error e => .error e

/-- The stream whose words have this many bits. -/
def streamOfBits (nbits : Nat) : Stream := if nbits = 96 then .lane else if nbits = 64 then .seq else .scalar

/-- The instruction that the decoder reads from a word numbered as the opcode table numbers it, its bytes laid out as the
hardware stores them. -/
def decodeTableWord (nbits w : Nat) : Option Instr :=
  let s := streamOfBits nbits
  match decode s (toBytes s.bytes w) with
  | .ok (i, _) => some i
  | .error _ => none

/-- Lays the fields of a lane instruction out (R286). -/
def packLane (op : BitVec 8) (f : LaneFields) : BitVec 96 :=
  op ++ f.ty ++ f.pred ++ BitVec.ofBool f.neg ++ BitVec.ofBool f.wbs ++ f.dst ++ f.a ++ f.b ++ f.c ++ BitVec.ofBool f.i
    ++ f.md ++ f.imm

/-- The word of a scalar instruction (R281 to R285); none for the others. -/
def encodeScalar (i : Instr) : Option (BitVec 32) :=
  match i with
  | .add d a b => some ((1 : BitVec 6) ++ d ++ a ++ b ++ (0 : BitVec 8))
  | .sub d a b => some ((1 : BitVec 6) ++ d ++ a ++ b ++ (1 : BitVec 8))
  | .and d a b => some ((1 : BitVec 6) ++ d ++ a ++ b ++ (2 : BitVec 8))
  | .or d a b => some ((1 : BitVec 6) ++ d ++ a ++ b ++ (3 : BitVec 8))
  | .xor d a b => some ((1 : BitVec 6) ++ d ++ a ++ b ++ (4 : BitVec 8))
  | .shl d a b => some ((1 : BitVec 6) ++ d ++ a ++ b ++ (5 : BitVec 8))
  | .shr d a b => some ((1 : BitVec 6) ++ d ++ a ++ b ++ (6 : BitVec 8))
  | .sar d a b => some ((1 : BitVec 6) ++ d ++ a ++ b ++ (7 : BitVec 8))
  | .mul d a b => some ((1 : BitVec 6) ++ d ++ a ++ b ++ (8 : BitVec 8))
  | .mulhn d a b => some ((1 : BitVec 6) ++ d ++ a ++ b ++ (9 : BitVec 8))
  | .mulh d a b => some ((1 : BitVec 6) ++ d ++ a ++ b ++ (10 : BitVec 8))
  | .divn d a b => some ((1 : BitVec 6) ++ d ++ a ++ b ++ (11 : BitVec 8))
  | .remn d a b => some ((1 : BitVec 6) ++ d ++ a ++ b ++ (12 : BitVec 8))
  | .min d a b => some ((1 : BitVec 6) ++ d ++ a ++ b ++ (13 : BitVec 8))
  | .max d a b => some ((1 : BitVec 6) ++ d ++ a ++ b ++ (14 : BitVec 8))
  | .minn d a b => some ((1 : BitVec 6) ++ d ++ a ++ b ++ (15 : BitVec 8))
  | .maxn d a b => some ((1 : BitVec 6) ++ d ++ a ++ b ++ (16 : BitVec 8))
  | .seq d a b => some ((1 : BitVec 6) ++ d ++ a ++ b ++ (17 : BitVec 8))
  | .sne d a b => some ((1 : BitVec 6) ++ d ++ a ++ b ++ (18 : BitVec 8))
  | .slt d a b => some ((1 : BitVec 6) ++ d ++ a ++ b ++ (19 : BitVec 8))
  | .sltn d a b => some ((1 : BitVec 6) ++ d ++ a ++ b ++ (20 : BitVec 8))
  | .addi d a imm => some ((2 : BitVec 6) ++ d ++ a ++ imm)
  | .andi d a imm => some ((3 : BitVec 6) ++ d ++ a ++ imm)
  | .ori d a imm => some ((4 : BitVec 6) ++ d ++ a ++ imm)
  | .xori d a imm => some ((5 : BitVec 6) ++ d ++ a ++ imm)
  | .shli d a sh => some ((6 : BitVec 6) ++ d ++ a ++ (0 : BitVec 8) ++ sh)
  | .shri d a sh => some ((7 : BitVec 6) ++ d ++ a ++ (0 : BitVec 8) ++ sh)
  | .sari d a sh => some ((8 : BitVec 6) ++ d ++ a ++ (0 : BitVec 8) ++ sh)
  | .slti d a imm => some ((9 : BitVec 6) ++ d ++ a ++ imm)
  | .sltni d a imm => some ((10 : BitVec 6) ++ d ++ a ++ imm)
  | .lui d imm => some ((11 : BitVec 6) ++ d ++ imm)
  | .bz a disp => some ((12 : BitVec 6) ++ a ++ disp)
  | .bnz a disp => some ((13 : BitVec 6) ++ a ++ disp)
  | .bltz a disp => some ((14 : BitVec 6) ++ a ++ disp)
  | .bgez a disp => some ((15 : BitVec 6) ++ a ++ disp)
  | .jmp disp => some ((16 : BitVec 6) ++ disp)
  | .call d disp => some ((17 : BitVec 6) ++ d ++ disp)
  | .jr a => some ((1152 : BitVec 12) ++ a ++ (0 : BitVec 14))
  | .sld d a b sz sx sp => some ((19 : BitVec 6) ++ d ++ a ++ b ++ sz ++ BitVec.ofBool sx ++ BitVec.ofBool sp ++ (0 : BitVec 4))
  | .sst a b c sz sp => some ((20 : BitVec 6) ++ a ++ b ++ c ++ sz ++ (0 : BitVec 1) ++ BitVec.ofBool sp ++ (0 : BitVec 4))
  | .argld d a imm => some ((21 : BitVec 6) ++ d ++ a ++ imm)
  | .kmov d a => some ((22 : BitVec 6) ++ d ++ a ++ (0 : BitVec 14))
  | .lrun entry => some ((1472 : BitVec 12) ++ entry)
  | .lsync => some ((1610612736 : BitVec 32))
  | .yield => some ((1677721600 : BitVec 32))
  | .yieldc cls n disp => some ((208 : BitVec 9) ++ cls ++ n ++ disp)
  | .waitc cls n => some ((110592 : BitVec 18) ++ cls ++ (0 : BitVec 3) ++ n)
  | .exit => some ((1879048192 : BitVec 32))
  | .barArrive d n e => some ((29 : BitVec 6) ++ d ++ (0 : BitVec 8) ++ n ++ (0 : BitVec 2) ++ e)
  | .barWait a n => some ((1856 : BitVec 12) ++ a ++ (1 : BitVec 2) ++ n ++ (0 : BitVec 8))
  | .barSync d n e => some ((29 : BitVec 6) ++ d ++ (2 : BitVec 8) ++ n ++ (0 : BitVec 2) ++ e)
  | .fence ord scope => some ((62914560 : BitVec 27) ++ ord ++ scope)
  | .tokacq t => some ((260046848 : BitVec 29) ++ t)
  | .tokrel t => some ((268435456 : BitVec 29) ++ t)
  | .copy a b c dir stat => some ((33 : BitVec 6) ++ a ++ b ++ c ++ dir ++ BitVec.ofBool stat ++ (0 : BitVec 4))
  | .copy2d a b c dir stat => some ((34 : BitVec 6) ++ a ++ b ++ c ++ dir ++ BitVec.ofBool stat ++ (0 : BitVec 4))
  | .nstore a b role => some ((35 : BitVec 6) ++ a ++ b ++ (0 : BitVec 8) ++ role)
  | .namepop d => some ((36 : BitVec 6) ++ d ++ (0 : BitVec 20))
  | .relq a b role => some ((37 : BitVec 6) ++ a ++ b ++ (0 : BitVec 8) ++ role)
  | .vfence => some ((2550136832 : BitVec 32))
  | .coll a => some ((39 : BitVec 6) ++ a ++ (0 : BitVec 20))
  | .launch a b => some ((40 : BitVec 6) ++ a ++ b ++ (0 : BitVec 14))
  | .signalSetInsn b c scope => some ((2624 : BitVec 12) ++ b ++ c ++ (0 : BitVec 5) ++ scope)
  | .signalAdd b c scope => some ((2624 : BitVec 12) ++ b ++ c ++ (8 : BitVec 5) ++ scope)
  | .signalWaitInsn b c cmp ext scope => some ((2624 : BitVec 12) ++ b ++ c ++ (2 : BitVec 2) ++ cmp ++ BitVec.ofBool ext ++ scope)
  | .satom a b c aop w32 ordsc => some ((42 : BitVec 6) ++ a ++ b ++ c ++ aop ++ BitVec.ofBool w32 ++ ordsc)
  | .dqpush a dsc role => some ((43 : BitVec 6) ++ a ++ (0 : BitVec 12) ++ dsc ++ role)
  | .dqpop d dsc role => some ((44 : BitVec 6) ++ d ++ (0 : BitVec 12) ++ dsc ++ role)
  | .dqsteal d dsc role => some ((45 : BitVec 6) ++ d ++ (0 : BitVec 12) ++ dsc ++ role)
  | .bndmin a => some ((46 : BitVec 6) ++ a ++ (0 : BitVec 20))
  | .bndrd d => some ((47 : BitVec 6) ++ d ++ (0 : BitVec 20))
  | .role d role => some ((48 : BitVec 6) ++ d ++ (0 : BitVec 14) ++ role)
  | .csrr d csr => some ((49 : BitVec 6) ++ d ++ (0 : BitVec 8) ++ csr)
  | .csrw a csr => some ((3200 : BitVec 12) ++ a ++ (0 : BitVec 2) ++ csr)
  | .trap imm => some ((3264 : BitVec 12) ++ imm)
  | .placeHint a b tier => some ((52 : BitVec 6) ++ a ++ b ++ (0 : BitVec 11) ++ tier ++ (0 : BitVec 1))
  | .placeReq a b c tier => some ((52 : BitVec 6) ++ a ++ b ++ c ++ (0 : BitVec 5) ++ tier ++ (1 : BitVec 1))
  | .savev a b => some ((53 : BitVec 6) ++ a ++ b ++ (0 : BitVec 14))
  | .restv a b => some ((54 : BitVec 6) ++ a ++ b ++ (0 : BitVec 14))
  | .savet a b c => some ((55 : BitVec 6) ++ a ++ b ++ c ++ (0 : BitVec 8))
  | .restt a b c => some ((56 : BitVec 6) ++ a ++ b ++ c ++ (0 : BitVec 8))
  | .tret => some ((3825205248 : BitVec 32))
  | .tretSkip => some ((3825205249 : BitVec 32))
  | .mapedit a b c => some ((58 : BitVec 6) ++ a ++ b ++ c ++ (0 : BitVec 8))
  | .mapsync a b c => some ((59 : BitVec 6) ++ a ++ b ++ c ++ (0 : BitVec 8))
  | .refitf d c => some ((60 : BitVec 6) ++ d ++ (0 : BitVec 6) ++ c ++ (0 : BitVec 8))
  | .lbldn index level kind => some ((3904 : BitVec 12) ++ index ++ level ++ kind ++ (0 : BitVec 3))
  | _ => none

/-- The word of a lane instruction (R286, R288); none for the others. -/
def encodeLane (i : Instr) : Option (BitVec 96) :=
  match i with
  | .mov f => some (packLane 0x1 f)
  | .laneid f => some (packLane 0x2 f)
  | .sel f => some (packLane 0x3 f)
  | .pset f => some (packLane 0x4 f)
  | .iadd f => some (packLane 0x10 f)
  | .isub f => some (packLane 0x11 f)
  | .imul f => some (packLane 0x12 f)
  | .imulh f => some (packLane 0x13 f)
  | .imad f => some (packLane 0x14 f)
  | .imin f => some (packLane 0x15 f)
  | .imax f => some (packLane 0x16 f)
  | .iabs f => some (packLane 0x17 f)
  | .iand f => some (packLane 0x18 f)
  | .ior f => some (packLane 0x19 f)
  | .ixor f => some (packLane 0x1a f)
  | .inot f => some (packLane 0x1b f)
  | .ishl f => some (packLane 0x1c f)
  | .ishr f => some (packLane 0x1d f)
  | .isar f => some (packLane 0x1e f)
  | .icmp f => some (packLane 0x1f f)
  | .popc f => some (packLane 0x20 f)
  | .clz f => some (packLane 0x21 f)
  | .brev f => some (packLane 0x22 f)
  | .bfe f => some (packLane 0x23 f)
  | .bfi f => some (packLane 0x24 f)
  | .idiv f => some (packLane 0x25 f)
  | .irem f => some (packLane 0x26 f)
  | .fadd f => some (packLane 0x30 f)
  | .fsub f => some (packLane 0x31 f)
  | .fmul f => some (packLane 0x32 f)
  | .ffma f => some (packLane 0x33 f)
  | .fmin f => some (packLane 0x34 f)
  | .fmax f => some (packLane 0x35 f)
  | .fcmp f => some (packLane 0x36 f)
  | .fclass f => some (packLane 0x37 f)
  | .frcp f => some (packLane 0x38 f)
  | .frsq f => some (packLane 0x39 f)
  | .fsqrt f => some (packLane 0x3a f)
  | .fex2 f => some (packLane 0x3b f)
  | .flg2 f => some (packLane 0x3c f)
  | .fdiv f => some (packLane 0x3d f)
  | .cvt f => some (packLane 0x40 f)
  | .pack f => some (packLane 0x41 f)
  | .unpk f => some (packLane 0x42 f)
  | .dp4i f => some (packLane 0x43 f)
  | .dp8i f => some (packLane 0x44 f)
  | .dp4f f => some (packLane 0x45 f)
  | .dp8f f => some (packLane 0x46 f)
  | .mxscale f => some (packLane 0x47 f)
  | .qcvt f => some (packLane 0x48 f)
  | .dqcvt f => some (packLane 0x49 f)
  | .shfl f => some (packLane 0x50 f)
  | .shflx f => some (packLane 0x51 f)
  | .vred f => some (packLane 0x52 f)
  | .vscan f => some (packLane 0x53 f)
  | .vvote f => some (packLane 0x54 f)
  | .vfirst f => some (packLane 0x55 f)
  | .ldt f => some (packLane 0x60 f)
  | .stt f => some (packLane 0x61 f)
  | .ldc f => some (packLane 0x62 f)
  | .stc f => some (packLane 0x63 f)
  | .lds f => some (packLane 0x64 f)
  | .sts f => some (packLane 0x65 f)
  | .att f => some (packLane 0x66 f)
  | .atc f => some (packLane 0x67 f)
  | .accrd f => some (packLane 0x68 f)
  | .accwr f => some (packLane 0x69 f)
  | .gath f => some (packLane 0x70 f)
  | .scat f => some (packLane 0x71 f)
  | .scatAdd f => some (packLane 0x71 f)
  | .matom f => some (packLane 0x72 f)
  | .bra f => some (packLane 0x80 f)
  | .lcall f => some (packLane 0x81 f)
  | .lret f => some (packLane 0x82 f)
  | .rcvMark f => some (packLane 0x83 f)
  | .rcvWait f => some (packLane 0x83 f)
  | .lend f => some (packLane 0x84 f)
  | .refill f => some (packLane 0x85 f)
  | .idle f => some (packLane 0x86 f)
  | .ltrap f => some (packLane 0x87 f)
  | _ => none

/-- The word of a sequencer instruction (R289, R291); none for the others. -/
def encodeSeq (i : Instr) : Option (BitVec 64) :=
  match i with
  | .mma shape acc ra rb rf zero reuse => some ((1 : BitVec 8) ++ shape ++ acc ++ ra ++ rb ++ rf ++ (0 : BitVec 2) ++ BitVec.ofBool zero ++ BitVec.ofBool reuse ++ (0 : BitVec 32))
  | .mmas shape acc ra rb rf spm zero reuse => some ((2 : BitVec 8) ++ shape ++ acc ++ ra ++ rb ++ rf ++ spm ++ BitVec.ofBool zero ++ BitVec.ofBool reuse ++ (0 : BitVec 32))
  | .mzero shape acc => some ((3 : BitVec 8) ++ shape ++ acc ++ (0 : BitVec 48))
  | .mload shape acc ra pitch => some ((4 : BitVec 8) ++ shape ++ acc ++ ra ++ (0 : BitVec 24) ++ pitch)
  | .mstore shape acc ra pitch => some ((5 : BitVec 8) ++ shape ++ acc ++ ra ++ (0 : BitVec 24) ++ pitch)
  | .mquant shape acc ra rb fmt clip p f src pitch => some ((6 : BitVec 8) ++ shape ++ acc ++ ra ++ rb ++ (0 : BitVec 8) ++ fmt ++ BitVec.ofBool clip ++ p ++ f ++ BitVec.ofBool src ++ pitch)
  | .mscale shape acc ra rb src col row => some ((7 : BitVec 8) ++ shape ++ acc ++ ra ++ rb ++ (0 : BitVec 37) ++ BitVec.ofBool src ++ BitVec.ofBool col ++ BitVec.ofBool row)
  | .mset ra imm => some ((16 : BitVec 8) ++ (0 : BitVec 8) ++ ra ++ (0 : BitVec 12) ++ imm)
  | .madd ra rb rf reg imm => some ((17 : BitVec 8) ++ (0 : BitVec 8) ++ ra ++ rb ++ rf ++ (0 : BitVec 3) ++ BitVec.ofBool reg ++ imm)
  | .mloop ra disp => some ((18 : BitVec 8) ++ (0 : BitVec 8) ++ ra ++ (0 : BitVec 12) ++ disp)
  | .mjmp disp => some ((19 : BitVec 8) ++ (0 : BitVec 24) ++ disp)
  | .mhalt => some ((20 : BitVec 8) ++ (0 : BitVec 56))
  | .mwait n ra => some ((32 : BitVec 8) ++ (0 : BitVec 8) ++ ra ++ (0 : BitVec 40) ++ n)
  | .marrive n ra tok e => some ((33 : BitVec 8) ++ (0 : BitVec 8) ++ ra ++ (0 : BitVec 27) ++ BitVec.ofBool tok ++ (0 : BitVec 2) ++ e ++ (0 : BitVec 4) ++ n)
  | .mtrel acc => some ((34 : BitVec 8) ++ (0 : BitVec 5) ++ acc ++ (0 : BitVec 48))
  | .mtacq acc => some ((35 : BitVec 8) ++ (0 : BitVec 5) ++ acc ++ (0 : BitVec 48))
  | .mfence => some ((36 : BitVec 8) ++ (0 : BitVec 56))
  | _ => none

/-- The bytes of an instruction as the kernel image stores them (R280); empty for the rows without an encoding. -/
def encode (i : Instr) : List Byte :=
  match encodeScalar i, encodeLane i, encodeSeq i with
  | some w, _, _ => toBytes 4 w.toNat
  | none, some w, _ => toBytes 12 w.toNat
  | none, none, some w => toBytes 8 w.toNat
  | none, none, none => []

end Sys2Proof
end

