-- ==== Sys2Proof/Machine/MainMem.lean ====
section
/-!
DEFINITION. Main memory by physical address: tiers (R70, R71), sealing and key rotation (R80, R81), errors and poison
(R85, R86), frames and their zeroing (R235), hotness (R89).
-/
namespace Sys2Proof.Machine

/-- Two ranges of bytes share one. -/
def rangesMeet (a b : Nat × Nat) : Bool := decide (a.1 < b.1 + b.2) && decide (b.1 < a.1 + a.2)

/-- The tier whose range holds a physical address; none in a reserved range (R71). -/
def tierOf (pa : Nat) : Option Nat :=
  if pa < 0x8000000000 then some 0
  else if 0x10000000000 ≤ pa ∧ pa < 0x20000000000 then some 1
  else if 0x100000000000 ≤ pa ∧ pa < 0x200000000000 then some 2
  else if 0x8000000000000 ≤ pa ∧ pa < 0x10000000000000 then some 3
  else none

/-- A physical address is backed by a memory device: for CXL, a populated HDM range (R73). -/
def State.backed (s : State) (pa : Nat) : Bool :=
  match tierOf pa with
  | some 2 => s.mem.hdm.any fun r => decide (r.1 ≤ pa) && decide (pa < r.1 + r.2.1)
  | some _ => true
  | none => false

/-- The root port that serves a CXL address (R71, R73): that of its HDM decoder range, by default PA[12]. -/
def State.portOf (s : State) (pa : Nat) : Option Nat :=
  (s.mem.hdm.find? fun r => decide (r.1 ≤ pa) && decide (pa < r.1 + r.2.1)).map fun r => r.2.2.getD (pa / 4096 % 2)

/-- Some 4 KiB of a CXL frame is reached through a root port (R71). -/
def State.frameOnPort (s : State) (ppn port : Nat) : Bool :=
  tierOf (ppn * 65536) == some 2 && (List.range 16).any fun i => s.portOf (ppn * 65536 + 4096 * i) == some port

/-- The instance number of the memory counters for an address: HBM quadrant or LPDDR channel (R221). -/
def memInst (pa : Nat) : Option Nat :=
  match tierOf pa with
  | some 0 => some (4 * fld pa 38 36 + fld pa 35 34)
  | some 1 => some (32 + fld pa 13 8)
  | _ => none

/-- A line is sealed at rest: LPDDR and CXL (R70). -/
def sealedTier (pa : Nat) : Bool := tierOf pa == some 1 || tierOf pa == some 2

/-- The key that seals a line of a page under a slot, by the table of R81; an erased slot gives key 0. At the pointer the line is
still sealed under Kold: a read that waits for the sweep finds the same plaintext under Knew, and a write takes the sweep first. -/
def KeySlot.keyAt (k : KeySlot) (addr : Nat) : Nat :=
  match k.next with
  | none => k.xts
  | some n => if k.sweeps.any fun w => decide (w.base ≤ addr) && decide (addr < w.limit) && decide (addr < w.ptr) then n else k.xts

/-- The key of a line's slot at its address. -/
def Mem.keyOf (m : Mem) (slot line : Nat) : Nat :=
  match tFind m.keys slot with
  | some k => k.keyAt (64 * line)
  | none => 0

/-- The bytes of a line as they read under a key (R80): what was sealed under another key is a free value. -/
def Mem.lineByte (m : Mem) (key pa : Nat) : Byte :=
  if sealedTier pa then
    match tFind m.sealed (pa / 64) with
    | some k => if k = key then tGet m.bytes 0 pa else Config.unsealed key (pa / 64) (pa % 64)
    | none => tGet m.bytes 0 pa
  else tGet m.bytes 0 pa

/-- Reseals a line under a key, keeping what it reads as under `from` (R80, R81). -/
def Mem.reseal (m : Mem) (src dst line : Nat) : Mem :=
  let bs := (List.range 64).map fun i => m.lineByte src (64 * line + i)
  let m1 := (List.range 64).foldl (fun (m : Mem) i => { m with bytes := tSet m.bytes 0 (64 * line + i) ((bs[i]?).getD 0) }) m
  { m1 with sealed := tPut m1.sealed line dst }

/-- The sweep step at a pointer line: reseal it, when it is one of the slot's, and advance the pointer (R81). -/
def Mem.sweepLine (m : Mem) (slot i : Nat) : Mem :=
  match tFind m.keys slot with
  | some k => match k.sweeps[i]?, k.next with
    | some w, some n =>
      if w.ptr < w.limit then
        let m1 := if tFind m.sealed (w.ptr / 64) = some k.xts then m.reseal k.xts n (w.ptr / 64) else m
        { m1 with keys := tPut m1.keys slot { k with sweeps := setAt k.sweeps i { w with ptr := w.ptr + 64 } } }
      else m
    | _, _ => m
  | none => m

/-- An access to a pointer line waits for the sweep's lock, so the sweep takes that line first (R81). -/
def Mem.settle (m : Mem) (slot line : Nat) : Mem :=
  match tFind m.keys slot with
  | some k => (List.range k.sweeps.length).foldl (fun m i =>
      match k.sweeps[i]? with
      | some w => if w.ptr = 64 * line ∧ w.base ≤ 64 * line ∧ 64 * line < w.limit then m.sweepLine slot i else m
      | none => m) m
  | none => m

/-- The canonical form of main memory: addresses strictly rising, no byte listed that equals what an unlisted address reads as
(0, log 4). -/
def Memory.wf (m : Mem) : Bool := tWf (0 : Byte) m.bytes

/-- One byte at a physical address under a key slot. -/
def State.peek (s : State) (slot pa : Nat) : Byte := s.mem.lineByte (s.mem.keyOf slot (pa / 64)) pa

/-- Bytes at a physical address under a key slot. -/
def State.peekN (s : State) (slot pa n : Nat) : List Byte := (List.range n).map fun i => s.peek slot (pa + i)

/-- Writes one byte: a line written in part is read, merged and resealed (R80). -/
def Mem.poke (m : Mem) (slot pa : Nat) (b : Byte) : Mem :=
  if sealedTier pa then
    let line := pa / 64
    let m := m.settle slot line
    let key := m.keyOf slot line
    let m := if tFind m.sealed line = some key then m else m.reseal key key line
    { m with bytes := tSet m.bytes 0 pa b }
  else { m with bytes := tSet m.bytes 0 pa b }

/-- Writes bytes at a physical address under a key slot. -/
def Mem.pokeN (m : Mem) (slot pa : Nat) : List Byte → Mem
  | [] => m
  | b :: r => Mem.pokeN (m.poke slot pa b) slot (pa + 1) r

/-- A write to a line that a migration of the frame has copied makes it dirty (R92). -/
def Mig.wrote (m : Mig) (pa n : Nat) : Mig :=
  if m.cut ∨ m.src ≠ pa / 65536 ∨ n = 0 then m
  else
    let ls := rangeFrom (pa % 65536 / 256) ((pa % 65536 + n - 1) / 256 + 1 - pa % 65536 / 256)
    { m with d := ls.foldl (fun (d : BitVec 256) i => if m.c.getLsbD i then d ||| (1 <<< i) else d) m.d }

/-- Writes bytes at a physical address under a key slot. -/
def State.pokeN (s : State) (slot pa : Nat) (bs : List Byte) : State :=
  let m := s.mem.pokeN slot pa bs
  { s with mem := { m with migs := tMap m.migs fun _ x => x.wrote pa bs.length } }

/-- An 8-byte word of HBM. -/
def State.peek64 (s : State) (pa : Nat) : Nat := ofBytes (s.peekN 0 pa 8)

/-! ### Errors and poison -/

/-- The two words of an entry (R85). -/
def ErrEntry.words (e : ErrEntry) : Nat × Nat :=
  (2 ^ 63 + b2n e.ue * 2 ^ 62 + e.src % 8 * 2 ^ 59 + e.line % 2 ^ 46 * 2 ^ 6, e.ts.toNat / 2 ^ 16 * 2 ^ 16 + e.sym.toNat)

/-- Word `w` (0 or 1) of entry `i` of an error log; a free entry reads 0 (R85). -/
def State.logWord (s : State) (inst i w : Nat) : Nat :=
  match ((tFind s.mem.logs inst).getD []).find? fun e => e.1 == i with
  | some (_, e) => if w = 0 then e.words.1 else e.words.2
  | none => 0

/-- Adds an entry to an error log of 64 entries (R85). Which place of the 64 a new entry takes the spec does not say: the lowest that
is free, or that of the entry which it replaces, is the model's choice (log 91). -/
def State.logError (s : State) (inst src line : Nat) (ue : Bool) : State :=
  let l := (tFind s.mem.logs inst).getD []
  let e : ErrEntry := { ue := ue, src := src, line := line, ts := s.time, sym := if ue then 0x3FF else Config.symbolOf line }
  let put (s : State) (l : List (Nat × ErrEntry)) : State := s.modMem fun m => { m with logs := tPut m.logs inst l }
  match (List.range 64).find? fun i => l.all fun x => x.1 != i with
  | some i => put s (l ++ [(i, e)])
  | none => match l.find? fun x => !x.2.ue with
    | some old => if ue then (put s ((l.filter fun x => x.1 != old.1) ++ [(old.1, e)])).count 0x24 inst 1 else s.count 0x24 inst 1
    | none => s.count 0x24 inst 1

/-- Writing 1 to VALID of an entry frees that entry and no other (R6, R85). -/
def Mem.freeLog (m : Mem) (inst i : Nat) : Mem := { m with logs := tMod m.logs inst fun l => l.filter fun e => e.1 != i }

/-- A frame joins the poisoned-frame list of 4,096 entries (R86). -/
def State.listFrame (s : State) (ppn : Nat) : State :=
  if memb s.mem.listed ppn then s
  else if s.mem.listed.length < 4096 then s.modMem fun m => { m with listed := setAdd m.listed ppn }
  else s.count 0x25 0 1

/-- A reader finds an uncorrectable error: the line gets a poison code and its frame joins the list (R86). -/
def State.poisonLine (s : State) (src line : Nat) : State :=
  let s := s.modMem fun m => { m with poison := setAdd m.poison line, latent := tDel m.latent line }
  let s := s.listFrame (line / 1024)
  match memInst (64 * line) with
  | some i => (s.count 0x23 i 1).logError i src line true
  | none => s

/-- A line lies in a part of the CXL window whose port is down (R74). -/
def State.lineDown (s : State) (line : Nat) : Bool :=
  match s.portOf (64 * line) with
  | some p => memb s.mem.down p && tierOf (64 * line) == some 2
  | none => false

/-- A read of a line: a latent error is corrected and counted, or found uncorrectable (R85, R86). The line is poisoned
also while its CXL port is down (R74). Every later read of a line with a poison code is uncorrectable (R86); that it is no new error,
which would be logged and counted again, is the model's choice (log 92). R82 has a scrubber write a corrected line back; that a demand
read, a copy and a snapshot leave it corrected too, so that the error is gone, is the model's choice (log 114). -/
def State.touchLine (s : State) (src line : Nat) : State × Bool :=
  if memb s.mem.poison line then (s, true)
  else if s.lineDown line then (s, true)
  else match tFind s.mem.latent line with
    | some true => (s.poisonLine src line, true)
    | some false =>
      let s := s.modMem fun m => { m with latent := tDel m.latent line }
      match memInst (64 * line) with
      | some i => ((s.count 0x22 i 1).logError i src line false, false)
      | none => (s, false)
    | none => (s, false)

/-! ### Frames -/

/-- The first frame number and the count of frames of a device tier (R71). -/
def tierFrames (tier : Nat) : Nat × Nat :=
  match tier with
  | 0 => (0, 0x800000)
  | 1 => (0x1000000, 0x1000000)
  | _ => (0x10000000, 0x10000000)

/-- A frame is free: nothing maps it or uses it as a node, it is backed and not on the poisoned-frame list (R86). -/
def State.frameFree (s : State) (ppn : Nat) : Bool :=
  tGet s.mem.refs 0 ppn == 0 && !memb s.mem.listed ppn && s.backed (ppn * 65536)

/-- A frame gains a use (mapping, node). -/
def State.addRef (s : State) (ppn : Nat) : State := s.modMem fun m => { m with refs := tSet m.refs 0 ppn (tGet m.refs 0 ppn + 1) }

/-- A frame loses a use. -/
def State.subRef (s : State) (ppn : Nat) : State := s.modMem fun m => { m with refs := tSet m.refs 0 ppn (tGet m.refs 0 ppn - 1) }

/-- The seals of a frame written whole under a key slot: every line of an LPDDR or CXL frame (R70, R80, R235). -/
def Mem.sealFrame (m : Mem) (slot ppn : Nat) : Table Nat :=
  let rest := tDelRange m.sealed (ppn * 1024) 1024
  if sealedTier (ppn * 65536) then
    (rest.filter fun e => decide (e.1 < ppn * 1024)) ++ ((rangeFrom (ppn * 1024) 1024).map fun l => (l, m.keyOf slot l)) ++
      rest.filter fun e => decide (ppn * 1024 ≤ e.1)
  else rest

/-- Lighthouse has still to zero a frame before its next use (R235): one that it knows of, and every LPDDR or CXL frame that it has not
zeroed since the last device reset. -/
def Mem.owes (m : Mem) (ppn : Nat) : Bool := memb m.owed ppn || (sealedTier (ppn * 65536) && !memb m.zeroed ppn)

/-- Writes a frame full of zeros, sealed under the key slot of its new use (R235). -/
def State.zeroFrame (s : State) (slot ppn : Nat) : State :=
  s.modMem fun m => { m with
    bytes := tDelRange m.bytes (ppn * 65536) 65536, sealed := m.sealFrame slot ppn,
    poison := m.poison.filter (fun l => l / 1024 != ppn), latent := tDelRange m.latent (ppn * 1024) 1024,
    owed := setDel m.owed ppn, zeroed := if sealedTier (ppn * 65536) then setAdd m.zeroed ppn else m.zeroed }

/-- A frame that is owed a zeroing gets it before it is first used under a key slot; one on the poisoned-frame list is passed
over (R86, R235). That the zeros of a CXL frame whose port is down are there when the port is up again, although R74 ends every access
there with POISON status, is the model's choice (log 113). -/
def State.firstUse (s : State) (slot ppn : Nat) : State :=
  if s.mem.owes ppn && !memb s.mem.listed ppn then s.zeroFrame slot ppn else s

/-- The recorded range that lies nearest below an address, with its position. -/
def nearestBelow (rs : List (Nat × Nat)) (a : Nat) : Option Nat :=
  ((argMin (fun (e : Nat × Nat × Nat) => a - e.2.1) ((rs.zipIdx.map fun e => (e.2, e.1)).filter fun e => decide (e.2.1 ≤ a))).map (·.1))

/-- Records a frame in the ranges of a key slot (R81): at most seven, a further one growing its lower neighbour (log 73). -/
def recordFrame (rs : List (Nat × Nat)) (ppn : Nat) : List (Nat × Nat) :=
  let a := ppn * 65536
  let b := a + 65536
  if rs.any fun r => decide (r.1 ≤ a) && decide (b ≤ r.2) then rs
  else if rs.any fun r => r.2 == a then rs.map fun r => if r.2 = a then (r.1, b) else r
  else if rs.length < 7 then insBy (fun r => r.1) (a, b) rs
  else match nearestBelow rs a with
    | some i => setAt rs i (((rs[i]?).getD (a, b)).1, b)
    | none => match rs with
      | (_, l) :: t => (a, l) :: t
      | [] => [(a, b)]

/-- A frame that comes into a ROTATING slot outside every sweep range joins one above its pointer, so that it is resealed in
its turn: the range below it, or one from the start of the off-package memory (R81, log 73). -/
def joinSweep (ws : List Sweep) (ppn : Nat) : List Sweep :=
  let a := ppn * 65536
  let b := a + 65536
  if ws.any fun w => decide (w.base ≤ a) && decide (b ≤ w.limit) then ws
  else match nearestBelow (ws.map fun w => (w.base, w.limit)) a with
    | some i => match ws[i]? with
      | some w => setAt ws i { w with limit := b }
      | none => ws
    | none => { base := 0x10000000000, limit := b, ptr := 0x10000000000 } :: ws

/-- Lighthouse records an off-package frame under the key slot of the page that gets it (R81). -/
def State.joinSlot (s : State) (slot ppn : Nat) : State :=
  if sealedTier (ppn * 65536) then
    s.modMem fun m => { m with keys := tMod m.keys slot fun k =>
      { k with ranges := recordFrame k.ranges ppn, sweeps := if k.next.isSome then joinSweep k.sweeps ppn else k.sweeps } }
  else s

/-- Lighthouse takes a free frame of a tier, of its own choice (log 13); only HBM frames are taken so, which no key seals. -/
def State.takeFrame (s : State) (tier : Nat) : Option (Nat × State) :=
  let (r, s) := s.freeNat
  let (b, n) := tierFrames tier
  let start := r % n
  match (findNat s.frameFree (n - start) (b + start)).or (findNat s.frameFree start b) with
  | some f => some (f, (s.firstUse 0 f).addRef f)
  | none => none

/-- The lowest free frame of a tier. -/
def State.lowFrame (s : State) (tier : Nat) : Option Nat := findNat s.frameFree (tierFrames tier).2 (tierFrames tier).1

/-- A field of TIDECTL (R91). -/
def State.tidef (s : State) (hi lo : Nat) : Nat := fld s.mgmt.tide.toNat hi lo

/-- Free frames of HBM: all frames less those in use or listed. -/
def State.freeHbm (s : State) : Nat :=
  0x800000 - (s.mem.refs.filter fun e => decide (e.1 < 0x800000)).length - (s.mem.listed.filter (fun f => decide (f < 0x800000) && tGet s.mem.refs 0 f == 0)).length

/-- Sets a frame's hotness (R89). -/
def State.setHot (s : State) (ppn h : Nat) : State := s.modMem fun m => { m with hot := tSet m.hot 0 ppn h }

/-- A new page comes into a frame: hotness 0 (R89), and no sample of the page that was there before (R90). -/
def State.newPage (s : State) (ppn : Nat) : State :=
  (s.setHot ppn 0).modMem fun m => { m with sampled := tDel m.sampled ppn }

/-- The destination of a cut-over takes the hotness and the last sampling die of the page (R89, R90). -/
def State.moveHot (s : State) (src dst : Nat) : State :=
  let s := s.setHot dst (tGet s.mem.hot 0 src)
  s.modMem fun m => { m with sampled := match tFind m.sampled src with
    | some d => tDel (tPut m.sampled dst d) src
    | none => tDel m.sampled dst }

/-- An engine access from a die: each die samples the last of every 2^SAMPLE accesses (R89), one access being counted for each
page that a command makes accesses to; the last sampling die is kept for R90. The spec says neither which access of the
2^SAMPLE is sampled nor what counts as one: both are the model's choice (log 74). -/
def State.sampleAccess (s : State) (die ppn : Nat) : State :=
  let n := tGet s.mem.sample 0 die + 1
  let s := s.modMem fun m => { m with sample := tSet m.sample 0 die n }
  if tierOf (ppn * 65536) ≠ some 3 ∧ n % 2 ^ (min 15 (s.tidef 23 16)) = 0 then
    s.modMem fun m => { m with hot := tSet m.hot 0 ppn (min 255 (tGet m.hot 0 ppn + 1)), sampled := tPut m.sampled ppn die }
  else s

end Sys2Proof.Machine
end

