-- ==== Sys2Proof/Machine/Xlat.lean ====
section
/-!
DEFINITION. Translation (R120 to R141): the page table and its walks, segments, the exception table, leases, `Translate`,
the edit of a leaf, and the places of view tiles (R145).
-/
namespace Sys2Proof.Machine

/-- The kinds of access that `Translate` distinguishes (R130). -/
inductive AccKind where
  /-- Read. -/
  | r
  /-- Write. -/
  | w
  /-- Instruction fetch. -/
  | x
  /-- Atomic: read and write. -/
  | a
  deriving DecidableEq, Repr

/-- The answer of a translation. -/
inductive TRes where
  /-- A trap cause. -/
  | fault (code : BitVec 8)
  /-- POISON status. -/
  | poison
  /-- The frame and its attributes. -/
  | ok (t : Trans)
  deriving DecidableEq, Repr

/-- A field of a PTE, or of ATTR with its bits in place (R123). -/
def pteAttr (pte : Nat) : BitVec 19 := BitVec.ofNat 19 (pte / 2)
/-- The PPN field of a PTE. -/
def ptePpn (pte : Nat) : Nat := fld pte 55 20
/-- Permission bits and fields of ATTR, at their PTE positions. -/
def attrBit (a : BitVec 19) (i : Nat) : Bool := a.getLsbD (i - 1)
/-- The TIER field. -/
def attrTier (a : BitVec 19) : Nat := (a.extractLsb' 6 2).toNat
/-- The LBL field. -/
def attrLbl (a : BitVec 19) : Label := a.extractLsb' 3 3
/-- The KEY field. -/
def attrKey (a : BitVec 19) : Nat := (a.extractLsb' 8 6).toNat
/-- The PLACE field. -/
def attrPlace (a : BitVec 19) : Nat := (a.extractLsb' 17 2).toNat
/-- R, W, X, MEAS, WATCH and POOL. -/
def attrR (a : BitVec 19) : Bool := attrBit a 1
/-- The W bit. -/
def attrW (a : BitVec 19) : Bool := attrBit a 2
/-- The X bit. -/
def attrX (a : BitVec 19) : Bool := attrBit a 3
/-- The MEAS bit. -/
def attrMeas (a : BitVec 19) : Bool := attrBit a 15
/-- The WATCH bit. -/
def attrWatch (a : BitVec 19) : Bool := attrBit a 16
/-- The POOL bit. -/
def attrPool (a : BitVec 19) : Bool := attrBit a 17

/-- R73 refuses a leaf: a reserved PPN, a TIER that does not name its range, or an unbacked part of the CXL window. -/
def State.refuses (s : State) (ppn tier : Nat) : Bool := tierOf (ppn * 65536) != some tier || !s.backed (ppn * 65536)

/-- The index of a VPN at a level (R121). -/
def vpnIndex (level vpn : Nat) : Nat :=
  match level with
  | 3 => vpn / 2 ^ 39 % 4
  | 2 => vpn / 2 ^ 26 % 8192
  | 1 => vpn / 2 ^ 13 % 8192
  | _ => vpn % 8192

/-- The address of the leaf PTE, or none when an interior entry on the path cannot be followed (R125). -/
def State.leafAddr (s : State) : Nat → Nat → Nat → Option Nat
  | 0, node, vpn => some (node * 65536 + 8 * vpnIndex 0 vpn)
  | l + 1, node, vpn =>
    let e := s.peek64 (node * 65536 + 8 * vpnIndex (l + 1) vpn)
    if e % 2 = 0 ∨ fld e 63 56 ≠ 0 ∨ fld e 19 1 ≠ 0 ∨ fld e 55 20 ≥ 0x800000 then none
    else s.leafAddr l (fld e 55 20) vpn

/-- The leaf PTE of a page as the page table holds it; 0 where no leaf exists, and beyond the 57 bits of a VA (R121). -/
def State.leaf (s : State) (c : Ctx) (vpn : Nat) : Nat :=
  if vpn ≥ 2 ^ 41 then 0
  else match s.leafAddr 3 c.root vpn with
    | some a => s.peek64 a
    | none => 0

/-- The device reads the entries on the path to a page's leaf, level by level, as an engine reads memory (R125, R96): errors in their
lines are found, corrected and logged (R85), or give the line a poison code (R86). The answer says whether a line of the path cannot be
read; the reading ends there, and where an entry cannot be followed. -/
def State.readPath (s : State) : Nat → Nat → Nat → State × Bool
  | 0, node, vpn => s.touchLine 0 ((node * 65536 + 8 * vpnIndex 0 vpn) / 64)
  | l + 1, node, vpn =>
    let a := node * 65536 + 8 * vpnIndex (l + 1) vpn
    match s.touchLine 0 (a / 64) with
    | (s, true) => (s, true)
    | (s, false) =>
      let e := s.peek64 a
      if e % 2 = 0 ∨ fld e 63 56 ≠ 0 ∨ fld e 19 1 ≠ 0 ∨ fld e 55 20 ≥ 0x800000 then (s, false)
      else s.readPath l (fld e 55 20) vpn

/-- The interior nodes missing on the path to a page's leaf (R124), counted from level 3. -/
def State.missing (s : State) : Nat → Nat → Nat → Nat
  | 0, _, _ => 0
  | l + 1, node, vpn =>
    let e := s.peek64 (node * 65536 + 8 * vpnIndex (l + 1) vpn)
    if e % 2 = 0 then l + 1 else s.missing l (fld e 55 20) vpn

/-- The frames of a context's node pool that a new node may take. That one on the poisoned-frame list stays in the pool and is not taken is
the model's choice (log 107). -/
def State.freeNodes (s : State) (c : Ctx) : List Nat := c.nodePool.filter fun f => !memb s.mem.listed f

/-- Links the missing interior nodes with frames of the pool (R124). -/
def State.link (s : State) (slot : Nat) : Nat → Nat → Nat → State
  | 0, _, _ => s
  | l + 1, node, vpn =>
    let a := node * 65536 + 8 * vpnIndex (l + 1) vpn
    let e := s.peek64 a
    if e % 2 = 1 then s.link slot l (fld e 55 20) vpn
    else match (s.ctx slot).map s.freeNodes with
      | some (f :: _) =>
        let s := (s.zeroFrame 0 f).modCtx slot fun c => { c with nodePool := setDel c.nodePool f, nodes := f :: c.nodes }
        (s.pokeN 0 a (toBytes 8 (f * 2 ^ 20 + 1))).link slot l f vpn
      | _ => s

/-- Writes the leaf PTE of a page. -/
def State.writeLeaf (s : State) (slot vpn pte : Nat) : State :=
  match s.ctx slot with
  | some c => match s.leafAddr 3 c.root vpn with
    | some a => s.pokeN 0 a (toBytes 8 pte)
    | none => s
  | none => s

/-! ### The exception table -/

/-- The set of a context and page (R127). -/
def excSet (ctx vpn : Nat) : Nat :=
  ((vpn % 16384) ^^^ (vpn / 2 ^ 14 % 16384) ^^^ (vpn / 2 ^ 28 % 8192) ^^^ (ctx * 256)) % 16384

/-- The key of a way of a die's set. -/
def excKey (die set way : Nat) : Nat := 8 * (16384 * die + set) + way

/-- The way that holds the entry of a context and page on a die. -/
def State.excWay (s : State) (die ctx vpn : Nat) : Option (Nat × Exc) :=
  (List.range 8).findSome? fun w =>
    let k := excKey die (excSet ctx vpn) w
    match tFind s.xlat.exc k with
    | some e => if e.ctx = ctx ∧ e.vpn = vpn then some (k, e) else none
    | none => none

/-- The exception entry of a page on a die (R130). -/
def State.excHit (s : State) (die ctx vpn : Nat) : Option Exc := (s.excWay die ctx vpn).map (·.2)

/-- Puts an entry at a key. -/
def State.putExc (s : State) (k : Nat) (e : Exc) : State := { s with xlat := { s.xlat with exc := tPut s.xlat.exc k e } }

/-- Removes the entry of a page on a die. -/
def State.delExc (s : State) (die ctx vpn : Nat) : State :=
  match s.excWay die ctx vpn with
  | some (k, _) => { s with xlat := { s.xlat with exc := tDel s.xlat.exc k } }
  | none => s

/-- Inserts an entry on a die (R128); false when every way holds a FIX entry. The victim among CACHE entries is a free
choice. -/
def State.insExc (s : State) (die : Nat) (e : Exc) : State × Bool :=
  match s.excWay die e.ctx e.vpn with
  | some (k, _) => (s.putExc k e, true)
  | none =>
    let ks := (List.range 8).map (excKey die (excSet e.ctx e.vpn))
    match ks.find? fun k => (tFind s.xlat.exc k).isNone with
    | some k => (s.putExc k e, true)
    | none =>
      let cs := ks.filter fun k => match tFind s.xlat.exc k with
        | some x => !x.fix
        | none => false
      match cs with
      | [] => (s, false)
      | k0 :: _ =>
        let (r, s) := s.freeNat
        (s.putExc ((cs[r % cs.length]?).getD k0) e, true)

/-! ### Segments -/

/-- A valid segment covers a page (R126). -/
def Seg.covers (g : Seg) (vpn : Nat) : Bool := g.valid && decide (g.vstart ≤ vpn) && decide (vpn < g.vstart + g.count)

/-- The slope of a segment (R126). -/
def Seg.step (g : Seg) : Nat := 2 ^ g.slope.toNat

/-- Inserts a FIX entry on all four dies together. When no way is free, every covering segment is suspended (R128). -/
def State.insFix (s : State) (e : Exc) : State × Bool :=
  let (s1, ok) := (List.range 4).foldl (fun (a : State × Bool) d => let r := a.1.insExc d e; (r.1, a.2 && r.2)) (s, true)
  if ok then (s1, true)
  else match s.ctx e.ctx with
    | some c =>
      let n := (c.segs.filter fun g => g.covers e.vpn && !g.susp).length
      ((s.modCtx e.ctx fun c => { c with segs := c.segs.map fun g => if g.covers e.vpn then { g with susp := true } else g }).count 0x03 e.ctx n, false)
    | none => (s, false)

/-- Marks a page POISON on every die (R86 item 3). -/
def State.markPoison (s : State) (ctx vpn ppn : Nat) (attr : BitVec 19) : State :=
  (s.insFix { fix := true, state := .poison, vpn := vpn, ctx := ctx, ppn := ppn, attr := attr, dppn := 0 }).1

/-- An engine access meets a line: true when it completes with POISON status (R74, R86, R87). A page whose line is bad is
marked; one that is only out of reach behind a CXL link is not. -/
def State.meetLine (s : State) (src ctx va : Nat) (t : Trans) : State × Bool :=
  let line := (t.ppn * 65536 + va % 65536) / 64
  match s.touchLine src line with
  | (s, false) => (s, false)
  | (s, true) => (if memb s.mem.poison line then s.markPoison ctx (va / 65536) t.ppn t.attr else s, true)

/-- An engine access meets the lines of a range of one page: true when it completes with POISON status. -/
def State.meetLines (s : State) (src ctx va n : Nat) (t : Trans) : State × Bool :=
  if n = 0 then (s, false)
  else (rangeFrom (va / 64) ((va + n - 1) / 64 + 1 - va / 64)).foldl (fun (a : State × Bool) line =>
    let r := a.1.meetLine src ctx (64 * line) t
    (r.1, a.2 || r.2)) (s, false)

/-- A page that translates to a poisoned frame is marked on every die (R86 item 3). One whose walk has met a line of a node that cannot be
read translates to none, and is not marked (log 106). -/
def State.markListed (s : State) (ctx vpn : Nat) : State :=
  match s.ctx ctx, s.excHit 0 ctx vpn with
  | some c, none =>
    let pte := s.leaf c vpn
    if memb s.mem.listed (ptePpn pte) then s.markPoison ctx vpn (ptePpn pte) (pteAttr pte) else s
  | some _, some e => if e.state = .poison then s else s.markPoison ctx vpn e.ppn e.attr
  | none, _ => s

/-! ### Leases (R139) -/

/-- A lease range covers a page with the rights of the access. -/
def Lease.allows (l : Lease) (vpn : Nat) (k : AccKind) : Bool :=
  decide (l.len ≠ 0) && decide (l.base / 65536 ≤ vpn) && decide (vpn ≤ (l.base + l.len - 1) / 65536) &&
  match k with
  | .r => l.r
  | .w => l.w
  | .x => l.x
  | .a => l.r && l.w

/-- The rights an access needs in the attributes (R130). -/
def permits (a : BitVec 19) (k : AccKind) : Bool :=
  match k with
  | .r => attrR a
  | .w => attrW a
  | .x => attrX a
  | .a => attrR a && attrW a

/-- The result of a walk (R125). -/
def State.walk (s : State) (c : Ctx) (vpn : Nat) : TRes :=
  if c.invalid then .fault 0x12
  else
    let pte := s.leaf c vpn
    let a := pteAttr pte
    if pte % 2 = 0 ∨ s.refuses (ptePpn pte) (attrTier a) then .fault 0x12
    else if memb s.mem.listed (ptePpn pte) then .poison
    else .ok { ppn := ptePpn pte, attr := a, poison := false, old := false, wr := false }

/-- The state and permission checks at the end of `Translate` (R130). -/
def checkEntry (st : ExcState) (ppn : Nat) (attr : BitVec 19) (k : AccKind) : TRes :=
  match st with
  | .unmapped => .fault 0x12
  | .poison => .poison
  | _ => if permits attr k then .ok { ppn := ppn, attr := attr, poison := false, old := false, wr := false } else .fault 0x13

/-- A translation that ends at a host page: one that ATS has confirmed stands; any other requests a translation, and faults
TRANSLATE if the host does not grant it (R140). -/
def State.hostCheck (s : State) (fn : Nat) (r : TRes) : State × TRes :=
  match r with
  | .ok t =>
    if tierOf (t.ppn * 65536) ≠ some 3 ∨ memb s.xlat.present t.ppn then (s, r)
    else
      let s := s.emit (.atsRequest fn t.ppn)
      if memb s.xlat.host t.ppn then ({ s with xlat := { s.xlat with present := setAdd s.xlat.present t.ppn } }, r)
      else (s, .fault 0x12)
  | _ => (s, r)

/-- A translation whose frame is on the poisoned-frame list has POISON status (R86 item 3, R132). -/
def State.checkListed (s : State) (st : ExcState) (ppn : Nat) (attr : BitVec 19) (k : AccKind) : TRes :=
  if st ≠ .unmapped ∧ memb s.mem.listed ppn then .poison else checkEntry st ppn attr k

/-- `Translate` for a context on a die, with the lease of a grid when the access is checked against it (R130). What decides it is
counted for the core of the agent that commands it (R224). R125 gives a walk that meets a line of a node which cannot be read no result:
that it answers POISON status, as an engine read of such a line does (R87), and caches nothing is the model's choice (log 106). Once a removal has invalidated the context's root, every translation
faults (R256). -/
def State.translate (s : State) (die ctx : Nat) (lease : Option Nat) (va : Nat) (k : AccKind) : State × TRes :=
  if va / 2 ^ 57 ≠ 0 then (s, .fault 0x12)
  else
    let vpn := va / 65536
    let leaseFault : Option (BitVec 8) := match lease with
      | none => none
      | some g => match s.grid g with
        | none => some 0x11
        | some g => if g.leases.any (·.allows vpn k) = false then some 0x11 else if memb g.revoked vpn then some 0x12 else none
    match leaseFault, s.ctx ctx with
    | some f, _ => (s, .fault f)
    | none, none => (s, .fault 0x12)
    | none, some c =>
      if c.invalid then (s, .fault 0x12)
      else match s.excHit die ctx vpn with
      | some e => (s.pmc die s.curCore ctx 0x16 1).hostCheck c.fn (s.checkListed e.state e.ppn e.attr k)
      | none =>
        match c.segs.find? fun g => g.covers vpn && !g.susp with
        | some g => (s.pmc die s.curCore ctx 0x17 1).hostCheck c.fn (s.checkListed .mapped (g.pbase + (vpn - g.vstart) * g.step) g.attr k)
        | none =>
          let s := (s.count 0x06 die 1).pmc die s.curCore ctx 0x18 1
          match s.readPath 3 c.root vpn with
          | (s, true) => (s, .poison)
          | (s, false) => match s.walk c vpn with
          | .ok t =>
            let s := if c.segs.any (·.covers vpn) then s.count 0x04 (4 * ctx + die) 1
              else (s.insExc die { fix := false, state := .mapped, vpn := vpn, ctx := ctx, ppn := t.ppn, attr := t.attr, dppn := 0 }).1
            s.hostCheck c.fn (checkEntry .mapped t.ppn t.attr k)
          | r => (s, r)

/-! ### The places of view tiles (R145) -/

/-- The element width in bits of a target format (R145). -/
def viewBits (fmt : BitVec 4) : Nat :=
  match fmt.toNat with
  | 6 => 16
  | 7 => 8
  | 8 => 8
  | 12 => 8
  | 9 => 6
  | 10 => 6
  | _ => 4

/-- Row tiles per shard band. -/
def View.band (v : View) : Nat := (v.rt + v.shards.length - 1) / max 1 v.shards.length

/-- The master element size in bytes. -/
def View.esize (v : View) : Nat := if v.mbf16 then 2 else 4

/-- The first byte and the number of bytes of the element row `i` (0–63) of a tile, in the destination (R145). -/
def View.rowAddr (v : View) (tile i : Nat) : Nat × Nat :=
  let ti := tile / v.ct
  let sh := ti / v.band
  let (dva, _) := (v.shards[sh]?).getD (0, 0)
  let w := viewBits v.tfmt
  if v.tiled then (dva + ((ti - sh * v.band) * v.ct + tile % v.ct) * 512 * w + 8 * w * i, 8 * w)
  else (dva + (64 * (ti - sh * v.band) + i) * v.dld * w / 8 + tile % v.ct * 8 * w, 8 * w)

/-- The address of the scale byte of row `i`, block `b` (0 or 1) of a tile (R145). -/
def View.scaleAddr (v : View) (tile i b : Nat) : Nat :=
  let ti := tile / v.ct
  let sh := ti / v.band
  let (_, sva) := (v.shards[sh]?).getD (0, 0)
  if v.tiled then sva + 128 * ((ti - sh * v.band) * v.ct + tile % v.ct) + 2 * i + b
  else sva + (64 * (ti - sh * v.band) + i) * v.dld / 32 + 2 * (tile % v.ct) + b

/-- The view has scale bytes. -/
def View.scaled (v : View) : Bool := v.tfmt != 6

/-- The byte ranges of the destination: element rows and scale bytes of every tile. -/
def View.destRanges (v : View) : List (Nat × Nat) :=
  (List.range (v.rt * v.ct)).flatMap fun t => (List.range 64).flatMap fun i =>
    v.rowAddr t i :: if v.scaled then [(v.scaleAddr t i 0, 1), (v.scaleAddr t i 1, 1)] else []

/-- Two lists of ranges share a byte. -/
def meetRanges (a b : List (Nat × Nat)) : Bool := a.any fun x => b.any fun y => rangesMeet x y

/-- A byte belongs to a tile of the view. -/
def View.tileHas (v : View) (tile va : Nat) : Bool :=
  (List.range 64).any fun i =>
    let (a, n) := v.rowAddr tile i
    (decide (a ≤ va) && decide (va < a + n)) ||
    (v.scaled && (v.scaleAddr tile i 0 == va || v.scaleAddr tile i 1 == va))

/-- The tile that a destination byte belongs to. -/
def View.tileAt (v : View) (va : Nat) : Option Nat := (List.range (v.rt * v.ct)).find? fun t => v.tileHas t va

/-- The views whose registration is complete (R147). -/
def Ctx.liveViews (c : Ctx) : Table View := c.views.filter fun e => e.2.live

/-- The view and tile whose destination holds a byte. -/
def Ctx.viewAt (c : Ctx) (va : Nat) : Option (Nat × Nat) :=
  c.liveViews.findSome? fun e => (e.2.tileAt va).map fun t => (e.1, t)

/-- The tile of the master element that holds a byte (R145, R149). -/
def View.masterTile (v : View) (va : Nat) : Option Nat :=
  if va < v.mva ∨ v.mld = 0 then none
  else
    let e := (va - v.mva) / v.esize
    let r := e / v.mld
    let c := e % v.mld
    if r < 64 * v.rt ∧ c < 64 * v.ct then some (r / 64 * v.ct + c / 64) else none

/-! ### Ranges of an engine command (R305 step 3) -/

/-- The pages that a byte range touches. -/
def pagesOf (va len : Nat) : List Nat := if len = 0 then [] else rangeFrom (va / 65536) ((va + len - 1) / 65536 + 1 - va / 65536)

/-- The first byte of a range of a context that belongs to a registered view destination (R155). -/
def State.inDest (s : State) (ctx va n : Nat) : Option Nat :=
  match s.ctx ctx with
  | some c => if c.views.isEmpty then none else ((List.range n).find? fun i => (c.viewAt (va + i)).isSome).map (va + ·)
  | none => none

/-- The first fault of a range, or the translations that an operation takes, page by page in ascending VA: translation,
writes to a registered view destination (R155), the label check (R238). `lab` is none for reads. The labels read are
joined into the answer. A page with POISON status is taken with its mark (R87, R218); a translation notes whether it was taken to
write (R149). -/
def State.transRange (s : State) (die ctx : Nat) (lease : Option Nat) (k : AccKind) (lab : Option Label) (va len : Nat) :
    State × Except (BitVec 8 × W64) (Table Trans × Label) :=
  (pagesOf va len).foldl (fun (a : State × Except (BitVec 8 × W64) (Table Trans × Label)) vpn =>
    match a.2 with
    | .error _ => a
    | .ok (t, l) =>
      let first := max va (vpn * 65536)
      let last := min (va + len) ((vpn + 1) * 65536)
      let (s, r) := a.1.translate die ctx lease first k
      match r with
      | .fault f => (s, .error (f, BitVec.ofNat 64 first))
      | r => match if k = .r then none else s.inDest ctx first (last - first), r with
        | some b, _ => (s, .error (0x13, BitVec.ofNat 64 b))
        | none, .fault f => (s, .error (f, BitVec.ofNat 64 first))
        | none, .poison => (s.markListed ctx vpn, .ok (tPut t vpn { ppn := 0, attr := 0, poison := true, old := false, wr := false }, l))
        | none, .ok x =>
          let x := { x with wr := k != .r }
          match lab with
          | some d => if (attrLbl x.attr).toNat < d.toNat then (s, .error (0x10, BitVec.ofNat 64 first))
                      else (s, .ok (tPut t vpn x, Label.join l (attrLbl x.attr)))
          | none => (s, .ok (tPut t vpn x, Label.join l (attrLbl x.attr)))) (s, .ok ([], 0))

/-- The label of the data in a range as far as its pages translate for reading. Where a page of the source faults, R305 and R238 leave
open which label a destination is checked against: that it is this one is the model's choice (log 94). -/
def State.readLabel (s : State) (die ctx : Nat) (lease : Option Nat) (va len : Nat) : Label :=
  Label.joinAll ((pagesOf va len).map fun p => match (s.translate die ctx lease (max va (p * 65536)) .r).2 with
    | .ok t => attrLbl t.attr
    | _ => 0)

/-- The accesses of a command to a page: sampled (R89), and counted for its core where they cross a base-die crossbar (R13). Accesses
of the hub die (`die` none) pass through the compute die of the target's quadrant (R12); those to no HBM frame are taken at
die 0 (log 74). -/
def State.accessBy (s : State) (die core : Option Nat) (ctx ppn : Nat) : State :=
  let home := if tierOf (ppn * 65536) = some 0 then some (fld (ppn * 65536) 35 34) else none
  let d := (die.or home).getD 0
  let s := s.sampleAccess d ppn
  if home ≠ none ∧ home ≠ some d then s.pmc d core ctx 0x19 1 else s

/-- The accesses to a page of a command that is at issue. -/
def State.access (s : State) (die : Option Nat) (ctx ppn : Nat) : State := s.accessBy die s.curCore ctx ppn

/-- The accesses of a device service to some pages of a context. -/
def State.serviceAccess (s : State) (slot : Nat) (k : AccKind) (pages : List Nat) : State :=
  pages.foldl (fun s p => match (s.translate 0 slot none (p * 65536) k).2 with
    | .ok t => s.accessBy none none slot t.ppn
    | _ => s) s

/-- The accesses of a command that no fault has stopped, page by page. -/
def State.accessAll (s : State) (die : Option Nat) (ctx : Nat) (t : Table Trans) : State :=
  t.foldl (fun s e => if e.2.poison then s else s.access die ctx e.2.ppn) s

/-- Merges translation tables. -/
def mergeTrans (a b : Table Trans) : Table Trans := b.foldl (fun t e => tPut t e.1 e.2) a

/-! ### Edits (R129, R133) -/

/-- The migration record of a page. -/
def State.migOf (s : State) (slot vpn : Nat) : Option (Nat × Mig) :=
  s.mem.migs.find? fun e => e.2.ctx == slot && e.2.vpn == vpn

/-- Ends a migration before its cut-over: every die's entry returns to MAPPED(src), dst is freed (R95, R96). A dst that showed an error is
retired (R95): it stands on the poisoned-frame list, from which no frame is taken. How it is retired where that list is full R95 does not
say: that it is then free like any other frame is the model's choice (log 116). -/
def State.endMig (s : State) (id : Nat) (m : Mig) (ctr : Nat) : State :=
  let attr := match s.excHit 0 m.ctx m.vpn with
    | some e => e.attr
    | none => 0
  let s := (s.insFix { fix := true, state := .mapped, vpn := m.vpn, ctx := m.ctx, ppn := m.src, attr := attr, dppn := 0 }).1
  let s := (s.subRef m.dst).count ctr 0 1
  let s := s.modMem fun x => { x with migs := tDel x.migs id }
  match m.op with
  | some o => s.modOp o fun x => match x.kind with
    | .place ps t st d k ab => { x with kind := .place (ps.filter (· != m.vpn)) t st d k (ab + 1) }
    | _ => x
  | none => s

/-- A PTE that names another frame and tier. -/
def movePte (pte ppn tier : Nat) : Nat := pte % 2 ^ 7 + tier * 2 ^ 7 + fld pte 19 9 * 2 ^ 9 + ppn * 2 ^ 20 + fld pte 63 56 * 2 ^ 56

/-- The last acknowledgement of a cut-over (R93 step 6): the PTE is written, src is freed, the refitter is told. -/
def State.ackMig (s : State) (id : Nat) (m : Mig) : State :=
  match s.ctx m.ctx with
  | none => s
  | some c =>
    let s := s.writeLeaf m.ctx m.vpn (movePte (s.leaf c m.vpn) m.dst ((tierOf (m.dst * 65536)).getD 0))
    let s := (s.subRef m.src).modMem fun x => { x with migs := tDel x.migs id }
    let s := (s.modCtx m.ctx fun c => { c with refitQ := c.refitQ ++ [(m.vpn, c.tickets + 1)], toFold := c.toFold ++ [(m.vpn, c.tickets + 1)], tickets := c.tickets + 1 }).count 0x10 0 1
    match m.op with
    | some o => s.modOp o fun x => match x.kind with
      | .place ps t st d k ab => { x with kind := .place (ps.filter (· != m.vpn)) t st (d + 1) k ab }
      | _ => x
    | none => s

/-- The migrations of a context under removal: a cut-over completes, another frees its destination. -/
def State.dropMigs (s : State) (slot : Nat) : State :=
  s.mem.migs.foldl (fun s e => if e.2.ctx ≠ slot then s
    else if e.2.cut then s.ackMig e.1 e.2
    else (s.subRef e.2.dst).modMem fun x => { x with migs := tDel x.migs e.1 }) s

/-- Updates the exception tables for a new leaf (R129): FIX when a valid segment covers the page or an entry is already
FIX, else a CACHE entry is overwritten or removed. `keepPoison` is R418's. -/
def State.excEdit (s : State) (slot vpn pte : Nat) (keepPoison : Bool) : State :=
  let v : Bool := pte % 2 == 1
  let e : Exc := { fix := true, state := if v then .mapped else .unmapped, vpn := vpn, ctx := slot, ppn := ptePpn pte,
                   attr := pteAttr pte, dppn := 0 }
  let covered : Bool := match s.ctx slot with
    | some c => c.segs.any (·.covers vpn)
    | none => false
  match s.excHit 0 slot vpn with
  | some x =>
    if keepPoison ∧ x.state = .poison then (s.insFix { x with attr := pteAttr pte }).1
    else if covered ∨ x.fix then (s.insFix e).1
    else (List.range 4).foldl (fun s d => match s.excWay d slot vpn with
      | some (k, _) => if v then s.putExc k { e with fix := false } else s.delExc d slot vpn
      | none => s) s
  | none =>
    if covered then (s.insFix e).1
    else (List.range 4).foldl (fun s d => match s.excWay d slot vpn with
      | some (k, x) => if x.fix then s.putExc k e else if v then s.putExc k { e with fix := false } else s.delExc d slot vpn
      | none => s) s

/-- Changes the translation of a page that outstanding operations, the warps that wait at `signal.wait` and the completion words of
child launches hold (R131). -/
def State.modTrans (s : State) (slot vpn : Nat) (f : Trans → Trans) : State :=
  let mine (x : Warp) : Bool := match s.home x with
    | some (_, g, _) => g.ctx == slot
    | none => false
  let word (c : Nat × Trans) : Nat × Trans := if c.1 / 65536 = vpn then (c.1, f c.2) else c
  { s with work := { s.work with
      grids := tMap s.work.grids fun _ g => if g.ctx = slot then { g with complVa := g.complVa.map word } else g,
      ops := tMap s.work.ops fun _ o => if o.ctx = slot then { o with trans := tMod o.trans vpn f } else o,
      warps := tMap s.work.warps fun _ x => match x.wait with
        | .signal va t ext => if va / 65536 = vpn ∧ mine x then { x with wait := .signal va (f t) ext } else x
        | _ => x } }

/-- Marks the translations of a page that are held as replaced (R134). -/
def State.replaceTrans (s : State) (slot vpn : Nat) : State := s.modTrans slot vpn fun t => { t with old := true }

/-- Adds a page to the revoked set of a grid's lease that covers it (R133 step 5). -/
def Grid.revoke (g : Grid) (slot vpn : Nat) : Grid :=
  if g.ctx == slot && g.leases.any (fun l => l.allows vpn .r || l.allows vpn .w || l.allows vpn .x)
  then { g with revoked := setAdd g.revoked vpn } else g

/-- The refusal of a `MAPEDIT` by its contents (R133), after the slot has been found live. R133 states no order between its
TRANSLATE and its PROTECT cases; that TRANSLATE comes first where both hold is the model's choice (log 75). -/
def State.editRefused (s : State) (c : Ctx) (va pte : Nat) : Option (BitVec 8 × W64) :=
  let vpn := va / 65536
  let cur := s.leaf c vpn
  let a := pteAttr pte
  let ca := pteAttr cur
  let v : Bool := pte % 2 == 1
  let bad (f : BitVec 8) : Option (BitVec 8 × W64) := some (f, BitVec.ofNat 64 va)
  if va / 2 ^ 57 ≠ 0 ∨ (v ∧ s.refuses (ptePpn pte) (attrTier a)) ∨ (s.freeNodes c).length < s.missing 3 c.root vpn then bad 0x12
  else if attrWatch a ≠ attrWatch ca ∨ attrPool a ≠ attrPool ca ∨ (attrMeas ca ∧ attrW a) ∨
      (c.prot ∧ (attrMeas a ∨ attrX a ∨ (attrMeas ca ∧ v))) then bad 0x13
  else none

/-- The edit waits: the page is between cut-over and its last acknowledgement (R133 step 1). -/
def State.editWaits (s : State) (slot vpn : Nat) : Bool :=
  match s.migOf slot vpn with
  | some (_, m) => m.cut
  | none => false

/-- Every tile that has a master element on a page gets a new version, as a master write gives it (R149). -/
def tilesOnPage (v : View) (vpn : Nat) : List Nat :=
  (List.range (v.rt * v.ct)).filter fun t => (List.range 64).any fun i =>
    let a := v.mva + ((64 * (t / v.ct) + i) * v.mld + 64 * (t % v.ct)) * v.esize
    decide (a / 65536 ≤ vpn) && decide (vpn ≤ (a + 64 * v.esize - 1) / 65536)

/-- A tile's version increases; it is owed a rebuild and joins the stale queue, or marks its view (R149, R151). -/
def State.bumpTile (s : State) (slot view tile : Nat) : State × W32 :=
  match s.ctx slot with
  | none => (s, 0)
  | some c => match tFind c.views view with
    | none => (s, 0)
    | some v => match tFind v.tiles tile with
      | none => (s, 0)
      | some t =>
        let ver := t.mv + 1
        let full := decide (s.stale.length ≥ 65536)
        let v2 := { v with tiles := tPut v.tiles tile { t with mv := ver, queued := true }, mark := v.mark || (!t.queued && full) }
        let s := s.putCtx slot { c with views := tPut c.views view v2 }
        let s := if t.queued then s else if full then (if v.mark then s else s.count 0x35 (256 * slot + view) 1)
          else { s with stale := s.stale ++ [(slot, view, tile)] }
        (s, ver)

/-- Every tile of some views that has an element on a page gets a new version: the tiles with their versions (R149). -/
def State.bumpPage (s : State) (slot vpn : Nat) (views : Table View) : State × List TileVer :=
  views.foldl (fun a e => ((tilesOnPage e.2 vpn).filter fun t => (tFind e.2.tiles t).isSome).foldl (fun (a : State × List TileVer) t =>
    let (s, v) := a.1.bumpTile slot e.1 t
    (s, a.2 ++ [{ ctx := slot, view := e.1, tile := t, ver := v }])) a) (s, [])

/-- The effect of an accepted edit, from step 1 to step 6 of R133, and the tiles whose versions it raises (R149). It reads the path to the
leaf; a line there that cannot be read keeps it from nothing, by the model's choice (log 106). `whole` is false
for Lighthouse's WATCH and POOL changes (R418), which revoke nothing, keep POISON and hotness, and are no edit that `REFITF` waits
for (R135). -/
def State.editTiles (s : State) (slot vpn pte : Nat) (whole : Bool) : State × List TileVer :=
  match s.ctx slot with
  | none => (s, [])
  | some c =>
    let s := match s.migOf slot vpn with
      | some (id, m) => if m.cut then s else s.endMig id m 0x12
      | none => s
    let cur := s.leaf c vpn
    let v : Bool := pte % 2 == 1
    let cv : Bool := cur % 2 == 1
    let moved : Bool := v && (!cv || ptePpn cur != ptePpn pte)
    let s := if v then s.joinSlot (attrKey (pteAttr pte)) (ptePpn pte) else s
    let s := if v ∧ moved then s.firstUse (attrKey (pteAttr pte)) (ptePpn pte) else s
    let s := ((s.readPath 3 c.root vpn).1).link slot 3 c.root vpn
    let s := s.writeLeaf slot vpn pte
    let s := if whole then
        let s := if cv then s.subRef (ptePpn cur) else s
        let s := if v then s.addRef (ptePpn pte) else s
        let s := if moved then s.newPage (ptePpn pte) else s
        s.replaceTrans slot vpn
      else s
    let s := s.excEdit slot vpn pte (!whole)
    let s := if whole ∧ !v then
        let s := { s with work := { s.work with grids := tMap s.work.grids fun _ g => g.revoke slot vpn } }
        s.modCtx slot fun c => { c with views := tMap c.views fun _ v => if v.live then { v with revoked := setAdd v.revoked vpn } else v }
      else s
    let s := s.modCtx slot fun c =>
      if whole then { c with
        refitQ := c.refitQ ++ [(vpn, c.tickets + 1)], toFold := c.toFold ++ [(vpn, c.tickets + 1)], tickets := c.tickets + 1,
        mutableC := c.mutableC || (attrW (pteAttr pte) && attrX (pteAttr pte)) }
      else { c with refitQ := c.refitQ ++ [(vpn, c.tickets)] }
    if whole ∧ attrWatch (pteAttr cur) ∧ ptePpn cur ≠ ptePpn pte then s.bumpPage slot vpn c.views else (s, [])

/-- The effect of an accepted edit. -/
def State.editLeaf (s : State) (slot vpn pte : Nat) (whole : Bool) : State := (s.editTiles slot vpn pte whole).1

/-- The largest count over the dies of a context's FIX entries in state MAPPED or UNMAPPED (R135, R222). -/
def State.fixCount (s : State) (slot : Nat) : Nat :=
  (List.range 4).foldl (fun n d => max n (s.xlat.exc.filter fun e =>
    e.1 / 131072 == d && e.2.fix && e.2.ctx == slot && (e.2.state == .mapped || e.2.state == .unmapped)).length) 0

/-- A replaced translation of a page of a range (R134). -/
def Trans.oldIn (t : Trans) (page vpn n : Nat) : Bool := t.old && decide (vpn ≤ page) && decide (page < vpn + n)

/-- The place of some bytes is on a page of main memory. -/
def Loc.onPage (l : Loc) (len page : Nat) : Bool :=
  match l with
  | .main va => decide (va / 65536 ≤ page) && decide (page ≤ (va + len - 1) / 65536)
  | _ => false

/-- An operation has still to make an access to a page that it translated: one of a piece or of a read-modify-write, where it has such;
any other operation makes its accesses in one, and has them to make until it is done. -/
def Op.reaches (o : Op) (page : Nat) : Bool :=
  !o.done && match o.kind with
  | .move ps _ => o.todo.any fun i => (ps[i]?).any fun p => p.src.onPage p.len page || p.dst.onPage p.len page
  | .rmws rs => o.todo.any fun i => (rs[i]?).any fun r => (Loc.main r.va).onPage r.len page
  | _ => true

/-- The accesses to a page range under a replaced translation that are still to be made (R134), each as its operation, or its child grid
with a completion word still to be written, and the page; keys tell operations and grids apart (log 3). -/
def State.oldOps (s : State) (slot vpn n : Nat) : List (Nat × Nat) :=
  s.work.ops.flatMap (fun e => if e.2.ctx = slot then
    ((e.2.trans.filter fun t => t.2.oldIn t.1 vpn n && e.2.reaches t.1).map fun t => (e.1, t.1)) else []) ++
  s.work.grids.flatMap fun e => if e.2.ctx = slot then
    ((e.2.complVa.filter fun c => c.2.oldIn (c.1 / 65536) vpn n).map fun c => (e.1, c.1 / 65536)).toList else []

/-- A warp waits at `signal.wait` with a replaced translation of a page of a range (R134). -/
def Warp.oldSignal (x : Warp) (vpn n : Nat) : Bool :=
  match x.wait with
  | .signal va t _ => t.oldIn (va / 65536) vpn n
  | _ => false

/-- The warps of a context that wait at `signal.wait` with a replaced translation of a page range, each with the number of its wait
(R134). -/
def State.oldSigs (s : State) (slot vpn n : Nat) : List (Nat × Nat) :=
  ((s.warpsOfCtx slot).filter fun e => e.2.oldSignal vpn n).map fun e => (e.1, e.2.sigWaits)

/-- Operations of a list that are not done. -/
def State.undone (s : State) (ops : List Nat) : List Nat :=
  ops.filter fun o => match s.op o with
    | some x => !x.done
    | none => false

/-- The accesses of a list that are still to be made: of operations that have some left on the page, of child grids that have not ended
(R134). -/
def State.unmade (s : State) (l : List (Nat × Nat)) : List (Nat × Nat) :=
  l.filter fun a => match s.op a.1 with
    | some x => x.reaches a.2
    | none => (s.grid a.1).isSome

/-- The warps of a list that still stand at the wait that was recorded (R134). -/
def State.unsignalled (s : State) (ws : List (Nat × Nat)) : List (Nat × Nat) :=
  ws.filter fun e => match s.warp e.1 with
    | some x => x.sigWaits == e.2 && match x.wait with
      | .signal _ _ _ => true
      | _ => false
    | none => false

end Sys2Proof.Machine
end

