-- ==== Sys2Proof/Machine/Ends.lean ====
section
/-!
DEFINITION. How work ends: writes of device services (R88, R187), events to the host (R194), sub-launches and packets
(R187, R188), teams, grids and contexts (R254 to R257, R316).
-/
namespace Sys2Proof.Machine

/-- The physical address of a PCIe address (R71). -/
def hostPa (addr : Nat) : Nat := 0x8000000000000 + addr % 2 ^ 51

/-- The translation under which a packet's record and signal are written (R187): no lease; for a context under removal, which
completes its launches so (R256 step 7), its page table as it stands. Which compute
die's tables translate the accesses of the hub die, and count WALKS, UNCWALK and EXOCC for them, the spec does not say; that
it is die 0 is the model's choice (log 77). -/
def State.devTranslate (s : State) (ctx va : Nat) (k : AccKind) : State × TRes :=
  match s.ctx ctx with
  | some c => if c.invalid then
      if va / 2 ^ 57 ≠ 0 then (s, .fault 0x12)
      else match s.readPath 3 c.root (va / 65536) with
        | (s, true) => (s, .poison)
        | (s, false) => (s, match s.walk { c with invalid := false } (va / 65536) with
          | .ok t => checkEntry .mapped t.ppn t.attr k
          | r => r)
    else s.translate 0 ctx none va k
  | none => (s, .fault 0x12)

/-- The parts of a range of main memory that lie in one 64-byte line each. -/
def lineParts (va n : Nat) : List (Nat × Nat) :=
  if n = 0 then []
  else (rangeFrom (va / 64) ((va + n - 1) / 64 + 1 - va / 64)).map fun l =>
    (max va (64 * l), min (va + n) (64 * l + 64) - max va (64 * l))

/-- A device service reads bytes of a context, line by line; the error is a fault code (R185): TRANSLATE once the context is being
removed (R256 step 2). -/
def State.devRead (s : State) (ctx va n : Nat) (k : AccKind) : State × Except (BitVec 8) (List Byte) :=
  (lineParts va n).foldl (fun (a : State × Except (BitVec 8) (List Byte)) p =>
    match a.2 with
    | .error _ => a
    | .ok bs =>
      match a.1.translate 0 ctx none p.1 k with
      | (s, .ok t) =>
        let (s, bad) := s.meetLine 0 ctx p.1 t
        if bad then (s, .error 0x14)
        else (s, .ok (bs ++ s.peekN (attrKey t.attr) (t.ppn * 65536 + p.1 % 65536) p.2))
      | (s, .fault f) => (s, .error f)
      | (s, .poison) => (s.markListed ctx (p.1 / 65536), .error 0x14)) (s, .ok [])

/-- A device service writes an aligned word of a context under a translation; false when the write cannot be made (R187). -/
def State.devPut (s : State) (ctx va : Nat) (t : Trans) (bs : List Byte) : State × Bool :=
  if t.poison then (s, false)
  else
    let (s, bad) := s.meetLine 0 ctx va t
    if bad then (s, false) else (s.pokeN (attrKey t.attr) (t.ppn * 65536 + va % 65536) bs, true)

/-- A device service translates and writes an aligned word of a context; false when the write cannot be made (R187). -/
def State.devWrite (s : State) (ctx va : Nat) (bs : List Byte) : State × Bool :=
  match s.devTranslate ctx va .w with
  | (s, .ok t) => s.devPut ctx va t bs
  | (s, .poison) => (s.markListed ctx (va / 65536), false)
  | (s, .fault _) => (s, false)

/-- Posts an event to the host's ring (R194). -/
def State.postEvent (s : State) (kind slot : Nat) (cause : BitVec 8) (tag : Nat) (detail : W64) (team warp : Nat) : State :=
  let m := s.mgmt
  if m.mevCfg.getLsbD 8 = false then s
  else
    let n := 2 ^ (min 6 (fld m.mevCfg.toNat 3 0) + 6)
    let next := (m.mevTail.toNat + 1) % n
    if next = m.mevHead.toNat % n then s.modMgmt fun m => { m with dropped := if m.dropped = 0xFFFF then m.dropped else m.dropped + 1 }
    else
      let ws := [tag * 2 ^ 32 + cause.toNat * 65536 + slot * 256 + kind, s.time.toNat, detail.toNat, warp * 2 ^ 32 + team]
      let s := s.pokeN 0 (hostPa (m.mevBase.toNat / 4096 * 4096 + 32 * m.mevTail.toNat)) (ws.flatMap (toBytes 8))
      (s.modMgmt fun m => { m with mevTail := BitVec.ofNat 16 next }).emit (.msix 16 (m.mevCfg.extractLsb' 16 11))

/-! ### Packets -/

/-- The registers of a queue. -/
def State.queue (s : State) (fn q : Nat) : Queue := (tFind s.front.queues (16 * fn + q)).getD Queue.reset

/-- Stores a queue's registers. -/
def State.putQueue (s : State) (fn q : Nat) (x : Queue) : State :=
  { s with front := { s.front with queues := tPut s.front.queues (16 * fn + q) x } }

/-- Fires a queue's pending message (R188). -/
def State.fire (s : State) (fn q : Nat) : State :=
  let x := s.queue fn q
  if x.pend.isSome then (s.putQueue fn q { x with pend := none }).emit (.msix fn x.vec) else s

/-- A word of a packet. -/
def Packet.word (p : Packet) (i : Nat) : Nat := ((p.words[i]?).getD 0).toNat

/-- The context that a packet names (R182). -/
def Packet.ctx (p : Packet) : Nat := fld (p.word 5) 5 0

/-- A packet writes its record and its signal through its context, is counted off, and ends (R187). -/
def State.retirePacket (s : State) (k : Nat) : State :=
  match s.packet k with
  | none => s
  | some p =>
    let w0 := p.word 0
    let own := match s.ctx p.ctx with
      | some c => c.fn == p.fn
      | none => false
    let reca := p.word 3 % 2 ^ 57
    let sigop := fld w0 15 14
    let siga := p.word 1 % 2 ^ 57
    let drop (s : State) : State := s.count 0x54 p.fn 1
    let s := if p.silent ∨ reca = 0 then s
      else if !own ∨ reca % 16 ≠ 0 then drop s
      else
        let w := fld w0 63 32 * 2 ^ 32 + p.cause.toNat * 65536 + p.slot * 256 + p.status
        let (s, ok) := s.devWrite p.ctx reca (toBytes 8 w ++ toBytes 8 p.detail.toNat)
        if ok then s else drop s
    let s := if p.silent ∨ sigop = 0 then s
      else if !own ∨ siga % 8 ≠ 0 ∨ sigop = 3 then drop s
      else
        let (s, ok) := if sigop = 1 then s.devWrite p.ctx siga (toBytes 8 (p.word 2))
          else match s.devTranslate p.ctx siga .w with
            | (s, .ok t) => s.devWrite p.ctx siga
                (toBytes 8 (ofBytes (s.peekN (attrKey t.attr) (t.ppn * 65536 + siga % 65536) 8) + p.word 2))
            | (s, _) => (s, false)
        if ok then s else drop s
    let s := { s with front := { s.front with packets := tDel s.front.packets k } }
    let x := s.queue p.fn p.q
    if p.silent ∨ x.period ≠ p.period then s
    else
      let x := { x with inflight := x.inflight - 1, pend := if bitAt w0 9 then x.pend else some (x.pend.getD 0) }
      let s := s.putQueue p.fn p.q x
      if x.inflight = 0 then s.fire p.fn p.q else s

/-- The status of a bundle from its sub-launches: FAILED, then KILLED, MISMATCH, ABORTED, DONE, with the lowest slot whose
sub-launch ended so; an empty slot has none (R187). -/
def bundleStatus (subs : List Sub) : Nat × BitVec 8 × Nat :=
  let pick (st : Nat) : Option (Nat × BitVec 8 × Nat) :=
    (List.range subs.length).findSome? fun i => match subs[i]? with
      | some x => match x.ended with
        | some (t, c) => if t = st ∧ x.kind ≠ .empty then some (st, c, i) else none
        | none => none
      | none => none
  (((((pick 2).or (pick 4)).or (pick 5)).or (pick 3)).or (pick 0)).getD (0, 0, 0)

/-- A sub-launch ends; with the last one the packet has finished (R186, R187). Which count DETAIL holds where several REFRESH slots of a
bundle have POISONED tiles R157 does not say: the first that is not 0 is the model's choice (log 104). -/
def State.endSub (s : State) (k i status : Nat) (cause : BitVec 8) (detail : W64) : State :=
  s.modPacket k fun p =>
    let subs := (List.range p.subs.length).map fun j => match p.subs[j]? with
      | some x => if j = i ∧ x.ended = none then { x with ended := some (status, cause), detail := detail } else x
      | none => { kind := .empty, ended := some (0, 0), detail := 0 }
    if subs.all (fun x => x.ended.isSome) then
      let (st, c, sl) := bundleStatus subs
      { p with subs := subs, stage := .finished, status := st, cause := c, slot := sl,
               detail := ((subs.find? fun x => x.detail != 0).map (·.detail)).getD 0 }
    else { p with subs := subs }

/-! ### Operations -/

/-- Drops operations: they perform nothing further (R117, R254, R255). -/
def State.dropOps (s : State) (p : Op → Bool) : State :=
  { s with work := { s.work with ops := s.work.ops.filter fun e => !p e.2 } }

/-! ### Teams and grids -/

/-- The context is being pre-empted (R207). -/
def Ctx.draining (c : Ctx) : Bool :=
  match c.pre with
  | .drain _ => true
  | _ => false

/-- The deques that a team owns become unowned (R205). -/
def State.disown (s : State) (gridId : W64) (num : Nat) : State :=
  { s with deques := tMap s.deques fun _ d => if d.owner = some (gridId, BitVec.ofNat 32 num) then { d with owner := none } else d }

/-- Discards the launches of children, none of whose teams is resident, that wait for an operation of this kind to retire, which it
never will (R115, R254). That a
launch is discarded also where its team alone is killed, which R255 does not say, is the model's choice (log 95). -/
def State.discardEarly (s : State) (p : Op → Bool) : State :=
  let early := (s.work.grids.filter fun e => (s.work.teams.all fun t => t.2.grid != e.1) && e.2.before.any fun o => match s.op o with
    | some x => p x
    | none => false).map (·.1)
  early.foldl (fun s c => match s.grid c with
    | some x => ({ s with work := { s.work with grids := tDel s.work.grids c, order := setDel s.work.order c } }).modCtx x.ctx
        fun c => { c with children := c.children - 1 }
    | none => s) s

/-- A team leaves its core: warps, operations, memory and tiles are gone, its deques unowned. -/
def State.removeTeam (s : State) (t : Nat) : State :=
  match s.team t with
  | none => s
  | some x =>
    let s := match s.grid x.grid with
      | some g => s.disown g.gridId x.num
      | none => s
    let mine (o : Op) : Bool := o.team == t && o.slot == none
    let s := (s.discardEarly mine).dropOps mine
    let s := { s with work := { s.work with
      warps := s.work.warps.filter (fun e => e.2.team != t), teams := tDel s.work.teams t } }
    let s := s.modGang x.gang fun g => { g with teams := setDel g.teams t }
    s.modGrid x.grid fun g => { g with live := g.live - 1 }

/-- Some team of the gang is resident or still to be placed again. -/
def State.gangAlive (s : State) (k : Nat) (g : Gang) : Bool :=
  !g.teams.isEmpty || match s.grid g.grid with
    | some x => (x.relaunch.any fun e => e.2 == k)
    | none => false

/-- A context is removed by an FLR, whose launches complete without a record (R256). -/
def Ctx.silent (c : Ctx) : Bool :=
  match c.pre with
  | .removing _ _ flr => flr
  | _ => false

/-- The completion word of a child launch, if it named one (R330): written under the translation that the `LAUNCH` took, by which its
label was checked then (R88, R131, R238). -/
def State.childDone (s : State) (ctx : Nat) (word : Option (Nat × Trans)) (status : Nat) (cause : BitVec 8) : State :=
  let s := s.modCtx ctx fun c => { c with children := c.children - 1 }
  match if (s.ctx ctx).any Ctx.silent then none else word with
  | some (va, t) => (s.devPut ctx va t (toBytes 8 (2 ^ 63 + cause.toNat * 65536 + status))).1
  | none => s

/-- A grid ends: its leases, scratchpads and gangs are released and its sub-launch or completion word reports it (R139,
R64, R187, R330). -/
def State.endGrid (s : State) (k : Nat) : State :=
  match s.grid k with
  | none => s
  | some g =>
    let (status, cause) : Nat × BitVec 8 := match g.failed, g.killed, g.seqFail with
      | some c, _, _ => (2, c)
      | none, some c, _ => (4, c)
      | none, none, some c => (2, c)
      | none, none, none => (0, 0)
    let s := { s with work := { s.work with grids := tDel s.work.grids k, order := setDel s.work.order k,
                                              gangs := s.work.gangs.filter fun e => e.2.grid != k } }
    let s := match g.cause, s.ctx g.ctx with
      | some h, some c => s.count (0x48 + (match h with
          | .residency => 0
          | .slice => 1
          | .scratch => 2
          | .gang => 3
          | .room => 4
          | .freq => 5)) c.fn (g.causeNs / 1000)
      | _, _ => s
    match g.packet with
    | some (p, i) => s.endSub p i status cause 0
    | none => s.childDone g.ctx g.complVa status cause

/-- A grid ends once no team is resident and none is still to be placed, or it has failed. -/
def State.gridCheck (s : State) (k : Nat) : State :=
  match s.grid k with
  | none => s
  | some g =>
    if g.live = 0 ∧ (g.failed.isSome ∨ g.killed.isSome ∨ (g.nextTeam = g.teams ∧ g.relaunch = [] ∧ g.resumeQ = [])) then s.endGrid k
    else s

/-- The scratchpad copy of a die is released when the grid's last team there has retired (R64); one that is to be placed again
there, killed or exited on its notice, has not (log 63). -/
def State.scratchCheck (s : State) (k die : Nat) : State :=
  match s.grid k with
  | none => s
  | some g =>
    let here := s.work.teams.any fun e => e.2.grid == k && dieOf e.2.core == die
    if here ∨ g.relaunch.any (fun e => match s.gang e.2 with | some x => x.die == die | none => false) ∨ g.resumeQ.any (fun e => e.2.2 == die) then s
    else s.putGrid k { g with scratch := tDel g.scratch die }

/-- A grid fails: no further team is placed, its warps, sequencers and operations stop, and it ends (R254). Launches of
it that are not yet accepted are discarded with the operations that they wait for. -/
def State.failGrid (s : State) (k : Nat) (cause : BitVec 8) : State :=
  match s.grid k with
  | none => s
  | some g =>
    let s := s.putGrid k { g with failed := some (g.failed.getD cause), nextTeam := g.teams, relaunch := [], resumeQ := [] }
    let ts := (s.work.teams.filter fun e => e.2.grid == k).map (·.1)
    let s := ts.foldl (fun s t => s.removeTeam t) s
    s.gridCheck k

/-- A team retires when its last warp has ended (R316): a sequencer fault fails the grid (R252); a `.persistent` team that
exited on its notice is to be relaunched (R209). -/
def State.retireTeam (s : State) (t : Nat) : State :=
  match s.team t with
  | none => s
  | some x =>
    let stopped : Option (BitVec 8) := match x.seqr with
      | some q => match q.run with
        | .stopped c => some c
        | _ => none
      | none => none
    let s := s.removeTeam t
    match s.grid x.grid with
    | none => s
    | some g =>
      let draining : Bool := match s.ctx g.ctx with
        | some c => c.draining
        | none => false
      let gangNum := match s.gang x.gang with
        | some y => y.num
        | none => 0
      let g := { g with seqFail := g.seqFail.or stopped }
      let g := if g.kernel.pers ∧ draining ∧ x.noticed then { g with resumeQ := g.resumeQ ++ [(x.num, gangNum, dieOf x.core)] } else g
      let s := s.putGrid x.grid g
      let s := match s.gang x.gang with
        | some y => if s.gangAlive x.gang y then s else { s with work := { s.work with gangs := tDel s.work.gangs x.gang } }
        | none => s
      (s.scratchCheck x.grid (dieOf x.core)).gridCheck x.grid

/-! ### Contexts -/

/-- The entries of a node that memory lists, by index. -/
def State.nodeEntries (s : State) (node : Nat) : List Nat :=
  ((s.mem.bytes.filter fun e => decide (node * 65536 ≤ e.1) && decide (e.1 < node * 65536 + 65536)).map
    fun e => (e.1 - node * 65536) / 8).eraseDups

/-- The mapped pages below a node: VPN and PTE, along the entries that a walk follows (R121, R125). -/
def State.leavesBelow (s : State) : Nat → Nat → Nat → List (Nat × Nat)
  | 0, node, vpn => (s.nodeEntries node).filterMap fun i =>
      let e := s.peek64 (node * 65536 + 8 * i)
      if e % 2 = 1 then some (vpn * 8192 + i, e) else none
  | l + 1, node, vpn => (s.nodeEntries node).flatMap fun i =>
      let e := s.peek64 (node * 65536 + 8 * i)
      if e % 2 = 0 ∨ fld e 63 56 ≠ 0 ∨ fld e 19 1 ≠ 0 ∨ fld e 55 20 ≥ 0x800000 ∨ (l = 2 ∧ 4 ≤ i) then []
      else s.leavesBelow l (fld e 55 20) (vpn * 8192 + i)

/-- The mapped pages of a context. -/
def State.leaves (s : State) (c : Ctx) : List (Nat × Nat) := s.leavesBelow 3 c.root 0

/-- A grid of a removed context places no further team and reports KILLED (R256). -/
def Grid.kill (g : Grid) (cause : BitVec 8) : Grid :=
  { g with nextTeam := g.teams, relaunch := [], resumeQ := [], killed := some (g.killed.getD cause) }

/-- Steps 5 to 7 of a removal (R256): operations are dropped, what the context held is freed, its launches complete
and the event REMOVED is posted. -/
def State.finishRemoval (s : State) (slot : Nat) : State :=
  match s.ctx slot with
  | none => s
  | some c =>
    match c.pre with
    | .removing cause _ flr =>
      let s := s.dropMigs slot
      let gs := (s.work.grids.filter fun e => e.2.ctx == slot).map (·.1)
      let ts := (s.work.teams.filter fun e => memb gs e.2.grid).map (·.1)
      let s := ts.foldl (fun s t => s.removeTeam t) s
      let s := s.dropOps fun o => o.ctx == slot
      let s := gs.foldl (fun s g => (s.modGrid g fun x => x.kill cause).endGrid g) s
      let ps := (s.front.packets.filter fun (e : Nat × Packet) => e.2.ctx == slot && e.2.fn == c.fn &&
        (e.2.stage == PStage.started || e.2.stage == PStage.finished || !e.2.subs.isEmpty)).map (·.1)
      let s := ps.foldl (fun (s : State) k =>
        let s := s.modPacket k fun p => { p with silent := p.silent || flr }
        let s := match s.packet k with
          | some p => if p.stage ≠ PStage.finished then
              (List.range p.subs.length).foldl (fun (s : State) i => s.endSub k i 4 cause 0)
                (if p.subs = [] then s.putPacket k { p with stage := .finished, status := 4, cause := cause } else s)
            else s
          | none => s
        s.retirePacket k) s
      let frames := s.leaves c
      let s := if c.prot then frames.foldl (fun s e =>
          if tierOf (ptePpn e.2 * 65536) = some 0 ∧ !memb s.mem.listed (ptePpn e.2) ∧
            tGet s.mem.refs 0 (ptePpn e.2) = (frames.filter fun f => ptePpn f.2 == ptePpn e.2).length
          then s.zeroFrame 0 (ptePpn e.2) else s) s else s
      let s := frames.foldl (fun s e => s.subRef (ptePpn e.2)) s
      let own := c.root :: c.nodes ++ c.nodePool ++ c.codePgs
      let s := own.foldl (fun s f => (s.subRef f).modMem fun m => { m with owed := setAdd m.owed f }) s
      let s := s.modMem fun m => { m with
        keys := if c.prot then tDel m.keys c.keySlot else m.keys }
      let s := { s with
        ctxs := tDel s.ctxs slot, deques := s.deques.filter (fun e => e.2.ctx != slot),
        units := s.units.filter (fun e => e.2.ctx != slot), stale := s.stale.filter (fun e => e.1 != slot),
        xlat := { s.xlat with exc := s.xlat.exc.filter fun e => e.2.ctx != slot } }
      s.postEvent 2 slot cause 0 0 0 0
    | _ => s

/-- A removal starts (R256 steps 1 to 3): queued teams are discarded, translations invalidated, COLL_ABORT sent. With no
warp resident it finishes at once; otherwise warps go on to their first faulting access, their exit or the forced stop. -/
def State.removeContext (s : State) (slot : Nat) (cause : BitVec 8) (flr : Bool) : State :=
  match s.ctx slot with
  | none => s
  | some c =>
    match c.pre with
    | .removing _ _ _ => s
    | _ =>
      let s := s.dropMigs slot
      let s := s.modCtx slot fun c => { c with pre := .removing cause 0 flr, invalid := true, segs := [], refitQ := [] }
      let s := { s with
        xlat := { s.xlat with exc := s.xlat.exc.filter fun e => e.2.ctx != slot },
        work := { s.work with grids := tMap s.work.grids fun _ g => if g.ctx = slot then g.kill cause else g } }
      let s := s.work.ops.foldl (fun s e => if e.2.ctx = slot then match e.2.kind with
        | .coll d _ _ _ => d.routes.foldl (fun s r => s.emit (.collAbort r d.ident)) s
        | _ => s else s) s
      if (s.warpsOfCtx slot).isEmpty then s.finishRemoval slot else s

/-- The last warp of a context under removal has gone (R256 step 4). -/
def State.removalCheck (s : State) (slot : Nat) : State :=
  match s.ctx slot with
  | some c => match c.pre with
    | .removing _ _ _ => if (s.warpsOfCtx slot).isEmpty then s.finishRemoval slot else s
    | _ => s
  | none => s

/-- A warp of a context under removal stops (R256 step 4); the last one lets the removal finish. -/
def State.dropWarp (s : State) (w : Nat) : State :=
  match s.warp w with
  | none => s
  | some x =>
    let slot := match s.home x with
      | some (_, g, _) => g.ctx
      | none => 0
    let s := { s with work := { s.work with warps := tDel s.work.warps w } }
    (s.modTeam x.team fun t => { t with warps := setDel t.warps w }).removalCheck slot

/-! ### Fatal causes -/

/-- The grid completes FAILED with a cause while its context is removed (R256 step 7, R258). -/
def State.failRemove (s : State) (k : Nat) (cause : BitVec 8) : State :=
  match s.grid k with
  | none => s
  | some g => (s.putGrid k { g with failed := some (g.failed.getD cause) }).removeContext g.ctx cause false

/-- A cause that is fatal to a grid: the grid fails (R254); during DRAIN its context is removed instead (R258). -/
def State.fatalGrid (s : State) (k : Nat) (cause : BitVec 8) : State :=
  match s.grid k with
  | none => s
  | some g => match s.ctx g.ctx with
    | some c => if c.draining then s.failRemove k cause else s.failGrid k cause
    | none => s.failGrid k cause

/-- A team-kill cause ends a team at once; it is relaunched if its kernel is `.idempotent` and the grid has relaunches
left, otherwise the cause is fatal to the grid (R255, R68). MXHWKILL is counted for the team's even core; that this holds also for a
`.pair` team whose odd array ran out of spares is the model's choice (log 97). -/
def State.killTeam (s : State) (t : Nat) (cause : BitVec 8) : State :=
  match s.team t with
  | none => s
  | some x =>
    let s := if cause = 0x20 then s.count 0x2A x.core 1 else s
    let s := s.removeTeam t
    match s.grid x.grid with
    | none => s
    | some g =>
      if g.kernel.idem ∧ g.nRelaunch < s.rlim then
        s.putGrid x.grid { g with relaunch := g.relaunch ++ [(x.num, x.gang)], nRelaunch := g.nRelaunch + 1 }
      else s.fatalGrid x.grid cause

end Sys2Proof.Machine
end

