-- ==== Sys2Proof/Machine/OnChip.lean ====
section
/-!
DEFINITION. The on-chip memories (R51 to R68): reads and writes with labels and SECDED, barrier arrivals (R173), and the
release of a warp's master writes.
-/
namespace Sys2Proof.Machine

/-- An on-chip memory: a team's, a grid's scratchpad copy on a die, a warp's spill stack (R51), or a team's barrier area,
of which only the errors stand here (R56, R67). -/
inductive Space where
  /-- Team memory of a team. -/
  | team (t : Nat)
  /-- Scratchpad copy of a grid on a die. -/
  | scr (g die : Nat)
  /-- Spill stack of a warp. -/
  | spill (w : Nat)
  /-- Barrier area of a team. -/
  | bar (t : Nat)
  deriving DecidableEq, Repr

/-- Bytes of a checked word (R67). -/
def Space.word : Space → Nat
  | .spill _ => 4
  | _ => 8

/-- Bytes of a label granule (R63). -/
def Space.gran : Space → Nat
  | .spill _ => 4
  | _ => 64

/-- The memory itself. -/
def State.sram (s : State) (sp : Space) : Sram :=
  match sp with
  | .team t => match s.team t with
    | some x => x.mem
    | none => Sram.zero
  | .scr g d => match s.grid g with
    | some x => tGet x.scratch Sram.zero d
    | none => Sram.zero
  | .spill w => match s.warp w with
    | some x => x.spill
    | none => Sram.zero
  | .bar t => match s.team t with
    | some x => x.barErr
    | none => Sram.zero

/-- Stores the memory. -/
def State.putSram (s : State) (sp : Space) (m : Sram) : State :=
  match sp with
  | .team t => s.modTeam t fun x => { x with mem := m }
  | .scr g d => s.modGrid g fun x => { x with scratch := tPut x.scratch d m }
  | .spill w => s.modWarp w fun x => { x with spill := m }
  | .bar t => s.modTeam t fun x => { x with barErr := m }

/-- The size of the allocation in bytes (R51). -/
def State.spaceSize (s : State) (sp : Space) : Nat :=
  match sp with
  | .team t => match s.team t with
    | some x => match s.grid x.grid with
      | some g => g.kernel.teammem
      | none => 0
    | none => 0
  | .scr g _ => match s.grid g with
    | some x => x.scrUnits * 65536
    | none => 0
  | .spill w => match s.warp w with
    | some x => match s.home x with
      | some (_, g, _) => g.kernel.spill
      | none => 0
    | none => 0
  | .bar _ => 128

/-- The label that an untouched granule holds: the context's starting label (R55, R59, R64). -/
def State.spaceLab (s : State) (sp : Space) : Label :=
  match sp with
  | .team t => match s.team t with
    | some x => x.lab0
    | none => 0
  | .scr g _ => match s.grid g with
    | some x => match s.ctx x.ctx with
      | some c => c.label
      | none => 0
    | none => 0
  | .spill w => match s.warp w with
    | some x => x.lab0
    | none => 0
  | .bar _ => 0

/-- The instance of the SRAM error counters for an offset (R221): the far half of a `.pair` team's memory lies on the odd core
(R57). -/
def State.spaceInst (s : State) (sp : Space) (off : Nat) : Nat :=
  match sp with
  | .team t => match s.team t with
    | some x => match s.grid x.grid with
      | some g => if g.kernel.pair ∧ g.kernel.teammem ≤ 2 * off then x.core + 1 else x.core
      | none => x.core
    | none => 0
  | .scr _ d => 192 + d
  | .spill w => match s.warp w with
    | some x => x.core
    | none => 0
  | .bar t => match s.team t with
    | some x => x.core
    | none => 0

/-- The checked words of a byte range. -/
def wordsIn (ws off n : Nat) : List Nat := if n = 0 then [] else rangeFrom (off / ws) ((off + n - 1) / ws + 1 - off / ws)

/-- Reads the checked words of a range: single errors are corrected and counted, uncorrectable ones marked and counted;
the answer names the first uncorrectable word's offset (R67). SRAMUE counts uncorrectable words found (R222); that a later read of a word
which is already marked finds none, and is not counted, is the model's choice (log 112). -/
def State.scanWords (s : State) (sp : Space) (ws : List Nat) : State × Option Nat :=
  ws.foldl (fun (a : State × Option Nat) i =>
    let m := a.1.sram sp
    match tFind m.ue i with
    | some seen =>
      let s := if seen then a.1 else (a.1.putSram sp { m with ue := tPut m.ue i true }).count 0x21 (a.1.spaceInst sp (i * sp.word)) 1
      (s, a.2.or (some (i * sp.word)))
    | none =>
      if memb m.ce i then ((a.1.putSram sp { m with ce := setDel m.ce i }).count 0x20 (a.1.spaceInst sp (i * sp.word)) 1, a.2) else a) (s, none)

/-- A read of a range: errors found (R67). -/
def State.scanRead (s : State) (sp : Space) (off n : Nat) : State × Option Nat := s.scanWords sp (wordsIn sp.word off n)

/-- A store to a range reads the words that it writes in part (R67). The rule speaks of a marked word; that the store also finds, or
corrects, an error that nothing has found before is the model's choice (log 87). -/
def State.scanWrite (s : State) (sp : Space) (off n : Nat) : State × Option Nat :=
  s.scanWords sp ((wordsIn sp.word off n).filter fun i => !(decide (off ≤ i * sp.word) && decide ((i + 1) * sp.word ≤ off + n)))

/-- Bytes of an on-chip range. -/
def State.chipBytes (s : State) (sp : Space) (off n : Nat) : List Byte :=
  (List.range n).map fun i => tGet (s.sram sp).bytes 0 (off + i)

/-- The largest label of the granules that a range touches (R63). -/
def State.chipLab (s : State) (sp : Space) (off n : Nat) : Label :=
  Label.joinAll ((wordsIn sp.gran off n).map fun i => tGet (s.sram sp).labs (s.spaceLab sp) i)

/-- Writes bytes. -/
def Sram.put (m : Sram) (off : Nat) : List Byte → Sram
  | [] => m
  | b :: r => Sram.put { m with bytes := tSet m.bytes 0 off b } (off + 1) r

/-- Raises or sets the labels of granules (R63). -/
def Sram.label (m : Sram) (lab0 l : Label) (force : Bool) (is : List Nat) : Sram :=
  { m with labs := is.foldl (fun t i => tSet t lab0 i (if force then l else Label.join (tGet t lab0 i) l)) m.labs }

/-- The errors of the words that a store of a range writes whole are gone (R67). -/
def Sram.clean (m : Sram) (ws off n : Nat) : Sram :=
  let whole := (wordsIn ws off n).filter fun i => decide (off ≤ i * ws) && decide ((i + 1) * ws ≤ off + n)
  { m with ue := whole.foldl (fun t i => tDel t i) m.ue, ce := m.ce.filter fun i => !memb whole i }

/-- A store: bytes written, labels raised, marks of words written whole cleared (R60, R63, R67). -/
def State.chipStore (s : State) (sp : Space) (off : Nat) (bs : List Byte) (lab : Label) : State :=
  let m := ((s.sram sp).put off bs).clean sp.word off bs.length
  s.putSram sp (m.label (s.spaceLab sp) lab false (wordsIn sp.gran off bs.length))

/-- ALIGN before BOUNDS for one access (R52). -/
def State.chipFault (s : State) (sp : Space) (off n align : Nat) : Option (BitVec 8) :=
  if align ≠ 0 ∧ off % align ≠ 0 then some 0x06
  else if off + n > s.spaceSize sp then some 0x07
  else none

/-- The result of an arrival at a barrier word (R173): the new word and the token, or none for BAR_EXPECT. -/
def Bar.arrive (b : Bar) (e : BitVec 6) : Option (Bar × W32) :=
  if b.exp ≠ 0 ∧ e ≠ b.exp then none
  else
    let c := b.count + 1
    if c = e then some ({ phase := b.phase + 1, exp := 0, count := 0 }, b.phase)
    else some ({ phase := b.phase, exp := e, count := c }, b.phase)

end Sys2Proof.Machine
end

