-- ==== Sys2Proof/Machine/Late.lean ====
section
/-!
DEFINITION. What a late chip-scratchpad load or atomic does when it is performed (R106 note 6, log 12): the register and the latch that
hold its result take what is read then; an atomic changes its words then (R61). Beside it the writes of lane registers that it shares
with every lane result.
-/
namespace Sys2Proof.Machine

/-- Changes the issuing entry. -/
def Warp.modEntry (x : Warp) (e : Nat) (f : Entry → Entry) : Warp := { x with entries := tMod x.entries e f }

/-- Writes one value per lane to a v register or pair. -/
def Warp.writeLanes (x : Warp) (d : Nat) (wide : Bool) (val : Nat → Nat) : List Nat → Warp
  | [] => x
  | l :: r =>
    let x := x.writeV d l (BitVec.ofNat 32 (val l))
    Warp.writeLanes (if wide then x.writeV (d + 1) l (BitVec.ofNat 32 (val l / 2 ^ 32)) else x) d wide val r

/-- A result of an integer type as it is written (R341): sign- or zero-extended to 32 bits, or 64 bits whole. -/
def tyOut (ty : BitVec 4) (v : Nat) : Nat :=
  let w := tyBits ty.toNat
  if ty = 12 ∨ ty = 14 then truncI (sextI v w) 32 else v % 2 ^ w

/-- The byte ranges of accesses. -/
def LateStore.ranges (x : LateStore) : List (Nat × Nat) := x.parts.map fun p => (p.2.1, p.2.2.length)

/-- The agents that make accesses. -/
def LateStore.agents (x : LateStore) : List Nat := x.parts.map (·.1)

/-- The copy that accesses go to. -/
def LateStore.space (x : LateStore) : Space := .scr x.grid x.die

/-- A latch takes other values and a label in some lanes. -/
def Latch.retake (l : Latch) (lab : Label) (vals : List (Nat × W64)) : Latch :=
  if l.valid then { l with vals := vals.foldl (fun t v => tSet t 0 v.1 v.2) l.vals, lab := Label.join l.lab lab } else l

/-- Latch `n` of an entry takes other values. -/
def Entry.retake (e : Entry) (n : Nat) (lab : Label) (vals : List (Nat × W64)) : Entry :=
  match n with
  | 0 => { e with b0 := e.b0.retake lab vals }
  | 1 => { e with b1 := e.b1.retake lab vals }
  | 2 => { e with b2 := e.b2.retake lab vals }
  | 3 => { e with b3 := e.b3.retake lab vals }
  | _ => e

/-- The register and the latch of a late load take what is read now. -/
def Warp.retake (x : Warp) (y : LateLoad) (lab : Label) (vals : List (Nat × Nat)) : Warp :=
  if y.acc.agents = [64] then match y.reg, vals with
    | some d, [v] => x.writeS d ⟨BitVec.ofNat 64 v.2, Label.join (x.readS d).lab lab⟩
    | _, _ => x
  else
    let val (l : Nat) : Nat := ((vals.find? fun v => v.1 == l).map (·.2)).getD 0
    let x := match y.reg with
      | some d =>
        let x := (x.writeLanes d y.wide val y.acc.agents).setLabV d (Label.join (x.labV d) lab)
        if y.wide then x.setLabV (d + 1) (Label.join (x.labV (d + 1)) lab) else x
      | none => x
    x.modEntry y.entry fun e => e.retake y.latch lab (vals.map fun v => (v.1, BitVec.ofNat 64 v.2))

/-- The warp no longer lists a late load; what it read, or wrote, is no longer read ahead (R100). -/
def Warp.dropLd (x : Warp) (y : LateLoad) : Warp :=
  { x with lateLd := x.lateLd.erase y, early := x.early.map fun e => { e with seen := e.seen ++ y.acc.ranges } }

/-- Reads the words that accesses change: whether one has an uncorrectable error (R67). -/
def State.scanRanges (s : State) (rd : Bool) (x : LateStore) : State × Bool :=
  x.ranges.foldl (fun (a : State × Bool) r =>
    let (s, b) := if rd then a.1.scanRead x.space r.1 r.2 else a.1.scanWrite x.space r.1 r.2
    (s, a.2 || b.isSome)) (s, false)

/-- A word of a late access has an uncorrectable error that came after the issue: the team is killed (R67). -/
def State.lateError (s : State) (x : Warp) : State :=
  match s.team x.team with
  | some t => match s.grid t.grid with
    | some g => (s.killTeam x.team 0x21).removalCheck g.ctx
    | none => s
  | none => s

/-- A late atomic of a warp is performed (R61): lanes in ascending order, each on the value that the lane before left. Its result
takes the old values, FSTAT the flags. -/
def State.performRmw (s : State) (w : Nat) (y : LateLoad) (op : Aop) (cmps : List W64) : State :=
  match s.warp w with
  | none => s
  | some x =>
    let (s, bad) := (s.putWarp w (x.dropLd y)).scanRanges true y.acc
    if bad then s.lateError x
    else
      let lab := Label.joinAll (y.acc.ranges.map fun r => s.chipLab y.acc.space r.1 r.2)
      let (s, olds, fl) := (y.acc.parts.zip cmps).foldl (fun (a : State × List (Nat × Nat) × Flags) p =>
        let n := p.1.2.2.length
        let old := ofBytes (a.1.chipBytes y.acc.space p.1.2.1 n)
        let (new, g) := op.apply (8 * n) old p.2.toNat (ofBytes p.1.2.2)
        (a.1.chipStore y.acc.space p.1.2.1 (toBytes n new) y.acc.lab, a.2.1 ++ [(p.1.1, old)], a.2.2 ||| g)) (s, [], 0)
      s.modWarp w fun x => (x.retake y lab olds).flag fl

/-- The late atomics among some late loads of a warp are performed. -/
def State.performRmws (s : State) (w : Nat) (l : List LateLoad) : State :=
  l.foldl (fun s y => match y.rmw with
    | some (op, cmps) => s.performRmw w y op cmps
    | none => s) s

/-- Every late atomic of a warp is performed. -/
def State.settleRmws (s : State) (w : Nat) : State :=
  match s.warp w with
  | some x => s.performRmws w x.lateLd
  | none => s

end Sys2Proof.Machine
end

