-- ==== Sys2Proof/Machine/Ops.lean ====
section
/-!
DEFINITION. Taking a trap and returning from one (R245 to R252), in one place; the frame of a scalar meaning; issue and
retirement bookkeeping of engine operations (R216, R305).
-/
namespace Sys2Proof.Machine

/-! ### Taking a trap -/

/-- The context is being removed (R256). -/
def Ctx.removing (c : Ctx) : Bool :=
  match c.pre with
  | .removing _ _ _ => true
  | _ => false

/-- A trap whose outcome is fatal: with CTXCTL.MFCTX = 1 a memory-group trap removes the context (R251, R254), as any fatal fault
does during DRAIN (R258), otherwise the grid fails (R254). In a context under removal the warp stops (R256 step 4). -/
def State.fatal (s : State) (w : Nat) (code : BitVec 8) : State :=
  match s.warp w with
  | none => s
  | some x => match s.home x with
    | none => s
    | some (t, _, c) =>
      if c.removing then s.dropWarp w
      else if 0x10 ≤ code.toNat ∧ code.toNat ≤ 0x17 ∧ c.mfctx then
        s.failRemove t.grid code
      else s.fatalGrid t.grid code

/-- Writes the trap CSRs and saves the frame (R47, R248); loads before the trap have been performed. TRAPCAUSE.LANE is set for the fault of a lane instruction alone; that the
trap which a `REFILL` reports at its retirement point leaves it clear, the report being no fault of the instruction, is the
model's choice (log 84). -/
def Warp.saveFrame (x : Warp) (d : DueTrap) : Warp :=
  let kind : FrameKind := match d.rank, d.entry with
    | 1, _ => if d.code = 0x31 then .softScalar else .scalarFault
    | 2, some e => if d.code = 0x31 then .softLane e else .laneFault e
    | _, _ => .boundary
  { x with
    cause := BitVec.ofNat 64 (d.code.toNat + (if d.rank = 2 then 256 else 0) + (if d.rank = 3 then 512 else 0)),
    tval := d.val, pcS := x.pc, pcL := d.pcL, flmask := d.lanes,
    frame := some { kind := kind, pc := x.pc, entries := x.entries, rcv := x.rcv, wait := x.wait },
    entries := [], rcv := [], wait := .none, lateLd := [] }

/-- Takes one trap of a warp: into the handler, to the debugger, or to the outcome of its cause (R249, R251). The trap CSRs are
written whatever the outcome, but by a PREEMPT that no handler takes (R208, R248). Any trap raised in handler mode is fatal to
the grid. -/
def State.takeTrap (s : State) (w : Nat) (d : DueTrap) : State :=
  match s.warp w with
  | none => s
  | some x => match s.home x with
    | none => s
    | some (_, g, _) =>
      let en := g.trapvec.getLsbD 0
      let c := d.code.toNat
      let y := x.saveFrame d
      if c = 0x32 then
        let num := match s.team x.team with
          | some t => t.num
          | none => 0
        (s.putWarp w { y with debug := true, passed := if d.val = 0xFF then y.passed else y.passed ++ [(d.entry, match d.entry.bind (tFind x.entries) with
          | some e => e.pc
          | none => x.pc)] }).postEvent 3 g.ctx (d.val.setWidth 8) 0 g.gridId num x.num
      else if x.handler ∨ (0x10 ≤ c ∧ c ≤ 0x17) then (s.putWarp w y).fatal w d.code
      else if c = 0x20 ∨ c = 0x21 then (s.killTeam x.team d.code).removalCheck g.ctx
      else if en then
        let s := s.putWarp w { y with handler := true, pc := BitVec.ofNat 32 (4 * (g.trapvec.toNat / 4)) }
        if c = 0x30 then s.modTeam x.team fun t => { t with noticed := true } else s
      else if c = 0x30 then s
      else (s.putWarp w y).fatal w d.code

/-- The warp waits at its scalar instruction. -/
def Wait.waits : Wait → Bool
  | .none => false
  | .yield _ _ => false
  | _ => true

/-- The warp's scalar candidate still waits after an examination. -/
def State.scalarWaits (s : State) (w : Nat) : Bool :=
  match s.warp w with
  | some x => x.wait.waits
  | none => false

/-- The warp waits at its instruction and is examined again there; a warp descheduled by `YIELDC` takes its traps (R319). -/
def Wait.holds : Wait → Bool
  | .yieldc _ _ _ => false
  | w => w.waits

/-- The traps that may be taken now (R247, R249): in handler mode only faults of instructions. The report of a sequencer fault comes
at the next boundary (R252): a warp that waits at an instruction goes on waiting (R259, log 85). -/
def Warp.takeable (x : Warp) : List DueTrap :=
  x.due.filter fun d => (!x.handler || decide (d.rank ≤ 2)) && (d.rank != 3 || !x.wait.holds)

/-- Words of a `REFILL` are on their way to lanes of the warp (R381). -/
def State.refilling (s : State) (w : Nat) : Bool :=
  s.work.ops.any fun o => o.2.warp == w && match o.2.kind with
    | .refill _ ws => !ws.isEmpty
    | _ => false

/-- Takes the first due trap in the order of R247, unless a return of the warp is in flight. A late atomic of the warp is performed
before it (log 12). -/
def State.serveTrap (s : State) (w : Nat) : State :=
  match s.warp w with
  | none => s
  | some x =>
    if x.inFlight ∨ s.refilling w ∨ x.debug then s
    else match argMin (fun d => d.rank) x.takeable with
      | none => s
      | some d => ((s.putWarp w { x with due := dropFirst (fun e => e.rank == d.rank) x.due }).settleRmws w).takeTrap w d

/-- A trap becomes due. A fault of an instruction is taken at once if nothing is in flight (R245, R246). -/
def State.raise (s : State) (w : Nat) (d : DueTrap) : State :=
  let s := s.modWarp w fun x => { x with due := x.due ++ [d] }
  if d.rank ≤ 2 then s.serveTrap w else s

/-- The fault of a scalar instruction: the stream stops at it (R245). -/
def State.faultS (s : State) (w : Nat) (code : BitVec 8) (val : W64) : State :=
  s.raise w { rank := 1, code := code, val := val, lanes := 0, entry := none, pcL := 0 }

/-- The fault of a lane instruction in split entry `e` (R246). -/
def State.faultL (s : State) (w e : Nat) (code : BitVec 8) (val lanes : W64) (pc : W32) : State :=
  s.raise w { rank := 2, code := code, val := val, lanes := lanes, entry := some e, pcL := pc }

/-- Restores a frame (R250): `skip` is `tret.skip`. A `BAR.SYNC` that had arrived waits on with its token, unless the stream goes on
after it (log 19). -/
def Warp.restore (x : Warp) (f : Frame) (skip : Bool) : Warp :=
  let bump (e : Nat) : Table Entry := tMod f.entries e fun y => { y with pc := y.pc + 1 }
  let keep : Wait := match f.wait with
    | .barSync t => .barSync t
    | _ => .none
  let x := { x with handler := false, debug := false, frame := none, pc := f.pc, entries := f.entries, rcv := f.rcv,
                    wait := keep }
  match f.kind with
  | .scalarFault => if skip then { x with pc := f.pc + 4, wait := .none } else x
  | .laneFault e => if skip then { x with entries := bump e } else x
  | .softScalar => { x with pc := f.pc + 4, wait := .none }
  | .softLane e => { x with entries := bump e }
  | .boundary => x

/-! ### The frame of a scalar meaning -/

/-- What a scalar instruction sees: itself, its warp's key, the warp, team, grid and context. -/
structure SCtx where
  i : Instr
  w : Nat
  x : Warp
  t : Team
  g : Grid
  c : Ctx

/-- The instruction completes: the next one follows (R304). -/
def SCtx.done (k : SCtx) (s : State) (x : Warp) : State := s.putWarp k.w { x with pc := x.pc + 4, wait := .none }

/-- The instruction completes and the stream continues at a target. -/
def SCtx.jump (k : SCtx) (s : State) (x : Warp) (pc : W32) : State := s.putWarp k.w { x with pc := pc, wait := .none }

/-- The instruction waits; it is examined again at its next issue. `ext`: not a resolvable wait (R211). -/
def SCtx.wait (k : SCtx) (s : State) (ext : Bool) : State := s.modWarp k.w fun x => { x with wait := .hold ext }

/-- The instruction faults (R245). -/
def SCtx.fault (k : SCtx) (s : State) (code : BitVec 8) (val : W64) : State :=
  (s.modWarp k.w fun x => { x with wait := .none }).faultS k.w code val

/-- The instruction raises ILLEGAL, with its word in TRAPVAL (R251). -/
def SCtx.illegal (k : SCtx) (s : State) (i : Instr) : State := k.fault s 0x01 (BitVec.ofNat 64 (ofBytes (encode i)))

/-- The value of a scalar register. -/
def SCtx.rd (k : SCtx) (r : BitVec 6) : LVal := k.x.readS r.toNat

/-- Two agents of a warp are one: both the scalar stream, or lane sets that meet (R98). -/
def sameAgent (a b : List Nat) : Bool := (a.isEmpty && b.isEmpty) || a.any (memb b)

/-- An operation has still to read a byte of a view tile, which is an acquire of the publication that it reads (R113). -/
def State.readsTile (s : State) (o : Op) : Bool :=
  match o.kind, s.ctx o.ctx with
  | .move ps _, some c => o.todo.any fun i => match ps[i]? with
    | some p => match p.src with
      | .main va => (c.viewAt va).isSome
      | _ => false
    | none => false
  | _, _ => false

/-- An access of an agent waits for the agent's earlier engine operations that are acquires or read view tiles, and a release for
those that are releases, until they are performed (R106, R113, R326). -/
def State.ordered (s : State) (x : Warp) (lanes : List Nat) (i : Instr) : Bool :=
  accesses i && x.pend.any fun e => e.2.any fun (id : Nat) => match s.op id with
    | some o => !o.todo.isEmpty && sameAgent lanes o.lanes &&
        (o.order % 2 == 1 || s.readsTile o || (o.order == 2 && decide (2 ≤ accessOrder i)))
    | none => false

/-- The instruction is a `BAR.SYNC` that has arrived: what keeps it from its next examination leaves it its token, so that it counts
once (R173, log 19). -/
def SCtx.arrived (k : SCtx) : Bool :=
  match k.i, k.x.wait with
  | .barSync _ _ _, .barSync _ => true
  | _, _ => false

/-- The frame of every scalar instruction (R304): who executes, what makes it ILLEGAL by its fields (R292) or otherwise whatever its
registers hold, the registers it reads (a pending one makes it wait, R31), the register it writes (a pending one raises INFLIGHT),
the accesses that it must follow (R106). Of an instruction that both reads and names as destination a pending register R31 does not
say which comes first; that it waits, so that no trap comes, is the model's choice (log 86). -/
def runScalar (i : Instr) (ill : SCtx → Bool) (srcs : List (BitVec 6)) (dst : Option (BitVec 6)) (s : State)
    (f : SCtx → State) : Res :=
  match s.cur with
  | .scalar w => match s.warp w with
    | none => .next s
    | some x => match s.home x with
      | none => .next s
      | some (t, g, c) =>
        let k : SCtx := { i := i, w := w, x := x, t := t, g := g, c := c }
        if !legalStatic i ∨ ill k then .next (k.illegal s i)
        else if srcs.any (fun r => memb x.sPend r.toNat) then .next (k.wait s true)
        else match dst.filter fun d => memb x.sPend d.toNat with
          | some d =>
            let v := BitVec.ofNat 64 (0x400 + d.toNat)
            .next (if k.arrived then s.faultS w 0x03 v else k.fault s 0x03 v)
          | none => if s.ordered x [] i then .next (if k.arrived then s else k.wait s true) else .next (f k)
  | _ => .next s

/-- Never ILLEGAL. -/
def legal (_ : SCtx) : Bool := false
/-- ILLEGAL outside a system warp (R283). -/
def privileged (k : SCtx) : Bool := !k.c.sys
/-- ILLEGAL in handler mode (R249). -/
def noHandler (k : SCtx) : Bool := k.x.handler

/-! ### Roles (R174 to R176) -/

/-- Word 0 of a role's binding. -/
def Grid.role (g : Grid) (r : Nat) : Nat := ((g.roles[r]?).getD 0).toNat

/-- The physical target of a role of a kind, for a gang; none where the role is unbound, unresolved, of the wrong kind,
or its view or pool is no longer registered (R176). -/
def State.roleTarget (s : State) (g : Grid) (c : Ctx) (gang r kind : Nat) : Option Nat :=
  let w := g.role r
  let t := w % 2 ^ 56
  if r ≥ g.roles.length ∨ bitAt w 63 = false ∨ fld w 58 56 ≠ kind then none
  else if kind = 5 ∧ (tFind c.liveViews t).isNone then none
  else if kind = 6 ∧ (tFind c.pools t).isNone then none
  else match s.gang gang with
    | some y => (tFind y.ptgt r).map (·.toNat)
    | none => none

/-! ### Engine operations -/

/-- The number of pieces that an operation performs one by one. -/
def OpKind.pieces : OpKind → Nat
  | .move ps _ => ps.length
  | .rmws rs => rs.length
  | .dqPush _ _ _ => 1
  | .dqPop _ _ => 1
  | .dqSteal _ => 1
  | .relq _ _ _ => 1
  | _ => 0

/-- A fresh operation of a warp, made by its scalar stream. -/
def mkOp (k : SCtx) (tid gid ctx cls : Nat) (kind : OpKind) (ret : Ret) (lab : Label) (trans : Table Trans) : Op :=
  { warp := k.w, team := tid, grid := gid, ctx := ctx, die := dieOf k.x.core, core := k.x.core, cls := cls, kind := kind,
    ret := ret, lab := lab, trans := trans, todo := List.range kind.pieces, got := [], buf := [], wrote := [],
    staleN := 0, done := false, trap := none, slot := none, lanes := [], order := accessOrder k.i, rows := [] }

/-- Some translation that an operation took for these ranges has POISON status (R87): its trap, with the lowest address of the
ranges that lies in such a page. -/
def poisonTrap (trans : Table Trans) (rows : List (Nat × Nat)) : Option (BitVec 8 × W64) :=
  let vs := rows.flatMap fun r => (pagesOf r.1 r.2).filterMap fun p => match tFind trans p with
    | some x => if x.poison then some (max r.1 (p * 65536)) else none
    | none => none
  (argMin id vs).map fun v => (0x14, BitVec.ofNat 64 v)

/-- The operation's writes to WATCH pages are master writes (R149): every engine write but the status record of `PLACE.req`. -/
def OpKind.master : OpKind → Bool
  | .place _ _ _ _ _ _ => false
  | _ => true

/-- Some page that an operation took to write carries WATCH, so its writes are master writes (R149). -/
def Op.watches (o : Op) : Bool := o.kind.master && o.trans.any fun e => e.2.wr && attrWatch e.2.attr

/-- The pieces to perform of an operation whose trap is known at its issue: DQ changes nothing (R205), while the accesses
to other pages than a POISON page are made (R87). -/
def trapTodo (trap : Option (BitVec 8 × W64)) (todo : List Nat) : List Nat :=
  match trap with
  | some t => if t.1 = 0x14 then todo else []
  | none => todo

/-- `CounterIssue` (R216): the operation joins its class's list of the warp; the counter counts it. Answers the key. -/
def State.issueOp (s : State) (o : Op) : Nat × State :=
  let (id, s) := s.fresh
  let s := s.putOp id o
  let s := s.modWarp o.warp fun x => { x with
    pend := tPut x.pend o.cls (x.pendOf o.cls ++ [id]), mwOps := if o.watches then x.mwOps ++ [id] else x.mwOps }
  (id, s.pmc (dieOf o.core) (some o.core) o.ctx (0x10 + o.cls) 1)

/-- The packet of a grid. -/
def State.gridPacket (s : State) (grid : Nat) : Option Nat := (s.grid grid).bind fun g => g.packet.map (·.1)

/-- The packet whose sub-launch made a master write learns the versions of its tiles (R157). -/
def State.packetTiles (s : State) (pk : Option Nat) (ts : List TileVer) : State :=
  match pk with
  | some p => s.modPacket p fun p => { p with tiles := p.tiles ++ ts }
  | none => s

/-- A scalar engine command issues (R305 step 4): at 255 operations of its class it waits; otherwise it counts and the
stream goes on. A scalar destination becomes pending (R31). `buf` is what the engine's buffer holds from the start. -/
def SCtx.issueBuf (k : SCtx) (s : State) (cls : Nat) (kind : OpKind) (ret : Ret) (lab : Label) (trans : Table Trans)
    (trap : Option (BitVec 8 × W64)) (buf : Table (Option (Byte × Label))) : State :=
  if k.x.count cls ≥ 255 then k.wait s (cls == 4)
  else
    let o := mkOp k k.x.team k.t.grid k.g.ctx cls kind ret lab trans
    let (_, s) := (s.accessAll (some (dieOf k.x.core)) k.g.ctx trans).issueOp { o with trap := trap, todo := trapTodo trap o.todo, buf := buf }
    s.modWarp k.w fun x => { x with
      pc := x.pc + 4, wait := .none, sPend := match ret with
        | .s d => if d = 0 then x.sPend else setAdd x.sPend d
        | _ => x.sPend }

/-- A scalar engine command issues with an empty buffer. -/
def SCtx.issue (k : SCtx) (s : State) (cls : Nat) (kind : OpKind) (ret : Ret) (lab : Label) (trans : Table Trans)
    (trap : Option (BitVec 8 × W64)) : State := k.issueBuf s cls kind ret lab trans trap []

/-- The lease that a warp's accesses are checked against: none for system warps (R130). -/
def SCtx.lease (k : SCtx) : Option Nat := if k.c.sys then none else some k.t.grid

/-- The die of the warp. -/
def SCtx.die (k : SCtx) : Nat := dieOf k.x.core

/-- Translates a range for a command of this warp (R305 step 3). -/
def SCtx.range (k : SCtx) (s : State) (kind : AccKind) (lab : Option Label) (va len : Nat) :
    State × Except (BitVec 8 × W64) (Table Trans × Label) := s.transRange k.die k.g.ctx k.lease kind lab va len

/-- The team memory of the warp. -/
def SCtx.tm (k : SCtx) : Space := .team k.x.team
/-- The scratchpad copy on the warp's die. -/
def SCtx.scr (k : SCtx) : Space := .scr k.t.grid k.die

/-- An uncorrectable on-chip word met by a warp kills its team (R67, R68). -/
def SCtx.sramUe (k : SCtx) (s : State) (sp : Space) (off : Nat) : State :=
  k.fault s 0x21 (BitVec.ofNat 64 ((match sp with
    | .spill _ => 0
    | .team _ => 2 ^ 62
    | .bar _ => 2 ^ 62
    | .scr _ _ => 2 ^ 63) + off))

end Sys2Proof.Machine
end

