-- ==== Sys2Proof/Machine/Operands.lean ====
section
/-!
DEFINITION. The frame of a lane meaning (R339 to R345): who takes part, the operand forms of R340 and R287, the checks of
R343 that every lane instruction makes, and how a result reaches registers, predicates, latches and labels (R37, R50,
R341).
-/
namespace Sys2Proof.Machine

/-- What a lane instruction sees: its warp, the issuing entry and its index, the block's snapshot of k0–k15, its fields and
form, the lanes of `Active()` and those that take part. -/
structure LCtx where
  q    : SCtx
  e    : Nat
  en   : Entry
  ks   : Table LVal
  f    : LaneFields
  p    : LaneSpec
  act  : List Nat
  part : List Nat

/-- The four latches of an entry. -/
def Entry.latch (en : Entry) (i : Nat) : Latch :=
  match i with
  | 0 => en.b0
  | 1 => en.b1
  | 2 => en.b2
  | _ => en.b3

/-- The latch shift (R37). -/
def Entry.shift (en : Entry) (b : Latch) : Entry := { en with b3 := en.b2, b2 := en.b1, b1 := en.b0, b0 := b }

/-- A group switch (R38). -/
def Entry.switch (en : Entry) : Entry := { en with b0 := .none, b1 := .none, b2 := .none, b3 := .none }

/-- The latch number that a source field names. -/
def latchOf (x : BitVec 11) : Option Nat := if 1024 ≤ x.toNat then some (x.toNat % 4) else none

/-- A source register in one lane (R340): its 32 or 64 bits. -/
def LCtx.reg (k : LCtx) (wide : Bool) (x : BitVec 11) (lane : Nat) : Nat :=
  let n := x.toNat
  if n < 640 then (k.q.x.readV n lane).toNat + (if wide then 2 ^ 32 * (k.q.x.readV (n + 1) lane).toNat else 0)
  else
    let v : W64 := if 1024 ≤ n then tGet (k.en.latch (n % 4)).vals 0 lane else (tGet k.ks ⟨0, k.q.x.lab0⟩ (n - 1008)).val
    if wide then v.toNat else v.toNat % 2 ^ 32

/-- The label of a source register. -/
def LCtx.regLab (k : LCtx) (wide : Bool) (x : BitVec 11) : Label :=
  let n := x.toNat
  if n < 640 then (if wide then Label.join (k.q.x.labV n) (k.q.x.labV (n + 1)) else k.q.x.labV n)
  else if 1024 ≤ n then (k.en.latch (n % 4)).lab
  else (tGet k.ks ⟨0, k.q.x.lab0⟩ (n - 1008)).lab

/-- The immediate (R287): sign-extended for s64, else the field. -/
def immVal (f : LaneFields) : Nat := if f.ty = 2 then (f.imm.signExtend 64).toNat else f.imm.toNat

/-- A source of a kind reads 64 bits. -/
def SrcK.wide (k : SrcK) : Bool := k == .w64 || k == .kreg

/-- Operand A in a lane. -/
def LCtx.a (k : LCtx) (lane : Nat) : Nat := k.reg k.p.a.wide k.f.a lane

/-- Operand B in a lane, or the immediate that replaces it. -/
def LCtx.b (k : LCtx) (lane : Nat) : Nat :=
  if k.f.i then (if k.p.b.wide then immVal k.f else k.f.imm.toNat) else k.reg k.p.b.wide k.f.b lane

/-- Operand C in a lane. -/
def LCtx.c (k : LCtx) (lane : Nat) : Nat := k.reg k.p.c.wide k.f.c lane

/-- The label of a source of a kind. -/
def LCtx.kindLab (k : LCtx) (s : SrcK) (x : BitVec 11) : Label :=
  match s with
  | .no => 0
  | .pred => k.q.x.labP (x.toNat % 8)
  | s => k.regLab s.wide x

/-- The result label (R50): the sources and the governing predicate. -/
def LCtx.lab (k : LCtx) : Label :=
  Label.joinAll [k.kindLab k.p.a k.f.a, if k.f.i then 0 else k.kindLab k.p.b k.f.b, k.kindLab k.p.c k.f.c,
    k.q.x.labP k.f.pred.toNat]

/-- The instruction's predicate after negation (R36). -/
def LCtx.pred (k : LCtx) (lane : Nat) : Bool := (k.q.x.predMask k.f.pred.toNat).getLsbD lane != k.f.neg

/-- The source fields with their kinds. -/
def LCtx.srcs (k : LCtx) : List (SrcK × BitVec 11) :=
  [(k.p.a, k.f.a), (if k.f.i then .no else k.p.b, k.f.b), (k.p.c, k.f.c)]

/-- The latch numbers that the sources name. -/
def LCtx.latches (k : LCtx) : List Nat := k.srcs.filterMap fun s => match s.1 with
  | .w32 => latchOf s.2
  | .w64 => latchOf s.2
  | _ => none

/-- A v register of the warp is pending in some lane of `Active()` (R31). -/
def LCtx.vPending (k : LCtx) (r : Nat) : Bool := k.act.any fun l => memb k.q.x.vPend (64 * r + l)

/-- Some source is pending: a register, or a latch that awaits its value (R31, R376). -/
def LCtx.waits (k : LCtx) : Bool :=
  (k.srcs.any fun s => match s.1 with
    | .w32 => decide (s.2.toNat < 640) && k.vPending s.2.toNat
    | .w64 => decide (s.2.toNat < 640) && (k.vPending s.2.toNat || k.vPending (s.2.toNat + 1))
    | _ => false) ||
  k.latches.any fun n => (k.en.latch n).await.isSome

/-- The registers that the destination names. -/
def LCtx.dstRegs (k : LCtx) : List Nat :=
  if k.f.wbs then [] else match k.p.dst with
    | .w32 => [k.f.dst.toNat]
    | .w64 => [k.f.dst.toNat, k.f.dst.toNat + 1]
    | _ => []

/-! ### Outcomes -/

/-- The instruction faults in these lanes of its entry (R246). -/
def LCtx.fault (k : LCtx) (s : State) (code : BitVec 8) (val : W64) (lanes : List Nat) : State :=
  s.faultL k.q.w k.e code val (maskOf lanes) k.en.pc

/-- ILLEGAL with bits [95:32] of the instruction, in every lane of `Active()` (R251, R343). -/
def LCtx.illegal (k : LCtx) (s : State) (i : Instr) : State :=
  k.fault s 0x01 (BitVec.ofNat 64 (ofBytes (encode i) / 2 ^ 32)) k.act

/-- The instruction waits (R31): its entry is not ready. -/
def LCtx.wait (k : LCtx) (s : State) : State := s.modWarp k.q.w fun x => { x with lWait := true }

/-- An instruction without result: the entry goes on (R339). -/
def LCtx.done (k : LCtx) (s : State) : State := s.modWarp k.q.w fun x => x.modEntry k.e fun y => { y with pc := y.pc + 1 }

/-- The label of a v register after a write: outright in every lane of the warp, else joined (R50). -/
def Warp.relabel (x : Warp) (d : Nat) (lab : Label) (lanes : List Nat) : Warp :=
  x.setLabV d (if lanes.length = x.width then lab else Label.join (x.labV d) lab)

/-- A register result of these lanes, registers and labels only (R341). Where no lane takes part nothing is written (R339); that the
register's label then stays too, although R50 joins it in every write that is not of every lane, is the model's choice (log 98). -/
def Warp.putV (x : Warp) (d : Nat) (wide : Bool) (lab : Label) (val : Nat → Nat) (lanes : List Nat) : Warp :=
  if lanes.isEmpty then x
  else
    let x := (x.writeLanes d wide val lanes).relabel d lab lanes
    if wide then x.relabel (d + 1) lab lanes else x

/-- The latch that a result makes: 0 in active lanes that do not take part (R37). -/
def resultLatch (lab : Label) (val : Nat → Nat) (lanes : List Nat) : Latch :=
  { vals := lanes.foldl (fun t l => tSet t 0 l (BitVec.ofNat 64 (val l))) [], lab := lab, valid := true, await := none }

/-- A register result (R341, R37, R50): destination, latches, flags, and the entry goes on. -/
def LCtx.result (k : LCtx) (s : State) (lab : Label) (fl : Flags) (val : Nat → Nat) : State :=
  s.modWarp k.q.w fun x =>
    let x := if k.f.wbs then x else x.putV k.f.dst.toNat (k.p.dst == .w64) lab val k.part
    (x.flag fl).modEntry k.e fun y => { y.shift (resultLatch lab val k.part) with pc := y.pc + 1 }

/-- A predicate result (R36, R50). Where no lane takes part the predicate and, by the model's choice, its label stay (log 98). -/
def LCtx.predResult (k : LCtx) (s : State) (fl : Flags) (val : Nat → Bool) : State :=
  let d := k.f.dst.toNat % 8
  s.modWarp k.q.w fun x =>
    let m := maskOf k.part
    let x := if d = 0 ∨ k.part = [] then x
      else (x.setPred d ((x.predMask d &&& ~~~m) ||| maskOf (k.part.filter val))).setLabP d
        (if k.part.length = x.width then k.lab else Label.join (x.labP d) k.lab)
    (x.flag fl).modEntry k.e fun y => { y with pc := y.pc + 1 }

/-- Never ILLEGAL beyond the fields. -/
def legalL (_ : LCtx) (_ : State) : Bool := false

/-- What a lane instruction of an entry sees; none where the warp, the entry, a running block or the form is not there. -/
def State.laneCtx (s : State) (w e : Nat) (i : Instr) : Option LCtx :=
  match laneSpec i, s.warp w with
  | some (f, p), some x => match tFind x.entries e, x.queue, s.home x with
    | some en, bl :: _, some (t, g, c) =>
      let act := lanesOf en.mask x.width
      let pm := x.predMask f.pred.toNat
      some { q := { i := i, w := w, x := x, t := t, g := g, c := c }, e := e, en := en, ks := bl.k, f := f, p := p,
             act := act, part := act.filter fun l => pm.getLsbD l != f.neg }
    | _, _, _ => none
  | _, _ => none

/-- A field of the instruction is refused, or names a register beyond the kernel's (R30, R343). -/
def LCtx.badFields (k : LCtx) : Bool :=
  !k.p.legal k.f || k.p.a.beyond k.q.x.c k.f.a || (!k.f.i && k.p.b.beyond k.q.x.c k.f.b) || k.p.c.beyond k.q.x.c k.f.c ||
    k.p.dst.beyond k.q.x.c k.f.dst

/-- The frame of every lane instruction: the checks of R343 in order, classes 1 to 3; `ill` adds an instruction's own
refusals to class 1. That a pending source waits before a pending destination raises INFLIGHT is the model's choice where one
register is both (log 86). Of two sources that name different invalid latches TRAPVAL names the first in the order A, B, C, by the
model's choice (log 110). -/
def runLane (i : Instr) (ill : LCtx → State → Bool) (s : State) (body : LCtx → State) : Res :=
  match s.cur with
  | .lane w e => match s.laneCtx w e i with
    | some k =>
      if k.badFields ∨ ill k s then .next (k.illegal s i)
      else match k.latches.find? fun n => !(k.en.latch n).valid with
        | some n => .next (k.fault s 0x02 (BitVec.ofNat 64 n) k.act)
        | none =>
          if k.waits then .next (k.wait s)
          else match k.dstRegs.find? k.vPending with
            | some r => .next (k.fault s 0x03 (BitVec.ofNat 64 r) k.act)
            | none => if s.ordered k.q.x k.act i then .next (k.wait s) else .next (body k)
    | none => .next s
  | _ => .next s

/-- An operand read as an integer of its type: signed for s types, unsigned for n types (R350). -/
def tyInt (ty : BitVec 4) (v : Nat) : Int :=
  let w := tyBits ty.toNat
  if ty = 0 ∨ ty = 2 ∨ ty = 12 ∨ ty = 14 then sextI v w else ((v % 2 ^ w : Nat) : Int)

end Sys2Proof.Machine
end

