-- ==== Sys2Proof/Machine/LaneAlu.lean ====
section
/-!
DEFINITION. Lane moves and selection (R346 to R349), integer operations (R350 to R354) and floating-point operations (R355
to R358).
-/
namespace Sys2Proof.Machine

/-! ### Moves and selection -/

/-- R346. `mov`. -/
def execMov (f : LaneFields) (s : State) : Res :=
  runLane (.mov f) legalL s fun k => k.result s k.lab 0 fun l =>
    tyOut f.ty (if f.i then immVal f else k.a l)

/-- R347. `laneid`. -/
def execLaneid (f : LaneFields) (s : State) : Res :=
  runLane (.laneid f) legalL s fun k => k.result s k.lab 0 fun l => l

/-- R348. `sel`. -/
def execSel (f : LaneFields) (s : State) : Res :=
  runLane (.sel f) legalL s fun k => k.result s k.lab 0 fun l => if k.c l ≠ 0 then k.a l else k.b l

/-- The combination of two predicates that mod selects (R349). -/
def psetOp (md : Nat) (a b : Bool) : Bool :=
  match md with
  | 0 => a && b
  | 1 => a || b
  | 2 => a != b
  | _ => a && !b

/-- R349. `pset`. -/
def execPset (f : LaneFields) (s : State) : Res :=
  runLane (.pset f) legalL s fun k => k.predResult s 0 fun l =>
    if f.md = 4 then f.imm.getLsbD 0
    else psetOp f.md.toNat ((k.q.x.predMask (f.a.toNat % 8)).getLsbD l) ((k.q.x.predMask (f.b.toNat % 8)).getLsbD l)

/-! ### Integer operations -/

/-- An integer operation on A and B of the type, wrapped to its width (R350). -/
def runInt2 (i : Instr) (op : Int → Int → Int) (s : State) : Res :=
  runLane i legalL s fun k => k.result s k.lab 0 fun l =>
    truncI (op (tyInt k.f.ty (k.a l)) (tyInt k.f.ty (k.b l))) (tyBits k.f.ty.toNat)

/-- R350. `iadd`. -/
def execIadd (f : LaneFields) (s : State) : Res := runInt2 (.iadd f) (· + ·) s
/-- R350. `isub`. -/
def execIsub (f : LaneFields) (s : State) : Res := runInt2 (.isub f) (· - ·) s
/-- R350. `imul`. -/
def execImul (f : LaneFields) (s : State) : Res := runInt2 (.imul f) (· * ·) s
/-- R350. `imulh`: the product divided by 2^w, rounded down. -/
def execImulh (f : LaneFields) (s : State) : Res :=
  runInt2 (.imulh f) (fun a b => a * b / ((2 ^ tyBits f.ty.toNat : Nat) : Int)) s
/-- R350. `imin`. -/
def execImin (f : LaneFields) (s : State) : Res := runInt2 (.imin f) (fun a b => min a b) s
/-- R350. `imax`. -/
def execImax (f : LaneFields) (s : State) : Res := runInt2 (.imax f) (fun a b => max a b) s

/-- R350. `imad`. -/
def execImad (f : LaneFields) (s : State) : Res :=
  runLane (.imad f) legalL s fun k => k.result s k.lab 0 fun l =>
    truncI (tyInt f.ty (k.a l) * tyInt f.ty (k.b l) + tyInt f.ty (k.c l)) (tyBits f.ty.toNat)

/-- R350. `iabs`. -/
def execIabs (f : LaneFields) (s : State) : Res :=
  runLane (.iabs f) legalL s fun k => k.result s k.lab 0 fun l =>
    truncI ((tyInt f.ty (k.a l)).natAbs : Int) (tyBits f.ty.toNat)

/-- A bitwise operation on A and B. -/
def runBit2 (i : Instr) (op : Nat → Nat → Nat) (s : State) : Res :=
  runLane i legalL s fun k => k.result s k.lab 0 fun l => op (k.a l) (k.b l) % 2 ^ tyBits k.f.ty.toNat

/-- R350. `iand`. -/
def execIand (f : LaneFields) (s : State) : Res := runBit2 (.iand f) (· &&& ·) s
/-- R350. `ior`. -/
def execIor (f : LaneFields) (s : State) : Res := runBit2 (.ior f) (· ||| ·) s
/-- R350. `ixor`. -/
def execIxor (f : LaneFields) (s : State) : Res := runBit2 (.ixor f) (· ^^^ ·) s

/-- R350. `inot`. -/
def execInot (f : LaneFields) (s : State) : Res :=
  runLane (.inot f) legalL s fun k => k.result s k.lab 0 fun l =>
    2 ^ tyBits f.ty.toNat - 1 - k.a l % 2 ^ tyBits f.ty.toNat

/-- A shift of A by B mod w (R350). -/
def runShift (i : Instr) (op : Nat → Nat → Int) (s : State) : Res :=
  runLane i legalL s fun k =>
    let w := tyBits k.f.ty.toNat
    k.result s k.lab 0 fun l => truncI (op (k.a l % 2 ^ w) (k.b l % w)) w

/-- R350. `ishl`. -/
def execIshl (f : LaneFields) (s : State) : Res := runShift (.ishl f) (fun a n => ((a * 2 ^ n : Nat) : Int)) s
/-- R350. `ishr`. -/
def execIshr (f : LaneFields) (s : State) : Res := runShift (.ishr f) (fun a n => ((a / 2 ^ n : Nat) : Int)) s
/-- R350. `isar`. -/
def execIsar (f : LaneFields) (s : State) : Res :=
  runShift (.isar f) (fun a n => sextI a (tyBits f.ty.toNat) / ((2 ^ n : Nat) : Int)) s

/-- The integer comparison CC (R351). -/
def ccInt (cc : Nat) (a b : Int) : Bool :=
  match cc with
  | 0 => a == b
  | 1 => a != b
  | 2 => decide (a < b)
  | 3 => decide (a ≤ b)
  | 4 => decide (b < a)
  | _ => decide (b ≤ a)

/-- R351. `icmp`. -/
def execIcmp (f : LaneFields) (s : State) : Res :=
  runLane (.icmp f) legalL s fun k => k.predResult s 0 fun l =>
    ccInt f.md.toNat (tyInt f.ty (k.a l)) (tyInt f.ty (k.b l))

/-- R352. `popc`. -/
def execPopc (f : LaneFields) (s : State) : Res :=
  runLane (.popc f) legalL s fun k => k.result s k.lab 0 fun l =>
    ((List.range (tyBits f.ty.toNat)).filter fun j => bitAt (k.a l) j).length

/-- Zero bits above the highest one bit. -/
def leadingZeros (w a : Nat) : Nat := if a = 0 then w else w - 1 - Nat.log2 a

/-- R352. `clz`. -/
def execClz (f : LaneFields) (s : State) : Res :=
  runLane (.clz f) legalL s fun k => k.result s k.lab 0 fun l => leadingZeros (tyBits f.ty.toNat) (k.a l % 2 ^ tyBits f.ty.toNat)

/-- The w bits of a number in reverse order. -/
def reverseBits (w a : Nat) : Nat := (List.range w).foldl (fun r j => 2 * r + b2n (bitAt a j)) 0

/-- R352. `brev`. -/
def execBrev (f : LaneFields) (s : State) : Res :=
  runLane (.brev f) legalL s fun k => k.result s k.lab 0 fun l => reverseBits (tyBits f.ty.toNat) (k.a l)

/-- pos and e of a bit-field control word (R353). -/
def fieldOf (w ctl : Nat) : Nat × Nat :=
  let pos := fld ctl 7 0
  (pos, min (fld ctl 15 8) (w - pos))

/-- R353. `bfe`. -/
def execBfe (f : LaneFields) (s : State) : Res :=
  runLane (.bfe f) legalL s fun k =>
    let w := tyBits f.ty.toNat
    k.result s k.lab 0 fun l =>
      let (pos, e) := fieldOf w (k.b l)
      let v := k.a l / 2 ^ pos % 2 ^ e
      if f.ty = 0 ∨ f.ty = 2 then truncI (sextI v e) w else v

/-- R353. `bfi`. -/
def execBfi (f : LaneFields) (s : State) : Res :=
  runLane (.bfi f) legalL s fun k =>
    let w := tyBits f.ty.toNat
    k.result s k.lab 0 fun l =>
      let (pos, e) := fieldOf w (k.c l)
      let a := k.a l
      a / 2 ^ (pos + e) * 2 ^ (pos + e) + k.b l % 2 ^ e * 2 ^ pos + a % 2 ^ pos

/-- R354. `idiv`: toward zero; all ones on division by zero. -/
def execIdiv (f : LaneFields) (s : State) : Res := runInt2 (.idiv f) (fun a b => if b = 0 then -1 else Int.tdiv a b) s
/-- R354. `irem`: takes the sign of A; A on division by zero. -/
def execIrem (f : LaneFields) (s : State) : Res := runInt2 (.irem f) (fun a b => if b = 0 then a else Int.tmod a b) s

/-! ### Floating-point operations -/

/-- A result with flags in every lane that takes part (R344). -/
def LCtx.flagged (k : LCtx) (s : State) (lab : Label) (r : Nat → Nat × Flags) : State :=
  k.result s lab (joinFlags (k.part.map fun l => (r l).2)) fun l => (r l).1

/-- A floating-point operation on A. -/
def runFlt1 (i : Instr) (op : FFmt → RM → Nat → Nat × Flags) (s : State) : Res :=
  runLane i legalL s fun k => k.flagged s k.lab fun l => op (fltOf k.f.ty.toNat) (rmOf k.f.md) (k.a l)

/-- A floating-point operation on A and B. -/
def runFlt2 (i : Instr) (op : FFmt → RM → Nat → Nat → Nat × Flags) (s : State) : Res :=
  runLane i legalL s fun k => k.flagged s k.lab fun l => op (fltOf k.f.ty.toNat) (rmOf k.f.md) (k.a l) (k.b l)

/-- R355. `fadd`. -/
def execFadd (f : LaneFields) (s : State) : Res := runFlt2 (.fadd f) fAdd s
/-- R355. `fsub`. -/
def execFsub (f : LaneFields) (s : State) : Res := runFlt2 (.fsub f) fSub s
/-- R355. `fmul`. -/
def execFmul (f : LaneFields) (s : State) : Res := runFlt2 (.fmul f) fMul s
/-- R355. `fdiv`. -/
def execFdiv (f : LaneFields) (s : State) : Res := runFlt2 (.fdiv f) fDiv s
/-- R355. `ffma`. -/
def execFfma (f : LaneFields) (s : State) : Res :=
  runLane (.ffma f) legalL s fun k => k.flagged s k.lab fun l =>
    fFma (fltOf f.ty.toNat) (rmOf f.md) (k.a l) (k.b l) (k.c l)
/-- R355. `frcp`. -/
def execFrcp (f : LaneFields) (s : State) : Res := runFlt1 (.frcp f) fRcp s
/-- R355. `frsq`. -/
def execFrsq (f : LaneFields) (s : State) : Res := runFlt1 (.frsq f) fRsq s
/-- R355. `fsqrt`. -/
def execFsqrt (f : LaneFields) (s : State) : Res := runFlt1 (.fsqrt f) fSqrt s
/-- R355. `fex2`. -/
def execFex2 (f : LaneFields) (s : State) : Res := runFlt1 (.fex2 f) fEx2 s
/-- R355. `flg2`. -/
def execFlg2 (f : LaneFields) (s : State) : Res := runFlt1 (.flg2 f) fLg2 s
/-- R356. `fmin`. -/
def execFmin (f : LaneFields) (s : State) : Res := runFlt2 (.fmin f) (fun t _ a b => fPick t false a b) s
/-- R356. `fmax`. -/
def execFmax (f : LaneFields) (s : State) : Res := runFlt2 (.fmax f) (fun t _ a b => fPick t true a b) s

/-- R357. `fcmp`. -/
def execFcmp (f : LaneFields) (s : State) : Res :=
  runLane (.fcmp f) legalL s fun k =>
    let r (l : Nat) := fCmp (fltOf f.ty.toNat) f.md.toNat (k.a l) (k.b l)
    k.predResult s (joinFlags (k.part.map fun l => (r l).2)) fun l => (r l).1

/-- R358. `fclass`. -/
def execFclass (f : LaneFields) (s : State) : Res :=
  runLane (.fclass f) legalL s fun k => k.predResult s 0 fun l => f.imm.getLsbD (fClass (fltOf f.ty.toNat) (k.a l))

end Sys2Proof.Machine
end

