-- ==== Sys2Proof/Machine/ScalarMem.lean ====
section
/-!
DEFINITION. Scalar access to team memory, scratchpad and arguments (R310 to R312), and the engine commands of the scalar
stream: copies (R323 to R325), memory atomics and signals (R326, R327), nameless store (R160 to R162), view fence (R156),
placement (R97), deques and the bound (R331, R332).
-/
namespace Sys2Proof.Machine

/-- A word extended from n bytes. -/
def extend (n : Nat) (signed : Bool) (x : Nat) : W64 := if signed then BitVec.ofInt 64 (sextI x (8 * n)) else BitVec.ofNat 64 x

/-- The space that SP selects (R310). -/
def SCtx.space (k : SCtx) (sp : Bool) : Space := if sp then k.scr else k.tm

/-- R310. `sld`. -/
def execSld (d a b : BitVec 6) (sz : BitVec 2) (sx sp : Bool) (s : State) : Res :=
  runScalar (.sld d a b sz sx sp) legal [a, b] (some d) s fun k =>
    let off := ((k.rd a).val + (k.rd b).val).toNat % 2 ^ 32
    let n := 2 ^ sz.toNat
    match s.chipFault (k.space sp) off n n with
    | some f => k.fault s f (BitVec.ofNat 64 off)
    | none => match s.scanRead (k.space sp) off n with
      | (s, some bad) => k.sramUe s (k.space sp) bad
      | (s, none) =>
        let v := extend n sx (ofBytes (s.chipBytes (k.space sp) off n))
        k.done s (k.x.writeS d.toNat ⟨v, Label.joinAll [(k.rd a).lab, (k.rd b).lab, s.chipLab (k.space sp) off n]⟩)

/-- R311. `sst`. -/
def execSst (a b c : BitVec 6) (sz : BitVec 2) (sp : Bool) (s : State) : Res :=
  runScalar (.sst a b c sz sp) legal [a, b, c] none s fun k =>
    let off := ((k.rd b).val + (k.rd c).val).toNat % 2 ^ 32
    let n := 2 ^ sz.toNat
    match s.chipFault (k.space sp) off n n with
    | some f => k.fault s f (BitVec.ofNat 64 off)
    | none => match s.scanWrite (k.space sp) off n with
      | (s, some bad) => k.sramUe s (k.space sp) bad
      | (s, none) =>
        k.done (s.chipStore (k.space sp) off (toBytes n (k.rd a).val.toNat)
          (Label.joinAll [(k.rd a).lab, (k.rd b).lab, (k.rd c).lab])) k.x

/-- R312. `argld`. -/
def execArgld (d a : BitVec 6) (imm : BitVec 14) (s : State) : Res :=
  runScalar (.argld d a imm) legal [a] (some d) s fun k =>
    let off := (k.rd a).val + imm.signExtend 64
    if off.toNat % 8 ≠ 0 then k.fault s 0x06 off
    else if off.toNat ≥ 8 * k.g.kernel.nargs then k.fault s 0x07 off
    else k.done s (k.x.writeS d.toNat ⟨(k.g.args[off.toNat / 8]?).getD 0, Label.join k.c.label (k.rd a).lab⟩)

/-! ### Copies -/

/-- The three memories of a copy direction: 0 team, 1 main, 2 scratchpad (R323). -/
def dirDst (dir : BitVec 3) : Nat :=
  match dir.toNat with
  | 0 => 0
  | 6 => 0
  | 1 => 1
  | 2 => 1
  | 4 => 1
  | _ => 2

/-- The memory of the source (R323). -/
def dirSrc (dir : BitVec 3) : Nat :=
  match dir.toNat with
  | 0 => 1
  | 2 => 1
  | 3 => 1
  | 1 => 0
  | 5 => 0
  | _ => 2

/-- A place in memory m. -/
def locIn (m a : Nat) : Loc := if m = 0 then .team a else if m = 1 then .main a else .scr a

/-- The rows of a copy: source and destination addresses and a length each. -/
abbrev Rows := List (Nat × Nat × Nat)

/-- Cuts a range into parts within aligned 8 bytes (R76). -/
def parts8 : Nat → Nat → Nat → List (Nat × Nat)
  | 0, _, _ => []
  | f + 1, a, n => if n = 0 then [] else
    let m := min n (8 - a % 8)
    (a, m) :: parts8 f (a + m) (n - m)

/-- Cuts a range of main memory where it passes from one view tile to another, or in or out of a tile (R154). -/
def tileRuns (c : Ctx) : Nat → Nat → List (Nat × Nat)
  | _, 0 => []
  | va, n + 1 => match tileRuns c (va + 1) n with
    | (a, m) :: r => if c.viewAt va = c.viewAt (va + 1) then (va, m + 1) :: r else (va, 1) :: (a, m) :: r
    | [] => [(va, 1)]

/-- The reads of n bytes from address `a` of memory `m` into the buffer at `off`, each within aligned 8 bytes and one tile. -/
def readPieces (c : Ctx) (m : Nat) (lanes : List Nat) (a off n : Nat) : List Piece :=
  (parts8 n a n).flatMap fun p => (if m = 1 ∧ !c.liveViews.isEmpty then tileRuns c p.1 p.2 else [p]).map fun q =>
    { src := locIn m q.1, dst := .buf (off + (q.1 - a)), len := q.2, lanes := lanes }

/-- The writes of n bytes from the buffer at `off` to address `a` of memory `m`, each within aligned 8 bytes. -/
def writePieces (m : Nat) (lanes : List Nat) (a off n : Nat) : List Piece :=
  (parts8 n a n).map fun p => { src := .buf (off + (p.1 - a)), dst := locIn m p.1, len := p.2, lanes := lanes }

/-- Rows with their places in the buffer, one after another from `off`. -/
def placed : Nat → Rows → List (Nat × Nat × Nat × Nat)
  | _, [] => []
  | off, (a, b, n) :: r => (off, a, b, n) :: placed (off + n) r

/-- The pieces of a copy of rows between two memories: every read, then every write. -/
def copyPieces (c : Ctx) (ms md : Nat) (rows : Rows) : List Piece :=
  (placed 0 rows).flatMap (fun r => readPieces c ms [] r.2.1 r.1 r.2.2.2) ++
  (placed 0 rows).flatMap fun r => writePieces md [] r.2.2.1 r.1 r.2.2.2

/-- The first on-chip row that leaves its allocation, by its offset (R52, R323). -/
def SCtx.rowsBounds (k : SCtx) (s : State) (m : Nat) (rows : List (Nat × Nat)) : Option Nat :=
  if m = 1 then none
  else (rows.find? fun r => decide (r.2 ≠ 0) && decide (r.1 + r.2 > s.spaceSize (if m = 0 then k.tm else k.scr))).map (·.1)

/-- Translates the rows that lie in main memory; the fault with the lowest VA wins (R305). -/
def SCtx.rowsMain (k : SCtx) (s : State) (acc : AccKind) (lab : Option Label) (m : Nat) (rows : List (Nat × Nat)) :
    State × Except (BitVec 8 × W64) (Table Trans × Label) :=
  if m ≠ 1 then (s, .ok ([], 0))
  else (sortBy (·.1) rows).foldl (fun (a : State × Except (BitVec 8 × W64) (Table Trans × Label)) r =>
    match a.2 with
    | .error _ => a
    | .ok (t, l) => match k.range a.1 acc lab r.1 r.2 with
      | (s, .error e) => (s, .error e)
      | (s, .ok (t2, l2)) => (s, .ok (mergeTrans t t2, Label.join l l2))) (s, .ok ([], 0))

/-- The first uncorrectable word of the on-chip source rows. -/
def SCtx.rowsScan (k : SCtx) (s : State) (m : Nat) (rows : List (Nat × Nat)) : State × Option Nat :=
  if m = 1 then (s, none)
  else rows.foldl (fun (a : State × Option Nat) r => match a.2 with
    | some _ => a
    | none => a.1.scanRead (if m = 0 then k.tm else k.scr) r.1 r.2) (s, none)

/-- The largest label of the on-chip source lines (R63). -/
def SCtx.rowsLab (k : SCtx) (s : State) (m : Nat) (rows : List (Nat × Nat)) : Label :=
  if m = 1 then 0 else Label.joinAll (rows.map fun r => s.chipLab (if m = 0 then k.tm else k.scr) r.1 r.2)

/-- Of two faults, the one at the lower address. -/
def lowerFault (a b : BitVec 8 × W64) : BitVec 8 × W64 := if b.2.toNat < a.2.toNat then b else a

/-- Bytes that a copy within main memory both reads and writes take unspecified values (R323): the buffer holds free bytes for
them from the start, which the reads leave. -/
def freeOverlap (s : State) (rows : Rows) : State × Table (Option (Byte × Label)) :=
  let offs := (placed 0 rows).flatMap fun r => (List.range r.2.2.2).filterMap fun j =>
    if rows.any (fun q => rangesMeet (r.2.2.1 + j, 1) (q.1, q.2.2)) then some (r.1 + j) else none
  let (fs, s) := s.freeBytes offs.length
  (s, (offs.zip fs).map fun e => (e.1, some (e.2, 0)))

/-- Issues a move of rows between two memories with a status offset (R323 to R325); `lab` joins the operand registers. The on-chip
source is examined for errors when every check has passed and the counter has room (R305, R67). -/
def SCtx.move (k : SCtx) (s : State) (ms md : Nat) (rows : Rows) (stat : Option Nat) (lab : Label) : State :=
  let src := rows.map fun r => (r.1, r.2.2)
  let dst := rows.map fun r => (r.2.1, r.2.2)
  let statBad : Option (BitVec 8 × Nat) := match stat with
    | some o => (s.chipFault k.tm o 8 8).map fun f => (f, o)
    | none => none
  match statBad with
  | some (f, o) => if f = 0x06 then k.fault s f (BitVec.ofNat 64 o)
    else match k.rowsBounds s md dst, k.rowsBounds s ms src with
      | some x, _ => k.fault s 0x07 (BitVec.ofNat 64 x)
      | none, some x => k.fault s 0x07 (BitVec.ofNat 64 x)
      | none, none => k.fault s f (BitVec.ofNat 64 o)
  | none =>
    match k.rowsBounds s md dst, k.rowsBounds s ms src with
    | some x, _ => k.fault s 0x07 (BitVec.ofNat 64 x)
    | none, some x => k.fault s 0x07 (BitVec.ofNat 64 x)
    | none, none =>
      let l0 := Label.join lab (k.rowsLab s ms src)
      match k.rowsMain s .r none ms src with
      | (s, .error e) =>
        let known := Label.joinAll (src.map fun r => s.readLabel k.die k.g.ctx k.lease r.1 r.2)
        match k.rowsMain s .w (some (Label.join l0 known)) md dst with
        | (s, .error e2) => let e := lowerFault e e2; k.fault s e.1 e.2
        | (s, .ok _) => k.fault s e.1 e.2
      | (s, .ok (t1, l1)) =>
        let l := Label.join l0 l1
        match k.rowsMain s .w (some l) md dst with
        | (s, .error e) => k.fault s e.1 e.2
        | (s, .ok (t2, _)) =>
          if k.x.count 0 ≥ 255 then k.wait s false
          else match k.rowsScan s ms src with
            | (s, some bad) => k.sramUe s (if ms = 0 then k.tm else k.scr) bad
            | (s, none) =>
              let t := mergeTrans t1 t2
              let (s, buf) := if ms = 1 ∧ md = 1 then freeOverlap s rows else (s, [])
              k.issueBuf s 0 (.move (copyPieces k.c ms md rows) stat) .none l t
                (poisonTrap t ((if ms = 1 then src else []) ++ (if md = 1 then dst else []))) buf

/-- R323. `copy`. -/
def execCopy (a b c : BitVec 6) (dir : BitVec 3) (stat : Bool) (s : State) : Res :=
  runScalar (.copy a b c dir stat) legal [a, b, c] none s fun k =>
    let dst := (k.rd a).val.toNat
    let src := (k.rd b).val.toNat
    let sc := (k.rd c).val.toNat
    let len := sc % 2 ^ 32
    let ms := dirSrc dir
    let md := dirDst dir
    let st := if stat then some (sc / 2 ^ 32) else none
    if (match st with | some o => decide (o % 8 ≠ 0) | none => false) then k.fault s 0x06 (BitVec.ofNat 64 (sc / 2 ^ 32))
    else if md ≠ 1 ∧ dst ≥ 2 ^ 32 then k.fault s 0x07 (k.rd a).val
    else if ms ≠ 1 ∧ src ≥ 2 ^ 32 then k.fault s 0x07 (k.rd b).val
    else k.move s ms md (if len = 0 then [] else [(src, dst, len)]) st (Label.joinAll [(k.rd a).lab, (k.rd b).lab, (k.rd c).lab])

/-- R324. `copy2d`: the shape record is read at issue; ALIGN and BOUNDS of the record come before its contents. -/
def execCopy2d (a b c : BitVec 6) (dir : BitVec 3) (stat : Bool) (s : State) : Res :=
  runScalar (.copy2d a b c dir stat) legal [a, b, c] none s fun k =>
    let dst := (k.rd a).val.toNat
    let src := (k.rd b).val.toNat
    let ro := (k.rd c).val.toNat
    let ms := dirSrc dir
    let md := dirDst dir
    match if ro % 8 ≠ 0 then some (0x06 : BitVec 8) else if ro ≥ 2 ^ 32 then some 0x07 else s.chipFault k.tm ro 32 8 with
    | some f => k.fault s f (k.rd c).val
    | none =>
      match s.scanRead k.tm ro 32 with
      | (s, some bad) => k.sramUe s k.tm bad
      | (s, none) =>
        let w (i : Nat) : Nat := ofBytes (s.chipBytes k.tm (ro + 8 * i) 8)
        let rows := fld (w 0) 63 32
        let rb := fld (w 0) 31 0
        if rows = 0 ∨ rb = 0 ∨ fld (w 3) 63 32 ≠ 0 then k.illegal s (.copy2d a b c dir stat)
        else
          let st := if stat then some (fld (w 3) 31 0) else none
          if (match st with | some o => decide (o % 8 ≠ 0) | none => false) then k.fault s 0x06 (BitVec.ofNat 64 (fld (w 3) 31 0))
          else if md ≠ 1 ∧ dst ≥ 2 ^ 32 then k.fault s 0x07 (k.rd a).val
          else if ms ≠ 1 ∧ src ≥ 2 ^ 32 then k.fault s 0x07 (k.rd b).val
          else
            let wrap (m x : Nat) : Nat := if m = 1 then x % 2 ^ 64 else x
            k.move s ms md ((List.range rows).map fun r => (wrap ms (src + r * w 1), wrap md (dst + r * w 2), rb)) st
              (Label.joinAll [(k.rd a).lab, (k.rd b).lab, (k.rd c).lab, s.chipLab k.tm ro 32])

/-! ### Memory atomics and signals -/

/-- The operation that AOP names (R326). -/
def aopOf (a : BitVec 3) : Aop :=
  match a.toNat with
  | 0 => .ld
  | 1 => .st
  | 2 => .swap
  | 3 => .cas
  | 4 => .add
  | 5 => .or
  | 6 => .minn
  | _ => .maxn

/-- An atomic on a host page needs AtomicOp Requester Enable, but for plain reads and writes (R77). -/
def State.atomicDenied (s : State) (fn : Nat) (trans : Table Trans) (aop : Aop) : Bool :=
  aop != .ld && aop != .st && !memb s.xlat.atomics fn && trans.any fun e => tierOf (e.2.ppn * 65536) == some 3 && !e.2.poison

/-- The kind of access of an atomic for its translation (R130). -/
def aopAcc (a : Aop) : AccKind :=
  match a with
  | .ld => .r
  | .st => .w
  | _ => .a

/-- R326. `satom`. A word some byte of which lies in a view destination refuses every AOP (R155, R326). -/
def execSatom (a b c : BitVec 6) (aop : BitVec 3) (w32 : Bool) (ordsc : BitVec 4) (s : State) : Res :=
  let op := aopOf aop
  let ret := if op = .st ∨ a = 0 then none else some a
  let srcs := if op = .cas then [a, b, c] else [b, c]
  runScalar (.satom a b c aop w32 ordsc) legal srcs ret s fun k =>
    let va := (k.rd b).val.toNat
    let n := if w32 then 4 else 8
    let opnd := (k.rd c).val.toNat % 2 ^ (8 * n)
    let cmp := (k.rd a).val.toNat % 2 ^ (8 * n)
    let lab := Label.joinAll ((k.rd b).lab :: (k.rd c).lab :: (if op = .cas then [(k.rd a).lab] else []))
    if va % n ≠ 0 then k.fault s 0x06 (k.rd b).val
    else match k.range s (aopAcc op) (if op = .ld then none else some lab) va n with
      | (s, .error e) => k.fault s e.1 e.2
      | (s, .ok (t, l)) =>
        match s.inDest k.g.ctx va n with
        | some v => k.fault s 0x13 (BitVec.ofNat 64 v)
        | none => if s.atomicDenied k.c.fn t op then k.fault s 0x13 (k.rd b).val
        else k.issue s 2 (.rmws [{ va := va, len := n, aop := op, cmp := BitVec.ofNat 64 cmp, opnd := BitVec.ofNat 64 opnd, lane := 0 }])
          (match ret with
            | some d => .s d.toNat
            | none => .none) (Label.join lab l) t (poisonTrap t [(va, n)])

/-- The translation of a signal's word at issue: its checks, in order; the error is a trap (R327). -/
def SCtx.sigTrans (k : SCtx) (s : State) (va : Nat) (acc : AccKind) (lab : Option Label) (atomic : Bool) :
    State × Except (BitVec 8 × W64) (Trans × Label) :=
  if va % 8 ≠ 0 then (s, .error (0x06, BitVec.ofNat 64 va))
  else match k.range s acc lab va 8 with
    | (s, .error e) => (s, .error e)
    | (s, .ok (t, l)) => match tFind t (va / 65536) with
      | some x =>
        if atomic ∧ s.atomicDenied k.c.fn t .add then (s, .error (0x13, BitVec.ofNat 64 va))
        else (s.accessAll (some k.die) k.g.ctx t, .ok (x, l))
      | none => (s, .error (0x12, BitVec.ofNat 64 va))

/-- A signal meets its word under a translation: its address and key, or none with POISON status (R327). -/
def SCtx.sigMeet (k : SCtx) (s : State) (va : Nat) (t : Trans) : State × Option (Nat × Nat) :=
  if t.poison then (s, none)
  else match s.meetLine 0 k.g.ctx va t with
    | (s, true) => (s, none)
    | (s, false) => (s, some (t.ppn * 65536 + va % 65536, attrKey t.attr))

/-- The word of a signal: translated, its POISON status, and its address and key; the error is a trap (R327). -/
def SCtx.sigWord (k : SCtx) (s : State) (va : Nat) (acc : AccKind) (lab : Option Label) (atomic : Bool) :
    State × Except (BitVec 8 × W64) (Nat × Nat × Label) :=
  match k.sigTrans s va acc lab atomic with
  | (s, .error e) => (s, .error e)
  | (s, .ok (t, l)) => match k.sigMeet s va t with
    | (s, none) => (s, .error (0x14, BitVec.ofNat 64 va))
    | (s, some (pa, key)) => (s, .ok (pa, key, l))

/-- R327. `signal.set`: a release write of the word. -/
def execSignalSetInsn (b c : BitVec 6) (scope : BitVec 3) (s : State) : Res :=
  runScalar (.signalSetInsn b c scope) legal [b, c] none s fun k =>
    match k.sigWord s (k.rd b).val.toNat .w (some (Label.join (k.rd b).lab (k.rd c).lab)) false with
    | (s, .error e) => k.fault s e.1 e.2
    | (s, .ok (pa, key, _)) => k.done (s.pokeN key pa (toBytes 8 (k.rd c).val.toNat)) k.x

/-- R327. `signal.add`: a release addition modulo 2^64. -/
def execSignalAdd (b c : BitVec 6) (scope : BitVec 3) (s : State) : Res :=
  runScalar (.signalAdd b c scope) legal [b, c] none s fun k =>
    match k.sigWord s (k.rd b).val.toNat .a (some (Label.join (k.rd b).lab (k.rd c).lab)) true with
    | (s, .error e) => k.fault s e.1 e.2
    | (s, .ok (pa, key, _)) =>
      k.done (s.pokeN key pa (toBytes 8 (ofBytes (s.peekN key pa 8) + (k.rd c).val.toNat))) k.x

/-- A signal comparison: equal, unsigned at least, not equal (R327). -/
def sigHolds (cmp : Nat) (word val : Nat) : Bool :=
  match cmp with
  | 0 => word == val
  | 1 => decide (word ≥ val)
  | _ => word != val

/-- R327. `signal.wait`: completes at the first read that satisfies the condition; external with EXT (R211). While it waits it
keeps the translation of its word that it took at issue (R131). -/
def execSignalWaitInsn (b c : BitVec 6) (cmp : BitVec 2) (ext : Bool) (scope : BitVec 3) (s : State) : Res :=
  runScalar (.signalWaitInsn b c cmp ext scope) legal [b, c] none s fun k =>
    let va := (k.rd b).val.toNat
    let issued : State × Except (BitVec 8 × W64) (Trans × Label) := match k.x.wait with
      | .signal _ t _ => (s, .ok (t, 0))
      | _ => k.sigTrans s va .r none false
    match issued with
    | (s, .error e) => k.fault s e.1 e.2
    | (s, .ok (t, _)) => match k.sigMeet s va t with
      | (s, none) => k.fault s 0x14 (BitVec.ofNat 64 va)
      | (s, some (pa, key)) =>
        if sigHolds cmp.toNat (ofBytes (s.peekN key pa 8)) (k.rd c).val.toNat then k.done s k.x
        else s.modWarp k.w fun x => match x.wait with
          | .signal _ _ _ => { x with wait := .signal va t ext }
          | _ => { x with wait := .signal va t ext, sigWaits := x.sigWaits + 1 }

/-! ### Nameless store -/

/-- R160. `nstore`. -/
def execNstore (a b role : BitVec 6) (s : State) : Res :=
  runScalar (.nstore a b role) legal [a, b] none s fun k =>
    let off := (k.rd a).val.toNat
    let len := (k.rd b).val.toNat
    match s.roleTarget k.g k.c k.t.gang role.toNat 6 with
    | none => k.illegal s (.nstore a b role)
    | some p =>
      let usz := match tFind k.c.pools p with
        | some q => q.usz
        | none => 0
      if len = 0 ∨ len > usz then k.illegal s (.nstore a b role)
      else if off % 4 ≠ 0 then k.fault s 0x06 (k.rd a).val
      else if off ≥ 2 ^ 32 ∨ off + len > s.spaceSize k.tm then k.fault s 0x07 (k.rd a).val
      else if k.x.names.length ≥ 64 then k.wait s false
      else if k.x.count 3 ≥ 255 then k.wait s false
      else match s.scanRead k.tm off len with
        | (s, some bad) => k.sramUe s k.tm bad
        | (s, none) =>
          let lab := Label.joinAll [(k.rd a).lab, (k.rd b).lab, s.chipLab k.tm off len]
          let o := mkOp k k.x.team k.t.grid k.g.ctx 3 (.nstore p (s.chipBytes k.tm off len) 0) .none lab []
          let (id, s) := s.issueOp o
          s.modWarp k.w fun x => { x with pc := x.pc + 4, wait := .none, names := x.names ++ [{ op := id, name := none }] }

/-- R161. `namepop`: waits until the oldest entry's store has retired; ILLEGAL on an empty queue. -/
def execNamepop (d : BitVec 6) (s : State) : Res :=
  runScalar (.namepop d) legal [] (some d) s fun k =>
    match k.x.names with
    | [] => k.illegal s (.namepop d)
    | e :: r => match e.name with
      | none => k.wait s false
      | some v => k.done s ({ k.x with names := r }.writeS d.toNat v)

/-- R162. `relq`. A count of 0 is done and retires at its issue, so nothing of it stays outstanding (R162, R217, log 80). -/
def execRelq (a b role : BitVec 6) (s : State) : Res :=
  runScalar (.relq a b role) legal [a, b] none s fun k =>
    let name := (k.rd a).val.toNat
    let n := (k.rd b).val.toNat
    match s.roleTarget k.g k.c k.t.gang role.toNat 6 with
    | none => k.illegal s (.relq a b role)
    | some p => match tFind k.c.pools p with
      | none => k.illegal s (.relq a b role)
      | some q =>
        if name < q.base ∨ (name - q.base) % q.usz ≠ 0 ∨ name + n * q.usz > q.base + q.pages * 65536 ∨ name ≥ q.base + q.pages * 65536
        then k.illegal s (.relq a b role)
        else if n = 0 then k.done (s.pmc k.die (some k.x.core) k.g.ctx 0x13 1) k.x
        else k.issue s 3 (.relq p ((name - q.base) / q.usz) n) .none (Label.join (k.rd a).lab (k.rd b).lab) [] none

/-- R156. `vfence` records the warp's master writes so far. -/
def execVfence (s : State) : Res :=
  runScalar .vfence legal [] none s fun k =>
    k.issue s 5 (.vfence (k.x.mwOps.filter fun o => (s.op o).isSome) k.x.mwTiles) .none 0 [] none

/-! ### Placement (R97) -/

/-- The page may be moved by the tide engine (R90). -/
def State.movable (s : State) (slot vpn : Nat) (pte : Nat) : Bool :=
  let a := pteAttr pte
  pte % 2 == 1 && !attrPool a && attrTier a != 3 && (s.migOf slot vpn).isNone && !memb s.mem.listed (ptePpn pte) &&
  match s.excHit 0 slot vpn with
  | some e => e.state != .poison
  | none => true

/-- A page lies in the grid's lease and is not revoked, or the warp is a system warp. -/
def SCtx.leased (k : SCtx) (vpn : Nat) : Bool :=
  k.c.sys || (k.g.leases.any (fun l => l.allows vpn .r || l.allows vpn .w || l.allows vpn .x) && !memb k.g.revoked vpn)

/-- The operand values that `PLACE` refuses (R97). -/
def placeBad (len : Nat) : Bool := decide (len > 0x4000000)

/-- R97. `place.hint` changes hotness only and retires at once. -/
def execPlaceHint (a b : BitVec 6) (tier : BitVec 2) (s : State) : Res :=
  runScalar (.placeHint a b tier) legal [a, b] none s fun k =>
    let va := (k.rd a).val.toNat
    let len := (k.rd b).val.toNat
    if placeBad len then k.illegal s (.placeHint a b tier)
    else
      let s := ((pagesOf va len).filter (fun p => decide (p < 2 ^ 41))).foldl (fun s vpn =>
        let pte := s.leaf k.c vpn
        if s.movable k.g.ctx vpn pte ∧ k.leased vpn then
          s.setHot (ptePpn pte) (if tier = 0 then max (tGet s.mem.hot 0 (ptePpn pte)) (s.tidef 47 40) else 0)
        else s) s
      k.done s k.x

/-- R97. `place.req`: the tide engine migrates the pages; a status record at the end. -/
def execPlaceReq (a b c : BitVec 6) (tier : BitVec 2) (s : State) : Res :=
  runScalar (.placeReq a b c tier) legal [a, b, c] none s fun k =>
    let va := (k.rd a).val.toNat
    let len := (k.rd b).val.toNat
    let st := (k.rd c).val.toNat
    let lab := Label.joinAll [(k.rd a).lab, (k.rd b).lab, (k.rd c).lab]
    if placeBad len then k.illegal s (.placeReq a b c tier)
    else if st % 8 ≠ 0 then k.fault s 0x06 (k.rd c).val
    else match k.range s .w (some lab) st 8 with
      | (s, .error e) => k.fault s e.1 e.2
      | (s, .ok (t, _)) => k.issue s 0 (.place (pagesOf va len) tier.toNat st 0 0 0) .none lab t (poisonTrap t [(st, 8)])

/-! ### Deques and the bound -/

/-- The deque key of a DQ role (R175, R203). -/
def dqKey (ptgt : Nat) : Nat := 4096 * (ptgt / 4096) + ptgt % 4096

/-- The DQ trap known when the operation is issued (R205): another die, or another context's deque. -/
def SCtx.dqTrap (k : SCtx) (s : State) (key : Nat) (steal : Bool) (dsc : BitVec 2) (role : BitVec 6) : Option (BitVec 8 × W64) :=
  let otherDie := key / 4096 ≠ k.die ∧ ¬(steal ∧ dsc = 1)
  let mine := match tFind s.deques key with
    | some d => d.ctx == k.g.ctx
    | none => false
  if otherDie ∨ mine = false then some (0x09, role.setWidth 64) else none

/-- R331. `dqpush`. -/
def execDqpush (a : BitVec 6) (dsc : BitVec 2) (role : BitVec 6) (s : State) : Res :=
  runScalar (.dqpush a dsc role) legal [a] none s fun k =>
    match s.roleTarget k.g k.c k.t.gang role.toNat 4 with
    | none => k.illegal s (.dqpush a dsc role)
    | some p => k.issue s 2 (.dqPush role.toNat (dqKey p) (k.rd a)) .none 0 [] (k.dqTrap s (dqKey p) false dsc role)

/-- R331. `dqpop`. -/
def execDqpop (d : BitVec 6) (dsc : BitVec 2) (role : BitVec 6) (s : State) : Res :=
  runScalar (.dqpop d dsc role) legal [] (some d) s fun k =>
    match s.roleTarget k.g k.c k.t.gang role.toNat 4 with
    | none => k.illegal s (.dqpop d dsc role)
    | some p => k.issue s 2 (.dqPop role.toNat (dqKey p)) (.s d.toNat) 0 [] (k.dqTrap s (dqKey p) false dsc role)

/-- R331. `dqsteal`. -/
def execDqsteal (d : BitVec 6) (dsc : BitVec 2) (role : BitVec 6) (s : State) : Res :=
  runScalar (.dqsteal d dsc role) legal [] (some d) s fun k =>
    match s.roleTarget k.g k.c k.t.gang role.toNat 4 with
    | none => k.illegal s (.dqsteal d dsc role)
    | some p => k.issue s 2 (.dqSteal (dqKey p)) (.s d.toNat) 0 [] (k.dqTrap s (dqKey p) true dsc role)

/-- The cores that hold teams of a gang (R206). -/
def State.gangCores (s : State) (g : Gang) : List Nat :=
  ((s.work.warps.filter fun e => memb g.teams e.2.team).map (·.2.core)).eraseDups

/-- R332. `bndmin`: the minimum, then its delivery to every copy, which happens as time passes (log 21). -/
def execBndmin (a : BitVec 6) (s : State) : Res :=
  runScalar (.bndmin a) legal [a] none s fun k =>
    let v := k.rd a
    let s := match s.gang k.t.gang with
      | none => s
      | some g =>
        let cores := s.gangCores g
        s.putGang k.t.gang { g with
          bound := { val := if v.val.toNat < g.bound.val.toNat then v.val else g.bound.val, lab := Label.join g.bound.lab v.lab },
          flying := g.flying ++ cores.map fun c => (c, v) }
    k.done s k.x

/-- R332. `bndrd`: the local copy and its label; to a core without a copy nothing has been delivered. -/
def execBndrd (d : BitVec 6) (s : State) : Res :=
  runScalar (.bndrd d) legal [] (some d) s fun k =>
    let v := match s.gang k.t.gang with
      | some g => tGet g.copies ⟨BitVec.allOnes 64, 0⟩ k.x.core
      | none => ⟨BitVec.allOnes 64, 0⟩
    k.done s (k.x.writeS d.toNat v)

end Sys2Proof.Machine
end

