-- ==== Sys2Proof/Machine/LaneMem.lean ====
section
/-!
DEFINITION. Lane loads, stores and atomics on the on-chip memories (R370, R371), accumulator access (R372), and the engine
commands of lanes (R373 to R376).
-/
namespace Sys2Proof.Machine

/-- The label of data and address registers (R63, R238): the operands without the predicate. -/
def LCtx.dataLab (k : LCtx) : Label :=
  Label.joinAll [k.kindLab k.p.a k.f.a, if k.f.i then 0 else k.kindLab k.p.b k.f.b, k.kindLab k.p.c k.f.c]

/-- Team memory of the warp. -/
def LCtx.tm (k : LCtx) : Space := .team k.q.x.team
/-- The scratchpad copy on the warp's die. -/
def LCtx.scr (k : LCtx) : Space := .scr k.q.t.grid (dieOf k.q.x.core)
/-- The spill stack of the warp. -/
def LCtx.spill (k : LCtx) : Space := .spill k.q.w

/-- The places that an access of n bytes at offset `off` occupies: in a spill stack, word w of lane L is word w × W + L
(R54). -/
def LCtx.segs (k : LCtx) (sp : Space) (lane off n : Nat) : List (Nat × Nat) :=
  match sp with
  | .spill _ =>
    let at4 (w : Nat) : Nat := 4 * (w * k.q.x.width + lane)
    if n ≤ 4 then [(at4 (off / 4) + off % 4, n)] else [(at4 (off / 4), 4), (at4 (off / 4 + 1), 4)]
  | _ => [(off, n)]

/-- Class 5 of R343: ALIGN in some lane, else BOUNDS in some lane. -/
def LCtx.chipCheck (k : LCtx) (s : State) (sp : Space) (n : Nat) (off : Nat → Nat) : Option (BitVec 8 × List Nat) :=
  let al := k.part.filter fun l => off l % n != 0
  let bd := k.part.filter fun l => decide (off l + n > s.spaceSize sp)
  if !al.isEmpty then some (0x06, al) else if !bd.isEmpty then some (0x07, bd) else none

/-- Raises a fault of some lanes with the value of the lowest (R251). -/
def LCtx.faultAt (k : LCtx) (s : State) (code : BitVec 8) (lanes : List Nat) (val : Nat → Nat) : State :=
  k.fault s code (BitVec.ofNat 64 (match lanes with
    | l :: _ => val l
    | [] => 0)) lanes

/-- Class 7 of R343: the lanes that meet an uncorrectable word. -/
def LCtx.scan7 (k : LCtx) (s : State) (rd : Bool) (sp : Space) (n : Nat) (off : Nat → Nat) : State × List Nat :=
  k.part.foldl (fun (a : State × List Nat) l =>
    (k.segs sp l (off l) n).foldl (fun (a : State × List Nat) g =>
      let (s, bad) := if rd then a.1.scanRead sp g.1 g.2 else a.1.scanWrite sp g.1 g.2
      (s, if bad.isSome ∧ a.2.getLast? ≠ some l then a.2 ++ [l] else a.2)) a) (s, [])

/-- TRAPVAL of SRAM_UE: the memory and the offset (R251). -/
def spaceVal (sp : Space) (off : Nat) : Nat :=
  (match sp with
    | .spill _ => 0
    | .team _ => 2 ^ 62
    | .bar _ => 2 ^ 62
    | .scr _ _ => 2 ^ 63) + off % 2 ^ 32

/-- The label of what a lane reads. -/
def LCtx.memLab (k : LCtx) (s : State) (sp : Space) (n : Nat) (off : Nat → Nat) : Label :=
  Label.joinAll (k.part.flatMap fun l => (k.segs sp l (off l) n).map fun g => s.chipLab sp g.1 g.2)

/-- The bytes of a lane's access. -/
def LCtx.memBytes (k : LCtx) (s : State) (sp : Space) (lane off n : Nat) : List Byte :=
  (k.segs sp lane off n).flatMap fun g => s.chipBytes sp g.1 g.2

/-- Stores bytes of a lane's access. -/
def LCtx.memStore (k : LCtx) (s : State) (sp : Space) (lane off : Nat) (bs : List Byte) (lab : Label) : State :=
  ((k.segs sp lane off bs.length).foldl (fun (a : State × List Byte) g =>
    (a.1.chipStore sp g.1 (a.2.take g.2) lab, a.2.drop g.2)) (s, bs)).1

/-- The frame of an access of n bytes per lane: the checks of classes 5 and 7. -/
def LCtx.access (k : LCtx) (s : State) (rd : Bool) (sp : Space) (n : Nat) (off : Nat → Nat) (body : State → State) : State :=
  match k.chipCheck s sp n off with
  | some (c, ls) => k.faultAt s c ls off
  | none => match k.scan7 s rd sp n off with
    | (s, []) => body s
    | (s, ls) => k.faultAt s 0x21 ls fun l => spaceVal sp (off l)

/-- The offset of a load or store (R370): base plus displacement, wrapped to 32 bits. -/
def LCtx.off32 (k : LCtx) (l : Nat) : Nat := (k.a l + k.f.imm.toNat) % 2 ^ 32

/-- The most distinct words that lanes need in one of the 32 banks of team memory (R58). -/
def bankPasses (words : List Nat) : Nat :=
  (List.range 32).foldl (fun m b => max m (words.eraseDups.filter fun w => w % 32 == b).length) 0

/-- The passes beyond the first of an access of n bytes per lane of team memory, each half of a 64-lane warp by itself (R58). -/
def LCtx.extraPasses (k : LCtx) (n : Nat) (off : Nat → Nat) : Nat :=
  let half (h : Nat) : Nat := bankPasses ((k.part.filter fun l => l / 32 == h).flatMap fun l => wordsIn 4 (off l) n) - 1
  half 0 + half 1

/-- A lane load (R370). -/
def runLoad (i : Instr) (space : LCtx → Space) (s : State) : Res :=
  runLane i legalL s fun k =>
    let sp := space k
    let n := tyBits k.f.ty.toNat / 8
    k.access s true sp n k.off32 fun s =>
      k.result s (Label.join k.lab (k.memLab s sp n k.off32)) 0 fun l => tyOut k.f.ty (ofBytes (k.memBytes s sp l (k.off32 l) n))

/-- A lane store (R370): lanes in ascending order, so the highest wins (R60). -/
def runStore (i : Instr) (space : LCtx → Space) (s : State) : Res :=
  runLane i legalL s fun k =>
    let sp := space k
    let n := tyBits k.f.ty.toNat / 8
    k.access s false sp n k.off32 fun s =>
      k.done (k.part.foldl (fun s l => k.memStore s sp l (k.off32 l) (toBytes n (k.b l)) k.dataLab) s)

/-- R370. `ldt`. -/
def execLdt (f : LaneFields) (s : State) : Res := runLoad (.ldt f) LCtx.tm s
/-- R370. `stt`. -/
def execStt (f : LaneFields) (s : State) : Res := runStore (.stt f) LCtx.tm s
/-- R370. `ldc`. -/
def execLdc (f : LaneFields) (s : State) : Res := runLoad (.ldc f) LCtx.scr s
/-- R370. `stc`. -/
def execStc (f : LaneFields) (s : State) : Res := runStore (.stc f) LCtx.scr s
/-- R370. `lds`. -/
def execLds (f : LaneFields) (s : State) : Res := runLoad (.lds f) LCtx.spill s
/-- R370. `sts`. -/
def execSts (f : LaneFields) (s : State) : Res := runStore (.sts f) LCtx.spill s

/-- The offset of an on-chip atomic (R371). -/
def LCtx.off24 (k : LCtx) (l : Nat) : Nat := (k.a l + (k.f.imm.extractLsb' 0 24 |>.signExtend 32).toNat) % 2 ^ 32

/-- An on-chip atomic (R371): lanes in ascending order, each on the value that the lane before left (R61). `.ld` is a read
(R326), so it raises no line's label (R63, log 39). -/
def runAt (i : Instr) (space : LCtx → Space) (s : State) : Res :=
  runLane i legalL s fun k =>
    let sp := space k
    let w := tyBits k.f.ty.toNat
    let n := w / 8
    let op := aopLane k.f.ty k.f.md.toNat
    k.access s (op != .st) sp n k.off24 fun s =>
      let lab := Label.join k.lab (k.memLab s sp n k.off24)
      let (s, olds, fl) := k.part.foldl (fun (a : State × Table W64 × Flags) l =>
        let old := ofBytes (k.memBytes a.1 sp l (k.off24 l) n)
        let (new, g) := op.apply w old (k.c l) (k.b l)
        (if op = .ld then a.1 else k.memStore a.1 sp l (k.off24 l) (toBytes n new) k.dataLab,
          tPut a.2.1 l (BitVec.ofNat 64 old), a.2.2 ||| g)) (s, [], 0)
      if op = .st then k.done (s.modWarp k.q.w fun x => x.flag fl)
      else k.result s lab fl fun l => (tGet olds 0 l).toNat

/-- R371. `att`. -/
def execAtt (f : LaneFields) (s : State) : Res := runAt (.att f) LCtx.tm s
/-- R371. `atc`. -/
def execAtc (f : LaneFields) (s : State) : Res := runAt (.atc f) LCtx.scr s

/-! ### Accumulator access -/

/-- A team without a sequencer has no tiles (R40). -/
def noTiles (k : LCtx) (_ : State) : Bool := k.q.t.seqr.isNone

/-- The checks of an accumulator access: TOKEN, then BOUNDS with the index (R343, R372). -/
def LCtx.tile (k : LCtx) (s : State) (body : Nat → State) : State :=
  let t := k.f.md.toNat
  if k.q.t.tok t ≠ .warps then k.fault s 0x05 (BitVec.ofNat 64 t) k.act
  else
    let bad := k.part.filter fun l => decide (k.off32 l ≥ 4096)
    if bad.isEmpty then body t else k.faultAt s 0x07 bad k.off32

/-- R372. `accrd`. -/
def execAccrd (f : LaneFields) (s : State) : Res :=
  runLane (.accrd f) noTiles s fun k => k.tile s fun t =>
    k.result s (Label.join k.lab (k.q.t.labT t)) 0 fun l => (k.q.t.elem t (k.off32 l / 64) (k.off32 l % 64)).toNat

/-- R372. `accwr`. -/
def execAccwr (f : LaneFields) (s : State) : Res :=
  runLane (.accwr f) noTiles s fun k => k.tile s fun t =>
    let s := s.modTeam k.q.x.team fun y =>
      let y := k.part.foldl (fun (y : Team) l => y.setElem t (k.off32 l / 64) (k.off32 l % 64) (BitVec.ofNat 32 (k.b l))) y
      if k.part.isEmpty then y else y.raiseTile t k.dataLab
    k.done s

/-! ### Engine commands from lanes -/

/-- Issues an operation of this entry (R373); at 255 the entry waits. -/
def LCtx.issue (k : LCtx) (s : State) (cls : Nat) (kind : OpKind) (ret : Ret) (lab : Label) (trans : Table Trans)
    (trap : Option (BitVec 8 × W64)) (after : Nat → State → State) : State :=
  if k.q.x.count cls ≥ 255 then k.wait s
  else
    let o := mkOp k.q k.q.x.team k.q.t.grid k.q.g.ctx cls kind ret lab trans
    let (id, s) := (s.accessAll (some (dieOf k.q.x.core)) k.q.g.ctx trans).issueOp { o with trap := trap, todo := trapTodo trap o.todo, lanes := k.part }
    after id s

/-- The bytes of a row (R374). -/
def LCtx.rowBytes (k : LCtx) : Nat := 4 * 2 ^ k.f.md.toNat

/-- The team-memory offset of a lane's row (R374). -/
def LCtx.rowT (k : LCtx) (l : Nat) : Nat := (k.a 0 + k.f.imm.toNat) % 2 ^ 32 + k.rowBytes * l

/-- The virtual address of a lane's row: base plus the offset, sign-extended for s32 and for `scat.add`, else
zero-extended. -/
def LCtx.rowR (k : LCtx) (signed : Bool) (l : Nat) : Nat :=
  let c : W32 := BitVec.ofNat 32 (k.c l)
  (BitVec.ofNat 64 (k.b 0) + (if signed then c.signExtend 64 else c.setWidth 64)).toNat

/-- The first address of an atomic from `va` on that a host page denies (R77). -/
def State.deniedAt (s : State) (fn : Nat) (trans : Table Trans) (aop : Aop) (va : Nat) : Option Nat :=
  (trans.find? fun e => s.atomicDenied fn [e] aop).map fun e => max va (e.1 * 65536)

/-- Class 6 of R343 for one range per lane: the lanes that fault, the cause and address of the lowest, or the
translations and their labels. `deny` is the address at which the command's own refusal raises PROTECT. -/
def LCtx.mainCheck (k : LCtx) (s : State) (acc : AccKind) (n align : Nat) (va : Nat → Nat) (lab : Nat → Option Label)
    (deny : Nat → State → Table Trans → Option Nat) : State × List (Nat × BitVec 8 × W64) × Table Trans × Label :=
  k.part.foldl (fun (a : State × List (Nat × BitVec 8 × W64) × Table Trans × Label) l =>
    let (s, bad, t, lb) := a
    if va l % align ≠ 0 then (s, bad ++ [(l, 0x06, BitVec.ofNat 64 (va l))], t, lb)
    else match k.q.range s acc (lab l) (va l) n with
      | (s, .error e) => (s, bad ++ [(l, e.1, e.2)], t, lb)
      | (s, .ok (t2, l2)) => match deny l s t2 with
        | some v => (s, bad ++ [(l, 0x13, BitVec.ofNat 64 v)], t, lb)
        | none => (s, bad, mergeTrans t t2, Label.join lb l2)) (s, [], [], 0)

/-- Raises a class 6 fault. -/
def LCtx.fault6 (k : LCtx) (s : State) (bad : List (Nat × BitVec 8 × W64)) : State :=
  match bad with
  | (_, c, v) :: _ => k.fault s c v (bad.map (·.1))
  | [] => s

/-- The first poisoned byte of some rows (R87). -/
def LCtx.rowPoison (k : LCtx) (t : Table Trans) (n : Nat) (va : Nat → Nat) : Option (BitVec 8 × W64) :=
  poisonTrap t (k.part.map fun l => (va l, n))

/-- The alignment and bounds of the team-memory rows (R374). -/
def LCtx.rowCheck (k : LCtx) (s : State) : Option (BitVec 8 × List Nat) :=
  let al := k.part.filter fun l => k.rowT l % 4 != 0
  let bd := k.part.filter fun l => decide (k.rowT l + k.rowBytes > s.spaceSize k.tm)
  if !al.isEmpty then some (0x06, al) else if !bd.isEmpty then some (0x07, bd) else none

/-- The distinct rows of a gather (R374): address, length, place in the buffer. -/
def LCtx.gathRows (k : LCtx) (va : Nat → Nat) : List (Nat × Nat × Nat) :=
  let n := k.rowBytes
  let rows := (k.part.map va).eraseDups
  (List.range rows.length).map fun i => ((rows[i]?).getD 0, n, n * i)

/-- The pieces of a gather (R374): each distinct row is read once, and each lane that names it has a copy written to its place. -/
def LCtx.gathPieces (k : LCtx) (va : Nat → Nat) : List Piece :=
  let rows := k.gathRows va
  rows.flatMap (fun r => readPieces k.q.c 1 (k.part.filter fun l => va l == r.1) r.1 r.2.2 r.2.1) ++
  k.part.flatMap fun l => writePieces 0 [l] (k.rowT l) (k.rowBytes * (rows.map (·.1)).idxOf (va l)) k.rowBytes

/-- R374. `gath`. -/
def execGath (f : LaneFields) (s : State) : Res :=
  runLane (.gath f) legalL s fun k =>
    if k.part.isEmpty then k.done s
    else
      let n := k.rowBytes
      let va := k.rowR (f.ty == 0)
      match k.rowCheck s with
      | some (c, ls) => k.faultAt s c ls k.rowT
      | none => match k.mainCheck s .r n (min n 8) va (fun _ => none) (fun _ _ _ => none) with
        | (s, [], t, _) =>
          k.issue s 1 (.move (k.gathPieces va) none) .none k.dataLab t (k.rowPoison t n va) fun id s =>
            k.done (s.modOp id fun o => { o with rows := k.gathRows va })
        | (s, bad, _, _) => k.fault6 s bad

/-- The label of a lane's row in team memory joined with the operands'. -/
def LCtx.rowLab (k : LCtx) (s : State) (l : Nat) : Label := Label.join k.dataLab (s.chipLab k.tm (k.rowT l) k.rowBytes)

/-- The pieces of a scatter (R375): the units of at most 8 aligned bytes (R76) that its rows cover, each with the bytes that the
highest lane which writes it has read. -/
def LCtx.scatPieces (k : LCtx) (s : State) (va : Nat → Nat) : List Piece :=
  let u := min k.rowBytes 8
  (k.part.flatMap fun l => (List.range (k.rowBytes / u)).map fun j => va l + u * j).eraseDups.map fun a =>
    let ls := k.part.filter fun l => decide (va l ≤ a) && decide (a < va l + k.rowBytes)
    let l := ls.getLast?.getD 0
    { src := .held (s.chipBytes k.tm (k.rowT l + (a - va l)) u), dst := .main a, len := u, lanes := ls }

/-- The common part of both scatters: team rows read at issue, pages checked for writing (R375). -/
def LCtx.scatter (k : LCtx) (s : State) (acc : AccKind) (align : Nat) (va : Nat → Nat) (kind : State → OpKind) : State :=
  if k.part.isEmpty then k.done s
  else match k.rowCheck s with
    | some (c, ls) => k.faultAt s c ls k.rowT
    | none => match k.mainCheck s acc k.rowBytes align va (fun l => some (k.rowLab s l)) (fun l s t =>
          if acc = .a then s.deniedAt k.q.c.fn t .add (va l) else none) with
      | (s, [], t, _) =>
        match k.scan7 s true k.tm k.rowBytes k.rowT with
        | (s, []) => k.issue s 1 (kind s) .none (Label.joinAll (k.part.map (k.rowLab s))) t (k.rowPoison t k.rowBytes va) fun _ s => k.done s
        | (s, ls) => k.faultAt s 0x21 ls fun l => spaceVal k.tm (k.rowT l)
      | (s, bad, _, _) => k.fault6 s bad

/-- R375. `scat`. -/
def execScat (f : LaneFields) (s : State) : Res :=
  runLane (.scat f) legalL s fun k =>
    let va := k.rowR (f.ty == 0)
    k.scatter s .w (min k.rowBytes 8) va fun s => .move (k.scatPieces s va) none

/-- R375. `scat.add`: additions of elements, lane by lane. -/
def execScatAdd (f : LaneFields) (s : State) : Res :=
  runLane (.scatAdd f) legalL s fun k =>
    let va := k.rowR true
    let e := tyBits f.ty.toNat / 8
    k.scatter s .a e va fun s => .rmws (k.part.flatMap fun l =>
      (List.range (k.rowBytes / e)).map fun j =>
        { va := va l + e * j, len := e, aop := if f.ty = 4 then .fadd else .add, cmp := 0,
          opnd := BitVec.ofNat 64 (ofBytes (s.chipBytes k.tm (k.rowT l + e * j) e)), lane := l })

/-- R376. `matom`: the return, if any, is pending in the whole register, and b0 awaits it. -/
def execMatom (f : LaneFields) (s : State) : Res :=
  runLane (.matom f) legalL s fun k =>
    let ret := f.imm.getLsbD 27
    let w := tyBits f.ty.toNat
    let op := aopLane f.ty f.md.toNat
    if k.part.isEmpty then (if ret then k.result s k.lab 0 fun _ => 0 else k.done s)
    else match k.mainCheck s (aopAcc op) (w / 8) (w / 8) k.a (fun _ => if op = .ld then none else some k.dataLab) (fun j s t =>
          (s.inDest k.q.g.ctx (k.a j) (w / 8)).or (s.deniedAt k.q.c.fn t op (k.a j))) with
      | (s, [], t, l) =>
        let d := f.dst.toNat
        let lab := Label.join k.lab l
        k.issue s 2 (.rmws (k.part.map fun j =>
            { va := k.a j, len := w / 8, aop := op, cmp := BitVec.ofNat 64 (k.c j), opnd := BitVec.ofNat 64 (k.b j), lane := j }))
          (if !ret then .none else if f.wbs then .latch else .v d (w == 64) k.part) lab t (k.rowPoison t (w / 8) k.a) fun id s =>
          if ret then s.modWarp k.q.w fun x =>
            let lanes := List.range x.width
            let x := if f.wbs then x else { x with vPend :=
              (lanes.map (64 * d + ·) ++ (if w = 64 then lanes.map (64 * (d + 1) + ·) else [])).foldl setAdd x.vPend }
            x.modEntry k.e fun y =>
              { y.shift { vals := [], lab := lab, valid := true, await := some id } with pc := y.pc + 1 }
          else k.done s
      | (s, bad, _, _) => k.fault6 s bad

end Sys2Proof.Machine
end

