-- ==== Sys2Proof/Machine/LaneCtl.lean ====
section
/-!
DEFINITION. Lane control (R377 to R383): branches, calls and returns with the splits of R166 and R167, the reconvergence
barriers of R169, the end of a block (R171), `REFILL` (R170, R204), `IDLE` and `LTRAP`.
-/
namespace Sys2Proof.Machine

/-! ### Split entries -/

/-- A free entry for a warp (R167), the lowest: within its reserve of two, or beyond it while the quadrant has more free
entries than the reserves of its resident warps still claim. -/
def State.freeEntry (s : State) (w : Nat) : Option Nat :=
  match s.warp w with
  | none => none
  | some x =>
    let here := s.work.warps.filterMap fun e => if e.2.core = x.core ∧ e.2.quad = x.quad then some e.2.usedEntries else none
    let used := here.flatten
    let claimed := here.foldl (fun n u => n + (2 - u.length)) 0
    if x.usedEntries.length < 2 ∨ used.length + claimed < 64 then findNat (fun i => !memb used i) 64 0 else none

/-- A new entry of some lanes at a PC, READY, with no latch valid (R166). -/
def newEntry (mask : W64) (pc : W32) (parent : BitVec 4) : Entry :=
  { mask := mask, state := .ready, parent := parent, rcvn := 0, pc := pc, b0 := .none, b1 := .none, b2 := .none, b3 := .none }

/-- An entry issues nothing until its `REFILL` has been answered, at the retirement point (R381). -/
def State.entryBusy (s : State) (w e : Nat) : Bool :=
  s.work.ops.any fun o => o.2.warp == w && match o.2.kind with
    | .refill n _ => n == e
    | _ => false

/-- The lanes of the warp that no entry holds (R170). -/
def Warp.idleLanes (x : Warp) : List Nat :=
  let m := x.entries.foldl (fun (m : W64) e => m ||| e.2.mask) 0
  (List.range x.width).filter fun l => !m.getLsbD l

/-! ### Reconvergence barriers and the end of a block -/

/-- A barrier of the warp (R169). -/
def Warp.rcvAt (x : Warp) (n : Nat) : Rcv := tGet x.rcv .none n

/-- Every lane of EXP has arrived, is idle, or is at `LEND` (R169). -/
def Warp.rcvFull (x : Warp) (n : Nat) : Bool :=
  let b := x.rcvAt n
  let running := x.entries.foldl (fun (m : W64) e => if e.2.state = .atLend then m else m ||| e.2.mask) 0
  b.armed && (b.exp &&& ~~~b.arr &&& running) == 0

/-- Completes barrier n: its waiting entries merge into the one of lowest index, and ARMED, EXP and ARR become 0 (R169). What its
lanes access next comes after what the set has accessed (R108). -/
def Warp.rcvComplete (x : Warp) (n : Nat) : Warp :=
  let x := x.noEarly (List.range 64)
  let b := x.rcvAt n
  let ws := x.entries.filter fun e => e.2.state == .rcvWait && e.2.rcvn.toNat == n
  let rest := x.entries.filter fun e => !(e.2.state == .rcvWait && e.2.rcvn.toNat == n)
  let m := ws.foldl (fun (m : W64) e => m ||| e.2.mask) 0
  { x with
    rcv := tSet x.rcv .none n { Rcv.none with rparent := b.rparent }
    entries := match ws with
      | [] => rest
      | (i, e) :: _ => tPut rest i (newEntry m (e.pc + 1) b.rparent) }

/-- Completes every barrier that is full. -/
def Warp.rcvSettle (x : Warp) : Warp := (List.range 8).foldl (fun x n => if x.rcvFull n then x.rcvComplete n else x) x

/-- A block ends when every lane is idle or at `LEND` (R171): its entries and barriers are freed and the next block may
start. -/
def Warp.blockEnd (x : Warp) : Warp :=
  if x.running ∧ x.entries.all (fun e => e.2.state == .atLend) then
    { x with entries := [], rcv := [], queue := x.queue.drop 1, running := false }
  else x

/-- What follows a lane's leaving or arriving: barriers complete, then the block may end. -/
def Warp.settle (x : Warp) : Warp := x.rcvSettle.blockEnd

/-! ### Branches, calls and returns -/

/-- The lanes of a list leave the entry for new ones, group by group, while an entry is free; a group that finds none
waits with the rest in SPLITWAIT (R167). Each group that leaves is a group switch of the entry too (R38, R166), so a retry that
reads a latch raises LATCH (log 83). `groups`: mask and PC; `keep`: the mask and PC of what stays. -/
def LCtx.split (k : LCtx) (s : State) (keep : W64 × W32) : List (W64 × W32) → State
  | [] => s.modWarp k.q.w fun x => x.modEntry k.e fun y => { y.switch with mask := keep.1, pc := keep.2, state := .ready }
  | (m, pc) :: r =>
    match s.freeEntry k.q.w with
    | none => s.modWarp k.q.w fun x => x.modEntry k.e fun y => { y with state := .splitWait }
    | some i =>
      LCtx.split k (s.modWarp k.q.w fun x =>
        { x with entries := tPut (tMod x.entries k.e fun y => { y.switch with mask := y.mask &&& ~~~m }) i (newEntry m pc k.en.parent) })
        keep r

/-- The lanes of `Active()` that do not take part. -/
def LCtx.rest (k : LCtx) : List Nat := k.act.filter fun l => !memb k.part l

/-- A branch of the participating lanes to a target (R377). -/
def LCtx.branch (k : LCtx) (s : State) (pc : W32) : State :=
  if k.part.isEmpty then k.done s
  else if k.rest.isEmpty then s.modWarp k.q.w fun x => x.modEntry k.e fun y => { y with pc := pc, state := .ready }
  else k.split s (maskOf k.rest, k.en.pc + 1) [(maskOf k.part, pc)]

/-- R377. `bra`. -/
def execBra (f : LaneFields) (s : State) : Res :=
  runLane (.bra f) legalL s fun k => k.branch s (k.en.pc + f.imm)

/-- R378. `lcall`: the return index to vD, the latch shift, then the branch. A split that finds no entry leaves the whole
instruction to its retry. -/
def execLcall (f : LaneFields) (s : State) : Res :=
  runLane (.lcall f) legalL s fun k =>
    if !k.part.isEmpty ∧ !k.rest.isEmpty ∧ (s.freeEntry k.q.w).isNone then
      s.modWarp k.q.w fun x => x.modEntry k.e fun y => { y with state := .splitWait }
    else k.branch (s.modWarp k.q.w fun x =>
      let val (_ : Nat) : Nat := (k.en.pc + 1).toNat
      let x := if f.wbs then x else x.putV f.dst.toNat false k.lab val k.part
      x.modEntry k.e fun y => y.shift (resultLatch k.lab val k.part)) (k.en.pc + f.imm)

/-- The groups of an `lret` by target: the lanes of each, in ascending order of their lowest lane (R378). -/
def LCtx.targets (k : LCtx) : List (W32 × List Nat) :=
  k.part.foldl (fun (gs : List (W32 × List Nat)) l =>
    let t : W32 := BitVec.ofNat 32 (k.a l)
    if gs.any (fun g => g.1 == t) then gs.map fun g => if g.1 = t then (g.1, g.2 ++ [l]) else g else gs ++ [(t, [l])]) []

/-- R378. `lret`. -/
def execLret (f : LaneFields) (s : State) : Res :=
  runLane (.lret f) legalL s fun k =>
    match k.targets with
    | [] => k.done s
    | (t, ls) :: gs =>
      let pc1 := k.en.pc + 1
      let stays := t == pc1
      let others := gs.map fun g => (g.2, g.1)
      let others := if stays ∨ k.rest.isEmpty then others
        else insBy (fun g => (g.1[0]?).getD 0) (k.rest, pc1) others
      if others.isEmpty then s.modWarp k.q.w fun x => x.modEntry k.e fun y => { y with pc := t, state := .ready }
      else k.split s (maskOf (if stays then ls ++ k.rest else ls), t) (others.map fun g => (maskOf g.1, g.2))

/-! ### Reconvergence -/

/-- The barrier that `rcv` names. -/
def rcvNum (f : LaneFields) : Nat := f.imm.toNat % 8

/-- R169. `rcv.mark` with ARR nonzero is ILLEGAL. -/
def rcvMarkBad (k : LCtx) (_ : State) : Bool := (k.q.x.rcvAt (rcvNum k.f)).arr != 0

/-- R169, R379. `rcv.mark`. -/
def execRcvMark (f : LaneFields) (s : State) : Res :=
  runLane (.rcvMark f) rcvMarkBad s fun k =>
    let n := rcvNum f
    s.modWarp k.q.w fun x =>
      { x with rcv := tPut x.rcv n { armed := true, exp := k.en.mask, arr := 0, rparent := k.en.parent } }.modEntry k.e fun y =>
        { y with parent := BitVec.ofNat 4 (n + 1), pc := y.pc + 1 }

/-- R169, R379. `rcv.wait`. -/
def execRcvWait (f : LaneFields) (s : State) : Res :=
  runLane (.rcvWait f) legalL s fun k =>
    let n := rcvNum f
    let b := k.q.x.rcvAt n
    let inside := k.en.mask &&& b.exp
    let outside := k.en.mask &&& ~~~b.exp
    let arrive (s : State) : State := s.modWarp k.q.w fun x =>
      ({ x with rcv := tPut x.rcv n { b with arr := b.arr ||| inside } }.modEntry k.e fun y =>
        { y with mask := inside, state := .rcvWait, rcvn := BitVec.ofNat 3 n }).settle
    if !b.armed ∨ inside = 0 then k.done s
    else if outside = 0 then arrive s
    else match s.freeEntry k.q.w with
      | none => s.modWarp k.q.w fun x => x.modEntry k.e fun y => { y with state := .splitWait }
      | some i => arrive (s.modWarp k.q.w fun x =>
          { x with entries := tPut (tMod x.entries k.e Entry.switch) i (newEntry outside (k.en.pc + 1) k.en.parent) })

/-! ### Entries without an instruction: block start, fusing -/

/-- Counts group switches of a warp's entries on the event counters (R38, R224). -/
def State.countSwitch (s : State) (x : Warp) (n : Nat) : State :=
  match s.home x with
  | some (_, g, _) => s.pmc (dieOf x.core) (some x.core) g.ctx 10 n
  | none => s

/-- The next queued block of a warp starts (R166, R171): one entry holds every lane at the block's entry, a group switch (R38). Its
accesses come after those that the scalar stream made before the `LRUN` and after the block before (R107). -/
def State.startBlock (s : State) (w : Nat) : State :=
  match s.warp w with
  | none => s
  | some x =>
    match x.running, x.queue, s.freeEntry w with
    | false, b :: _, some i => (s.modWarp w fun x => { x.noEarly (List.range 64) with
        running := true, rcv := [], rr := 63,
        entries := [(i, newEntry (fullMask x.width) (b.entry.setWidth 32) 0)] }).countSwitch x 1
    | _, _, _ => s

/-- Two entries that fuse: READY, with equal PC and PARENT (R166). -/
def fusable (a b : Nat × Entry) : Bool :=
  a.2.state == .ready && b.2.state == .ready && a.2.pc == b.2.pc && a.2.parent == b.2.parent

/-- The `REFILL`s of entries that fuse into another answer to that one. -/
def State.moveRefills (s : State) (w : Nat) (gone : List Nat) (to_ : Nat) : State :=
  { s with work := { s.work with ops := tMap s.work.ops fun _ o => match o.kind with
    | .refill e ws => if o.warp = w ∧ memb gone e then { o with kind := .refill to_ ws } else o
    | _ => o } }

/-- An entry fuses with every entry above it that it can (R166); the latches become invalid (R38). Each fuse counts (R224). -/
def State.fuseOne (s : State) (w : Nat) (a : Nat × Entry) : State :=
  match s.warp w with
  | none => s
  | some x => match x.entries.filter fun b => decide (a.1 < b.1) && fusable a b with
    | [] => s
    | bs =>
      let m := bs.foldl (fun (m : W64) (b : Nat × Entry) => m ||| b.2.mask) a.2.mask
      let gone := bs.map (fun (b : Nat × Entry) => b.1)
      let x := { x with entries := x.entries.filter fun (e : Nat × Entry) => !memb gone e.1 }
      let s := ((s.putWarp w (x.modEntry a.1 fun y => { y.switch with mask := m })).moveRefills w gone a.1).countSwitch x gone.length
      match s.home x with
      | some (_, g, _) => s.pmc (dieOf x.core) (some x.core) g.ctx 9 gone.length
      | none => s

/-- The fusing of a warp's entries at an issue decision (R166). -/
def State.fuse (s : State) (w : Nat) : State :=
  match s.warp w with
  | none => s
  | some x => x.entries.foldl (fun (s : State) (a : Nat × Entry) =>
      match s.warp w with
      | some y => match tFind y.entries a.1 with
        | some e => s.fuseOne w (a.1, e)
        | none => s
      | none => s) s

/-! ### The end of a block, idling, traps -/

/-- R380. `lend`. -/
def execLend (f : LaneFields) (s : State) : Res :=
  runLane (.lend f) legalL s fun k => s.modWarp k.q.w fun x => (x.modEntry k.e fun y => { y with state := .atLend }).settle

/-- R382. `idle`. -/
def execIdle (f : LaneFields) (s : State) : Res :=
  runLane (.idle f) legalL s fun k =>
    if k.part.isEmpty then k.done s
    else s.modWarp k.q.w fun x =>
      (if k.rest.isEmpty then { x with entries := tDel x.entries k.e }
        else x.modEntry k.e fun y => { y.switch with mask := maskOf k.rest, pc := y.pc + 1 }).settle

/-- R383. `ltrap`. -/
def execLtrap (f : LaneFields) (s : State) : Res :=
  runLane (.ltrap f) legalL s fun k =>
    if k.part.isEmpty then k.done s else k.fault s 0x31 (f.imm.setWidth 64) k.part

/-! ### Splits and group switches of an instruction (R224) -/

/-- Entries that an instruction has made: each is a split, which takes a free entry before any other is freed (R166, R169). -/
def newEntries (old new : Table Entry) : Nat := (new.filter fun e => (tFind old e.1).isNone).length

/-- The instruction is a wait at barrier `n`. -/
def waitsAt (i : Instr) (n : Nat) : Bool :=
  match i with
  | .rcvWait f => rcvNum f == n
  | _ => false

/-- Barriers that an instruction has completed with some entry at them: each completion is a group switch of the entry that stays
(R38, R169). -/
def completions (i : Instr) (old new : Warp) : Nat :=
  ((List.range 8).filter fun n => (old.rcvAt n).armed && !(new.rcvAt n).armed &&
    (waitsAt i n || old.entries.any fun e => e.2.state == .rcvWait && e.2.rcvn.toNat == n)).length

/-- Lanes have left entry `e` through an `idle` (R38): a group switch, also where that has emptied and freed the entry (R166). -/
def idled (i : Instr) (old new : Warp) (e : Nat) : Bool :=
  match i with
  | .idle _ => (tFind new.entries e).map (·.mask) != (tFind old.entries e).map (·.mask)
  | _ => false

/-- The group switches that an instruction of entry `e` has made (R38, R224): two at each split, whose two entries are both cleared, one
at each completion and at an `idle`. A trap saves the entries and switches none. -/
def switches (i : Instr) (old new : Warp) (e : Nat) : Nat :=
  if new.handler != old.handler then 0
  else 2 * newEntries old.entries new.entries + completions i old new + b2n (idled i old new e)

/-- Counts the splits and group switches that an instruction of entry `e` has made: `old` is the warp before it. -/
def State.countSplits (s : State) (i : Instr) (old : Warp) (w e : Nat) : State :=
  match s.warp w, s.home old with
  | some x, some (_, g, _) =>
    (s.pmc (dieOf old.core) (some old.core) g.ctx 8 (newEntries old.entries x.entries)).countSwitch old (switches i old x e)
  | _, _ => s

/-! ### Refill -/

/-- The ring index of the word that a pop takes (R203). -/
def Deque.popIx (d : Deque) : Nat := (d.bottom - 1).toNat % 2 ^ d.log2cap

/-- The deque unit reads a ring word, which lies in the chip scratchpad (R65, R67): a single error is corrected and counted; an
uncorrectable one is marked, counted the first time, and answers true. -/
def State.ringRead (s : State) (key i : Nat) : State × Bool :=
  match tFind s.deques key with
  | none => (s, false)
  | some d => match tFind d.ue i with
    | some seen => (if seen then s else
        { s with deques := tPut s.deques key { d with ue := tPut d.ue i true } }.count 0x21 (192 + key / 4096) 1, true)
    | none => if memb d.ce i then
        ({ s with deques := tPut s.deques key { d with ce := setDel d.ce i } }.count 0x20 (192 + key / 4096) 1, false) else (s, false)

/-- The reads of the ring for n pops. -/
def State.ringReads (s : State) (key : Nat) (d : Deque) (n : Nat) : State × Bool :=
  (List.range n).foldl (fun (a : State × Bool) j =>
    let (s, bad) := a.1.ringRead key ((d.bottom - 1 - BitVec.ofNat 32 j).toNat % 2 ^ d.log2cap)
    (s, a.2 || bad)) (s, false)

/-- One pop of a deque by a team (R204): the deque after it and the word; none where it raises DQ. -/
def Deque.pop (d : Deque) (grid : W64) (team : W32) : Option (Deque × LVal) :=
  if d.owner.isSome ∧ d.owner ≠ some (grid, team) then none
  else
    let d := { d with owner := some (grid, team) }
    if d.bottom = d.top then some (d, ⟨0, 0⟩)
    else
      some ({ d with bottom := d.bottom - 1 }, tGet d.ring ⟨0, 0⟩ d.popIx)

/-- The pops of a `REFILL` for idle lanes in ascending order, until one finds nothing (R381). -/
def refillPops (grid : W64) (team : W32) : Deque → List Nat → Option (Deque × List (Nat × LVal))
  | d, [] => some (d, [])
  | d, l :: r =>
    match d.pop grid team with
    | none => none
    | some (d, w) =>
      if w.val = 0 then some (d, [])
      else match refillPops grid team d r with
        | none => none
        | some (d, ws) => some (d, (l, w) :: ws)

/-- A role of another kind is refused (R176, R381). -/
def refillBad (k : LCtx) (s : State) : Bool :=
  (s.roleTarget k.q.g k.q.c k.q.t.gang (k.f.imm.toNat % 64) 4).isNone

/-- Lanes to which words of an unanswered `REFILL` of the warp are on their way. -/
def State.recipients (s : State) (w : Nat) : List Nat :=
  s.work.ops.flatMap fun o => if o.2.warp = w then match o.2.kind with
    | .refill _ ws => ws.map (·.1)
    | _ => [] else []

/-- R381. `refill`. A trap known at issue (R205) or met by the pops (R204) is reported at the retirement point; an uncorrectable
word of the ring kills the team, and the deque stays as it was (R67, log 31). With WBS = 1 no register takes the words (R341). -/
def execRefill (f : LaneFields) (s : State) : Res :=
  runLane (.refill f) refillBad s fun k =>
    if k.part.isEmpty then k.result s k.lab 0 fun _ => 0
    else if k.q.x.count 2 ≥ 255 then k.wait s
    else
      let role := f.imm.toNat % 64
      let key := match s.roleTarget k.q.g k.q.c k.q.t.gang role 4 with
        | some p => dqKey p
        | none => 0
      let idle := k.q.x.idleLanes.filter fun l => !memb (s.recipients k.q.w) l
      let grid := k.q.g.gridId
      let team := BitVec.ofNat 32 k.q.t.num
      let dqTrap := (0x09, BitVec.ofNat 64 role)
      let (s, bad) := match k.q.dqTrap s key false 0 (BitVec.ofNat 6 role), tFind s.deques key with
        | none, some d => if (refillPops grid team d idle).isSome then s.ringReads key d (min idle.length (d.bottom - d.top).toNat) else (s, false)
        | _, _ => (s, false)
      let (trap, d, ws) : Option (BitVec 8 × W64) × Option Deque × List (Nat × LVal) :=
        match k.q.dqTrap s key false 0 (BitVec.ofNat 6 role), tFind s.deques key with
        | some t, _ => (some t, none, [])
        | none, none => (some dqTrap, none, [])
        | none, some d => match refillPops grid team d idle with
          | none => (some dqTrap, none, [])
          | some (d, ws) => (none, some d, ws)
      if bad then (s.killTeam k.q.x.team 0x21).removalCheck k.q.g.ctx
      else k.issue s 2 (.refill k.e ws) (if f.wbs then .none else .v f.dst.toNat true (ws.map (·.1))) 0 [] trap fun _ s =>
        let s := match d with
          | some d => { s with deques := tPut s.deques key d }
          | none => s
        let s := k.result s k.lab 0 fun _ => 0
        if f.wbs then s else s.modWarp k.q.w fun x => { x with vPend := (ws.flatMap fun p =>
          [64 * f.dst.toNat + p.1, 64 * (f.dst.toNat + 1) + p.1]).foldl setAdd x.vPend }

end Sys2Proof.Machine
end

