-- ==== Sys2Proof/Machine/Launch.lean ====
section
/-!
DEFINITION. The acceptance of a GRID slot (R184, R185, R303, R330): the kernel header, its arguments, roles and leases,
and whether a team of it can ever fit on a core (R17).
-/
namespace Sys2Proof.Machine

/-- The cause codes of a refusal (R185). -/
abbrev Cause := BitVec 8

/-- Reads n words of 8 bytes through a context; the error is the cause of R185. -/
def State.readWords (s : State) (ctx va n : Nat) (k : AccKind) : State × Except Cause (List Nat) :=
  match s.devRead ctx va (8 * n) k with
  | (s, .ok bs) => (s, .ok ((List.range n).map fun i => ofBytes ((bs.drop (8 * i)).take 8)))
  | (s, .error f) => (s, .error (if f = 0x14 then 0x14 else 0x12))

/-- The header of a kernel image (R302). -/
def Kernel.ofWords (image : Nat) (w : List Nat) : Kernel :=
  let g (i hi lo : Nat) : Nat := fld ((w[i]?).getD 0) hi lo
  { image := image, slen := g 1 63 32, soff := g 1 31 0, llen := g 2 63 32, loff := g 2 31 0, mlen := g 3 63 32,
    moff := g 3 31 0, tlen := g 4 63 32, tdoff := g 4 31 0, gfall := max 1 (g 5 47 40), gpref := max 1 (g 5 39 32),
    prot := g 5 25 25 == 1, pers := g 5 24 24 == 1, idem := g 5 23 23 == 1, pair := g 5 22 22 == 1, warps := g 5 21 17,
    width := g 5 16 10, regs := g 5 9 0, nargs := g 6 38 32, spill := g 6 31 20, teammem := g 6 19 0,
    handler := BitVec.ofNat 32 (g 7 31 0) }

/-- Two non-empty byte ranges overlap. -/
def overlaps (a n b m : Nat) : Bool := decide (n ≠ 0) && decide (m ≠ 0) && decide (a < b + m) && decide (b < a + n)

/-- Lighthouse refuses a header with FORMAT (R303, R299, R301). -/
def Kernel.refused (k : Kernel) (w : List Nat) (nlease nrole : Nat) (prot : Bool) : Bool :=
  let g (i hi lo : Nat) : Nat := fld ((w[i]?).getD 0) hi lo
  let secs := [(k.soff, k.slen), (k.loff, k.llen), (k.moff, k.mlen), (k.tdoff, k.tlen)]
  decide (g 0 63 48 ≠ 0xC5B1 ∨ g 0 47 40 ≠ 1 ∨ g 0 39 0 ≠ 0 ∨ g 5 63 48 ≠ 0 ∨ g 5 31 26 ≠ 0 ∨ g 6 63 51 ≠ 0 ∨ g 7 63 32 ≠ 0 ∨ g 7 1 1 ≠ 0)
  || decide (k.slen % 4 ≠ 0 ∨ k.llen % 12 ≠ 0 ∨ k.mlen % 8 ≠ 0)
  || secs.any (fun s => decide (s.2 = 0 ∧ s.1 ≠ 0))
  || [(k.soff, k.slen), (k.loff, k.llen), (k.moff, k.mlen)].any (fun s => decide (s.2 ≠ 0 ∧ s.1 % 256 ≠ 0))
  || decide (k.tlen ≠ 0 ∧ k.tdoff % 65536 ≠ 0)
  || secs.any (fun s => overlaps s.1 s.2 0 0x400)
  || (List.range 4).any (fun i => (List.range i).any fun j =>
      let a := (secs[i]?).getD (0, 0)
      let b := (secs[j]?).getD (0, 0)
      overlaps a.1 a.2 b.1 b.2)
  || decide ((k.width ≠ 16 ∧ k.width ≠ 32 ∧ k.width ≠ 64) ∨ k.regs < 8 ∨ k.regs > 640 ∨ k.warps < 1 ∨ k.warps > 16
      ∨ k.gfall > k.gpref ∨ k.gpref > 192 ∨ g 6 50 46 > 16 ∨ g 6 45 39 > 64 ∨ k.nargs > 64)
  || decide (k.spill % 4 ≠ 0 ∨ k.spill * k.width > 16384)
  || (if k.pair then decide (k.teammem % 128 ≠ 0 ∨ k.teammem > 1048320) else decide (k.teammem % 64 ≠ 0 ∨ k.teammem > 524160))
  || decide (g 6 50 46 ≠ nlease ∨ g 6 45 39 ≠ nrole)
  || (k.prot && !prot)

/-- The registers of one warp in bytes (R17). -/
def Kernel.regBytes (k : Kernel) : Nat := roundUp k.regs 8 * 4 * k.width

/-- The warps of a team that reside on its even core, or on its odd core (R19). -/
def Kernel.warpsOn (k : Kernel) (odd : Bool) : Nat := if k.pair then (if odd then k.warps / 2 else (k.warps + 1) / 2) else if odd then 0 else k.warps

/-- A team fits on an empty core (R17). -/
def Kernel.fitsEmpty (k : Kernel) : Bool :=
  let w := k.warpsOn false
  let perQuad := (w + 3) / 4
  let mem := if k.pair then k.teammem / 2 + 128 else k.teammem + 128
  decide (perQuad ≤ 16 ∧ perQuad * k.regBytes ≤ 196608 ∧ mem ≤ 524288 ∧ w * k.spill * k.width ≤ 131072)

/-- The binding table is refused (R176): kinds against the kernel's role list, fields, registered views and pools, deque
numbers, routes. -/
def State.bindingBad (s : State) (c : Ctx) (kinds roles : List Nat) : Bool :=
  (List.range roles.length).any fun i =>
    let w := (roles[i]?).getD 0
    let kd := fld w 58 56
    let t := w % 2 ^ 56
    bitAt w 63 && (decide (kd ≠ fld ((kinds[i]?).getD 0) 58 56) || decide (fld w 62 59 ≠ 0) ||
      match kd with
      | 1 => decide (t ≥ 16)
      | 2 => decide (t ≥ 2 ^ 32) || !(s.routes.any fun r => r.2.node == t % 65536 && r.2.tag == t / 65536)
      | 3 => decide (t ≥ 8)
      | 4 => decide (t ≥ c.dqs.length)
      | 5 => decide (t ≥ 256) || (tFind c.liveViews t).isNone
      | 6 => decide (t ≥ 16) || (tFind c.pools t).isNone
      | _ => true)

/-- The lease check of R139 on a page: refused, waiting for the host, or ready. -/
def State.leasePage (s : State) (c : Ctx) (slot : Nat) (l : Lease) (vpn : Nat) : Option Cause × Bool :=
  let pte := s.leaf c vpn
  let a := pteAttr pte
  let poisoned := memb s.mem.listed (ptePpn pte) || match s.excHit 0 slot vpn with
    | some e => e.state == .poison
    | none => false
  if pte % 2 = 0 ∨ s.refuses (ptePpn pte) (attrTier a) ∨ (l.r ∧ !attrR a) ∨ (l.w ∧ !attrW a) ∨ (l.x ∧ !attrX a) then (some 0x12, false)
  else if poisoned then (some 0x14, false)
  else if attrTier a = 3 ∧ !memb s.xlat.present (ptePpn pte) then (none, false)
  else (none, true)

/-- The lease check of R139 on a launch: a refusal, or whether every page is ready. -/
def State.leaseCheck (s : State) (c : Ctx) (slot : Nat) (ls : List Lease) : Except Cause Bool :=
  ls.foldl (fun a l => (pagesOf l.base l.len).foldl (fun a vpn =>
    match a with
    | .error e => .error e
    | .ok r => match s.leasePage c slot l vpn with
      | (some e, _) => .error e
      | (none, ok) => .ok (r && ok)) a) (.ok true)

/-- A lease table entry (R184). -/
def Lease.ofWords (w0 w1 : Nat) : Lease :=
  { base := w0 % 2 ^ 57, len := w1, r := bitAt w0 63, w := bitAt w0 62, x := bitAt w0 61, span := 1 }

/-- Validates a GRID slot of 8 words and makes its grid (R185 item 4, R303); a child takes its parent's lease table with its
revoked pages, its spans starting anew (R139, R141), and its roles (R330). TRAPVEC is per kernel of a context (R44) and loaded
at each launch (R303): that a later launch gets the header's value while running grids keep the value that a `csrw` has
written is the model's choice (log 78). -/
def State.acceptGrid (s : State) (slot : Nat) (ws : List Nat) (parent : Option Grid) : State × Except Cause Grid :=
  match s.ctx slot with
  | none => (s, .error 0x40)
  | some c =>
    let w (i : Nat) : Nat := (ws[i]?).getD 0
    let nlease := fld (w 0) 15 8
    let nrole := fld (w 0) 22 16
    let teams := fld (w 0) 63 32
    let child := parent.isSome
    if fld (w 0) 3 0 ≠ 1 ∨ fld (w 0) 7 4 ≠ 0 ∨ fld (w 0) 31 23 ≠ 0 ∨ nlease > 16 ∨ nrole > 64 ∨ teams = 0 ∨ w 1 % 65536 ≠ 0 ∨
        fld (w 5) 63 32 ≠ 0 ∨ w 6 ≠ 0 ∨ w 7 ≠ 0 ∨ (child ∧ (nlease ≠ 0 ∨ nrole ≠ 0 ∨ w 3 ≠ 0 ∨ w 4 ≠ 0)) then (s, .error 0x01)
    else match s.readWords slot (w 1) 104 .x with
      | (s, .error e) => (s, .error e)
      | (s, .ok img) =>
        let k := Kernel.ofWords (w 1) img
        match s.readWords slot (w 2) (min 64 k.nargs) .r with
        | (s, .error e) => (s, .error e)
        | (s, .ok args) => match s.readWords slot (w 3) (if child then 0 else 2 * nlease) .r with
          | (s, .error e) => (s, .error e)
          | (s, .ok lt) => match s.readWords slot (w 4) (if child then 0 else nrole) .r with
            | (s, .error e) => (s, .error e)
            | (s, .ok rt) =>
              let hl := fld ((img[6]?).getD 0) 50 46
              let hr := fld ((img[6]?).getD 0) 45 39
              let leases := match parent with
                | some p => p.leases.map fun l => { l with span := 1 }
                | none => (List.range nlease).map fun i => Lease.ofWords ((lt[2 * i]?).getD 0) ((lt[2 * i + 1]?).getD 0)
              let roles : List Nat := match parent with
                | some p => p.roles.map (·.toNat)
                | none => rt
              if k.refused img (if child then hl else nlease) (if child then hr else nrole) c.prot ∨
                  (List.range nlease).any (fun i => fld ((lt[2 * i]?).getD 0) 60 57 ≠ 0) then (s, .error 0x01)
              else if s.bindingBad c ((img.drop 8).take 64) (if child then roles.take hr else roles) then (s, .error 0x02)
              else if !k.fitsEmpty ∨ fld (w 5) 31 0 > 1024 then (s, .error 0x41)
              else match s.leaseCheck c slot leases with
                | .error e => (s, .error e)
                | .ok ready =>
                  let gid := s.work.nextGrid
                  let s := { s with work := { s.work with nextGrid := gid + 1 } }
                  (s, .ok { ctx := slot, gridId := gid, kernel := k, trapvec := k.handler, args := args.map (BitVec.ofNat 64 ·),
                            leases := leases, revoked := (parent.map (·.revoked)).getD [], roles := roles.map (BitVec.ofNat 64 ·), scrUnits := fld (w 5) 31 0,
                            scratch := [], teams := teams, nextTeam := 0, nGangs := 0, live := 0, relaunch := [], resumeQ := [],
                            nRelaunch := 0, prio := 0, fc := 1, holdBit := false, ready := ready, started := false, cause := none,
                            causeNs := 0, bfNs := 0, blocks := false, fcNs := 0, fcDie := none, absent := [], failed := none, killed := none, seqFail := none,
                            packet := none, complVa := none, before := [] })

/-! ### Host pages (R140) -/

/-- The pages of a lease that lie on the host, with their frames. -/
def State.hostPages (s : State) (c : Ctx) (l : Lease) : List (Nat × Nat) :=
  (pagesOf l.base l.len).filterMap fun v =>
    let pte := s.leaf c v
    if pte % 2 = 1 ∧ attrTier (pteAttr pte) = 3 then some (v, ptePpn pte) else none

/-- An ATS translation request of the distributor goes out; it is outstanding until the host answers it (R140). -/
def State.atsAsk (s : State) (fn frame : Nat) : State :=
  { s with xlat := { s.xlat with ats := if s.xlat.ats.contains (fn, frame) then s.xlat.ats else s.xlat.ats ++ [(fn, frame)] } }.emit
    (.atsRequest fn frame)

/-- The distributor confirms each leased host page with an ATS translation request (R140). Whether a page that an earlier launch or
access has confirmed, and that the host has not invalidated, is requested again R140 does not say: that it is not is the model's
choice (log 101). -/
def State.confirm (s : State) (g : Grid) : State :=
  match s.ctx g.ctx with
  | none => s
  | some c => g.leases.foldl (fun s l => (s.hostPages c l).foldl (fun (s : State) p =>
      if memb s.xlat.present p.2 then s else s.atsAsk c.fn p.2) s) s

end Sys2Proof.Machine
end

