-- ==== Sys2Proof/Machine/Seal.lean ====
section
/-!
DEFINITION. The image of a sealed save (R240 to R243): header, body, nonce, sealing and the checks of a restore.
-/
namespace Sys2Proof.Machine

/-- The nonce: CTX in byte 0, CTR[39:0] in bytes 1–5, SEQ in bytes 6–11 (R242). -/
def sealNonce (ctx : Nat) (ctr : W64) (seq : BitVec 48) : BitVec 96 :=
  BitVec.ofNat 96 (ctx % 256 + ctr.toNat % 2 ^ 40 * 256 + seq.toNat * 2 ^ 48)

/-- Encrypts or decrypts a body: exclusive OR with the key stream (R242). -/
def gcmXor (key : Nat) (nonce : BitVec 96) (bs : List Byte) : List Byte :=
  (List.range bs.length).map fun i => (bs[i]?).getD 0 ^^^ Config.gcmStream key nonce i

/-- The 64-byte header (R241). -/
def sealHeader (kind ctx warp width team base count : Nat) (scal : Bool) (ctr : W64) (seq : BitVec 48) : List Byte :=
  [0xC5A7 * 2 ^ 48 + 2 ^ 40 + kind * 2 ^ 32 + ctx * 2 ^ 24 + warp * 128 + width, ctr.toNat, seq.toNat, team * 2 ^ 32,
    base * 2 ^ 32 + count, b2n scal, 0, 0].flatMap (toBytes 8)

/-- Pads labels with zeros to a multiple of 16 bytes (R241). -/
def padLabels (ls : List Label) : List Byte :=
  ls.map (·.setWidth 8) ++ List.replicate (roundUp ls.length 16 - ls.length) 0

/-- Header, encrypted body and tag. -/
def sealImage (key ctx : Nat) (ctr : W64) (seq : BitVec 48) (head : List Byte) (data : List Byte) (ls : List Label) : List Byte :=
  let n := sealNonce ctx ctr seq
  let body := gcmXor key n (data ++ padLabels ls)
  head ++ body ++ toBytes 16 (Config.gcmTag key n head body).toNat

/-- The saved items of a register image in order: v registers from BASE, then s1–s63, k0–k15 and p0–p7 (R241). -/
def Warp.imageData (x : Warp) (base count : Nat) (scal : Bool) : List Byte :=
  ((rangeFrom base count).flatMap fun r => (List.range x.width).flatMap fun l => toBytes 4 (x.readV r l).toNat) ++
  if scal then
    ((rangeFrom 1 63).flatMap fun r => toBytes 8 (x.readS r).val.toNat) ++
    ((List.range 16).flatMap fun r => toBytes 8 (x.readK r).val.toNat) ++
    ((List.range 8).flatMap fun r => toBytes 8 (x.predMask r &&& fullMask x.width).toNat)
  else []

/-- The labels of the saved items. -/
def Warp.imageLabels (x : Warp) (base count : Nat) (scal : Bool) : List Label :=
  ((rangeFrom base count).map x.labV) ++
  if scal then ((rangeFrom 1 63).map fun r => (x.readS r).lab) ++ ((List.range 16).map fun r => (x.readK r).lab) ++ (List.range 8).map x.labP
  else []

/-- The length of a register image (R336). -/
def imageLenV (width count : Nat) (scal : Bool) : Nat :=
  64 + 4 * width * count + 696 * b2n scal + roundUp (count + 87 * b2n scal) 16 + 16

/-- The length of a team-memory image (R336). -/
def imageLenT (n : Nat) : Nat := 64 + n + roundUp (n / 64) 16 + 16

/-- The first failing check of R243 on a read image; 0 when all pass. `kind` 1 or 2; `rangeOk` is check 6. -/
def sealCheck (bs : List Byte) (kind slot : Nat) (c : Ctx) (team warp width key : Nat) (rangeOk : Nat → Nat → Bool → Bool) : Nat :=
  let w (i : Nat) : Nat := ofBytes ((bs.drop (8 * i)).take 8)
  let res := fld (w 0) 31 30 + fld (w 0) 23 11 + fld (w 2) 63 48 + fld (w 3) 31 0 + fld (w 5) 63 1 + w 6 + w 7 +
    (if kind = 2 then fld (w 0) 10 0 + fld (w 5) 0 0 else 0)
  let n := sealNonce (fld (w 0) 29 24) (BitVec.ofNat 64 (w 1)) (BitVec.ofNat 48 (w 2))
  if fld (w 0) 63 48 ≠ 0xC5A7 ∨ fld (w 0) 47 40 ≠ 1 ∨ fld (w 0) 39 32 ≠ kind ∨ res ≠ 0 then 1
  else if fld (w 0) 29 24 ≠ slot then 2
  else if w 1 < c.savectr.toNat then 3
  else if w 1 > c.savectr.toNat then 4
  else if fld (w 3) 63 32 ≠ team ∨ (kind = 1 ∧ (fld (w 0) 10 7 ≠ warp ∨ fld (w 0) 6 0 ≠ width)) then 5
  else if rangeOk (fld (w 4) 63 32) (fld (w 4) 31 0) (bitAt (w 5) 0) = false then 6
  else if ofBytes (bs.drop (bs.length - 16)) ≠ (Config.gcmTag key n (bs.take 64) ((bs.drop 64).take (bs.length - 80))).toNat then 7
  else 0

/-- The decrypted body of an image. -/
def sealOpen (bs : List Byte) (key : Nat) : List Byte :=
  let w (i : Nat) : Nat := ofBytes ((bs.drop (8 * i)).take 8)
  gcmXor key (sealNonce (fld (w 0) 29 24) (BitVec.ofNat 64 (w 1)) (BitVec.ofNat 48 (w 2))) ((bs.drop 64).take (bs.length - 80))

/-- The save key of a context. -/
def State.saveKey (s : State) (c : Ctx) : Nat :=
  match tFind s.mem.keys c.keySlot with
  | some k => k.save
  | none => 0

end Sys2Proof.Machine
end

