-- ==== Sys2Proof/Machine/System.lean ====
section
/-!
DEFINITION. Collectives (R328, R329), child launches (R330), roles, CSRs and soft traps (R333 to R335, R44 to R49), sealed
saves and restores (R336 to R338), the return from a trap (R404, R250) and the privileged instructions (R405, R406).
-/
namespace Sys2Proof.Machine

/-! ### Collectives -/

/-- The bytes of an element of a collective's type; 0 for a refused type (R328). -/
def collSize (t : BitVec 4) : Nat :=
  match t.toNat with
  | 0 => 4
  | 1 => 4
  | 2 => 8
  | 3 => 8
  | 4 => 4
  | 5 => 2
  | 6 => 2
  | _ => 0

/-- The fields of a descriptor (R328). -/
def CollDesc.ofWords (w : List Nat) : CollDesc :=
  let g (i hi lo : Nat) : Nat := fld ((w[i]?).getD 0) hi lo
  { ident := BitVec.ofNat 64 ((w[0]?).getD 0), src := g 1 56 0, dst := g 2 56 0, reca := g 3 56 0, count := g 4 63 32,
    rbase := g 4 31 26, root := g 4 25 21, rank := g 4 20 16, ndev := g 4 15 10, red := g 4 9 8,
    dtype := BitVec.ofNat 4 (g 4 7 4), op := g 4 3 0, routes := [] }

/-- A descriptor is refused by its own fields (R328, R329). -/
def CollDesc.refused (d : CollDesc) (w : List Nat) : Bool :=
  let g (i hi lo : Nat) : Nat := fld ((w[i]?).getD 0) hi lo
  decide (g 1 63 57 ≠ 0 ∨ g 2 63 57 ≠ 0 ∨ g 3 63 57 ≠ 0 ∨ g 5 63 0 ≠ 0 ∨ g 6 63 0 ≠ 0 ∨ g 7 63 0 ≠ 0) ||
  decide (d.op < 1 ∨ d.op > 4 ∨ d.red = 3 ∨ collSize d.dtype = 0 ∨ d.ndev < 2 ∨ d.ndev > 32 ∨ d.count = 0) ||
  decide (d.rank ≥ d.ndev ∨ d.root ≥ d.ndev ∨ d.rbase + d.ndev > 65) ||
  decide (d.op = 2 ∧ d.count % d.ndev ≠ 0)

/-- The role of a peer rank (R328). -/
def CollDesc.role (d : CollDesc) (q : Nat) : Nat := if q < d.rank then d.rbase + q else d.rbase + q - 1

/-- The peers of this device. -/
def CollDesc.peers (d : CollDesc) : List Nat := (List.range d.ndev).filter (· != d.rank)

/-- The bytes that this device reads: at ROOT only for BROADCAST (R329). -/
def CollDesc.srcLen (d : CollDesc) : Nat := if d.op = 4 ∧ d.rank ≠ d.root then 0 else d.count * collSize d.dtype

/-- The bytes that this device writes (R329). -/
def CollDesc.dstLen (d : CollDesc) : Nat :=
  (match d.op with
    | 2 => d.count / d.ndev
    | 3 => d.count * d.ndev
    | _ => d.count) * collSize d.dtype

/-- The label of what arrives from peers, whose routes have these labels: from every peer, for BROADCAST from ROOT alone (R238,
R329). -/
def CollDesc.inLab (d : CollDesc) (rlabs : List Label) : Label :=
  if d.op = 4 then Label.joinAll (((d.peers.zip rlabs).filter fun e => e.1 == d.root).map (·.2)) else Label.joinAll rlabs

/-- The main-memory checks of a collective (R305 step 3, R329): SRC for reading, each transfer to a peer against its route's label,
DST and RECVA for writing, the record under label `rec`. Where SRC faults, the label is the one known of its other pages (log 94). The
error is the one at the lowest address; otherwise the translations and the label of what this device sends. -/
def State.collChecks (s : State) (die ctx : Nat) (lease : Option Nat) (d : CollDesc) (rlabs : List Label) (l0 rec : Label) :
    State × Except (BitVec 8 × W64) (Table Trans × Label) :=
  let (s, r1) := s.transRange die ctx lease .r none d.src d.srcLen
  let lab : Label := Label.join l0 (match r1 with
    | .ok r => r.2
    | .error _ => s.readLabel die ctx lease d.src d.srcLen)
  let (s, r2) := s.transRange die ctx lease .w (some (Label.join lab (d.inLab rlabs))) d.dst d.dstLen
  let (s, r3) := if d.reca % 16 ≠ 0 then (s, .error (0x06, BitVec.ofNat 64 d.reca))
    else s.transRange die ctx lease .w (some rec) d.reca (if d.reca = 0 then 0 else 16)
  let sent : Option (BitVec 8 × W64) :=
    if d.srcLen ≠ 0 ∧ rlabs.any (fun r => decide (r.toNat < lab.toNat)) then some (0x10, BitVec.ofNat 64 d.src) else none
  let err (r : Except (BitVec 8 × W64) (Table Trans × Label)) : Option (BitVec 8 × W64) := match r with
    | .error e => some e
    | .ok _ => none
  let tab (r : Except (BitVec 8 × W64) (Table Trans × Label)) : Table Trans := match r with
    | .error _ => []
    | .ok r => r.1
  match argMin (fun e => e.2.toNat) ([err r1, sent, err r2, err r3].filterMap id) with
  | some e => (s, .error e)
  | none => (s, .ok (mergeTrans (mergeTrans (tab r1) (tab r2)) (tab r3), lab))

/-- The main-memory ranges of a collective. -/
def CollDesc.ranges (d : CollDesc) : List (Nat × Nat) :=
  [(d.src, d.srcLen), (d.dst, d.dstLen), (d.reca, if d.reca = 0 then 0 else 16)]

/-- R329. `coll`. -/
def execColl (a : BitVec 6) (s : State) : Res :=
  runScalar (.coll a) legal [a] none s fun k =>
    let off := (k.rd a).val.toNat
    let bad : Option (BitVec 8) := if off % 64 ≠ 0 then some 0x06 else if off ≥ 2 ^ 32 then some 0x07 else s.chipFault k.tm off 64 64
    match bad with
    | some f => k.fault s f (k.rd a).val
    | none => match s.scanRead k.tm off 64 with
      | (s, some b) => k.sramUe s k.tm b
      | (s, none) =>
        let w := (List.range 8).map fun i => ofBytes (s.chipBytes k.tm (off + 8 * i) 8)
        let d := CollDesc.ofWords w
        let routes := d.peers.map fun q => s.roleTarget k.g k.c k.t.gang (d.role q) 2
        if d.refused w ∨ routes.any (·.isNone) then k.illegal s (.coll a)
        else
          let rlabs := routes.map fun r => match tFind s.routes (r.getD 0) with
            | some x => x.lab
            | none => 0
          let l0 := Label.join (k.rd a).lab (s.chipLab k.tm off 64)
          match s.collChecks k.die k.g.ctx k.lease d rlabs l0 l0 with
          | (s, .error e) => k.fault s e.1 e.2
          | (s, .ok (t, l)) =>
            let aborted := routes.any fun r => match tFind s.routes (r.getD 0) with
              | some x => !x.up
              | none => true
            k.issue s 4 (.coll { d with routes := routes.map (·.getD 0) } [] false aborted) .none l t (poisonTrap t d.ranges)

/-! ### Child launches -/

/-- R330. `launch`. The operations that the warp has issued before must retire before the child starts (R115); the completion word
keeps the translation that is taken here (R131). -/
def execLaunch (a b : BitVec 6) (s : State) : Res :=
  runScalar (.launch a b) legal [a, b] none s fun k =>
    let off := (k.rd a).val.toNat
    let va := (k.rd b).val.toNat
    let bad : Option (BitVec 8) := if off % 64 ≠ 0 then some 0x06 else if off ≥ 2 ^ 32 then some 0x07 else s.chipFault k.tm off 64 64
    match bad with
    | some f => k.fault s f (k.rd a).val
    | none =>
      if b ≠ 0 ∧ va % 8 ≠ 0 then k.fault s 0x06 (k.rd b).val
      else match k.range s .w (some (Label.join (k.rd a).lab (k.rd b).lab)) va (if b = 0 then 0 else 8) with
        | (s, .error e) => k.fault s e.1 e.2
        | (s, .ok (t, _)) =>
          if k.c.children ≥ 256 then k.wait s false
          else match s.scanRead k.tm off 64 with
            | (s, some bad) => k.sramUe s k.tm bad
            | (s, none) =>
              let ws := (List.range 8).map fun i => ofBytes (s.chipBytes k.tm (off + 8 * i) 8)
              let s := (s.accessAll (some k.die) k.g.ctx t).modCtx k.g.ctx fun c => { c with children := c.children + 1 }
              let word := if b = 0 then none else (tFind t (va / 65536)).map fun t => (va, t)
              match s.acceptGrid k.g.ctx ws (some k.g) with
              | (s, .error e) => k.done (s.childDone k.g.ctx word 1 e) k.x
              | (s, .ok g) =>
                let (id, s) := s.fresh
                let s := s.putGrid id { g with
                  prio := k.g.prio, fc := k.g.fc, complVa := word,
                  before := (List.range 6).flatMap fun c => k.x.pendOf c }
                k.done (({ s with work := { s.work with order := s.work.order ++ [id] } }).confirm g) k.x

/-! ### Roles and CSRs -/

/-- R333. `role`: never traps on the role's state. -/
def execRole (d role : BitVec 6) (s : State) : Res :=
  runScalar (.role d role) legal [] (some d) s fun k =>
    let r := role.toNat
    let w := k.g.role r
    let valid := bitAt w 63
    let rvalid := valid && match s.gang k.t.gang with
      | some y => (tFind y.ptgt r).isSome
      | none => false
    let v := if r ≥ k.g.roles.length then 0
      else b2n rvalid * 2 ^ 63 + b2n valid * 2 ^ 62 + fld w 58 56 * 2 ^ 56 + w % 2 ^ 56
    k.done s (k.x.writeS d.toNat ⟨BitVec.ofNat 64 v, k.c.label⟩)

/-- The cycles of a die's arithmetic clock since reset (R48). -/
def State.clock (s : State) (die : Nat) : W64 := BitVec.ofNat 64 (tGet s.cycles 0 die / 1000)

/-- The value of a CSR; none for an unimplemented number (R44, R46 to R49). -/
def SCtx.csr (k : SCtx) (s : State) (n : Nat) : Option W64 :=
  match n with
  | 0x001 => some (k.x.fstat.setWidth 64)
  | 0x002 => some (k.t.mfstat.setWidth 64)
  | 0x010 => some k.x.cause
  | 0x011 => some k.x.tval
  | 0x012 => some (k.x.pcS.setWidth 64)
  | 0x013 => some (k.x.pcL.setWidth 64)
  | 0x014 => some k.x.flmask
  | 0x020 => some (BitVec.ofNat 64 (k.x.quad * 16 + k.x.num))
  | 0x021 => some (BitVec.ofNat 64 k.t.num)
  | 0x022 => some (BitVec.ofNat 64 (match s.gang k.t.gang with
    | some y => y.num
    | none => 0))
  | 0x023 => some k.g.gridId
  | 0x024 => some (BitVec.ofNat 64 k.x.width)
  | 0x030 => some (s.clock (dieOf k.x.core))
  | 0x031 => some s.time
  | 0x040 => some (k.c.label.setWidth 64)
  | 0x041 => some k.c.savectr
  | 0x800 => some (k.g.trapvec.setWidth 64)
  | 0x801 => some (BitVec.ofNat 64 k.g.ctx)
  | 0x802 => some (BitVec.ofNat 64 (k.c.root * 65536))
  | 0x803 => some (BitVec.ofNat 64 k.c.keySlot)
  | 0x804 => some (BitVec.ofNat 64 (4 * b2n k.c.sys + 2 * b2n k.c.mfctx + b2n k.c.prot))
  | _ => none

/-- An access to an unimplemented CSR, or to a privileged one outside a system warp, is ILLEGAL (R45). -/
def csrBad (csr : BitVec 12) (k : SCtx) : Bool := (k.csr default csr.toNat).isNone || (csr.getLsbD 11 && !k.c.sys)

/-- R334. `csrr`. -/
def execCsrr (d : BitVec 6) (csr : BitVec 12) (s : State) : Res :=
  runScalar (.csrr d csr) (csrBad csr) [] (some d) s fun k =>
    k.done s (k.x.writeS d.toNat ⟨(k.csr s csr.toNat).getD 0, k.c.label⟩)

/-- R334, R45, R49. `csrw`: writes FSTAT, MFSTAT, TRAPVEC of the kernel and CTXCTL.MFCTX; other writes are ignored. -/
def execCsrw (a : BitVec 6) (csr : BitVec 12) (s : State) : Res :=
  runScalar (.csrw a csr) (csrBad csr) [a] none s fun k =>
    let v := (k.rd a).val
    match csr.toNat with
    | 0x001 => k.done s { k.x with fstat := v.setWidth 7 }
    | 0x002 => k.done (s.modTeam k.x.team fun t => { t with mfstat := v.setWidth 7 }) k.x
    | 0x800 =>
      let tv : W32 := v.setWidth 32 &&& 0xFFFFFFFD
      k.done { s with work := { s.work with grids := tMap s.work.grids fun _ g =>
        if g.ctx = k.g.ctx ∧ g.kernel.image = k.g.kernel.image then { g with trapvec := tv } else g } } k.x
    | 0x804 => k.done (s.modCtx k.g.ctx fun c => { c with mfctx := v.getLsbD 1 }) k.x
    | _ => k.done s k.x

/-- R335. `trap #n`: SOFT with the immediate. -/
def execTrap (imm : BitVec 20) (s : State) : Res :=
  runScalar (.trap imm) legal [] none s fun k => k.fault s 0x31 (imm.setWidth 64)

/-! ### Sealed save and restore -/

/-- The common refusals (R336): an unprotected context, a lane block still queued. -/
def saveBad (k : SCtx) : Bool := !k.c.prot || !k.x.queue.isEmpty

/-- The register set of `SAVEV` and `RESTV`: BASE, COUNT, SCAL; none where R336 refuses it. -/
def SCtx.regSet (k : SCtx) (v : W64) : Option (Nat × Nat × Bool) :=
  let n := v.toNat
  let base := fld n 9 0
  let count := fld n 25 16
  let scal := bitAt n 32
  if fld n 15 10 ≠ 0 ∨ fld n 31 26 ≠ 0 ∨ fld n 63 33 ≠ 0 ∨ base + count > k.x.c ∨ count + b2n scal < 1 then none
  else some (base, count, scal)

/-- Some register of a set is pending (R31). -/
def Warp.setPending (x : Warp) (base count : Nat) (scal : Bool) : Bool :=
  x.vPend.any (fun e => decide (base * 64 ≤ e) && decide (e < (base + count) * 64)) || (scal && !(x.sPend.isEmpty && x.kPend.isEmpty))

/-- Takes the context's SAVESEQ for an image (R240). -/
def State.takeSeq (s : State) (slot : Nat) : BitVec 48 × State :=
  match s.ctx slot with
  | some c => (c.saveseq, s.putCtx slot { c with saveseq := c.saveseq + 1 })
  | none => (0, s)

/-- R337. `savev`. -/
def execSavev (a b : BitVec 6) (s : State) : Res :=
  runScalar (.savev a b) saveBad [a, b] none s fun k =>
    let va := (k.rd a).val.toNat
    match k.regSet (k.rd b).val with
    | none => k.illegal s (.savev a b)
    | some (base, count, scal) =>
      if va % 64 ≠ 0 then k.illegal s (.savev a b)
      else if k.x.setPending base count scal then k.wait s true
      else match k.range s .w (some 0) va (imageLenV k.x.width count scal) with
        | (s, .error e) => k.fault s e.1 e.2
        | (s, .ok (t, _)) => if k.x.count 0 ≥ 255 then k.wait s false else
          let (seq, s) := s.takeSeq k.g.ctx
          let head := sealHeader 1 k.g.ctx k.x.num k.x.width k.t.num base count scal k.c.savectr seq
          let img := sealImage (s.saveKey k.c) k.g.ctx k.c.savectr seq head (k.x.imageData base count scal) (k.x.imageLabels base count scal)
          k.issue s 0 (.savev va img) .none 0 t (poisonTrap t [(va, imageLenV k.x.width count scal)])

/-- R338. `restv`. Where several registers of the set are pending R31 and R251 do not say which one TRAPVAL names: that it is the lowest
v register, else the lowest s, else the lowest k, is the model's choice (log 111). -/
def execRestv (a b : BitVec 6) (s : State) : Res :=
  runScalar (.restv a b) saveBad [a, b] none s fun k =>
    let va := (k.rd a).val.toNat
    match k.regSet (k.rd b).val with
    | none => k.illegal s (.restv a b)
    | some (base, count, scal) =>
      if va % 64 ≠ 0 then k.illegal s (.restv a b)
      else if k.x.setPending base count scal then
        let vp := (k.x.vPend.filter fun e => decide (base * 64 ≤ e) && decide (e < (base + count) * 64))[0]?
        k.fault s 0x03 (BitVec.ofNat 64 (match vp, k.x.sPend[0]?, k.x.kPend[0]? with
          | some e, _, _ => e / 64
          | none, some r, _ => 0x400 + r
          | none, none, some r => 0x440 + r
          | none, none, none => 0))
      else match k.range s .r none va (imageLenV k.x.width count scal) with
        | (s, .error e) => k.fault s e.1 e.2
        | (s, .ok (t, _)) => if k.x.count 0 ≥ 255 then k.wait s false else
          let s := k.issue s 0 (.restv va base count scal) .none 0 t (poisonTrap t [(va, imageLenV k.x.width count scal)])
          s.modWarp k.w fun x => { x with
            vPend := ((rangeFrom base count).flatMap fun r => (List.range x.width).map fun l => 64 * r + l).foldl setAdd x.vPend,
            sPend := if scal then (rangeFrom 1 63).foldl setAdd x.sPend else x.sPend,
            kPend := if scal then (List.range 16).foldl setAdd x.kPend else x.kPend }

/-- The operand checks of `savet` and `restt` (R336): alignment of the image, the offset and the byte count, then bounds. -/
def SCtx.rangeT (k : SCtx) (s : State) (va : Nat) (off len : W64) : Option (Option (BitVec 8)) :=
  if va % 64 ≠ 0 ∨ len.toNat = 0 ∨ len.toNat % 64 ≠ 0 then some none
  else if off.toNat % 64 ≠ 0 then some (some 0x06)
  else if off.toNat + len.toNat > s.spaceSize k.tm then some (some 0x07)
  else none

/-- R337. `savet` reads team memory while the operation runs. -/
def execSavet (a b c : BitVec 6) (s : State) : Res :=
  runScalar (.savet a b c) saveBad [a, b, c] none s fun k =>
    let va := (k.rd a).val.toNat
    let off := (k.rd b).val
    let len := (k.rd c).val
    match k.rangeT s va off len with
    | some none => k.illegal s (.savet a b c)
    | some (some f) => k.fault s f off
    | none =>
      match k.range s .w (some 0) va (imageLenT len.toNat) with
        | (s, .error e) => k.fault s e.1 e.2
        | (s, .ok (t, _)) => if k.x.count 0 ≥ 255 then k.wait s false else
          let (seq, s) := s.takeSeq k.g.ctx
          let head := sealHeader 2 k.g.ctx 0 0 k.t.num off.toNat len.toNat false k.c.savectr seq
          k.issue s 0 (.savet va head off.toNat len.toNat seq) .none 0 t (poisonTrap t [(va, imageLenT len.toNat)])

/-- R338. `restt`. -/
def execRestt (a b c : BitVec 6) (s : State) : Res :=
  runScalar (.restt a b c) saveBad [a, b, c] none s fun k =>
    let va := (k.rd a).val.toNat
    let off := (k.rd b).val
    let len := (k.rd c).val
    match k.rangeT s va off len with
    | some none => k.illegal s (.restt a b c)
    | some (some f) => k.fault s f off
    | none => match k.range s .r none va (imageLenT len.toNat) with
      | (s, .error e) => k.fault s e.1 e.2
      | (s, .ok (t, _)) => k.issue s 0 (.restt va off.toNat len.toNat) .none 0 t (poisonTrap t [(va, imageLenT len.toNat)])

/-! ### Return from a trap -/

/-- ILLEGAL outside handler mode (R404). -/
def notHandler (k : SCtx) : Bool := !k.x.handler || k.x.frame.isNone

/-- The return from a trap (R250). -/
def runTret (i : Instr) (skip : Bool) (s : State) : Res :=
  runScalar i notHandler [] none s fun k =>
    match k.x.frame with
    | some f => s.putWarp k.w (k.x.restore f skip)
    | none => s

/-- R404. `tret`. -/
def execTret (s : State) : Res := runTret .tret false s
/-- R404, R250. `tret.skip`. -/
def execTretSkip (s : State) : Res := runTret .tretSkip true s

/-! ### Privileged instructions -/

/-- The live context of the slot that bits [5:0] of a scalar operand name (R134, R135). -/
def State.liveCtx (s : State) (v : W64) : Option (Nat × Ctx) :=
  match s.ctx (v.toNat % 64) with
  | some c => if c.invalid then none else some (v.toNat % 64, c)
  | none => none

/-- R133. `mapedit`, which alone refuses a slot operand whose bits [63:6] are not 0. A change of a WATCH page's PPN is a master write of
the warp, which its `VFENCE` and its packet's VWAIT wait for (R149, R156, R157). -/
def execMapedit (a b c : BitVec 6) (s : State) : Res :=
  runScalar (.mapedit a b c) privileged [a, b, c] none s fun k =>
    match if (k.rd c).val.toNat < 64 then s.liveCtx (k.rd c).val else none with
    | none => k.illegal s (.mapedit a b c)
    | some (slot, x) =>
      let va := (k.rd a).val.toNat
      let pte := (k.rd b).val.toNat
      match s.editRefused x va pte with
      | some (f, v) => k.fault s f v
      | none => if s.editWaits slot (va / 65536) then k.wait s true
                else
                  let (s, ts) := s.editTiles slot (va / 65536) pte true
                  (k.done s { k.x with mwTiles := k.x.mwTiles ++ ts }).packetTiles (s.gridPacket k.t.grid) ts

/-- R134. `mapsync` waits for the accesses to pages of the range, those of warps at `signal.wait` among them, under a replaced
translation. -/
def execMapsync (a b c : BitVec 6) (s : State) : Res :=
  runScalar (.mapsync a b c) privileged [a, b, c] none s fun k =>
    let va := (k.rd a).val.toNat
    let n := (k.rd b).val.toNat
    match s.liveCtx ((k.rd c).val) with
    | none => k.illegal s (.mapsync a b c)
    | some (slot, _) =>
      if va / 2 ^ 57 ≠ 0 ∨ n > 2 ^ 25 then k.illegal s (.mapsync a b c)
      else
        let (ops, sigs) := match k.x.wait with
          | .mapsync os ws => (os, ws)
          | _ => (s.oldOps slot (va / 65536) n, s.oldSigs slot (va / 65536) n)
        let ops := s.unmade ops
        let sigs := s.unsignalled sigs
        if ops.isEmpty ∧ sigs.isEmpty then k.done s k.x else s.putWarp k.w { k.x with wait := .mapsync ops sigs }

/-- R135. `refitf` waits until the edits and cut-overs so far are folded in, then gives the FIX count. -/
def execRefitf (d c : BitVec 6) (s : State) : Res :=
  runScalar (.refitf d c) privileged [c] (some d) s fun k =>
    match s.liveCtx (k.rd c).val with
    | none => k.illegal s (.refitf d c)
    | some (slot, x) =>
      let ticket := match k.x.wait with
        | .refitf sl t => if sl = slot then t else x.tickets
        | _ => x.tickets
      if x.folded ≥ ticket then k.done s (k.x.writeS d.toNat ⟨BitVec.ofNat 64 (s.fixCount slot), k.c.label⟩)
      else s.putWarp k.w { k.x with wait := .refitf slot ticket }

/-- The refusals of `lbldn` (R406): index limits, and vector or predicate registers while a block is queued. -/
def lbldnBad (index : BitVec 12) (kind : BitVec 2) (k : SCtx) : Bool :=
  !k.c.sys || (match kind.toNat with
    | 0 => decide (index.toNat > 63)
    | 1 => decide (index.toNat > 15)
    | 2 => decide (index.toNat ≥ k.x.c)
    | _ => decide (index.toNat > 7)) || (decide (kind.toNat ≥ 2) && !k.x.queue.isEmpty)

/-- R406. `lbldn` lowers the label of one register, never its value. -/
def execLbldn (index : BitVec 12) (level : BitVec 3) (kind : BitVec 2) (s : State) : Res :=
  runScalar (.lbldn index level kind) (lbldnBad index kind) [] none s fun k =>
    let r := index.toNat
    let low (l : Label) : Label := if level.toNat < l.toNat then level else l
    match kind.toNat with
    | 0 => if memb k.x.sPend r then k.wait s true else k.done s (k.x.writeS r ⟨(k.x.readS r).val, low (k.x.readS r).lab⟩)
    | 1 => if memb k.x.kPend r then k.wait s true else k.done s (k.x.writeK r ⟨(k.x.readK r).val, low (k.x.readK r).lab⟩)
    | 2 => if k.x.vPend.any (fun e => e / 64 == r) then k.wait s true else k.done s (k.x.setLabV r (low (k.x.labV r)))
    | _ => k.done s (k.x.setLabP r (low (k.x.labP r)))

end Sys2Proof.Machine
end

