-- ==== Sys2Proof/Machine/Engine.lean ====
section
/-!
DEFINITION. Engine operations after their issue (R24, R76, R87, R105): the pieces that an engine performs one by one in any
order, view reads (R154), what an operation does when it finishes, and its retirement in issue order (R216, R218).
-/
namespace Sys2Proof.Machine

/-! ### The order of operations -/

/-- The byte range of a place of n bytes: memory (0 main, 1 team, 2 scratchpad), first byte, length. -/
def Loc.span (l : Loc) (n : Nat) : List (Nat × Nat × Nat) :=
  match l with
  | .main va => [(0, va, n)]
  | .team a => [(1, a, n)]
  | .scr a => [(2, a, n)]
  | .held _ => []
  | .buf _ => []

/-- The byte ranges of an operation (R106 note 4), each with the lanes that access it, none for the scalar stream. `width` is
the warp's width. -/
def Op.spans (o : Op) (width : Nat) : List (List Nat × Nat × Nat × Nat) :=
  let scalar (l : List (Nat × Nat × Nat)) : List (List Nat × Nat × Nat × Nat) := l.map fun r => ([], r)
  match o.kind with
  | .move ps st => ps.flatMap (fun p => (p.src.span p.len ++ p.dst.span p.len).map fun r => (p.lanes, r)) ++ (match st with
    | some off => scalar [(1, off, 8)]
    | none => [])
  | .rmws rs => rs.map fun r => (if o.lanes.isEmpty then [] else [r.lane], 0, r.va, r.len)
  | .coll d _ _ _ => scalar [(0, d.src, d.srcLen), (0, d.dst, d.dstLen), (0, d.reca, 16)]
  | .place _ _ st _ _ _ => scalar [(0, st, 8)]
  | .savev va img => scalar [(0, va, img.length)]
  | .savet va _ off len _ => scalar [(0, va, imageLenT len), (1, off, len)]
  | .restv va _ count scal => scalar [(0, va, imageLenV width count scal)]
  | .restt va off len => scalar [(0, va, imageLenT len), (1, off, len)]
  | _ => []

/-- Two byte ranges of one memory meet. -/
def spansMeet (a b : Nat × Nat × Nat) : Bool :=
  a.1 == b.1 && decide (a.2.1 < b.2.1 + b.2.2) && decide (b.2.1 < a.2.1 + a.2.2)

/-- Two operations of one class are kept in order (R106 note 4): some agent makes overlapping accesses in both. -/
def Op.meets (width : Nat) (a b : Op) : Bool :=
  (a.spans width).any fun x => (b.spans width).any fun y => sameAgent x.1 y.1 && spansMeet x.2 y.2

/-- An operation that must follow an earlier one of its class that has not been performed. -/
def State.behind (s : State) (id : Nat) (o : Op) : Bool :=
  match s.warp o.warp with
  | none => false
  | some x => ((x.pendOf o.cls).takeWhile (· != id)).any fun h => match s.op h with
    | some p => !p.done && p.meets x.width o
    | none => false

/-! ### Accesses of an operation -/

/-- An operation notes a trap to report; of several the one with the lowest address stands (R154). -/
def Op.note (o : Op) (code : BitVec 8) (va : Nat) : Op :=
  match o.trap with
  | some t => if va < t.2.toNat then { o with trap := some (code, BitVec.ofNat 64 va) } else o
  | none => { o with trap := some (code, BitVec.ofNat 64 va) }

/-- Notes a trap on an operation. -/
def State.noteOp (s : State) (id : Nat) (code : BitVec 8) (va : Nat) : State := s.modOp id fun o => o.note code va

/-- Counts bytes read from a tier by a context's operations (R222). -/
def State.tierRead (s : State) (ctx ppn n : Nat) : State :=
  match tierOf (ppn * 65536) with
  | some t => s.count 0x14 (4 * ctx + t) n
  | none => s

/-- The translation that an operation took for an address (R131). -/
def Op.tr (o : Op) (va : Nat) : Option Trans := tFind o.trans (va / 65536)

/-- Reads bytes of one line for an operation; none where the access completes with POISON status (R87). -/
def State.opRead (s : State) (id : Nat) (o : Op) (va n : Nat) : State × Option (List Byte) :=
  match o.tr va with
  | none => (s, none)
  | some t =>
    if t.poison then (s.noteOp id 0x14 va, none)
    else match s.meetLine 0 o.ctx va t with
      | (s, true) => (s.noteOp id 0x14 va, none)
      | (s, false) => (s.tierRead o.ctx t.ppn n, some (s.peekN (attrKey t.attr) (t.ppn * 65536 + va % 65536) n))

/-- The view tiles of which master elements lie in a range (R149). -/
def State.masterTiles (s : State) (ctx va n : Nat) : List TileVer :=
  match s.ctx ctx with
  | some c => c.liveViews.flatMap fun v => ((List.range n).filterMap fun i => v.2.masterTile (va + i)).eraseDups.map fun t =>
      { ctx := ctx, view := v.1, tile := t, ver := 0 }
  | none => []

/-- Adds tiles that are not yet in a list. -/
def addTiles (l new : List TileVer) : List TileVer := new.foldl (fun l t => if l.any (· == t) then l else l ++ [t]) l

/-- The tiles that an operation's master writes reached, among the views as they stand (R149). -/
def State.wroteTiles (s : State) (o : Op) : List TileVer :=
  o.wrote.foldl (fun l r => addTiles l (s.masterTiles o.ctx r.1 r.2)) []

/-- Writes bytes of one line for an operation; nothing where the access completes with POISON status (R87). A write under a
translation with WATCH is a master write (R149). -/
def State.opWrite (s : State) (id : Nat) (o : Op) (va : Nat) (bs : List Byte) : State :=
  match o.tr va with
  | none => s
  | some t =>
    if t.poison then s.noteOp id 0x14 va
    else match s.meetLine 0 o.ctx va t with
      | (s, true) => s.noteOp id 0x14 va
      | (s, false) =>
        let s := s.pokeN (attrKey t.attr) (t.ppn * 65536 + va % 65536) bs
        if attrWatch t.attr && o.kind.master then s.modOp id fun o => { o with wrote := o.wrote ++ [(va, bs.length)] } else s

/-- Reads a whole range for an operation; none if any of it is poisoned. -/
def State.opReadAll (s : State) (id : Nat) (o : Op) (va n : Nat) : State × Option (List Byte) :=
  (parts8 n va n).foldl (fun (a : State × Option (List Byte)) p =>
    match a.1.opRead id o p.1 p.2, a.2 with
    | (s, some b), some bs => (s, some (bs ++ b))
    | (s, _), _ => (s, none)) (s, some [])

/-- Writes a whole range for an operation. -/
def State.opWriteAll (s : State) (id : Nat) (o : Op) (va : Nat) (bs : List Byte) : State :=
  (parts8 bs.length va bs.length).foldl (fun s p => s.opWrite id o p.1 ((bs.drop (p.1 - va)).take p.2)) s

/-- The space of an on-chip place for an operation. -/
def Op.space (o : Op) : Loc → Option (Space × Nat)
  | .team a => some (.team o.team, a)
  | .scr a => some (.scr o.grid o.die, a)
  | _ => none

/-- An engine meets an uncorrectable on-chip word on its warp's behalf: the team is killed (R67, R255). -/
def State.opUe (s : State) (o : Op) : State := (s.killTeam o.team 0x21).removalCheck o.ctx

/-- Bytes enter the buffer of a move, but for those that it already holds. -/
def Op.fill (o : Op) (off : Nat) (bs : List (Option (Byte × Label))) : Op :=
  let put (t : Table (Option (Byte × Label))) (e : Nat × Option (Byte × Label)) : Table (Option (Byte × Label)) :=
    if (tFind t (off + e.1)).isSome then t else tPut t (off + e.1) e.2
  { o with buf := ((List.range bs.length).zip bs).foldl put o.buf }

/-- The source of a piece: its bytes with the label that they carry (R63, R238), none where a main-memory access delivers none; the
answer is none where the engine meets an uncorrectable on-chip word. -/
def State.pieceBytes (s : State) (id : Nat) (o : Op) (p : Piece) : State × Option (List (Option (Byte × Label))) :=
  match p.src with
  | .main va =>
    let (s, bs) := s.opRead id o va p.len
    let lab := match o.tr va with
      | some t => attrLbl t.attr
      | none => 0
    (s, some (match bs with
      | some bs => bs.map fun b => some (b, lab)
      | none => List.replicate p.len none))
  | .held bs => (s, some (bs.map fun b => some (b, 0)))
  | .buf off => (s, some ((List.range p.len).map fun i => (tFind o.buf (off + i)).getD none))
  | l => match o.space l with
    | some (sp, a) => match s.scanRead sp a p.len with
      | (s, some _) => (s, none)
      | (s, none) => (s, some ((s.chipBytes sp a p.len).map fun b => some (b, s.chipLab sp a p.len)))
    | none => (s, some [])

/-- The runs of bytes that are there: position, bytes and label. -/
def runsOf : Nat → List (Option (Byte × Label)) → List (Nat × List Byte × Label)
  | _, [] => []
  | i, none :: r => runsOf (i + 1) r
  | i, some (b, l) :: r => match runsOf (i + 1) r with
    | (j, bs, m) :: q => if j = i + 1 then (i, b :: bs, Label.join l m) :: q else (i, [b], l) :: (j, bs, m) :: q
    | [] => [(i, [b], l)]

/-- Writes a run of bytes at a place. -/
def State.writeRun (s : State) (id : Nat) (o : Op) (dst : Loc) (r : Nat × List Byte × Label) : State :=
  match dst with
  | .main va => s.opWrite id o (va + r.1) r.2.1
  | l => match o.space l with
    | some (sp, a) => match s.scanWrite sp (a + r.1) r.2.1.length with
      | (s, some _) => s.opUe o
      | (s, none) => s.chipStore sp (a + r.1) r.2.1 (Label.join o.lab r.2.2)
    | none => s

/-- The row of a gather to which a place of its buffer belongs, and how far into it the place lies. -/
def Op.rowAt (o : Op) (off : Nat) : Option ((Nat × Nat × Nat) × Nat) :=
  (o.rows.find? fun r => decide (r.2.2 ≤ off) && decide (off < r.2.2 + r.2.1)).map fun r => (r, off - r.2.2)

/-- The place of a row in another gather's buffer: the same address and length, in flight on the die in the same context, under the
same translation of the page of `va` (R374, log 81). -/
def Op.rowIn (o q : Op) (va off : Nat) : Option Nat :=
  match o.rowAt off with
  | some (r, i) =>
    if q.die ≠ o.die ∨ q.ctx ≠ o.ctx ∨ q.tr va ≠ o.tr va then none
    else (q.rows.find? fun x => x.1 == r.1 && x.2.1 == r.2.1).map fun x => x.2.2 + i
  | none => none

/-- What another gather in flight has fetched of a row, where memory still holds those bytes (R374, log 81). -/
def State.heldRow (s : State) (id : Nat) (o : Op) (p : Piece) (off : Nat) : Option (List (Option (Byte × Label))) :=
  match p.src, o.rows with
  | .main va, _ :: _ => s.work.ops.findSome? fun e => if e.1 = id then none else match o.rowIn e.2 va off, o.tr va with
      | some at_, some t =>
        let bs := (List.range p.len).map fun i => (tFind e.2.buf (at_ + i)).getD none
        if bs.all (·.isSome) ∧ bs.map (fun b => b.map (·.1)) = (s.peekN (attrKey t.attr) (t.ppn * 65536 + va % 65536) p.len).map some
        then some bs else none
      | _, _ => none
  | _, _ => none

/-- Performs one piece of a move: a read into the buffer, or a write of the bytes that are there. A write to a page with POISON
status is met even where no byte is there (R87). -/
def State.movePiece (s : State) (id : Nat) (o : Op) (p : Piece) : State :=
  match p.dst with
  | .buf off => match s.heldRow id o p off with
    | some bs => s.modOp id fun o => o.fill off bs
    | none => match s.pieceBytes id o p with
      | (s, none) => s.opUe o
      | (s, some bs) => s.modOp id fun o => o.fill off bs
  | dst => match s.pieceBytes id o p with
    | (s, none) => s.opUe o
    | (s, some bs) =>
      let s := match dst with
        | .main va => match o.tr va with
          | some t => if t.poison then s.noteOp id 0x14 va else s
          | none => s
        | _ => s
      (runsOf 0 bs).foldl (fun s r => s.writeRun id o dst r) s

/-- A piece leaves its bytes without data. -/
def Op.skip (o : Op) (p : Piece) : Op :=
  match p.dst with
  | .buf off => o.fill off (List.replicate p.len none)
  | _ => o

/-- A write waits until its bytes have been read, and until every read of the operation that meets the bytes it writes is done, so
that a copy reads what stood there before it (R323). -/
def Op.waitsFor (o : Op) (ps : List Piece) (p : Piece) : Bool :=
  match p.src with
  | .buf off => (List.range p.len).any (fun i => (tFind o.buf (off + i)).isNone) || o.todo.any fun j => match ps[j]? with
    | some q => match q.dst with
      | .buf _ => (q.src.span q.len).any fun x => (p.dst.span p.len).any (spansMeet x)
      | _ => false
    | none => false
  | _ => false

/-- Marks pieces as performed. -/
def State.didPieces (s : State) (id : Nat) (is : List Nat) : State :=
  s.modOp id fun o => { o with todo := o.todo.filter fun i => !memb is i }

/-- The view and tile whose destination a read takes. -/
def State.pieceTile (s : State) (o : Op) (p : Piece) : Option (Nat × Nat) :=
  match p.src, s.ctx o.ctx with
  | .main va, some c => c.viewAt va
  | _, _ => none

/-- Pieces of an operation that are still to be performed and begin in a tile. -/
def State.tilePieces (s : State) (o : Op) (ps : List Piece) (t : Nat × Nat) : List Nat :=
  o.todo.filter fun i => match ps[i]? with
    | some p => s.pieceTile o p == some t
    | none => false

/-- Performs pieces by number. -/
def State.performAll (s : State) (id : Nat) (o : Op) (ps : List Piece) (is : List Nat) : State :=
  (is.foldl (fun s i => match ps[i]? with
    | some p => s.movePiece id o p
    | none => s) s).didPieces id is

/-- The source address of a piece in main memory, 0 for other sources. -/
def Piece.va (p : Piece) : Nat :=
  match p.src with
  | .main va => va
  | _ => 0

/-- An engine operation that is an acquire has been performed for an agent, whose scratchpad loads to come are performed after it
(R102, R106, R111, R113): `lanes` of the issuing warp, none for the scalar stream. -/
def State.acquired (s : State) (o : Op) (lanes : List Nat) : State := s.modWarp o.warp fun x => x.noEarly (earlyNames lanes)

/-- The lanes whose rows pieces belong to. -/
def pieceLanes (ps : List Piece) (is : List Nat) : List Nat := is.flatMap fun i => match ps[i]? with
  | some p => p.lanes
  | none => []

/-- Pieces of an operation leave their bytes without data. -/
def State.skipAll (s : State) (id : Nat) (ps : List Piece) (is : List Nat) : State :=
  (s.modOp id fun o => is.foldl (fun o i => match ps[i]? with
    | some p => o.skip p
    | none => o) o).didPieces id is

/-- The read of one view tile by an operation (R154): all its pieces at once, or none, or a trap. One that is not stale is an acquire
of the publication (R113). -/
def State.readTile (s : State) (id : Nat) (o : Op) (ps : List Piece) (t : Nat × Nat) : State :=
  match s.ctx o.ctx with
  | none => s
  | some c => match tFind c.views t.1 with
    | none => s
    | some v => match tFind v.tiles t.2 with
      | none => s
      | some x =>
        let is := s.tilePieces o ps t
        let ctr := 256 * o.ctx + t.1
        let low := ((is.filterMap fun i => ps[i]?).foldl (fun m p => min m p.va) (2 ^ 64))
        if x.busy then s.count 0x31 ctr 1
        else if x.poisoned then (s.noteOp id 0x16 low).skipAll id ps is
        else if x.ft = x.mv then (s.performAll id o ps is).acquired o (pieceLanes ps is)
        else match v.policy.toNat with
          | 0 => s
          | 1 => ((s.performAll id o ps is).modOp id fun o => { o with staleN := o.staleN + 1 }).count 0x30 ctr 1
          | _ => (s.noteOp id 0x15 low).skipAll id ps is

/-- One piece of a move that is a read: a view tile's pieces together. -/
def State.readPiece (s : State) (id : Nat) (o : Op) (ps : List Piece) (i : Nat) (p : Piece) : State :=
  match s.pieceTile o p with
  | some t => s.readTile id o ps t
  | none => s.performAll id o ps [i]

/-- The accesses that an operation has still to make: of a move those of the pieces that are not performed, with the status word. -/
def Op.left (o : Op) (width : Nat) : List (List Nat × Nat × Nat × Nat) :=
  match o.kind with
  | .move ps st => ({ o with kind := .move (o.todo.filterMap fun i => ps[i]?) st } : Op).spans width
  | _ => o.spans width

/-- A read must follow an access that an earlier operation of its class has still to make for one of its agents (R106 note 4). -/
def State.readBehind (s : State) (id : Nat) (o : Op) (p : Piece) : Bool :=
  match s.warp o.warp with
  | none => false
  | some x => ((x.pendOf o.cls).takeWhile (· != id)).any fun h => match s.op h with
    | some e => !e.done && (e.left x.width).any fun y => sameAgent y.1 p.lanes && (p.src.span p.len).any (spansMeet y.2)
    | none => false

/-- The pieces that are read together with one: those of its view tile. -/
def State.readWith (s : State) (o : Op) (ps : List Piece) (i : Nat) (p : Piece) : List Nat :=
  match s.pieceTile o p with
  | some t => s.tilePieces o ps t
  | none => [i]

/-- What a gather has just fetched of a row goes to every other gather in flight on the die that has still to read it (R374, log
81): each makes that read now, out of the buffer, unless the read must follow another access of its agent. -/
def State.shareRow (s : State) (id : Nat) (o : Op) (p : Piece) : State :=
  match p.src, p.dst, o.rows with
  | .main va, .buf off, _ :: _ =>
    if (s.op id).all (fun me => ((tFind me.buf off).getD none).isNone) then s
    else (s.work.ops.map (·.1)).foldl (fun (s : State) k => match s.op k with
      | some q =>
        if k = id then s
        else match q.kind, o.rowIn q va off with
          | .move ps _, some at_ => match q.todo.find? fun i => match ps[i]? with
              | some y => y.dst == .buf at_
              | none => false with
            | some i => match ps[i]? with
              | some y => if (s.readWith q ps i y).any (fun j => (ps[j]?).any (s.readBehind k q)) then s else s.readPiece k q ps i y
              | none => s
            | none => s
          | _, _ => s
      | none => s) s
  | _, _, _ => s

/-- One piece of a move: a view tile's reads together; a write when its turn has come. -/
def State.moveTurn (s : State) (id : Nat) (o : Op) (ps : List Piece) (i : Nat) (p : Piece) : State :=
  match s.pieceTile o p with
  | some t =>
    let is := s.tilePieces o ps t
    is.foldl (fun s j => match ps[j]? with
      | some q => s.shareRow id o q
      | none => s) (s.readTile id o ps t)
  | none => if o.waitsFor ps p then s else (s.performAll id o ps [i]).shareRow id o p

/-- One read-modify-write, after the earlier ones of the operation on the same word (R375, R376); of an acquire, its agent's loads to
come are performed after it (R103). -/
def State.rmwTurn (s : State) (id : Nat) (o : Op) (rs : List Rmw) (i : Nat) (r : Rmw) : State :=
  let earlier := o.todo.any fun j => decide (j < i) && match rs[j]? with
    | some q => q.va / 8 == r.va / 8
    | none => false
  if earlier then s
  else
    let s := match o.tr r.va with
      | none => s
      | some t =>
        if t.poison then s.noteOp id 0x14 r.va
        else match s.meetLine 0 o.ctx r.va t with
          | (s, true) => s.noteOp id 0x14 r.va
          | (s, false) =>
            let old := ofBytes (s.peekN (attrKey t.attr) (t.ppn * 65536 + r.va % 65536) r.len)
            let s := if r.aop = Aop.st then s else s.tierRead o.ctx t.ppn r.len
            let new := (r.aop.apply (8 * r.len) old r.cmp.toNat r.opnd.toNat).1
            let s := if r.aop = Aop.ld then s else s.opWrite id o r.va (toBytes r.len new)
            s.modOp id fun o => { o with got := tPut o.got r.lane ⟨BitVec.ofNat 64 old, o.lab⟩ }
    let s := if o.order % 2 = 1 then s.acquired o (if o.lanes.isEmpty then [] else [r.lane]) else s
    s.didPieces id [i]

/-! ### Deques and pools -/

/-- The entries of a deque (R203). -/
def Deque.size (d : Deque) : Nat := (d.bottom - d.top).toNat

/-- `DqPush` (R204); none raises DQ. The word is written whole, so it bears no error (R67). -/
def Deque.push (d : Deque) (grid : W64) (team : W32) (w : LVal) : Option Deque :=
  if w.val = 0 ∨ d.size = 2 ^ d.log2cap ∨ (d.owner.isSome ∧ d.owner ≠ some (grid, team)) then none
  else some { d with owner := some (grid, team), bottom := d.bottom + 1, ring := tSet d.ring ⟨0, 0⟩ (d.bottom.toNat % 2 ^ d.log2cap) w,
                       ce := setDel d.ce (d.bottom.toNat % 2 ^ d.log2cap), ue := tDel d.ue (d.bottom.toNat % 2 ^ d.log2cap) }

/-- `DqSteal` (R204). -/
def Deque.steal (d : Deque) : Deque × LVal :=
  if d.bottom = d.top then (d, ⟨0, 0⟩)
  else ({ d with top := d.top + 1 }, tGet d.ring ⟨0, 0⟩ (d.top.toNat % 2 ^ d.log2cap))

/-- The identity of an operation's team for a deque (R203). -/
def State.teamId (s : State) (o : Op) : W64 × W32 :=
  match s.team o.team, s.grid o.grid with
  | some t, some g => (g.gridId, BitVec.ofNat 32 t.num)
  | _, _ => (0, 0)

/-- The operation of a scalar deque instruction at the deque unit. A word that it takes is read from the ring; where that finds an
uncorrectable error the deque stays as it was and the team is killed (R65, R67). A pop or steal that gets a word is an acquire
(R111). -/
def State.dqTurn (s : State) (id : Nat) (o : Op) : State :=
  let (grid, team) := s.teamId o
  let put (s : State) (k : Nat) (d : Deque) : State := { s with deques := tPut s.deques k d }
  let take (s : State) (k : Nat) (d : Deque) (i : Nat) (f : State → State) : State :=
    if d.size = 0 then f s
    else match s.ringRead k i with
      | (s, true) => s.opUe o
      | (s, false) => f s
  let got (s : State) (w : LVal) : State :=
    (if w.val = 0 then s else s.acquired o []).modOp id fun o => { o with got := [(0, w)] }
  let s := match o.kind with
    | .dqPush role k w => match tFind s.deques k with
      | some d => match d.push grid team w with
        | some d => put s k d
        | none => s.noteOp id 0x09 role
      | none => s.noteOp id 0x09 role
    | .dqPop role k => match tFind s.deques k with
      | some d => match d.pop grid team with
        | some _ => take s k d (d.popIx) fun s => match tFind s.deques k with
          | some d => match d.pop grid team with
            | some (d, w) => got (put s k d) w
            | none => s
          | none => s
        | none => s.noteOp id 0x09 role
      | none => s.noteOp id 0x09 role
    | .dqSteal k => match tFind s.deques k with
      | some d => take s k d (d.top.toNat % 2 ^ d.log2cap) fun s => match tFind s.deques k with
        | some d =>
          let (d, w) := d.steal
          let s := got (put s k d) w
          if w.val = 0 then s else s.count 0x51 (k / 4096) 1
        | none => s
      | none => s
    | _ => s
  s.didPieces id [0]

/-- The data of freed units is unspecified from then on (R162). -/
def State.scrapUnit (s : State) (slot va n : Nat) : State :=
  match s.ctx slot with
  | none => s
  | some c =>
    let pte := s.leaf c (va / 65536)
    if pte % 2 = 0 then s
    else
      let (bs, s) := s.freeBytes n
      s.pokeN (attrKey (pteAttr pte)) (ptePpn pte * 65536 + va % 65536) bs

/-- Cove examines the units of a `RELQ` as one step (R162). -/
def State.relqTurn (s : State) (id : Nat) (o : Op) (pool first count : Nat) : State :=
  let s := match s.ctx o.ctx with
    | none => s
    | some c => match tFind c.pools pool with
      | none => s
      | some p =>
        let us := rangeFrom first count
        match us.find? fun u => !memb p.used u && !memb p.retired u with
        | some u => s.noteOp id 0x08 (p.base + u * p.usz)
        | none =>
          let s := s.putCtx o.ctx { c with pools := tPut c.pools pool { p with used := p.used.filter fun u => !memb us u } }
          us.foldl (fun s u => s.scrapUnit o.ctx (p.base + u * p.usz) p.usz) s
  s.didPieces id [0]

/-- An engine performs piece `i` of an operation. -/
def State.enginePiece (s : State) (id i : Nat) : State :=
  match s.isRunning, s.op id with
  | true, some o =>
    if !memb o.todo i || s.behind id o then s
    else match o.kind with
      | .move ps _ => match ps[i]? with
        | some p => s.moveTurn id o ps i p
        | none => s
      | .rmws rs => match rs[i]? with
        | some r => s.rmwTurn id o rs i r
        | none => s
      | .relq p f n => s.relqTurn id o p f n
      | _ => s.dqTurn id o
  | _, _ => s

/-! ### Nameless stores (R160) -/

/-- The units of a pool that can take data of a label: free, on a mapped page without POISON, of LBL at least it. R155 refuses a write
to a registered view destination at the commanding instruction, where the unit is not chosen yet: that Cove passes over a unit with
such a byte is the model's choice (log 96). -/
def State.poolFree (s : State) (slot : Nat) (c : Ctx) (p : Pool) (lab : Label) (u : Nat) : Bool :=
  let va := p.base + u * p.usz
  let pte := s.leaf c (va / 65536)
  !memb p.used u && !memb p.retired u && decide (u * p.usz < p.pages * 65536) && pte % 2 == 1 &&
  !memb s.mem.listed (ptePpn pte) && decide (lab.toNat ≤ (attrLbl (pteAttr pte)).toNat) &&
  !(c.liveViews.any fun e => meetRanges e.2.destRanges [(va, p.usz)]) &&
  match s.excHit 0 slot (va / 65536) with
  | some e => e.state != .poison
  | none => true

/-- Some unit of a pool is a candidate. -/
def State.anyFree (s : State) (slot : Nat) (c : Ctx) (p : Pool) (lab : Label) : Bool :=
  (List.range (p.pages * 65536 / max 1 p.usz)).any (s.poolFree slot c p lab)

/-- An `NSTORE` has its name. -/
def State.named (s : State) (id name : Nat) : State :=
  s.modOp id fun o => { o with got := [(0, ⟨BitVec.ofNat 64 name, o.lab⟩)], done := true }

/-- Writes a unit, as accesses of the commanding warp's die (R13, R89): the data, then zeros to its end. An uncorrectable line fails
the write-verify and marks its page (R86). Behind a CXL port that is down R74 has the access complete with POISON status and does not
say what the write leaves: that its bytes are there when the port is up again is the model's choice (log 113). -/
def State.fillUnit (s : State) (o : Op) (va usz : Nat) (bytes : List Byte) : State × Bool :=
  match s.ctx o.ctx with
  | none => (s, false)
  | some c =>
    let pte := s.leaf c (va / 65536)
    let t : Trans := { ppn := ptePpn pte, attr := pteAttr pte, poison := false, old := false, wr := true }
    let s := s.accessBy (some o.die) (some o.core) o.ctx t.ppn
    let s := s.pokeN (attrKey t.attr) (t.ppn * 65536 + va % 65536) (bytes ++ List.replicate (usz - bytes.length) 0)
    s.meetLines 4 o.ctx va usz t

/-- R160. Cove chooses a unit for an `NSTORE` and writes it; which unit is its own choice, and `unit` names it. With no
candidate, or after a second write-verify error, the name is 0, which NSFULL counts; with no candidate under WFULL the operation
waits (R222). -/
def execNstorePlace (op unit : Nat) (s : State) : Res :=
  match s.isRunning, s.op op with
  | true, some o => match o.kind with
    | .nstore pool bytes tries =>
      if o.done then .next s
      else match s.ctx o.ctx with
        | none => .next s
        | some c => match tFind c.pools pool with
          | none => .next s
          | some p =>
            if s.anyFree o.ctx c p o.lab then
              if s.poolFree o.ctx c p o.lab unit then
                let va := p.base + unit * p.usz
                match s.fillUnit o va p.usz bytes with
                | (s, false) => .next ((s.modCtx o.ctx fun c => { c with
                    pools := tMod c.pools pool fun p => { p with used := setAdd p.used unit },
                    poolLast := tPut c.poolLast pool unit }).named op va)
                | (s, true) =>
                  let s := s.modCtx o.ctx fun c => { c with pools := tMod c.pools pool fun p => { p with retired := setAdd p.retired unit } }
                  if tries = 0 then .next (s.modOp op fun o => { o with kind := .nstore pool bytes 1 })
                  else .next ((s.count 0x36 (16 * o.ctx + pool) 1).named op 0)
              else .next s
            else if p.wfull then .next s
            else .next ((s.count 0x36 (16 * o.ctx + pool) 1).named op 0)
    | _ => .next s
  | _, _ => .next s

/-! ### Collectives (R329) -/

/-- Elements of a byte string. -/
def elems (e : Nat) (bs : List Byte) : List Nat := (chunks e bs.length bs).map ofBytes

/-- One reduction of two elements (R329). -/
def reduce2 (d : CollDesc) (a b : Nat) : Nat :=
  let w := 8 * collSize d.dtype
  match nty d.dtype.toNat with
  | .flt f =>
    if d.red = 0 then (fAdd f .rne a b).1
    else
      let x := f.value a
      let y := f.value b
      if x.isNan ∨ y.isNan then f.nan.getD 0 else (fPick f (d.red == 2) a b).1
  | .int _ sg =>
    if d.red = 0 then (a + b) % 2 ^ w
    else
      let v (x : Nat) : Int := if sg then sextI x w else (x : Int)
      if d.red = 1 then (if v b < v a then b else a) else (if v a < v b then b else a)

/-- A reduction in an order that is not stated: any two of what is left are combined next (R276). -/
def reduceAny (d : CollDesc) (s : State) : Nat → List Nat → State × Nat
  | 0, l => (s, (l[0]?).getD 0)
  | f + 1, l =>
    match l with
    | [] => (s, 0)
    | [x] => (s, x)
    | l =>
      let (i, s) := s.freeNat
      let i := i % l.length
      let a := (l[i]?).getD 0
      let l := l.take i ++ l.drop (i + 1)
      let (j, s) := s.freeNat
      let j := j % l.length
      reduceAny d s f (reduce2 d a ((l[j]?).getD 0) :: (l.take j ++ l.drop (j + 1)))

/-- The reduced elements of columns. -/
def reduceCols (d : CollDesc) (s : State) : List (List Nat) → State × List Nat
  | [] => (s, [])
  | c :: r =>
    let (s, x) := reduceAny d s c.length c
    let (s, xs) := reduceCols d s r
    (s, x :: xs)

/-- What a finished collective writes to DST from every rank's source bytes (R329). -/
def collResult (d : CollDesc) (s : State) (src : Nat → List Byte) : State × List Byte :=
  let e := collSize d.dtype
  match d.op with
  | 3 => (s, (List.range d.ndev).flatMap src)
  | 4 => (s, src d.root)
  | _ =>
    let n := if d.op = 2 then d.count / d.ndev else d.count
    let lo := if d.op = 2 then d.rank * n else 0
    let cols := (List.range n).map fun i => (List.range d.ndev).map fun q => ((elems e (src q))[lo + i]?).getD 0
    let (s, xs) := reduceCols d s cols
    (s, xs.flatMap (toBytes e))

/-- Every peer has sent, or a mismatch or an abort ends the collective. -/
def collReady (d : CollDesc) (got : Table (List Byte)) (bad aborted : Bool) : Bool :=
  bad || aborted || d.peers.all fun q => (tFind got q).isSome

/-- The status of a collective (R329). -/
def collStatus (bad aborted : Bool) : Nat := if aborted then 3 else if bad then 5 else 0

/-- The end of a collective: DST, whose contents are unspecified after a mismatch or an abort, then the record. -/
def State.collFinish (s : State) (id : Nat) (o : Op) (d : CollDesc) (got : Table (List Byte)) (bad aborted : Bool) : State :=
  let s := if bad ∨ aborted then
      let (bs, s) := s.freeBytes d.dstLen
      s.opWriteAll id o d.dst bs
    else match s.opReadAll id o d.src d.srcLen with
      | (s, none) => s
      | (s, some mine) =>
        let (s, bs) := collResult d s fun q => if q = d.rank then mine else (tFind got q).getD []
        s.opWriteAll id o d.dst bs
  if d.reca = 0 then s else s.opWriteAll id o d.reca (toBytes 8 (collStatus bad aborted) ++ toBytes 8 d.ident.toNat)

/-! ### Sealed images -/

/-- Splits a list at a length. -/
def cut {α : Type} (n : Nat) (l : List α) : List α × List α := (l.take n, l.drop n)

/-- Writes the items of a restored register image: values and labels outright (R338). -/
def Warp.restoreImage (x : Warp) (base count : Nat) (scal : Bool) (body : List Byte) : Warp :=
  let (vs, r) := cut (4 * x.width * count) body
  let (ss, r) := cut (504 * b2n scal) r
  let (ks, r) := cut (128 * b2n scal) r
  let (ps, ls) := cut (64 * b2n scal) r
  let lab (i : Nat) : Label := ((ls[i]?).getD 0).setWidth 3
  let word (l : List Byte) (n i : Nat) : Nat := ofBytes ((l.drop (n * i)).take n)
  let x := (List.range count).foldl (fun (x : Warp) r =>
    ((List.range x.width).foldl (fun (x : Warp) l => x.writeV (base + r) l (BitVec.ofNat 32 (word vs 4 (r * x.width + l)))) x).setLabV (base + r) (lab r)) x
  if scal then
    let x := (List.range 63).foldl (fun (x : Warp) i => x.writeS (i + 1) ⟨BitVec.ofNat 64 (word ss 8 i), lab (count + i)⟩) x
    let x := (List.range 16).foldl (fun (x : Warp) i => x.writeK i ⟨BitVec.ofNat 64 (word ks 8 i), lab (count + 63 + i)⟩) x
    (rangeFrom 1 7).foldl (fun (x : Warp) i => (x.setPred i (BitVec.ofNat 64 (word ps 8 i))).setLabP i (lab (count + 79 + i))) x
  else x

/-- A restore has failed a check (R243). -/
def State.failRestore (s : State) (id n : Nat) : State := s.modOp id fun o => { o with trap := some (0x17, BitVec.ofNat 64 n) }

/-- `restv` when its image has been read (R338, R243). -/
def State.restvFinish (s : State) (id : Nat) (o : Op) (va base count : Nat) (scal : Bool) : State :=
  match s.warp o.warp with
  | none => s
  | some x => match s.home x with
    | none => s
    | some (t, _, c) => match s.opReadAll id o va (imageLenV x.width count scal) with
      | (s, none) => s
      | (s, some bs) =>
        let key := s.saveKey c
        let n := sealCheck bs 1 o.ctx c t.num x.num x.width key fun b n sc => b == base && n == count && sc == scal
        if n ≠ 0 then s.failRestore id n
        else s.putWarp o.warp (x.restoreImage base count scal (sealOpen bs key))

/-- `restt` when its image has been read (R338, R243): bytes and labels outright. -/
def State.resttFinish (s : State) (id : Nat) (o : Op) (va off len : Nat) : State :=
  match s.team o.team, s.ctx o.ctx with
  | some t, some c => match s.opReadAll id o va (imageLenT len) with
    | (s, none) => s
    | (s, some bs) =>
      let key := s.saveKey c
      let n := sealCheck bs 2 o.ctx c t.num 0 0 key fun b n _ => b == off && n == len
      if n ≠ 0 then s.failRestore id n
      else
        let (data, ls) := cut len (sealOpen bs key)
        let sp : Space := .team o.team
        let s := s.chipStore sp off data 0
        s.putSram sp ((List.range (len / 64)).foldl (fun (m : Sram) i =>
          m.label (s.spaceLab sp) (((ls[i]?).getD 0).setWidth 3) true [off / 64 + i]) (s.sram sp))
  | _, _ => s

/-- `savet` reads team memory and writes its image (R337). -/
def State.savetFinish (s : State) (id : Nat) (o : Op) (va : Nat) (head : List Byte) (off len : Nat) (seq : BitVec 48) : State :=
  match s.ctx o.ctx with
  | none => s
  | some c =>
    let sp : Space := .team o.team
    match s.scanRead sp off len with
    | (s, some _) => s.opUe o
    | (s, none) =>
      let ctr := BitVec.ofNat 64 (ofBytes ((head.drop 8).take 8))
      let ls := (List.range (len / 64)).map fun i => s.chipLab sp (off + 64 * i) 64
      s.opWriteAll id o va (sealImage (s.saveKey c) o.ctx ctr seq head (s.chipBytes sp off len) ls)

/-! ### Finishing and retiring -/

/-- A tile is fresh for a version, poisoned, or no longer there (R150, R156). For VWAIT and a refresh, whose rule R157 names no
deregistered view, that the wait then ends is the model's choice (log 82). -/
def State.freshFor (s : State) (t : TileVer) : Bool :=
  match s.ctx t.ctx with
  | some c => match tFind c.views t.view with
    | some v => match tFind v.tiles t.tile with
      | some x => x.poisoned || decide (0 ≤ (x.ft - t.ver).toInt)
      | none => true
    | none => true
  | none => true

/-- The condition under which an operation is done (R105, R156). -/
def State.opReady (s : State) (id : Nat) (o : Op) : Bool :=
  o.todo.isEmpty && (o.done || !s.behind id o) && match o.kind with
  | .nstore _ _ _ => o.done
  | .coll d got bad ab => collReady d got bad ab
  | .vfence ops ts => ops.all (fun k => (s.op k).isNone) && ts.all s.freshFor
  | .place ps _ _ _ _ _ => ps.isEmpty
  | _ => true

/-- The status word of a copy (R325), not written after POISON. -/
def State.statusWord (s : State) (o : Op) (off : Nat) : State :=
  if (match o.trap with
    | some t => t.1 == 0x14
    | none => false) then s
  else s.chipStore (.team o.team) off (toBytes 8 (1 + 2 * min 1 o.staleN + 2 ^ 32 * min o.staleN 65535)) o.lab

/-- The record of `PLACE.req` (R97). -/
def placeRecord (nDone nSkip nAbort : Nat) : Nat :=
  (if nAbort ≠ 0 then 2 else if nSkip ≠ 0 then 1 else 0) * 2 ^ 62 + nAbort * 2 ^ 32 + nSkip * 65536 + nDone

/-- What an operation does once its pieces are performed; it is then done. -/
def State.finishOp (s : State) (id : Nat) : State :=
  match s.op id with
  | none => s
  | some o =>
    let s := match o.kind with
      | .move _ (some off) => s.statusWord o off
      | .coll d got bad ab => s.collFinish id o d got bad ab
      | .place _ _ st d k ab => s.opWriteAll id o st (toBytes 8 (placeRecord d k ab))
      | .savev va img => s.opWriteAll id o va img
      | .savet va head off len seq => s.savetFinish id o va head off len seq
      | .restv va base count scal => if o.trap.isSome then s else s.restvFinish id o va base count scal
      | .restt va off len => if o.trap.isSome then s else s.resttFinish id o va off len
      | _ => s
    s.modOp id fun o => { o with done := true }

/-- A master write retires (R149): the versions of its tiles rise, and the fences and the packet that wait for it learn
them (R156, R157). -/
def State.bumpTiles (s : State) (id : Nat) (o : Op) : State :=
  let (s, ts) := (s.wroteTiles o).foldl (fun (a : State × List TileVer) t =>
    let (s, v) := a.1.bumpTile t.ctx t.view t.tile
    (s, a.2 ++ [{ t with ver := v }])) (s, [])
  let s := s.modWarp o.warp fun x => { x with mwOps := setDel x.mwOps id, mwTiles := x.mwTiles ++ ts }
  let s := { s with work := { s.work with ops := tMap s.work.ops fun _ p => match p.kind with
    | .vfence os vs => if p.warp = o.warp ∧ memb os id then { p with kind := .vfence os (vs ++ ts) } else p
    | _ => p } }
  s.packetTiles ((o.slot.map (·.1)).or (s.gridPacket o.grid)) ts

/-- Fills the latch that awaits an operation's return (R376). -/
def Latch.fill (l : Latch) (id : Nat) (vals : Table LVal) : Latch :=
  if l.await = some id then { l with await := Option.none, vals := vals.foldl (fun t e => tSet t 0 e.1 e.2.val) l.vals } else l

/-- Fills the latches of an entry. -/
def Entry.fill (e : Entry) (id : Nat) (vals : Table LVal) : Entry :=
  { e with b0 := e.b0.fill id vals, b1 := e.b1.fill id vals, b2 := e.b2.fill id vals, b3 := e.b3.fill id vals }

/-- Fills latches everywhere in the warp, in its frame as well. -/
def Warp.fill (x : Warp) (id : Nat) (vals : Table LVal) : Warp :=
  { x with entries := tMap x.entries fun _ e => e.fill id vals,
           frame := x.frame.map fun f => { f with entries := tMap f.entries fun _ e => e.fill id vals } }

/-- The words of a `REFILL` reach the register of their lanes, if there is one (R381). Where its zeros and its words together write every
lane of the warp R50 does not say whether the register takes the result label outright: that the zeros and the words are two writes, each
joining the old label where it alone is not of every lane, is the model's choice (log 109). -/
def Warp.refillWords (x : Warp) (ret : Ret) (ws : List (Nat × LVal)) : Warp :=
  match ret with
  | .v d _ _ => x.putV d true (Label.joinAll (ws.map (fun (p : Nat × LVal) => p.2.lab)))
      (fun l => ((tFind ws l).getD ⟨0, 0⟩).val.toNat) (ws.map (fun (p : Nat × LVal) => p.1))
  | _ => x

/-- The words of a `REFILL` reach their lanes, which join the entry (R381): a group switch (R38). -/
def Warp.refill (x : Warp) (e : Nat) (ret : Ret) (ws : List (Nat × LVal)) : Warp :=
  let lanes := ws.map (fun (p : Nat × LVal) => p.1)
  if ws.isEmpty then x
  else ((x.refillWords ret ws).noEarly lanes).modEntry e fun y => { y.switch with mask := y.mask ||| maskOf lanes }

/-- The lane registers that wait for an operation's return, 64 × register + lane: for a `REFILL` those of its recipients, for
`RESTV` the registers that it writes, otherwise the destination in every lane of the warp (R31, R376, R381, log 41). -/
def Op.marks (width : Nat) (o : Op) : List Nat :=
  match o.kind, o.ret with
  | .refill _ ws, .v d _ _ => ws.flatMap fun p => [64 * d + p.1, 64 * (d + 1) + p.1]
  | .restv _ base count _, _ => (rangeFrom base count).flatMap fun r => (List.range width).map (64 * r + ·)
  | _, .v d wide _ => (List.range width).map (64 * d + ·) ++ if wide then (List.range width).map (64 * (d + 1) + ·) else []
  | _, _ => []

/-- The lane registers that wait for some other operation of the warp than this one. -/
def State.marked (s : State) (w id width : Nat) : List Nat :=
  s.work.ops.flatMap fun e => if e.1 ≠ id ∧ e.2.warp = w then e.2.marks width else []

/-- Clears the pending marks of an operation, but for those that other operations hold. -/
def Warp.unpendV (x : Warp) (o : Op) (others : List Nat) : Warp :=
  { x with vPend := x.vPend.filter fun (k : Nat) => !memb (o.marks x.width) k || memb others k }

/-- The return of an operation at its retirement point (R31, R376). -/
def Warp.takeReturn (x : Warp) (id : Nat) (o : Op) (others : List Nat) : Warp :=
  let x := x.unpendV o others
  let x := match o.kind, o.ret with
    | .refill e ws, r => x.refill e r ws
    | .restv _ _ _ scal, _ => if scal then { x with sPend := [], kPend := [] } else x
    | _, .v d wide _ =>
      let lanes := o.got.map (fun (p : Nat × LVal) => p.1)
      x.putV d wide o.lab (fun l => (tGet o.got ⟨0, 0⟩ l).val.toNat) lanes
    | _, .s d =>
      let x := { x with sPend := setDel x.sPend d }
      match tFind o.got 0 with
      | some v => x.writeS d v
      | none => x
    | _, _ => x
  x.fill id o.got

/-- An operation at the head of its class retires (R216): the versions it raises, its return, its name, its trap; then
the counter goes down. -/
def State.retireOp (s : State) (id : Nat) : State :=
  match s.op id with
  | none => s
  | some o =>
    let s := s.bumpTiles id o
    let s := s.modWarp o.warp fun x =>
      let x := x.takeReturn id o (s.marked o.warp id x.width)
      let x := { x with
        pend := tPut x.pend o.cls ((x.pendOf o.cls).filter (· != id)),
        names := x.names.map fun n => if n.op = id then { n with name := tFind o.got 0 } else n }
      match o.trap with
      | some (c, v) => { x with due := x.due ++ [{ rank := 4, code := c, val := v, lanes := 0, entry := none, pcL := 0 }] }
      | none => x
    let s := match o.kind, s.warp o.warp with
      | .refill e ws, some x => if !ws.isEmpty ∧ (tFind x.entries e).isSome then s.countSwitch x 1 else s
      | _, _ => s
    { s with work := { s.work with ops := tDel s.work.ops id } }

/-- Retires the heads of a class that are done. -/
def State.retireHeads (s : State) (w cls : Nat) : Nat → State
  | 0 => s
  | f + 1 => match s.warp w with
    | none => s
    | some x => match x.pendOf cls with
      | [] => s
      | h :: _ => match s.op h with
        | some o => if o.done then (s.retireOp h).retireHeads w cls f else s
        | none => s

/-- R216. An operation of a warp finishes its work and the finished heads of its class retire in issue order. A bundle's
COLL slot ends here too (R329, R187). -/
def execCounterRetire (op : Nat) (s : State) : Res :=
  match s.isRunning, s.op op with
  | true, some o =>
    if s.opReady op o = false then .next s
    else
      let s := if o.done then s else s.finishOp op
      match o.slot, o.kind with
      | none, _ => .next (s.retireHeads o.warp o.cls 256)
      | some (p, i), .coll _ _ bad ab =>
        let cause : BitVec 8 := match s.op op with
          | some o => match o.trap with
            | some t => t.1
            | none => 0
          | none => 0
        let s := (s.bumpTiles op ((s.op op).getD o))
        let s := { s with work := { s.work with ops := tDel s.work.ops op } }
        .next (s.endSub p i (if cause ≠ 0 then 2 else collStatus bad ab) cause 0)
      | _, _ => .next s
  | _, _ => .next s

end Sys2Proof.Machine
end

