-- ==== Sys2Proof/Machine/Place.lean ====
section
/-!
DEFINITION. The distributor (R197 to R200): room on cores and dies (R17, R64, R65), the start of teams, gangs and bundles
(R15, R18 to R20, R29, R55, R59, R175, R186), relaunches (R68, R209), hold causes and their counters (R198, R223), held
starts (R189), and the page requests of a launch (R140, R141).
-/
namespace Sys2Proof.Machine

/-! ### Room -/

/-- What a core has in use (R17): teams, sequencers, warps and register bytes per quadrant, team memory, spill bytes, the
contexts and team slots of its teams. -/
structure CoreUse where
  teams : Nat
  seqs  : Nat
  quads : List Nat
  split : List Nat
  regs  : List Nat
  mem   : Nat
  spill : Nat
  ctxs  : List Nat
  slots : List Nat
  deriving DecidableEq, Repr, Inhabited

/-- The team-memory footprint on the even or odd core: the barrier area lies on the even one (R56, R57). -/
def Kernel.memOn (k : Kernel) (odd : Bool) : Nat := if k.pair then k.teammem / 2 + (if odd then 0 else 128) else k.teammem + 128

/-- No function's teams are left out. -/
def allTeams (_ : Nat) : Bool := false

/-- What teams of a core use; teams of functions that `skip` names are left out. -/
def State.coreUse (s : State) (skip : Nat → Bool) (core : Nat) : CoreUse :=
  let here := s.work.teams.filterMap fun e => match s.grid e.2.grid with
    | none => none
    | some g =>
      let out : Bool := match s.ctx g.ctx with
        | some c => skip c.fn
        | none => false
      if out then none
      else if e.2.core = core then some (e.1, e.2, g, false)
      else if g.kernel.pair ∧ e.2.core + 1 = core then some (e.1, e.2, g, true) else none
  let ws := (s.work.warps.filter fun e => e.2.core == core && here.any fun h => h.1 == e.2.team).map (·.2)
  let per (f : Warp → Nat) : List Nat := (List.range 4).map fun q => (ws.filter fun w => w.quad == q).foldl (fun n w => n + f w) 0
  { teams := here.length
    seqs := (here.filter fun h => h.2.1.seqr.isSome).length
    quads := per fun _ => 1
    split := per fun w => max 2 w.usedEntries.length
    regs := per fun w => w.c * 4 * w.width
    mem := here.foldl (fun n h => n + h.2.2.1.kernel.memOn h.2.2.2) 0
    spill := ws.foldl (fun n w => n + (here.find? fun h => h.1 == w.team).elim 0 fun h => h.2.2.1.kernel.spill * w.width) 0
    ctxs := (here.map fun h => h.2.2.1.ctx).eraseDups
    slots := here.map fun h => h.2.1.slot }

/-- Assigns n warps to quadrants: each to the one with the fewest warps, the lowest of equals (R18). -/
def assignQuads : Nat → List Nat → List Nat
  | 0, _ => []
  | n + 1, qs =>
    let q := (argMin (fun i => (qs[i]?).getD 0) (List.range 4)).getD 0
    q :: assignQuads n (setAt qs q ((qs[q]?).getD 0 + 1))

/-- A team's part is added to a core, if it fits (R17): the new use and the quadrants of its warps. -/
def CoreUse.add (u : CoreUse) (k : Kernel) (ctx : Nat) (odd : Bool) (slot : Nat) : Option (CoreUse × List Nat) :=
  let qs := assignQuads (k.warpsOn odd) u.quads
  let num (q : Nat) : Nat := (qs.filter (· == q)).length
  let v : CoreUse := {
    teams := u.teams + 1, seqs := u.seqs + b2n (k.mlen != 0)
    quads := (List.range 4).map fun q => (u.quads[q]?).getD 0 + num q
    split := (List.range 4).map fun q => (u.split[q]?).getD 0 + 2 * num q
    regs := (List.range 4).map fun q => (u.regs[q]?).getD 0 + num q * k.regBytes
    mem := u.mem + k.memOn odd, spill := u.spill + qs.length * k.spill * k.width
    ctxs := (u.ctxs ++ [ctx]).eraseDups, slots := u.slots ++ [slot] }
  if v.teams ≤ 4 ∧ v.seqs ≤ 2 ∧ v.quads.all (fun n => decide (n ≤ 16)) ∧ v.split.all (fun n => decide (n ≤ 64)) ∧
      v.regs.all (fun n => decide (n ≤ 196608)) ∧
      v.mem ≤ 524288 ∧ v.spill ≤ 131072 then some (v, qs) else none

/-- Where a team of a gang goes: core, team slot, quadrants of its warps on the even or only core and on the odd core. -/
structure Spot where
  core : Nat
  slot : Nat
  even : List Nat
  odd  : List Nat
  deriving DecidableEq, Repr, Inhabited

/-- Tries a team at core `i` of a die. -/
def tryCore (k : Kernel) (ctx : Nat) (us : List CoreUse) (i : Nat) : Option (List CoreUse × Spot) :=
  match us[i]? with
  | none => none
  | some u =>
    let slot := (findNat (fun n => !memb u.slots n) 4 0).getD 0
    match u.add k ctx false slot with
    | none => none
    | some (v, qs) =>
      if k.pair then
        match us[i + 1]? with
        | none => none
        | some o => match o.add k ctx true slot with
          | none => none
          | some (w, ro) => if i % 2 = 0 then some (setAt (setAt us i v) (i + 1) w, { core := i, slot := slot, even := qs, odd := ro }) else none
      else some (setAt us i v, { core := i, slot := slot, even := qs, odd := [] })

/-- A core, or a pair of cores, is empty, or holds no other context's team and some of this one (R199). -/
def coreSuits (k : Kernel) (ctx : Nat) (us : List CoreUse) (empty : Bool) (i : Nat) : Bool :=
  let u := (us[i]?).getD default
  let o := if k.pair then (us[i + 1]?).getD default else u
  if empty then decide (u.teams = 0 ∧ o.teams = 0)
  else (memb u.ctxs ctx || memb o.ctxs ctx) && u.ctxs.all (· == ctx) && o.ctxs.all (· == ctx)

/-- Places one team on a die (R199): a core that holds teams of the context, else an empty one, the lowest of each. -/
def placeTeam (k : Kernel) (ctx : Nat) (us : List CoreUse) : Option (List CoreUse × Spot) :=
  let go (empty : Bool) : Option (List CoreUse × Spot) :=
    (List.range us.length).findSome? fun i => if coreSuits k ctx us empty i then tryCore k ctx us i else none
  (go false).or (go true)

/-- Places n teams on a die. -/
def placeTeams (k : Kernel) (ctx : Nat) : Nat → List CoreUse → Option (List Spot)
  | 0, _ => some []
  | n + 1, us => match placeTeam k ctx us with
    | none => none
    | some (us, p) => (placeTeams k ctx n us).map (p :: ·)

/-- The use of a die's cores. -/
def State.dieUse (s : State) (skip : Nat → Bool) (die : Nat) : List CoreUse := (List.range 48).map fun i => s.coreUse skip (48 * die + i)

/-- The scratchpad units of 64 KiB in use on a die: grids' copies and deque areas (R64, R65). -/
def State.scratchUsed (s : State) (die : Nat) : Nat :=
  (s.work.grids.filter fun e => (tFind e.2.scratch die).isSome).foldl (fun n e => n + e.2.scrUnits) 0 +
  s.ctxs.foldl (fun n e => n + (tFind e.2.dqArea die).getD 0) 0

/-- A die can take, or already holds, a grid's scratchpad allocation (R64). -/
def State.scratchFits (s : State) (g : Grid) (die : Nat) : Bool :=
  (tFind g.scratch die).isSome || decide (s.scratchUsed die + g.scrUnits ≤ 1024)

/-- The teams resident on a die. -/
def State.dieTeams (s : State) (die : Nat) : Nat := (s.work.teams.filter fun e => dieOf e.2.core == die).length

/-- The dies in the order in which R199 prefers them. -/
def State.dieOrder (s : State) : List Nat := sortBy s.dieTeams (List.range 4)

/-- A die and places for n teams of a grid (R199). -/
def State.findRoom (s : State) (g : Grid) (skip : Nat → Bool) (scr : Bool) (n : Nat) : Option (Nat × List Spot) :=
  s.dieOrder.findSome? fun d =>
    if scr ∧ s.scratchFits g d = false then none
    else (placeTeams g.kernel g.ctx n (s.dieUse skip d)).map fun ps => (d, ps)

/-! ### Starting teams -/

/-- A warp at its start (R29, R55, R215). -/
def Warp.start (team num core quad slot width regs : Nat) (lab : Label) : Warp :=
  { team := team, num := num, core := core, quad := quad, slot := slot, width := width, regs := regs, lab0 := lab, pc := 0,
    s := [], sPend := [], k := [], kPend := [], v := [], vLab := [], vPend := [], p := [], pLab := [], spill := Sram.zero,
    entries := [], rcv := [], rr := 0, queue := [], running := false, names := [], pend := [], fstat := 0, cause := 0,
    tval := 0, pcS := 0, pcL := 0, flmask := 0, handler := false, frame := none, due := [], wait := .none, sAge := 0,
    sRaised := false, lWait := false, lAge := 0, lRaised := false, debug := false, passed := [], mwOps := [], mwTiles := [],
    sigWaits := 0, lateNext := false, late := [], lateLd := [], early := none }

/-- A sequencer at its start (R29). -/
def Seqr.start : Seqr := { pc := 0, m := [], sc := 0, alatch := none, run := .running, waits := false }

/-- The lowest free warp slot of a quadrant. -/
def State.freeSlot (s : State) (core quad : Nat) : Nat :=
  let used := (s.work.warps.filter fun e => e.2.core == core && e.2.quad == quad).map (·.2.slot)
  (findNat (fun n => !memb used n) 16 0).getD 0

/-- Starts the warps of a team: warp number and, in order, core and quadrant. -/
def State.startWarps (s : State) (team : Nat) (k : Kernel) (lab : Label) : List (Nat × Nat × Nat) → State
  | [] => s
  | (num, core, quad) :: r =>
    let (id, s) := s.fresh
    let w := Warp.start team num core quad (s.freeSlot core quad) k.width k.regs lab
    ((s.putWarp id w).modTeam team fun t => { t with warps := t.warps ++ [id] }).startWarps team k lab r

/-- Cores and quadrants of a team's warps in ascending warp number (R18, R19). -/
def Spot.warps (p : Spot) (k : Kernel) (base : Nat) : List (Nat × Nat × Nat) :=
  (List.range k.warps).map fun i =>
    if k.pair ∧ i % 2 = 1 then (i, base + p.core + 1, (p.odd[i / 2]?).getD 0)
    else (i, base + p.core, (p.even[if k.pair then i / 2 else i]?).getD 0)

/-- The cores of a team (R19). -/
def Spot.cores (p : Spot) (k : Kernel) (die : Nat) : List Nat :=
  (48 * die + p.core) :: if k.pair then [48 * die + p.core + 1] else []

/-- Starts a team of a grid in a gang at a place of a die (R29, R59). Answers its key. -/
def State.startTeam (s : State) (gk gang num die : Nat) (p : Spot) : Nat × State :=
  match s.grid gk with
  | none => (0, s)
  | some g =>
    let lab := match s.ctx g.ctx with
      | some c => c.label
      | none => 0
    let (id, s) := s.fresh
    let s := s.putTeam id {
      grid := gk, num := num, gang := gang, core := 48 * die + p.core, slot := p.slot, warps := [], lab0 := lab, mem := Sram.zero,
      bars := [], barErr := Sram.zero, tiles := [], tileLab := [], tokens := [],
      seqr := if g.kernel.mlen ≠ 0 then some Seqr.start else none, mfstat := 0, noticed := false }
    let s := s.startWarps id g.kernel lab (p.warps g.kernel (48 * die))
    let s := s.modGang gang fun x => { x with teams := x.teams ++ [id] }
    let scratch (g : Grid) : Table Sram :=
      if g.scrUnits = 0 ∨ (tFind g.scratch die).isSome then g.scratch else tPut g.scratch die Sram.zero
    (id, s.modGrid gk fun g => { g with live := g.live + 1, scratch := scratch g })

/-- The route of a PEER_DEVICE target (R175). -/
def State.routeOf (s : State) (target : Nat) : Option Nat :=
  (s.routes.find? fun r => r.2.node == target % 65536 && r.2.tag == target / 65536 % 65536).map (·.1)

/-- Resolves a role for a gang (R175): PTARGET, or none where RVALID stays 0. -/
def State.resolveRole (s : State) (c : Ctx) (teams : List Nat) (w : Nat) : Option Nat :=
  let t := w % 2 ^ 56
  if bitAt w 63 = false then none
  else match fld w 58 56 with
    | 1 => match teams[t]? with
      | some k => match s.team k with
        | some x => some (x.slot * 64 + x.core % 48)
        | none => none
      | none => none
    | 2 => s.routeOf t
    | 3 => some t
    | 4 => c.dqs[t]?
    | 5 => if (tFind c.liveViews t).isSome then some t else none
    | 6 => if (tFind c.pools t).isSome then some t else none
    | _ => none

/-- Word 1 of every role of a gang (R174). -/
def State.bindGang (s : State) (gang : Nat) : State :=
  match s.gang gang with
  | none => s
  | some x => match s.grid x.grid with
    | none => s
    | some g => match s.ctx g.ctx with
      | none => s
      | some c =>
        let pt := (List.range g.roles.length).filterMap fun r =>
          (s.resolveRole c x.teams (g.role r)).map fun p => (r, BitVec.ofNat 14 p)
        s.modGang gang fun y => { y with ptgt := pt }

/-- Forms a gang of a grid with these team numbers at places of a die (R199, R206); nothing has been delivered yet, so its copies
carry label 0 (R332). -/
def State.formGang (s : State) (gk num die : Nat) (nums : List Nat) (ps : List Spot) : State :=
  match s.grid gk with
  | none => s
  | some g =>
    let (id, s) := s.fresh
    let all : LVal := ⟨BitVec.allOnes 64, 0⟩
    let s := s.putGang id { grid := gk, num := num, die := die, teams := [], bound := all,
                            copies := ps.foldl (fun t p => (p.cores g.kernel die).foldl (fun t c => tPut t c all) t) [],
                            flying := [], ptgt := [] }
    let s := (nums.zip ps).foldl (fun (s : State) x => (s.startTeam gk id x.1 die x.2).2) s
    s.bindGang id

/-! ### Hold causes -/

/-- The number of a hold cause (R198, R222). -/
def HoldCause.code : HoldCause → Nat
  | .residency => 0
  | .slice => 1
  | .scratch => 2
  | .gang => 3
  | .room => 4
  | .freq => 5

/-- The function of a grid's context. -/
def State.gridFn (s : State) (g : Grid) : Nat := match s.ctx g.ctx with
  | some c => c.fn
  | none => 0

/-- Adds the time under the present cause to HOLDT (R223). -/
def State.flushHold (s : State) (gk : Nat) : State :=
  match s.grid gk with
  | none => s
  | some g => match g.cause with
    | some h => s.count (0x48 + h.code) (s.gridFn g) (g.causeNs / 1000)
    | none => s

/-- Records a hold cause; an entry into it is counted (R198, R223). -/
def State.hold (s : State) (gk : Nat) (h : HoldCause) (die : Option Nat) : State :=
  match s.grid gk with
  | none => s
  | some g =>
    if g.cause = some h then s.modGrid gk fun g => { g with fcDie := die }
    else
      let s := (s.flushHold gk).count (0x40 + h.code) (s.gridFn g) 1
      s.modGrid gk fun g => { g with cause := some h, causeNs := 0, fcDie := die }

/-- A hold ends (R200, R223). -/
def State.release (s : State) (gk : Nat) : State :=
  (s.flushHold gk).modGrid gk fun g => { g with
    cause := none, causeNs := 0, bfNs := 0, blocks := false, fcNs := 0, fcDie := none }

/-- The clock of a frequency class in MHz (R189). -/
def classMhz (fc : Nat) : Nat :=
  match fc with
  | 0 => 900
  | 1 => 1100
  | 2 => 1250
  | _ => 1150

/-- The operating point of a die; 1,100 MHz until it is set (log 10). -/
def State.point (s : State) (die : Nat) : Power := tGet s.power { mhz := 1100, cap := none, ns := 0 } die

/-- The teams of the next gang of a grid and their places: a preferred gang, else a fallback gang (R20, R199). -/
def State.nextGang (s : State) (g : Grid) (skip : Nat → Bool) (scr : Bool) : Option (Nat × List Spot) :=
  let left := g.teams - g.nextTeam
  let pref := if g.kernel.gpref ≤ left then s.findRoom g skip scr g.kernel.gpref else none
  pref.or (s.findRoom g skip scr (min g.kernel.gfall left))

/-- Why a gang of a grid cannot be placed, by the room that `next` finds with the teams of some functions left out and with or
without the scratchpad (R198). -/
def State.causeOf (s : State) (g : Grid) (next : (Nat → Bool) → Bool → Option (Nat × List Spot)) : HoldCause :=
  let holder := s.mgmt.holder
  if !g.ready then .residency
  else if s.gridFn g ≠ holder ∧ (next allTeams false).isNone ∧ (next (· == holder) false).isSome then .slice
  else if (next allTeams false).isSome then .scratch
  else if (s.findRoom g allTeams false 1).isSome then .gang
  else .room

/-- Why the next gang of a ready grid cannot be placed (R198). -/
def State.holdCause (s : State) (g : Grid) : HoldCause := s.causeOf g (s.nextGang g)

/-- Places the next gang of a grid, or answers why not (R199, R189). -/
def State.placeNext (s : State) (gk : Nat) : State × Option (HoldCause × Option Nat) :=
  match s.grid gk with
  | none => (s, some (.room, none))
  | some g =>
    if !g.ready then (s, some (.residency, none))
    else match s.nextGang g allTeams true with
      | none => (s, some (s.holdCause g, none))
      | some (d, ps) =>
        if g.holdBit ∧ !g.started ∧ (s.point d).mhz < classMhz g.fc then (s, some (.freq, some d))
        else
          let s := s.release gk
          let s := s.modGrid gk fun g => { g with started := true, nextTeam := g.nextTeam + ps.length, nGangs := g.nGangs + 1 }
          (s.formGang gk g.nGangs d (rangeFrom g.nextTeam ps.length) ps, none)

/-! ### Residency of host pages (R139 to R141) -/

/-- A field of PFCTL of a function (R141). -/
def State.pfctl (s : State) (fn hi lo : Nat) : Nat := fld (tGet s.mgmt.pfctl 0x0000000000800901 fn).toNat hi lo

/-- The pages that a request for a page covers: the absent pages of the aligned span, clipped to the range (R141). A PFCTL write that
lowers BLOCK or clears EN is in no row of R141's table of changes: that a span grown before it stays is the model's choice
(log 102). -/
def State.spanPages (s : State) (c : Ctx) (ls : List Lease) (vpn : Nat) : List Nat :=
  match ls.find? fun l => memb (pagesOf l.base l.len) vpn with
  | none => [vpn]
  | some l =>
    let n := max 1 l.span
    (s.hostPages c l).filterMap fun p => if p.1 / n = vpn / n ∧ !memb s.xlat.present p.2 then some p.1 else none

/-- The pages of a function's groups that are outstanding. -/
def State.askedPages (s : State) (fn : Nat) : List Nat :=
  (s.xlat.asked.filter fun e => e.1 / 65536 == fn).flatMap fun e => e.2.2

/-- Sends page-request groups for the pages of a launch that are known to be absent, while the allowance lasts: up to 64
pages of one launch in ascending VA (R140). -/
def State.askPages (s : State) (gk : Nat) : State :=
  match s.grid gk with
  | none => s
  | some g => match s.ctx g.ctx with
    | none => s
    | some c =>
      let out := s.askedPages c.fn
      let want := ((g.absent.flatMap fun v => s.spanPages c g.leases v).foldl setAdd []).filter fun v => !memb out v
      let room := min 64 (tGet s.xlat.allow 0 c.fn - out.length)
      let now := want.take room
      if now = [] ∨ memb s.xlat.priStop c.fn then s
      else match findNat (fun n => (tFind s.xlat.asked (65536 * c.fn + n)).isNone) 512 0 with
        | none => s
        | some n =>
          let s := { s with xlat := { s.xlat with asked := tPut s.xlat.asked (65536 * c.fn + n) (gk, now) } }
          let s := s.modGrid gk fun g => { g with absent := g.absent.filter fun v => !memb now v }
          s.emit (.pageRequest c.fn n (now.map fun v => ptePpn (s.leaf c v)))

/-- A launch that has not started is refused (R139, R140): its bundle, or its completion word. The holds of the launch end
(R223). -/
def State.refuseLaunch (s : State) (gk : Nat) (cause : BitVec 8) : State :=
  match s.grid gk with
  | none => s
  | some g =>
    let drop (s : State) (p : Grid → Bool) : State :=
      let ks := (s.work.grids.filter fun e => p e.2).map (·.1)
      let s := ks.foldl State.flushHold s
      { s with work := { s.work with grids := s.work.grids.filter (fun e => !memb ks e.1), order := s.work.order.filter fun k => !memb ks k } }
    match g.packet with
    | some (p, i) =>
      (drop s fun x => match x.packet with
        | some (q, _) => q == p
        | none => false).modPacket p fun x => { x with stage := .finished, status := 1, cause := cause, slot := i, subs := [] }
    | none => (let s := s.flushHold gk
      { s with work := { s.work with grids := tDel s.work.grids gk, order := setDel s.work.order gk } }).childDone g.ctx g.complVa 1 cause

/-- The leased host pages of a launch that are no longer confirmed, the host having invalidated them or an edit having put them on other
host frames, and that no request covers, are confirmed anew before the launch (R140). -/
def State.reconfirm (s : State) (gk : Nat) (g : Grid) (c : Ctx) : State :=
  let mine := s.xlat.asked.flatMap fun e => if e.2.1 = gk then e.2.2 else []
  g.leases.foldl (fun s l => (s.hostPages c l).foldl (fun (s : State) p =>
    if memb s.xlat.present p.2 || s.xlat.ats.contains (c.fn, p.2) || memb g.absent p.1 || memb mine p.1 then s
    else s.atsAsk c.fn p.2) s) s

/-- Examines the leases of a launch that has not started (R139); pages that are to be confirmed anew are asked for (R140). -/
def State.recheck (s : State) (gk : Nat) : State :=
  match s.grid gk with
  | none => s
  | some g =>
    if g.started then s
    else match s.ctx g.ctx with
      | none => s
      | some c => match s.leaseCheck c g.ctx g.leases with
        | .error e => s.refuseLaunch gk e
        | .ok r => ((s.modGrid gk fun g => { g with ready := r }).reconfirm gk g c).askPages gk

/-! ### Bundles (R186) -/

/-- The GRID slots of a bundle: slot and grid. -/
def Packet.gridSubs (p : Packet) : List (Nat × Nat) :=
  (List.range p.subs.length).filterMap fun i => match p.subs[i]? with
    | some x => match x.kind with
      | .grid g => some (i, g)
      | _ => none
    | none => none

/-- Every tile version of a view as it stands (R157). That a refresh of an index with no view has no tile to wait for, and so is done at
once, is the model's choice (log 104). -/
def State.viewVersions (s : State) (slot view : Nat) : List TileVer :=
  match s.ctx slot with
  | some c => match tFind c.views view with
    | some v => v.tiles.map fun e => { ctx := slot, view := view, tile := e.1, ver := e.2.mv }
    | none => []
  | none => []

/-- The routes of a bundle's collective: through the binding table of its first GRID slot; without one, Lighthouse's own
choice among its routes. -/
def State.bundleRoutes (s : State) (p : Packet) (d : CollDesc) : State × List (Option Nat) :=
  match p.gridSubs with
  | (_, gk) :: _ => match s.grid gk with
    | some g => (s, d.peers.map fun q =>
        let w := g.role (d.role q)
        if d.role q < g.roles.length ∧ bitAt w 63 ∧ fld w 58 56 = 2 then s.routeOf (w % 2 ^ 56) else none)
    | none => (s, d.peers.map fun _ => none)
  | [] => d.peers.foldl (fun (a : State × List (Option Nat)) _ =>
      let (r, s) := a.1.freeNat
      (s, a.2 ++ [if s.routes.isEmpty then none else (s.routes[r % s.routes.length]?).map (·.1)])) (s, [])

/-- A COLL slot starts: its descriptor is read and its ranges are translated; what cannot be ends the slot FAILED. -/
def State.startColl (s : State) (pk : Nat) (p : Packet) (i va : Nat) : State :=
  match s.readWords p.ctx va 8 .r with
  | (s, .error e) => s.endSub pk i 2 e 0
  | (s, .ok w) =>
    let d := CollDesc.ofWords w
    let (s, routes) := s.bundleRoutes p d
    let labs := routes.map fun r => match tFind s.routes (r.getD 0) with
      | some x => x.lab
      | none => 0
    match s.collChecks 0 p.ctx none d labs 0 0 with
    | (s, .error e) => s.endSub pk i 2 e.1 0
    | (s, .ok (t, l)) =>
            let (id, s) := (s.accessAll none p.ctx t).fresh
            s.putOp id {
              warp := 0, team := 0, grid := 0, ctx := p.ctx, die := 0, core := 0, cls := 4,
              kind := .coll { d with routes := routes.map (·.getD 0) } [] false (routes.any fun r => match r with
                | some r => match tFind s.routes r with
                  | some x => !x.up
                  | none => true
                | none => true),
              ret := .none, lab := l, trans := t, todo := [], got := [], buf := [], wrote := [], staleN := 0, done := false,
              trap := poisonTrap t d.ranges, slot := some (pk, i), lanes := [], order := 0, rows := [] }

/-- Every sub-launch of a bundle but its grids starts (R186). -/
def State.startSubs (s : State) (pk : Nat) : State :=
  match s.packet pk with
  | none => s
  | some p =>
    let s := s.putPacket pk { p with stage := .started }
    (List.range p.subs.length).foldl (fun (s : State) i => match p.subs[i]? with
      | some x => match x.kind with
        | .coll va _ => s.startColl pk p i va
        | .refresh v _ => s.modPacket pk fun p => { p with subs := setAt p.subs i { x with kind := .refresh v (s.viewVersions p.ctx v) } }
        | _ => s
      | none => s) s

/-- The die that the next gang of a grid would go to. -/
def State.nextDie (s : State) (gk : Nat) : Option Nat :=
  match s.grid gk with
  | some g => (s.nextGang g allTeams true).map (·.1)
  | none => none

/-- Places the first gangs of a bundle's grids one after another, each with room counted after those before it (R186): the state
with those that can be placed, their dies, and the cause of the first that cannot. One that waits only for its die's clock takes its
room all the same, and its die is asked for (R189). -/
def State.placeFirst (s : State) (gs : List Nat) : State × List (Nat × Option Nat) × Option HoldCause :=
  gs.foldl (fun (a : State × List (Nat × Option Nat) × Option HoldCause) gk =>
    let (t, ds, bad) := a
    match t.placeNext gk with
    | (u, none) => (u, ds ++ [(gk, t.nextDie gk)], bad)
    | (_, some (.freq, d)) => (((t.modGrid gk fun g => { g with holdBit := false }).placeNext gk).1, ds ++ [(gk, d)], bad.or (some .freq))
    | (_, some (h, _)) => (t, ds, bad.or (some h))) (s, [], none)

/-- Starts a bundle in one step, when the first gang of every GRID slot can be placed; otherwise the bundle holds with the
cause of the first slot that could not, recorded on its first grid (R186). A bundle that holds for operating points asks for those of
all its dies (R189). -/
def State.startBundle (s : State) (pk : Nat) : State :=
  match s.packet pk with
  | none => s
  | some p =>
    let gs := p.gridSubs.map (·.2)
    let (t, ds, bad) := s.placeFirst gs
    match bad, gs with
    | none, _ => t.startSubs pk
    | some h, g :: _ => gs.foldl (fun (s : State) k => s.modGrid k fun x =>
        { x with fcDie := if h = .freq then ((ds.find? fun e => e.1 == k).map (·.2)).getD none else none }) (s.hold g h none)
    | some _, [] => s

/-! ### Relaunches -/

/-- The context places teams (R207). -/
def State.places (s : State) (g : Grid) : Bool :=
  match s.ctx g.ctx with
  | some c => c.pre == Pre.run
  | none => false

/-- Places a killed team again on the die of its gang (R68, R197, R206). -/
def State.relaunchTeam (s : State) (gk num gang : Nat) : State :=
  match s.grid gk, s.gang gang with
  | some g, some x =>
    if s.places g = false ∨ s.scratchFits g x.die = false then s
    else match placeTeams g.kernel g.ctx 1 (s.dieUse allTeams x.die) with
      | some (p :: _) =>
        let s := s.modGrid gk fun g => { g with relaunch := g.relaunch.filter fun e => e.1 != num }
        let (_, s) := s.startTeam gk gang num x.die p
        s.modGang gang fun y => { y with copies := (p.cores g.kernel x.die).foldl (fun t c => tPut t c y.bound) y.copies }
      | _ => s
  | _, _ => s

/-- Places a gang of teams that exited on their notices, or records why not (R209, R198). The dies that they left give the grid's
scratchpad copies up (R64). -/
def State.resumeGang (s : State) (gk : Nat) : State :=
  match s.grid gk with
  | none => s
  | some g => match g.resumeQ with
    | [] => s
    | (_, num, _) :: _ =>
      let mine := g.resumeQ.filter fun e => e.2.1 == num
      match s.findRoom g allTeams true mine.length with
      | some (d, ps) =>
        let s := (s.release gk).modGrid gk fun g => { g with resumeQ := g.resumeQ.filter fun e => e.2.1 != num }
        let s := s.formGang gk num d (sortBy id (mine.map (·.1))) ps
        mine.foldl (fun s e => s.scratchCheck gk e.2.2) s
      | none => s.hold gk (s.causeOf g fun skip scr => s.findRoom g skip scr mine.length) none

/-! ### The walk -/

/-- A launch has teams still to place and is on the order list: accepted, not ended, its context in RUN, and for a child
grid every operation issued before it retired (R115, R197, R254). -/
def State.waiting (s : State) (g : Grid) : Bool :=
  decide (g.nextTeam < g.teams) && g.failed.isNone && g.killed.isNone && s.places g && g.before.all fun o => (s.op o).isNone

/-- The bundle of a grid, while it has not started. -/
def State.unstarted (s : State) (g : Grid) : Option Nat :=
  match g.packet with
  | some (p, _) => match s.packet p with
    | some x => if x.stage = PStage.valid then some p else none
    | none => none
  | none => none

/-- Every grid of the bundle has its leases ready. -/
def State.bundleReady (s : State) (g : Grid) : Bool :=
  match s.unstarted g with
  | some p => s.work.grids.all fun e => match e.2.packet with
    | some (q, _) => q != p || e.2.ready
    | none => true
  | none => g.ready

/-- The place of a grid on the order list (R197): ready first, then the slice holder, PRIO and age. -/
def State.orderKey (s : State) (age gk : Nat) : Nat :=
  match s.grid gk with
  | none => 0
  | some g => (if s.bundleReady g then 0 else 2 ^ 41) + (if s.gridFn g = s.mgmt.holder then 0 else 2 ^ 40) + (3 - g.prio) * 2 ^ 32 + age

/-- The order list from the top. -/
def State.orderList (s : State) : List Nat :=
  let l := (List.range s.work.order.length).filterMap fun i => (s.work.order[i]?).map fun k => (s.orderKey i k, k)
  (sortBy (fun (e : Nat × Nat) => e.1) l).map fun (e : Nat × Nat) => e.2

/-- A launch that has held for BFWAIT (R200). -/
def State.barrier (s : State) (g : Grid) : Bool := g.cause.isSome && (g.blocks || decide (s.bfwaitNs ≤ g.bfNs))

/-- Walks the list from the top: a gang of each launch, one of teams that exited on their notices before a new one. Below a
launch that has held too long no lower launch is placed (R200). -/
def State.walkList (s : State) : List Nat → State
  | [] => s
  | gk :: r =>
    match s.grid gk with
    | none => s.walkList r
    | some g =>
      let again : Bool := !g.resumeQ.isEmpty && s.places g
      if !again && !s.waiting g then s.walkList r
      else
        let s := if again then s.resumeGang gk
          else match s.unstarted g with
            | some p => s.startBundle p
            | none => match s.placeNext gk with
              | (s, none) => s
              | (s, some (h, d)) => s.hold gk h d
        let stop : Bool := match s.grid gk with
          | some g => s.barrier g
          | none => false
        if stop then s else s.walkList r

/-- The distributor's walk: relaunched teams first, then the list (R197). -/
def State.distribute (s : State) : State :=
  let s := s.work.order.foldl (fun (s : State) gk => match s.grid gk with
    | some g => g.relaunch.foldl (fun (s : State) e => s.relaunchTeam gk e.1 e.2) s
    | none => s) s
  let s := s.work.order.foldl (fun (s : State) gk => s.recheck gk) s
  s.walkList s.orderList

/-- R197. The distributor walks its order list and places gangs. -/
def execDistributorWalk (s : State) : Res := .next (if s.isRunning then s.distribute else s)

/-- R200. A launch that has held for BFWAIT keeps every lower launch from placing a team until its next gang is placed. -/
def execBackfillLimit (launch : Nat) (s : State) : Res :=
  match s.grid launch with
  | some g => .next (if s.isRunning ∧ g.cause.isSome ∧ s.bfwaitNs ≤ g.bfNs then s.putGrid launch { g with blocks := true } else s)
  | none => .next s

/-! ### Operating points (R189) -/

/-- The class clocks that launches resident on a die or held for it request. -/
def State.requests (s : State) (die : Nat) : List Nat :=
  (s.work.grids.filter fun e =>
    e.2.fcDie == some die ||
    s.work.teams.any fun t => t.2.grid == e.1 && dieOf t.2.core == die).map (·.2.fc)

/-- The clock that a die is to run: the highest requested, within thermal protection. -/
def State.target (s : State) (die : Nat) : Nat :=
  let p := s.point die
  let m := (s.requests die).foldl (fun m f => max m (classMhz f)) 0
  let m := if m = 0 then p.mhz else m
  match p.cap with
  | some c => min m c
  | none => m

/-- R189. A die reaches its new operating point, and held starts proceed. While the module is over its power limit an FC2
die does not rise above the point to which it has been lowered. -/
def execOperatingPointReached (die : Nat) (s : State) : Res :=
  if !s.isRunning ∨ die ≥ 4 then .next s
  else
    let p := s.point die
    let m := s.target die
    let m := if s.overPow ∧ memb (s.requests die) 2 ∧ p.mhz < m then max p.mhz (if memb (s.requests die) 3 then 1150 else 1100) else m
    .next ({ s with power := tPut s.power die { p with mhz := m, ns := 0 } }).distribute

/-- R189. A held start that has waited 250 µs proceeds anyway, with every grid of its bundle, and counts HOLDTO. -/
def execHoldTimeout (launch : Nat) (s : State) : Res :=
  match s.grid launch with
  | some g =>
    if s.isRunning ∧ g.cause = some HoldCause.freq ∧ 250000 ≤ g.fcNs then
      let mine (e : Nat × Grid) : Bool := e.1 == launch || ((s.unstarted g).isSome && s.unstarted e.2 == s.unstarted g)
      let s := { s with work := { s.work with grids := s.work.grids.map fun e => if mine e then (e.1, { e.2 with holdBit := false }) else e } }
      .next (s.count 0x46 (s.gridFn g) 1).distribute
    else .next s
  | none => .next s

/-- R189. While the module exceeds 2,300 W, dies that run FC2 lower their clock by 25 MHz, no lower than 1.10 GHz, or
1.15 GHz beside an FC3 launch; when power falls back they raise it again. -/
def execModulePowerOverLimit (above : Bool) (s : State) : Res :=
  if !s.isRunning then .next s
  else
    let s := { s with overPow := above }
    .next ((List.range 4).foldl (fun (s : State) d =>
      let rs := s.requests d
      if memb rs 2 then
        let p := s.point d
        let floor := if memb rs 3 then 1150 else 1100
        let m := if above then (if p.mhz > floor then max floor (p.mhz - 25) else p.mhz) else min (s.target d) (p.mhz + 25)
        { s with power := tPut s.power d { p with mhz := m } }
      else s) s)

/-- R189. Thermal protection lowers a die's clock; it alone can lower an FC3 operating point. -/
def execThermalProtection (die mhz : Nat) (s : State) : Res :=
  if !s.isRunning ∨ die ≥ 4 then .next s
  else
    let p := s.point die
    .next { s with power := tPut s.power die { p with cap := some mhz, mhz := min p.mhz mhz } }

/-! ### ATS and PRI (R140, R141) -/

/-- The grids of a function that have not started and lease a host frame, with the page. -/
def State.leasing (s : State) (fn frame : Nat) : List (Nat × Nat) :=
  s.work.grids.flatMap fun e =>
    if e.2.started then []
    else match s.ctx e.2.ctx with
      | some c => if c.fn ≠ fn then [] else (e.2.leases.flatMap fun l => s.hostPages c l).filterMap fun p =>
          if p.2 = frame then some (e.1, p.1) else none
      | none => []

/-- R140. The host answers a translation request: the page is confirmed, or joins the page requests of its launches. -/
def execAtsTranslationCompletion (fn page : Nat) (present : Bool) (s : State) : Res :=
  if !s.isRunning then .next s
  else
    let ls := s.leasing fn page
    let s := { s with xlat := { s.xlat with ats := s.xlat.ats.filter (· != (fn, page)) } }
    let s := if present then { s with xlat := { s.xlat with present := setAdd s.xlat.present page, host := setAdd s.xlat.host page } }
      else { s with xlat := { s.xlat with present := setDel s.xlat.present page, host := setDel s.xlat.host page } }
    .next (ls.foldl (fun (s : State) e =>
      let s := if present then s else s.modGrid e.1 fun g => { g with absent := setAdd g.absent e.2 }
      s.recheck e.1) s)

/-- The span of a lease doubles when enough pages of the aligned span of twice its size are present (R141). That of these only the pages of
the range count, against the whole length of the span (log 117), and that where one group covers several absent pages the span that holds
the lowest of them decides (log 118), is the model's choice. -/
def State.growSpan (s : State) (c : Ctx) (pages : List Nat) (l : Lease) : Lease :=
  if (pages.any fun v => memb (pagesOf l.base l.len) v) = false ∨ s.pfctl c.fn 0 0 = 0 then l
  else
    let v := (pages.find? fun v => memb (pagesOf l.base l.len) v).getD 0
    let n := 2 * max 1 l.span
    let have_ := ((s.hostPages c l).filter fun p => p.1 / n == v / n && (memb s.xlat.present p.2 || memb pages p.1)).length
    if s.pfctl c.fn 23 16 * n < 256 * have_ ∧ n ≤ 2 ^ min 9 (s.pfctl c.fn 11 8) then { l with span := n } else l

/-- R140, R141. The response to a page-request group: 0 Success, the pages are confirmed again; 1 Invalid Request and any
other code refuse the launch, and Response Failure also stops the function's page requests. -/
def execPrgResponse (fn group : Nat) (code : BitVec 4) (s : State) : Res :=
  match if s.isRunning then tFind s.xlat.asked (65536 * fn + group) else none with
  | none => .next s
  | some (gk, pages) =>
    let s := { s with xlat := { s.xlat with asked := tDel s.xlat.asked (65536 * fn + group) } }
    let s := if code = 0 ∨ code = 1 then s else { s with xlat := { s.xlat with priStop := setAdd s.xlat.priStop fn } }
    match s.grid gk with
    | none => .next s
    | some g =>
      if g.started then .next s
      else if code ≠ 0 then .next (s.refuseLaunch gk 0x12)
      else match s.ctx g.ctx with
        | none => .next s
        | some c =>
          let s := s.putGrid gk { g with leases := g.leases.map (s.growSpan c pages) }
          .next (pages.foldl (fun (s : State) v => s.atsAsk fn (ptePpn (s.leaf c v))) s)

/-- R140. The device completes a host's ATS invalidation; a later use of the page requests a new translation, and so does a launch that
leases it before it starts (`State.reconfirm`). No die carries
traffic before Belvedere has released it (R27). -/
def execAtsInvalidation (fn page : Nat) (s : State) : Res :=
  .next (if !s.isRunning then s else { s with xlat := { s.xlat with present := setDel s.xlat.present page } }.emit (.atsDone fn page))

/-- R140. The host enables PRI again: the function's page requests may go out. -/
def execPriReenable (fn : Nat) (s : State) : Res :=
  let s := if s.isRunning then { s with xlat := { s.xlat with priStop := setDel s.xlat.priStop fn } } else s
  .next (s.work.order.foldl (fun (s : State) gk => match s.grid gk with
    | some g => if s.gridFn g = fn ∧ !g.started then s.askPages gk else s
    | none => s) s)

end Sys2Proof.Machine
end

