-- ==== Sys2Proof/Machine/ScalarCtl.lean ====
section
/-!
DEFINITION. Scalar control: branches, jumps and calls (R309, R282), block constants and lane blocks (R313 to R315), the
end of a warp (R316), yields and counter waits (R317 to R319), barriers, fences and tokens (R320 to R322).
-/
namespace Sys2Proof.Machine

/-- A target as the byte offset of a section. One that does not fit in 32 bits lies outside every section, and so does `last`, which
stands for it (R282, R293, log 20). -/
def sectionTarget (last : W32) (t : Int) : W32 := if 0 ≤ t ∧ t < 2 ^ 32 then BitVec.ofInt 32 t else last

/-- The target of a displacement of n bits (R282). -/
def scalarTarget {n : Nat} (pc : W32) (disp : BitVec n) : W32 := sectionTarget 0xFFFFFFFC (pc.toNat + 4 * disp.toInt)

/-- A conditional branch (R309). -/
def runBranch (i : Instr) (cond : W64 → Bool) (a : BitVec 6) (disp : BitVec 20) (s : State) : Res :=
  runScalar i legal [a] none s fun k =>
    if cond (k.rd a).val then k.jump s k.x (scalarTarget k.x.pc disp) else k.done s k.x

/-- R309. `bz`. -/
def execBz (a : BitVec 6) (disp : BitVec 20) (s : State) : Res := runBranch (.bz a disp) (· == 0) a disp s
/-- R309. `bnz`. -/
def execBnz (a : BitVec 6) (disp : BitVec 20) (s : State) : Res := runBranch (.bnz a disp) (· != 0) a disp s
/-- R309. `bltz`. -/
def execBltz (a : BitVec 6) (disp : BitVec 20) (s : State) : Res := runBranch (.bltz a disp) (fun x => x.msb) a disp s
/-- R309. `bgez`. -/
def execBgez (a : BitVec 6) (disp : BitVec 20) (s : State) : Res := runBranch (.bgez a disp) (fun x => !x.msb) a disp s

/-- R309. `jmp`. -/
def execJmp (disp : BitVec 26) (s : State) : Res :=
  runScalar (.jmp disp) legal [] none s fun k => k.jump s k.x (scalarTarget k.x.pc disp)

/-- R309. `call`: PC + 4 to sd with label 0, then the jump. -/
def execCall (d : BitVec 6) (disp : BitVec 20) (s : State) : Res :=
  runScalar (.call d disp) legal [] (some d) s fun k =>
    k.jump s (k.x.writeS d.toNat ⟨(k.x.pc + 4).setWidth 64, 0⟩) (scalarTarget k.x.pc disp)

/-- R309, R282. `jr`: a target that is no multiple of 4 raises ALIGN. A target beyond 32 bits lies outside every section:
the stream goes to the last word address, whose fetch raises ILLEGAL (R293, log 20). -/
def execJr (a : BitVec 6) (s : State) : Res :=
  runScalar (.jr a) legal [a] none s fun k =>
    let t := (k.rd a).val
    if t.toNat % 4 ≠ 0 then k.fault s 0x06 t
    else k.jump s k.x (sectionTarget 0xFFFFFFFC t.toNat)

/-- R313. `kmov`: a k number above 15 is ILLEGAL, a pending k register INFLIGHT. -/
def execKmov (d a : BitVec 6) (s : State) : Res :=
  runScalar (.kmov d a) (fun _ => decide (15 < d.toNat)) [a] none s fun k =>
    if memb k.x.kPend d.toNat then k.fault s 0x03 (BitVec.ofNat 64 (0x440 + d.toNat))
    else k.done s (k.x.writeK d.toNat (k.rd a))

/-- R314. `lrun`: waits while four blocks are held or a live k register is pending, then appends a block with a snapshot
of k0–k15 (R31, R35, R202). -/
def execLrun (entry : BitVec 20) (s : State) : Res :=
  runScalar (.lrun entry) noHandler [] none s fun k =>
    if !k.x.kPend.isEmpty then k.wait s true
    else if k.x.queue.length ≥ 4 then k.wait s false
    else k.done s { k.x with queue := k.x.queue ++ [{ entry := entry, k := k.x.k }] }

/-- R315. `lsync` waits until the lane-block queue is empty. -/
def execLsync (s : State) : Res :=
  runScalar .lsync noHandler [] none s fun k => if k.x.queue.isEmpty then k.done s k.x else k.wait s false

/-- R317. `yield`: the candidate is not ready until every other one of the quadrant that is ready as it issues has issued, or 64
cycles. The selection has found which are ready (R201). -/
def execYield (s : State) : Res :=
  runScalar .yield noHandler [] none s fun k =>
    let os := s.cands.filter (· != k.w)
    s.putWarp k.w { k.x with pc := k.x.pc + 4, wait := if os.isEmpty then .none else .yield os 0 }

/-- R319. `yieldc`: continues at the target once the counter is at most n; until then the warp is descheduled at it. -/
def execYieldc (cls : BitVec 3) (n : BitVec 8) (disp : BitVec 12) (s : State) : Res :=
  runScalar (.yieldc cls n disp) noHandler [] none s fun k =>
    let t := scalarTarget k.x.pc disp
    if k.x.count cls.toNat ≤ n.toNat then k.jump s k.x t
    else s.putWarp k.w { k.x with wait := .yieldc cls.toNat n.toNat t }

/-- R318. `waitc` waits until the counter is at most n; on `.cl` the wait is external (R211). -/
def execWaitc (cls : BitVec 3) (n : BitVec 8) (s : State) : Res :=
  runScalar (.waitc cls n) legal [] none s fun k =>
    if k.x.count cls.toNat ≤ n.toNat then k.done s k.x else k.wait s (cls == 4)

/-- The lowest-numbered warp of a team that has not exited (R252). -/
def State.firstWarp (s : State) (t : Team) : Option Nat :=
  argMin (fun w => match s.warp w with
    | some x => x.num
    | none => 0) t.warps

/-- The warp ends (R316): it leaves its team; the last one retires the team, once its sequencer has ended. A report of a
sequencer fault that it has not taken passes to the lowest-numbered warp left (R252). -/
def State.endWarp (s : State) (w : Nat) : State :=
  match s.warp w with
  | none => s
  | some x =>
    let s := { s with work := { s.work with warps := tDel s.work.warps w } }
    let s := s.modTeam x.team fun t => { t with warps := setDel t.warps w }
    match s.team x.team with
    | some t => if t.warps.isEmpty then s.retireTeam x.team else match s.firstWarp t with
      | some v => s.modWarp v fun y => { y with due := y.due ++ x.due.filter fun d => d.rank == 3 }
      | none => s
    | none => s

/-- The team's sequencer has executed `MHALT` or has stopped (R316). -/
def Team.seqEnded (t : Team) : Bool :=
  match t.seqr with
  | some q => q.run != .running
  | none => true

/-- R316. `exit` waits for the queue, the counters, the pending returns and, in the last warp, the sequencer; then the warp
ends. The wait is external while `.cl` is not 0 (R219). In handler mode the frame's entries and the queued blocks are discarded first (R249). -/
def execExit (s : State) : Res :=
  runScalar .exit legal [] none s fun k =>
    let x := if k.x.handler then { k.x with queue := [], running := false, frame := none } else k.x
    let s := s.putWarp k.w x
    if !x.queue.isEmpty ∨ !x.quiet then k.wait s (x.count 4 != 0)
    else if x.inFlight then k.wait s false
    else if k.t.warps.length = 1 ∧ !k.t.seqEnded then k.wait s false
    else (s.endWarp k.w).removalCheck k.g.ctx

/-! ### Barriers, fences and tokens -/

/-- BAR_EXPECT's TRAPVAL (R251). -/
def barExpectVal (b : Bar) (n : BitVec 4) (e : BitVec 6) : W64 :=
  BitVec.ofNat 64 (b.exp.toNat * 65536 + n.toNat * 256 + e.toNat)

/-- A warp reads a barrier word: an uncorrectable one kills its team (R67). -/
def SCtx.readBar (k : SCtx) (s : State) (n : BitVec 4) (f : State → State) : State :=
  match s.scanRead (.bar k.x.team) (8 * n.toNat) 8 with
  | (s, some off) => k.sramUe s (.bar k.x.team) off
  | (s, none) => f s

/-- An arrival of a warp (R173): the new state and token, or the trap. -/
def SCtx.arrive (k : SCtx) (s : State) (n : BitVec 4) (e : BitVec 6) (f : State → W32 → State) : State :=
  k.readBar s n fun s => match (k.t.bar n.toNat).arrive e with
    | none => k.fault s 0x04 (barExpectVal (k.t.bar n.toNat) n e)
    | some (b, tok) => f (s.modTeam k.x.team fun t => { t with bars := tSet t.bars ⟨0, 0, 0⟩ n.toNat b }) tok

/-- R320. `bar.arrive`: an arrival; the token to sd with label 0. -/
def execBarArrive (d : BitVec 6) (n : BitVec 4) (e : BitVec 6) (s : State) : Res :=
  runScalar (.barArrive d n e) legal [] (some d) s fun k =>
    k.arrive s n e fun s tok => k.done s (k.x.writeS d.toNat ⟨tok.setWidth 64, 0⟩)

/-- R320. `bar.wait`: waits until the phase differs from the token. -/
def execBarWait (a : BitVec 6) (n : BitVec 4) (s : State) : Res :=
  runScalar (.barWait a n) legal [a] none s fun k =>
    k.readBar s n fun s =>
      if (k.t.bar n.toNat).phase.setWidth 64 ≠ (k.rd a).val then k.done s k.x else k.wait s false

/-- R320. `bar.sync`: an arrival, then a wait with its token, which goes to sd. -/
def execBarSync (d : BitVec 6) (n : BitVec 4) (e : BitVec 6) (s : State) : Res :=
  runScalar (.barSync d n e) legal [] (some d) s fun k =>
    match k.x.wait with
    | .barSync tok => k.readBar s n fun s =>
      if (k.t.bar n.toNat).phase ≠ tok then k.done s (k.x.writeS d.toNat ⟨tok.setWidth 64, 0⟩) else s
    | _ => k.arrive s n e fun s tok =>
      match s.team k.x.team with
      | some t => if (t.bar n.toNat).phase ≠ tok then k.done s (k.x.writeS d.toNat ⟨tok.setWidth 64, 0⟩)
                  else s.modWarp k.w fun x => { x with wait := .barSync tok }
      | none => s

/-- R321, R104. `fence`: a direct access of the model is performed at once, so a fence only waits as `State.ordered` says (log 12). -/
def execFence (ord : BitVec 2) (scope : BitVec 3) (s : State) : Res :=
  runScalar (.fence ord scope) legal [] none s fun k => k.done s k.x

/-- The warp's team has no sequencer (R40). -/
def noSeq (k : SCtx) : Bool := k.t.seqr.isNone

/-- R322, R41. `tokacq`. -/
def execTokacq (t : BitVec 3) (s : State) : Res :=
  runScalar (.tokacq t) noSeq [] none s fun k =>
    match k.t.tok t.toNat with
    | .seq => k.wait s false
    | .offered => k.done (s.modTeam k.x.team fun y => { y with tokens := tSet y.tokens .seq t.toNat .warps }) k.x
    | .warps => k.done s k.x
    | .returned => k.wait s false

/-- R322, R41. `tokrel`. -/
def execTokrel (t : BitVec 3) (s : State) : Res :=
  runScalar (.tokrel t) noSeq [] none s fun k =>
    match k.t.tok t.toNat with
    | .warps => k.done (s.modTeam k.x.team fun y => { y with tokens := tSet y.tokens .seq t.toNat .returned }) k.x
    | _ => k.fault s 0x05 (t.setWidth 64)

end Sys2Proof.Machine
end

