-- ==== Sys2Proof/Machine/Select.lean ====
section
/-!
DEFINITION. Fetching (R130, R292, R293), and the events of issue and of traps: fusing and split retries (R166, R167), raised
candidates (R201), yields (R317, R319), trap entry (R248) and the PREEMPT notice (R208).
-/
namespace Sys2Proof.Machine

/-- Instruction bytes at a virtual address, line by line, with access X and no lease (R130, R303); else the trap. -/
def State.fetchLines (s : State) (die ctx : Nat) : Nat → Nat → Nat → State × Except (BitVec 8 × W64) (List Byte)
  | 0, _, _ => (s, .ok [])
  | f + 1, va, n =>
    if n = 0 then (s, .ok [])
    else
      let m := min n (64 - va % 64)
      let bad (c : BitVec 8) : Except (BitVec 8 × W64) (List Byte) := .error (c, BitVec.ofNat 64 va)
      match s.translate die ctx none va .x with
      | (s, .fault c) => (s, bad c)
      | (s, .poison) => (s.markListed ctx (va / 65536), bad 0x14)
      | (s, .ok t) =>
        let pa := t.ppn * 65536 + va % 65536
        match s.meetLine 0 ctx va t with
        | (s, true) => (s, bad 0x14)
        | (s, false) =>
          let bs := s.peekN (attrKey t.attr) pa m
          match State.fetchLines s die ctx f (va + m) (n - m) with
          | (s, .ok r) => (s, .ok (bs ++ r))
          | (s, e) => (s, e)

/-- Fetches the instruction of a stream at a section offset: the instruction, or a trap with its TRAPVAL (R292, R293).
`val` gives TRAPVAL of the bytes of what is no instruction. -/
def State.fetchInstr (s : State) (st : Stream) (die ctx section_ off len : Nat) (val : Nat → Nat) :
    State × Except (BitVec 8 × W64) Instr :=
  if off + st.bytes > len then (s, .error (0x01, 0))
  else match s.fetchLines die ctx 3 (section_ + off) st.bytes with
    | (s, .error e) => (s, .error e)
    | (s, .ok bs) => match decode st bs with
      | .ok (i, _) => (s, .ok i)
      | .error _ => (s, .error (0x01, BitVec.ofNat 64 (val (ofBytes bs))))

/-! ### Selection -/

/-- The warps of a quadrant. -/
def State.quadWarps (s : State) (core quad : Nat) : List Nat :=
  (s.work.warps.filter fun e => e.2.core == core && e.2.quad == quad).map (·.1)

/-- Changes every warp. -/
def State.mapWarps (s : State) (f : Nat → Warp → Warp) : State := { s with work := { s.work with warps := tMap s.work.warps f } }

/-- R166. Entries of a warp that can fuse do. -/
def execEntryFuse (w : Nat) (s : State) : Res := .next (s.fuse w)

/-- Counts what an instruction did to the entries of a warp (R224). -/
def counted (r : Res) (i : Instr) (old : Warp) (w e : Nat) : Res :=
  match r with
  | .next s => .next (s.countSplits i old w e)
  | r => r

/-- R167. A split that waits is tried again: its instruction is examined with the lanes that are left in the entry. -/
def execSplitRetry (w e : Nat) (s : State) : Res :=
  match s.warp w with
  | none => .next s
  | some x => match tFind x.entries e, s.home x with
    | some en, some (_, g, _) =>
      if en.state ≠ .splitWait then .next s
      else match s.fetchInstr .lane (dieOf x.core) g.ctx (g.kernel.image + g.kernel.loff) (12 * en.pc.toNat) g.kernel.llen id with
        | (_, .error _) => .next s
        | (s, .ok i) =>
          let s := { s.modWarp w (fun x => x.modEntry e fun y => { y with state := .ready }) with cur := .lane w e }
          counted (match i with
            | .bra f => execBra f s
            | .lcall f => execLcall f s
            | .lret f => execLret f s
            | .rcvWait f => execRcvWait f s
            | _ => .next s) i x w e
    | _, _ => .next s

/-- Changes every warp of a context. -/
def State.mapCtxWarps (s : State) (slot : Nat) (f : Grid → Warp → Warp) : State :=
  s.mapWarps fun _ x => match s.home x with
    | some (_, g, _) => if g.ctx = slot then f g x else x
    | none => x

/-- The candidates of a warp that are raised now: those that have been ready for 64 cycles without issuing (R201). -/
def Warp.raises (x : Warp) : Nat := b2n (decide (64 ≤ x.sAge) && !x.sRaised) + b2n (decide (64 ≤ x.lAge) && !x.lRaised)

/-- Raises the candidates of a quadrant that have been ready for 64 cycles without issuing (R201), and counts them. -/
def State.raiseQuad (s : State) (core quad : Nat) : State :=
  let n := s.work.warps.foldl (fun n e => n + if e.2.core = core ∧ e.2.quad = quad then e.2.raises else 0) 0
  let t := s.mapWarps fun _ x => if x.core = core ∧ x.quad = quad then
    { x with sRaised := x.sRaised || decide (64 ≤ x.sAge), lRaised := x.lRaised || decide (64 ≤ x.lAge) } else x
  if n = 0 then t else t.count 0x50 (4 * core + quad) n

/-- R201. Candidates that have been ready for 64 cycles are raised. -/
def execCandidateRaise (core quad : Nat) (s : State) : Res := .next (s.raiseQuad core quad)

/-- R317. A `yield` ends after 64 cycles. -/
def execYieldTimeout (w : Nat) (s : State) : Res :=
  match s.warp w with
  | some x => match x.wait with
    | .yield _ n => .next (if 64 ≤ n then s.putWarp w { x with wait := .none } else s)
    | _ => .next s
  | none => .next s

/-- R319. A descheduled warp continues at its target once the counter is low enough, and its `yieldc` has issued (R212, R224). -/
def execYieldcResume (w : Nat) (s : State) : Res :=
  match s.warp w with
  | some x => match x.wait with
    | .yieldc cls n t => .next (if x.count cls ≤ n then
        let s := s.putWarp w { x.noEarly [64] with wait := .none, pc := t }
        match s.home x with
        | some (_, g, _) => (s.progress w).pmc (dieOf x.core) (some x.core) g.ctx 2 1
        | none => s
      else s)
    | _ => .next s
  | none => .next s

/-! ### Traps -/

/-- R248. A warp takes the trap that is due first. -/
def execTrapEntry (w : Nat) (s : State) : Res := .next (s.serveTrap w)

/-- R208. A PREEMPT notice that is due first is delivered at the warp's scalar boundary. -/
def execPreemptNotice (w : Nat) (s : State) : Res :=
  match s.warp w with
  | some x => match argMin (fun d => d.rank) x.takeable with
    | some d => .next (if d.code = 0x30 then s.serveTrap w else s)
    | none => .next s
  | none => .next s

end Sys2Proof.Machine
end

