-- ==== Sys2Proof/Machine/Front.lean ====
section
/-!
DEFINITION. The front end (R178 to R188): queues and doorbells, mailboxes, packets in ring order, bundles and their
validation, hub copy jobs, signal words, and retirement.
-/
namespace Sys2Proof.Machine

/-! ### Order and validation of packets -/

/-- The kind of a packet (R182). -/
def Packet.kind (p : Packet) : Nat := fld (p.word 0) 7 0

/-- A packet's own words break R182: a reserved field, a refused code, or a misaligned descriptor or watched word. -/
def Packet.badFormat (p : Packet) : Bool :=
  let f (i hi lo : Nat) : Nat := fld (p.word i) hi lo
  let common := decide (f 0 31 20 ≠ 0 ∨ f 0 15 14 = 3 ∨ f 1 63 57 ≠ 0 ∨ f 3 63 57 ≠ 0)
  common || match p.kind with
    | 1 => decide (f 4 63 57 ≠ 0 ∨ p.word 4 % 256 ≠ 0 ∨ f 5 63 6 ≠ 0 ∨ p.word 6 ≠ 0 ∨ p.word 7 ≠ 0)
    | 3 => decide (f 4 63 57 ≠ 0 ∨ p.word 4 % 8 ≠ 0 ∨ f 5 7 6 ≠ 0 ∨ f 5 63 10 ≠ 0 ∨ f 5 9 8 = 3 ∨ p.word 7 ≠ 0)
    | 4 => decide (f 4 63 8 ≠ 0 ∨ f 4 7 0 < 1 ∨ f 4 7 0 > 7 ∨ f 5 7 6 ≠ 0 ∨ f 5 63 16 ≠ 0)
    | 2 => decide (p.word 4 ≠ 0 ∨ f 5 63 6 ≠ 0 ∨ p.word 6 ≠ 0 ∨ p.word 7 ≠ 0)
    | 5 => decide (p.word 4 ≠ 0 ∨ f 5 63 6 ≠ 0 ∨ p.word 6 ≠ 0 ∨ p.word 7 ≠ 0)
    | 6 => decide (p.word 4 ≠ 0 ∨ f 5 63 6 ≠ 0 ∨ p.word 6 ≠ 0 ∨ p.word 7 ≠ 0)
    | _ => true

/-- A packet has finished with a status (R187). -/
def State.finishPacket (s : State) (k status : Nat) (cause : BitVec 8) (slot : Nat) (detail : W64) : State :=
  s.modPacket k fun p => { p with stage := .finished, status := status, cause := cause, slot := slot, detail := detail }

/-- The packet's context is live and bound to its function (R179). -/
def State.owns (s : State) (p : Packet) : Bool :=
  match s.ctx p.ctx with
  | some c => c.fn == p.fn && !c.invalid
  | none => false

/-- Lighthouse validates a request: FORMAT of the packet's words, then OWNER (R179, R185). -/
def State.validate (s : State) (k : Nat) : State :=
  match s.packet k with
  | none => s
  | some p =>
    if p.stage ≠ PStage.fetched then s
    else if p.badFormat then s.finishPacket k 1 0x01 0 0
    else if s.owns p then s.putPacket k { p with stage := .valid }
    else s.finishPacket k 1 0x40 0 0

/-- The packets of the same queue fetched before this one and not yet retired. -/
def State.earlier (s : State) (k : Nat) (p : Packet) : List Packet :=
  (s.front.packets.filter fun (e : Nat × Packet) => decide (e.1 < k) && e.2.fn == p.fn && e.2.q == p.q).map fun (e : Nat × Packet) => e.2

/-- A packet may start (R181): validated, every earlier packet of its queue has started, no SIGNAL_WAIT before it is
open, and under FENCE, or for TIMESTAMP, every earlier one has retired. -/
def State.canStart (s : State) (k : Nat) (p : Packet) : Bool :=
  let es := s.earlier k p
  s.isRunning && p.stage == PStage.valid && p.subs.isEmpty &&
  es.all (fun e => (e.stage == PStage.started && e.kind != 3) || e.stage == PStage.finished) &&
  (!(bitAt (p.word 0) 8 || p.kind == 5) || es.isEmpty)

/-- Runs a packet of a kind when its turn has come, or while it goes on; a context that is no longer the function's
refuses it. -/
def runPacket (k kind op : Nat) (s : State) (f : Packet → State) : Res :=
  match s.packet k with
  | none => .next s
  | some p =>
    if p.kind ≠ kind ∨ (kind = 4 ∧ fld (p.word 4) 7 0 ≠ op) then .next s
    else if s.isRunning ∧ p.stage = PStage.started then .next (f p)
    else if s.canStart k p then (if s.owns p then .next (f p) else .next (s.finishPacket k 1 0x40 0 0))
    else .next s

/-- The packet has started and goes on. -/
def State.startPacket (s : State) (k : Nat) : State := s.modPacket k fun p => { p with stage := .started }

/-! ### Queues and doorbells -/

/-- The packet at the head of a queue is fetched from the ring; a function core files it in its mailbox, Lighthouse parses
its own (R178 to R180). -/
def State.fetchOne (s : State) (fn q : Nat) : State :=
  let x := s.queue fn q
  let a := hostPa (x.base.toNat / 4096 * 4096 + 64 * x.head.toNat)
  let (id, s) := s.fresh
  let ws := (List.range 8).map fun i => BitVec.ofNat 64 (ofBytes (s.peekN 0 (a + 8 * i) 8))
  let s := s.putPacket id { fn := fn, q := q, period := x.period, words := ws, stage := .fetched, status := 0, cause := 0,
                            slot := 0, detail := 0, subs := [], tiles := [], ticket := 0, syncOps := [], syncAccs := [],
                            syncSigs := [], newView := false, silent := false }
  let s := s.putQueue fn q { x with head := BitVec.ofNat 16 ((x.head.toNat + 1) % 2 ^ x.log2n.toNat), inflight := x.inflight + 1 }
  if fn = 16 then s.validate id
  else { s with front := { s.front with mail := tPut s.front.mail fn ((tFind s.front.mail fn).getD [] ++ [{ packet := id, bad := false, ns := 0 }]) } }

/-- Fetches from HEAD up to TAIL while the mailbox of 64 entries has room (R177, R180). -/
def State.fetchQueue (s : State) (fn q : Nat) : Nat → State
  | 0 => s
  | n + 1 =>
    let x := s.queue fn q
    let full := decide (fn ≠ 16) && decide (((tFind s.front.mail fn).getD []).length ≥ 64)
    if x.en = false ∨ x.head = x.tail ∨ full ∨ !s.isRunning then s
    else (s.fetchOne fn q).fetchQueue fn q n

/-- Fetches on every queue of a function. -/
def State.fetchAll (s : State) (fn : Nat) : State := (List.range 16).foldl (fun s q => s.fetchQueue fn q 65536) s

/-- A SIGNAL_WAIT reads its word (R183). -/
def State.pollSignal (s : State) (k : Nat) (p : Packet) : State :=
  match s.devRead p.ctx (p.word 4 % 2 ^ 57) 8 .r with
  | (s, .error f) => s.finishPacket k 2 f 0 0
  | (s, .ok bs) => if sigHolds (fld (p.word 5) 9 8) (ofBytes bs) (p.word 6) then s.finishPacket k 0 0 0 0 else s.startPacket k

/-- The SIGNAL_WAIT packets of a queue that are open. -/
def State.openWaits (s : State) (fn q : Nat) : List (Nat × Packet) :=
  s.front.packets.filter fun (e : Nat × Packet) => e.2.fn == fn && e.2.q == q && e.2.kind == 3 && e.2.stage == PStage.started

/-- A write to TAIL (R180): packets up to it are fetched, and open SIGNAL_WAITs of the queue read their words (R183). -/
def State.ring (s : State) (fn q : Nat) (tail : BitVec 16) : State :=
  let x := s.queue fn q
  let s := s.putQueue fn q { x with tail := BitVec.ofNat 16 (tail.toNat % 2 ^ x.log2n.toNat) }
  let s := (s.openWaits fn q).foldl (fun (s : State) e => s.pollSignal e.1 e.2) s
  s.fetchQueue fn q 65536

/-- A function and a queue that exist. -/
def isQueue (fn q : Nat) : Bool := decide (fn ≤ 16) && decide (q < 16)

/-- R180. A doorbell. -/
def execDoorbell (fn q : Nat) (tail : BitVec 16) (s : State) : Res :=
  .next (if s.isRunning ∧ isQueue fn q then s.ring fn q tail else s)

/-- EN goes from 0 to 1: HEAD, TAIL and the coalescing state restart, in a new enable period (R180, R188). -/
def State.enable (s : State) (fn q : Nat) : State :=
  let x := s.queue fn q
  if x.en then s
  else s.putQueue fn q { x with en := true, head := 0, tail := 0, inflight := 0, pend := none, period := x.period + 1 }

/-- EN goes from 1 to 0: fetching stops (R180). -/
def State.disable (s : State) (fn q : Nat) : State := s.putQueue fn q { s.queue fn q with en := false }

/-- R180. QCFG.EN goes from 0 to 1. -/
def execQueueEnable (fn q : Nat) (s : State) : Res := .next (if s.isRunning ∧ isQueue fn q then s.enable fn q else s)

/-- R180. QCFG.EN goes from 1 to 0. -/
def execQueueDisable (fn q : Nat) (s : State) : Res := .next (if s.isRunning ∧ isQueue fn q then s.disable fn q else s)

/-- R188. A queue's pending message fires once ICT microseconds have passed. -/
def execCoalesceTimer (fn q : Nat) (s : State) : Res :=
  match (s.queue fn q).pend with
  | some ns => .next (if (s.queue fn q).ict.toNat * 1000 ≤ ns then s.fire fn q else s)
  | none => .next s

/-! ### Mailboxes (R179) -/

/-- Lighthouse resets a function core: the requests in its mailbox are filed again, and it fetches from each HEAD. -/
def State.resetCore (s : State) (fn : Nat) : State :=
  let ms := ((tFind s.front.mail fn).getD []).map fun m => { m with bad := false, ns := 0 }
  ({ s with front := { s.front with mail := tPut s.front.mail fn ms } }).fetchAll fn

/-- R179. Lighthouse takes the oldest mailbox entry of a function core. -/
def execMailboxRequest (fn : Nat) (s : State) : Res :=
  match (tFind s.front.mail fn).getD [] with
  | [] => .next s
  | m :: r =>
    if !s.isRunning then .next s
    else if m.bad then .next (s.resetCore fn)
    else .next ((({ s with front := { s.front with mail := tPut s.front.mail fn r } }).validate m.packet).fetchAll fn)

/-- R179. A mailbox entry left unanswered for 100 ms resets the function core. -/
def execMailboxTimeout (fn : Nat) (s : State) : Res :=
  .next (if s.isRunning ∧ ((tFind s.front.mail fn).getD []).any (fun m => decide (100000000 ≤ m.ns)) then s.resetCore fn else s)

/-! ### Simple packets (R183) -/

/-- R183. SIGNAL_SET does no work. -/
def execSignalSet (p : Nat) (s : State) : Res := runPacket p 2 0 s fun _ => s.finishPacket p 0 0 0 0

/-- R183. NOP does no work. -/
def execNop (p : Nat) (s : State) : Res := runPacket p 6 0 s fun _ => s.finishPacket p 0 0 0 0

/-- R183. TIMESTAMP records TIME when it starts. -/
def execTimestamp (p : Nat) (s : State) : Res := runPacket p 5 0 s fun _ => s.finishPacket p 0 0 0 s.time

/-- R183. SIGNAL_WAIT holds its queue until its word meets the condition. -/
def execSignalWait (p : Nat) (s : State) : Res := runPacket p 3 0 s fun x => s.pollSignal p x

/-- R183, R327. The watched word of a SIGNAL_WAIT packet, or of a warp that waits at `signal.wait`, is read again; a wait that then
ends is an instruction issued (R212, R224). -/
def execSignalWordPoll (p : Nat) (warp : Bool) (s : State) : Res :=
  if !s.isRunning then .next s
  else if warp then
    match s.warp p with
    | none => .next s
    | some x => match s.home x with
      | some (_, g, _) =>
        if !x.takeable.isEmpty ∨ x.debug ∨ x.wait.waits = false then .next s
        else match s.fetchInstr .scalar (dieOf x.core) g.ctx (g.kernel.image + g.kernel.soff) x.pc.toNat g.kernel.slen id with
          | (s, .ok (.signalWaitInsn b c cmp ext scope)) => match execSignalWaitInsn b c cmp ext scope { s with cur := .scalar p } with
            | .next u => .next (if u.scalarWaits p then u else (u.progress p).pmc (dieOf x.core) (some x.core) g.ctx 2 1)
            | r => r
          | _ => .next s
      | none => .next s
  else match s.packet p with
    | some x => .next (if x.kind = 3 ∧ x.stage = PStage.started then s.pollSignal p x else s)
    | none => .next s

/-- R183, R133. EDIT has the effect of `MAPEDIT`; while the page's migration is between cut-over and its last
acknowledgement it waits. -/
def execMapEdit (p : Nat) (s : State) : Res :=
  runPacket p 4 1 s fun x =>
    match s.ctx x.ctx with
    | none => s
    | some c =>
      let va := x.word 6
      match s.editRefused c va (x.word 7) with
      | some (f, _) => s.finishPacket p 1 f 0 0
      | none => if s.editWaits x.ctx (va / 65536) then s.startPacket p
                else (s.editLeaf x.ctx (va / 65536) (x.word 7) true).finishPacket p 0 0 0 0

/-- R183, R134. SYNC waits as `mapsync` does. -/
def execMapSync (p : Nat) (s : State) : Res :=
  runPacket p 4 2 s fun x =>
    let va := x.word 6
    let n := x.word 7
    if va / 2 ^ 57 ≠ 0 ∨ n > 2 ^ 25 then s.finishPacket p 1 0x01 0 0
    else
      let going : Bool := x.stage == PStage.started
      let accs := s.unmade (if going then x.syncAccs else s.oldOps x.ctx (va / 65536) n)
      let sigs := s.unsignalled (if going then x.syncSigs else s.oldSigs x.ctx (va / 65536) n)
      if accs.isEmpty ∧ sigs.isEmpty then s.finishPacket p 0 0 0 0
      else (s.startPacket p).modPacket p fun x => { x with syncAccs := accs, syncSigs := sigs }

/-- R183, R135. REFIT waits until the edits and cut-overs so far are folded in; DETAIL is the FIX count. -/
def execMapRefit (p : Nat) (s : State) : Res :=
  runPacket p 4 3 s fun x =>
    match s.ctx x.ctx with
    | none => s
    | some c =>
      let ticket := if x.stage = PStage.started then x.ticket else c.tickets
      if c.folded ≥ ticket then s.finishPacket p 0 0 0 (BitVec.ofNat 64 (s.fixCount x.ctx))
      else (s.startPacket p).modPacket p fun x => { x with ticket := ticket }

/-! ### Bundles (R184 to R186) -/

/-- Some bit of these words that no field names is set. -/
def reserved (ws : List Nat) : Bool := ws.any (· != 0)

/-- Validates a slot of a bundle: what it becomes, or the cause (R184, R185). -/
def State.acceptSlot (s : State) (slot : Nat) (ws : List Nat) (table : List Nat) : State × Except Cause (SubKind × Option Grid) :=
  let w (i : Nat) : Nat := (ws[i]?).getD 0
  match fld (w 0) 3 0 with
  | 0 => if reserved ws then (s, .error 0x01) else (s, .ok (.empty, none))
  | 1 => match s.acceptGrid slot ws none with
    | (s, .ok g) => (s, .ok (.empty, some g))
    | (s, .error e) => (s, .error e)
  | 2 =>
    let n := fld (w 0) 47 32
    if fld (w 0) 31 4 ≠ 0 ∨ fld (w 0) 63 48 ≠ 0 ∨ n = 0 ∨ w 1 % 32 ≠ 0 ∨ reserved (ws.drop 2) then (s, .error 0x01)
    else (s, .ok (.copy (w 1) n 0, none))
  | 3 =>
    if fld (w 0) 63 4 ≠ 0 ∨ reserved (ws.drop 2) then (s, .error 0x01)
    else match s.readWords slot (w 1) 8 .r with
      | (s, .error e) => (s, .error e)
      | (s, .ok dw) =>
        let d := CollDesc.ofWords dw
        if d.refused dw then (s, .error 0x01)
        else
          let peer (q : Nat) : Bool :=
            let x := (table[d.role q]?).getD 0
            bitAt x 63 && decide (fld x 58 56 = 2) && (s.routeOf (x % 2 ^ 56)).isSome
          if (if table.isEmpty then s.routes.isEmpty else !d.peers.all peer) then (s, .error 0x02)
          else (s, .ok (.coll (w 1) 0, none))
  | 4 => if fld (w 0) 7 4 ≠ 0 ∨ fld (w 0) 63 16 ≠ 0 ∨ reserved (ws.drop 1) then (s, .error 0x01)
         else (s, .ok (.refresh (fld (w 0) 15 8) [], none))
  | _ => (s, .error 0x01)

/-- Validates the slots in ascending order; the answer names the first slot that is refused. -/
def State.acceptSlots (s : State) (slot : Nat) (desc : List Nat) (table : List Nat) :
    State × Except (Nat × Cause) (List (SubKind × Option Grid)) :=
  (List.range 4).foldl (fun (a : State × Except (Nat × Cause) (List (SubKind × Option Grid))) i => match a.2 with
    | .error _ => a
    | .ok l => match a.1.acceptSlot slot ((desc.drop (8 * i)).take 8) table with
      | (s, .ok x) => (s, .ok (l ++ [x]))
      | (s, .error e) => (s, .error (i, e))) (s, .ok [])

/-- The binding table of a bundle's first GRID slot, for its COLL slots; unreadable words read 0. -/
def State.bundleTable (s : State) (slot : Nat) (desc : List Nat) : List Nat :=
  match (List.range 4).find? fun i => fld ((desc[8 * i]?).getD 0) 3 0 == 1 with
  | none => []
  | some i => match (s.readWords slot ((desc[8 * i + 4]?).getD 0) (fld ((desc[8 * i]?).getD 0) 22 16) .r).2 with
    | .ok t => if t.isEmpty then [0] else t
    | .error _ => [0]

/-- The accepted slots become sub-launches, and grids join the order list (R186, R197). -/
def State.takeIn (s : State) (k : Nat) (p : Packet) (l : List (SubKind × Option Grid)) : State :=
  let w0 := p.word 0
  (List.range l.length).foldl (fun (s : State) i => match l[i]? with
    | some (kd, none) =>
      let ended : Option (Nat × BitVec 8) := if kd = SubKind.empty then some (0, 0) else none
      s.modPacket k fun p => { p with subs := p.subs ++ [{ kind := kd, ended := ended, detail := 0 }] }
    | some (_, some g) =>
      let (id, s) := s.fresh
      let s := s.putGrid id { g with prio := fld w0 19 18, fc := fld w0 12 11, holdBit := bitAt w0 10, packet := some (k, i) }
      let s := { s with work := { s.work with order := s.work.order ++ [id] } }
      (s.confirm g).modPacket k fun p => { p with subs := p.subs ++ [{ kind := .grid id, ended := none, detail := 0 }] }
    | none => s) s

/-- R185, R186. A bundle is validated as a whole; refused, nothing of it starts. Without a GRID slot it starts at once,
otherwise the distributor starts it. -/
def execBundle (p : Nat) (s : State) : Res :=
  runPacket p 1 0 s fun x =>
    if x.stage = PStage.started then s
    else match s.readWords x.ctx (x.word 4 % 2 ^ 57) 32 .r with
      | (s, .error e) => s.finishPacket p 1 e 0 0
      | (s, .ok desc) =>
        if (List.range 4).all (fun i => fld ((desc[8 * i]?).getD 0) 3 0 == 0) then s.finishPacket p 1 0x01 0 0
        else match s.acceptSlots x.ctx desc (s.bundleTable x.ctx desc) with
          | (s, .error (i, e)) => s.finishPacket p 1 e i 0
          | (s, .ok l) =>
            let s := s.takeIn p x l
            if l.any (fun e => e.2.isSome) then s else s.startSubs p

/-! ### Hub copy jobs (R184) -/

/-- The next descriptor of a COPY slot is read, checked over its whole range, and becomes an operation, whose accesses go through
the dies that hold them (R12). -/
def State.nextCopy (s : State) (k : Nat) (p : Packet) (i va n next : Nat) : State :=
  if next ≥ n then s.endSub k i 0 0 0
  else match s.readWords p.ctx (va + 32 * next) 4 .r with
    | (s, .error e) => s.endSub k i 2 e 0
    | (s, .ok w) =>
      let src := (w[0]?).getD 0
      let dst := (w[1]?).getD 0
      let len := (w[2]?).getD 0
      if (w[3]?).getD 0 ≠ 0 ∨ len > 2 ^ 32 then s.endSub k i 2 0x01 0
      else match s.transRange 0 p.ctx none .r none src len with
        | (s, .error e) => s.endSub k i 2 e.1 0
        | (s, .ok (t1, l)) => match s.transRange 0 p.ctx none .w (some l) dst len with
          | (s, .error e) => s.endSub k i 2 e.1 0
          | (s, .ok (t2, _)) =>
            let t := mergeTrans t1 t2
            if t.any (fun e => e.2.poison) then s.endSub k i 2 0x14 0
            else
              let rows : Rows := if len = 0 then [] else [(src, dst, len)]
              let ps := match s.ctx p.ctx with
                | some c => copyPieces c 1 1 rows
                | none => []
              let (s, buf) := freeOverlap s rows
              let (id, s) := (s.accessAll none p.ctx t).fresh
              let s := s.putOp id {
                warp := 0, team := 0, grid := 0, ctx := p.ctx, die := 0, core := 0, cls := 0, kind := .move ps none,
                ret := .none, lab := l, trans := t, todo := List.range ps.length, got := [], buf := buf, wrote := [], staleN := 0,
                done := false, trap := none, slot := some (k, i), lanes := [], order := 0, rows := [] }
              s.modPacket k fun p => { p with subs := setAt p.subs i { kind := .copy va n (next + 1), ended := none, detail := 0 } }

/-- R184. A hub copy engine goes on with a COPY slot: a descriptor that has been performed ends, with its trap code if it
failed; otherwise the next one is read. -/
def execCopyDescriptor (launch slot : Nat) (s : State) : Res :=
  match s.isRunning, s.packet launch with
  | true, some p => match p.subs[slot]? with
    | some x => match x.kind, x.ended with
      | .copy va n next, none =>
        if p.stage ≠ PStage.started then .next s
        else match s.work.ops.find? fun e => e.2.slot == some (launch, slot) with
          | some (id, o) =>
            if !o.todo.isEmpty then .next s
            else
              let s := s.bumpTiles id o
              let s := { s with work := { s.work with ops := tDel s.work.ops id } }
              match o.trap with
              | some (c, _) => .next (s.endSub launch slot 2 c 0)
              | none => .next s
          | none => .next (s.nextCopy launch p slot va n next)
      | _, _ => .next s
    | none => .next s
  | _, _ => .next s

/-! ### Retirement (R187) -/

/-- The REFRESH slots whose tiles are all fresh or POISONED end, with the count of POISONED tiles (R157). -/
def State.endRefreshes (s : State) (k : Nat) : State :=
  match s.packet k with
  | none => s
  | some p =>
    if p.stage ≠ PStage.started then s
    else (List.range p.subs.length).foldl (fun (s : State) i => match p.subs[i]? with
      | some x => match x.kind, x.ended with
        | .refresh v ts, none =>
          if ts.all s.freshFor then
            let n := match s.ctx p.ctx with
              | some c => match tFind c.views v with
                | some y => (y.tiles.filter fun e => e.2.poisoned).length
                | none => 0
              | none => 0
            s.endSub k i 0 0 (BitVec.ofNat 64 n)
          else s
        | _, _ => s
      | none => s) s

/-- R187. A finished packet retires: with VWAIT once its tiles are fresh (R157), the record, the signal, INFLIGHT. -/
def execPacketRetire (p : Nat) (s : State) : Res :=
  if !s.isRunning then .next s
  else
    let s := s.endRefreshes p
    match s.packet p with
    | some x =>
      if x.stage ≠ PStage.finished ∨ (bitAt (x.word 0) 16 ∧ x.tiles.all s.freshFor = false) then .next s
      else .next (s.retirePacket p)
    | none => .next s

end Sys2Proof.Machine
end

