-- ==== Sys2Proof/Machine/LaneCvt.lean ====
section
/-!
DEFINITION. Lane conversions, packed dot products, quantisation (R359 to R365) and cross-lane operations (R366 to R369).
-/
namespace Sys2Proof.Machine

/-- R359. `cvt`. -/
def execCvt (f : LaneFields) (s : State) : Res :=
  runLane (.cvt f) legalL s fun k => k.flagged s k.lab fun l =>
    let (r, fl) := (nty f.ty.toNat).round (rmOf f.md) (f.imm.getLsbD 4) ((nty (f.imm.toNat % 16)).value (k.a l))
    (tyOut f.ty r, fl)

/-- The type under which `pack` reads its value (R360). -/
def packSrc (ty : Nat) : NTy :=
  match nty ty with
  | .flt _ => .flt fmtF32
  | .int _ sg => .int 32 sg

/-- R360. `pack`. -/
def execPack (f : LaneFields) (s : State) : Res :=
  runLane (.pack f) legalL s fun k =>
    let w := tyBits f.ty.toNat
    let j := f.imm.toNat % 8
    k.flagged s k.lab fun l =>
      let (r, fl) := (nty f.ty.toNat).round (rmOf f.md) (f.imm.getLsbD 3) ((packSrc f.ty.toNat).value (k.a l))
      let b := k.b l
      (b / 2 ^ (w * (j + 1)) * 2 ^ (w * (j + 1)) + r * 2 ^ (w * j) + b % 2 ^ (w * j), fl)

/-- R360. `unpk`. -/
def execUnpk (f : LaneFields) (s : State) : Res :=
  runLane (.unpk f) legalL s fun k =>
    let w := tyBits f.ty.toNat
    k.flagged s k.lab fun l =>
      let e := k.a l / 2 ^ (w * f.imm.toNat) % 2 ^ w
      match nty f.ty.toNat with
      | .flt t => fmtF32.round .rne false (t.value e)
      | .int _ _ => (tyOut f.ty e, 0)

/-- Element i of n packed elements of w bits (R262). -/
def elemAt (w x i : Nat) : Nat := x / 2 ^ (w * i) % 2 ^ w

/-- The dot product of n packed integers with an addend (R361). -/
def runDotI (i : Instr) (n w : Nat) (s : State) : Res :=
  runLane i legalL s fun k => k.result s k.lab 0 fun l =>
    let rd (u : Bool) (x j : Nat) : Int := let e := elemAt w x j; if u then (e : Int) else sextI e w
    truncI ((List.range n).foldl (fun t j =>
      t + rd (k.f.md.getLsbD 0) (k.a l) j * rd (k.f.md.getLsbD 1) (k.b l) j) (sextI (k.c l) 32)) 32

/-- R361. `dp4i`. -/
def execDp4i (f : LaneFields) (s : State) : Res := runDotI (.dp4i f) 4 8 s
/-- R361. `dp8i`. -/
def execDp8i (f : LaneFields) (s : State) : Res := runDotI (.dp8i f) 8 4 s

/-- The dot product of n packed floats with an f32 addend, rounded once (R362). -/
def runDotF (i : Instr) (n w : Nat) (s : State) : Res :=
  runLane i legalL s fun k =>
    let t := fltOf k.f.ty.toNat
    k.flagged s k.lab fun l =>
      accF32 (rmOf k.f.md) (k.c l) (stepSum ((List.range n).map fun j =>
        (t.value (elemAt w (k.a l) j), t.value (elemAt w (k.b l) j))))

/-- R362. `dp4f`. -/
def execDp4f (f : LaneFields) (s : State) : Res := runDotF (.dp4f f) 4 8 s
/-- R362. `dp8f`. -/
def execDp8f (f : LaneFields) (s : State) : Res := runDotF (.dp8f f) 8 4 s

/-- R363. `mxscale`: scale 0xFF gives the canonical NaN with no flag. -/
def execMxscale (f : LaneFields) (s : State) : Res :=
  runLane (.mxscale f) legalL s fun k =>
    let t := fltOf f.ty.toNat
    k.flagged s k.lab fun l =>
      if k.b l % 256 = 255 then (t.nan.getD 0, 0) else t.round (rmOf f.md) false (scaleBy (k.b l) (t.value (k.a l)))

/-- The lanes of a group of 32 with their f32 values, +0 for those that do not take part (R364). -/
def LCtx.block (k : LCtx) (g : Nat) : List Num :=
  (List.range 32).map fun j => if memb k.part (32 * g + j) then fmtF32.value (k.a (32 * g + j)) else .fin false 0 0

/-- R364. `qcvt`: one MX block of each group of 32 lanes that has a participating lane. -/
def execQcvt (f : LaneFields) (s : State) : Res :=
  runLane (.qcvt f) legalL s fun k =>
    let n := f.imm.toNat
    let clip := if f.imm.getLsbD 13 then some (fld n 6 0, fld n 12 7) else none
    let q (g : Nat) := quantBlock f.ty.toNat clip (k.block g)
    let groups := (List.range ((k.q.x.width + 31) / 32)).filter fun g => k.part.any fun l => l / 32 == g
    let qs := groups.map fun g => (g, q g)
    k.result s k.lab (joinFlags (qs.map fun e => e.2.2.2)) fun l =>
      match qs.find? fun e => e.1 == l / 32 with
      | some (_, sc, cs, _) => sc * 256 + (cs[l % 32]?).getD 0
      | none => 0

/-- R365. `dqcvt`: scale 0xFF and NaN codes give the canonical NaN with no flag. -/
def execDqcvt (f : LaneFields) (s : State) : Res :=
  runLane (.dqcvt f) legalL s fun k => k.flagged s k.lab fun l =>
    let c := k.a l / 256 % 256
    if c = 255 then (0x7FC00000, 0)
    else fmtF32.round (rmOf f.md) false (scaleBy c (mxValue f.ty.toNat (k.a l % 2 ^ tyBits f.ty.toNat)))

/-! ### Cross-lane operations -/

/-- A of a source lane of `Active()`, and A of the lane itself where that lane is absent (R345, R366). -/
def LCtx.from (k : LCtx) (l : Nat) (src : Int) : Nat :=
  if 0 ≤ src ∧ memb k.act src.toNat then k.a src.toNat else k.a l

/-- R366. `shfl`. -/
def execShfl (f : LaneFields) (s : State) : Res :=
  runLane (.shfl f) legalL s fun k => k.result s k.lab 0 fun l => k.from l (k.b l)

/-- R366. `shflx`. -/
def execShflx (f : LaneFields) (s : State) : Res :=
  runLane (.shflx f) legalL s fun k => k.result s k.lab 0 fun l =>
    k.from l (match f.md.toNat with
      | 0 => ((l ^^^ k.b l : Nat) : Int)
      | 1 => (l : Int) - (k.b l : Int)
      | _ => (l : Int) + (k.b l : Int))

/-- Combines two values under OP of R367. -/
def redOp (ty : BitVec 4) (op a b : Nat) : Nat × Flags :=
  let w := tyBits ty.toNat
  if ty = 4 then match op with
    | 0 => fAdd fmtF32 .rne a b
    | 1 => fPick fmtF32 false a b
    | _ => fPick fmtF32 true a b
  else match op with
    | 0 => ((a + b) % 2 ^ w, 0)
    | 1 => (if tyInt ty b < tyInt ty a then b else a, 0)
    | 2 => (if tyInt ty a < tyInt ty b then b else a, 0)
    | 3 => (a &&& b, 0)
    | 4 => (a ||| b, 0)
    | _ => (a ^^^ b, 0)

/-- The value with which a combination begins: a NaN of f32 becomes canonical, and a signalling one raises NV (R264). -/
def redFirst (ty : BitVec 4) (a : Nat) : Nat × Flags :=
  if ty = 4 ∧ (fmtF32.value a).isNan then (fmtF32.nan.getD 0, sigFlag [fmtF32.value a]) else (a, 0)

/-- The running combinations over participating lanes in ascending order (R367): lane, value so far, flags so far. -/
def LCtx.scan (k : LCtx) : List (Nat × Nat × Flags) :=
  (k.part.foldl (fun (acc : List (Nat × Nat × Flags)) l =>
    match acc with
    | [] => [(l, redFirst k.f.ty (k.a l))]
    | (_, v, fl) :: _ => let (r, g) := redOp k.f.ty k.f.md.toNat v (k.a l); (l, r, fl ||| g) :: acc) []).reverse

/-- R367. `vred`. -/
def execVred (f : LaneFields) (s : State) : Res :=
  runLane (.vred f) legalL s fun k =>
    let (v, fl) := match k.scan.getLast? with
      | some (_, v, fl) => (v, fl)
      | none => (0, 0)
    k.result s k.lab fl fun _ => v

/-- R367. `vscan`. -/
def execVscan (f : LaneFields) (s : State) : Res :=
  runLane (.vscan f) legalL s fun k =>
    let sc := k.scan
    let fl := match sc.getLast? with
      | some (_, _, fl) => fl
      | none => 0
    k.result s k.lab fl fun l => match sc.find? fun e => e.1 == l with
      | some (_, v, _) => v
      | none => 0

/-- R368. `vvote`. -/
def execVvote (f : LaneFields) (s : State) : Res :=
  runLane (.vvote f) legalL s fun k =>
    let holds := k.part.filter fun l => k.a l != 0
    match f.md.toNat with
    | 0 => k.predResult s 0 fun _ => !holds.isEmpty
    | 1 => k.predResult s 0 fun _ => holds.length == k.part.length
    | _ => k.result s k.lab 0 fun _ => (maskOf holds).toNat

/-- R369. `vfirst`. -/
def execVfirst (f : LaneFields) (s : State) : Res :=
  runLane (.vfirst f) legalL s fun k => k.result s k.lab 0 fun _ => match k.part with
    | l :: _ => k.a l
    | [] => 0

end Sys2Proof.Machine
end

