-- ==== Sys2Proof/Machine/Seq.lean ====
section
/-!
DEFINITION. The meanings of the sequencer instructions (R384 to R403). Every instruction performs its whole effect at its
issue (log 14), so "until every earlier one has completed" always holds.
-/
namespace Sys2Proof.Machine

/-- What a sequencer instruction sees: its team's key, the team, its sequencer, grid and context. -/
structure QCtx where
  t : Nat
  y : Team
  q : Seqr
  g : Grid
  c : Ctx

/-- The team memory of the sequencer. -/
def QCtx.tm (k : QCtx) : Space := .team k.t

/-- The sequencer stops with a cause (R252): the team is killed, or the lowest-numbered warp left is to report it. -/
def QCtx.stop (k : QCtx) (s : State) (code : BitVec 8) : State :=
  if code = 0x20 ∨ code = 0x21 then (s.killTeam k.t code).removalCheck k.g.ctx
  else
    let s := s.modTeam k.t fun y => y.modSeq fun q => { q with run := .stopped code, waits := false }
    match s.firstWarp k.y with
    | some w => s.raise w { rank := 3, code := code, val := BitVec.ofNat 64 (k.q.sc.toNat * 2 ^ 32 + k.q.pc.toNat), lanes := 0,
                            entry := none, pcL := 0 }
    | none => s

/-- The instruction completes: its effect on the team, and the next instruction follows. -/
def QCtx.done (k : QCtx) (s : State) (f : Team → Team) : State :=
  s.modTeam k.t fun y => (f y).modSeq fun q => { q with pc := q.pc + 8, waits := false }

/-- The instruction completes and the stream goes on at a target (R399). -/
def QCtx.jump (k : QCtx) (s : State) (f : Team → Team) (pc : W32) : State :=
  s.modTeam k.t fun y => (f y).modSeq fun q => { q with pc := pc, waits := false }

/-- The instruction waits; it is examined again at the next issue. -/
def QCtx.wait (k : QCtx) (s : State) : State := s.modTeam k.t fun y => y.modSeq fun q => { q with waits := true }

/-- The frame of every sequencer instruction: who executes, and the first check of R385. -/
def runSeq (i : Instr) (s : State) (body : QCtx → State) : Res :=
  match s.cur with
  | .seq t => match s.team t with
    | some y => match y.seqr, s.grid y.grid with
      | some q, some g => match s.ctx g.ctx with
        | some c =>
          let k : QCtx := { t := t, y := y, q := q, g := g, c := c }
          if q.run ≠ .running then .next s
          else if legalStatic i then .next (body k) else .next (k.stop s 0x01)
        | none => .next s
      | _, _ => .next s
    | none => .next s
  | _ => .next s

/-- The value of a sequencer register. -/
def QCtx.m (k : QCtx) (r : BitVec 4) : Nat := (k.y.readM r.toNat).val.toNat
/-- The label of a sequencer register. -/
def QCtx.ml (k : QCtx) (r : BitVec 4) : Label := (k.y.readM r.toNat).lab

/-! ### Tiles (R290) and ranges (R385) -/

/-- The tiles that a shape uses. -/
def tilesOf (sh : BitVec 5) (acc : BitVec 3) : List Nat :=
  rangeFrom acc.toNat ((shapeM sh + 63) / 64 * ((shapeN sh + 63) / 64))

/-- The tile, row and column of an element. -/
def placeOf (sh : BitVec 5) (acc : BitVec 3) (i j : Nat) : Nat × Nat × Nat :=
  (acc.toNat + i / 64 * ((shapeN sh + 63) / 64) + j / 64, i % 64, j % 64)

/-- An element of the output. -/
def Team.out (y : Team) (sh : BitVec 5) (acc : BitVec 3) (i j : Nat) : W32 :=
  let p := placeOf sh acc i j
  y.elem p.1 p.2.1 p.2.2

/-- Writes an element of the output. -/
def Team.setOut (y : Team) (sh : BitVec 5) (acc : BitVec 3) (i j : Nat) (x : W32) : Team :=
  let p := placeOf sh acc i j
  y.setElem p.1 p.2.1 p.2.2 x

/-- The elements of the output, row by row. -/
def cells (sh : BitVec 5) : List (Nat × Nat) :=
  (List.range (shapeM sh)).flatMap fun i => (List.range (shapeN sh)).map fun j => (i, j)

/-- Every tile that the shape uses is with the sequencer (R41). -/
def QCtx.owns (k : QCtx) (sh : BitVec 5) (acc : BitVec 3) : Bool := (tilesOf sh acc).all fun n => k.y.tok n == .seq

/-- Orders 5 and 6 of R385: offsets to be multiples of 4, ranges within team memory, uncorrectable words in what is read
and in the words that a write covers in part; the errors of the words that it covers whole are gone (R67). -/
def QCtx.ranges (k : QCtx) (s : State) (al : List Nat) (rd wr : List (Nat × Nat)) : State × Option (BitVec 8) :=
  let size := s.spaceSize k.tm
  if al.any (fun o => o % 4 != 0) then (s, some 0x06)
  else if (rd ++ wr).any (fun r => decide (r.2 ≠ 0) && decide (r.1 + r.2 > size)) then (s, some 0x07)
  else
    let (s, bad) := rd.foldl (fun (a : State × Bool) r => let x := a.1.scanRead k.tm r.1 r.2; (x.1, a.2 || x.2.isSome)) (s, false)
    let (s, bad) := wr.foldl (fun (a : State × Bool) r => let x := a.1.scanWrite k.tm r.1 r.2; (x.1, a.2 || x.2.isSome)) (s, bad)
    if bad then (s, some 0x21)
    else (s.putSram k.tm (wr.foldl (fun (m : Sram) r => m.clean k.tm.word r.1 r.2) (s.sram k.tm)), none)

/-- Checks the tokens, then the ranges (orders 4 to 6 of R385), and goes on. -/
def QCtx.checked (k : QCtx) (s : State) (sh : BitVec 5) (acc : BitVec 3) (al : List Nat) (rd wr : List (Nat × Nat))
    (f : State → State) : State :=
  if k.owns sh acc then match k.ranges s al rd wr with
    | (s, some code) => k.stop s code
    | (s, none) => f s
  else k.stop s 0x05

/-- A little-endian word of team memory. -/
def QCtx.word (k : QCtx) (s : State) (off : Nat) : Nat := ofBytes (s.chipBytes k.tm off 4)

/-- The label of ranges of team memory. -/
def QCtx.labs (k : QCtx) (s : State) (rs : List (Nat × Nat)) : Label :=
  Label.joinAll (rs.map fun r => s.chipLab k.tm r.1 r.2)

/-- The columns of the output at which its tiles begin (R290). -/
def colBlocks (sh : BitVec 5) : List Nat := (List.range ((shapeN sh + 63) / 64)).map (64 * ·)

/-- Raises each tile of a shape to the label of what enters it (R386): `l` answers it from the tile's first row and column. -/
def raiseTiles (y : Team) (sh : BitVec 5) (acc : BitVec 3) (l : Nat → Nat → Label) : Team :=
  ((List.range ((shapeM sh + 63) / 64)).map (64 * ·)).foldl (fun (y : Team) i =>
    (colBlocks sh).foldl (fun (y : Team) j => y.raiseTile (placeOf sh acc i j).1 (l i j)) y) y

/-! ### Matrix operands (R387 to R390) -/

/-- One side of a format block: element code, block length, scaled or not. -/
structure Side where
  ty  : Nat
  blk : Nat
  sc  : Bool
  deriving DecidableEq, Repr

/-- The families of R388: 0 f32, 1 f16, 2 bf16, 3 narrow, 4 integer. -/
def Side.family (d : Side) : Nat :=
  if d.ty = 4 then 0 else if d.ty = 5 then 1 else if d.ty = 6 then 2
  else if d.ty = 1 ∨ (d.ty = 12 ∧ d.sc = false) then 4 else 3

/-- The width of an element in bits. -/
def Side.w (d : Side) : Nat := if d.ty = 1 then 4 else (nty d.ty).width

/-- A side read from its word; none where R388 refuses it. -/
def sideOf (x : Nat) : Option Side :=
  let ty := fld x 3 0
  let blk := fld x 5 4
  let sc := fld x 7 6
  if fld x 31 8 ≠ 0 ∨ blk = 3 ∨ sc ≥ 2 ∨ ((blk = 0) ≠ (sc = 0)) ∨ !(ty == 1 || (decide (4 ≤ ty) && decide (ty ≤ 12))) ∨
      (sc = 1 ∧ !(decide (7 ≤ ty) && decide (ty ≤ 12))) then none
  else some { ty := ty, blk := 8 * 2 ^ blk, sc := sc == 1 }

/-- Base K of a pair of formats (R273, R388). -/
def baseK (a b : Side) : Nat :=
  let w := min a.w b.w
  if a.w = 6 ∨ b.w = 6 ∨ w = 4 then 64 else if w = 8 then 32 else if w = 16 then 16 else 8

/-- Where one operand lies: rows (of A) or columns (of B), K, the offsets of its elements, scales and bitmap. -/
structure Opnd where
  d    : Side
  n    : Nat
  kk   : Nat
  off  : Nat
  scof : Nat
  bmof : Nat
  sp   : Bool

/-- Scale bytes per row. -/
def Opnd.nsc (o : Opnd) : Nat := if o.d.sc then o.kk / o.d.blk else 0

/-- The bytes of the bitmap. -/
def Opnd.bmLen (o : Opnd) : Nat := (o.n * o.kk + 7) / 8

/-- The ranges that enter the tile whose first row or column is `n0`: those of its rows; a sparse operand enters as a whole,
since the place of its values and its groups depend on the whole bitmap (R275, R390). -/
def Opnd.part (o : Opnd) (whole : List (Nat × Nat)) (n0 : Nat) : List (Nat × Nat) :=
  let m := min 64 (o.n - n0)
  let b := o.kk * o.d.w / 8
  if o.sp then whole
  else (if o.d.sc then [(o.scof + n0 * o.nsc, m * o.nsc)] else []) ++ [(o.off + n0 * b, m * b)]

/-- Ones among the low bits of a number. -/
def onesIn : Nat → Nat → Nat
  | 0, _ => 0
  | n + 1, x => x % 2 + onesIn n (x / 2)

/-- The offsets that must be aligned (R387). -/
def Opnd.aligns (o : Opnd) : List Nat := (if o.d.sc then [o.scof] else []) ++ (if o.sp then [o.bmof] else [])

/-- The ranges that it occupies (R389, R390); a bitmap beyond team memory stands alone, since it gives no count. -/
def Opnd.ranges (o : Opnd) (s : State) (tm : Space) : List (Nat × Nat) :=
  let sc := if o.d.sc then [(o.scof, o.n * o.nsc)] else []
  if o.sp then
    if o.bmof + o.bmLen > s.spaceSize tm then sc ++ [(o.bmof, o.bmLen)]
    else sc ++ [(o.bmof, o.bmLen), (o.off, (onesIn (o.n * o.kk) (ofBytes (s.chipBytes tm o.bmof o.bmLen)) * o.d.w + 7) / 8)]
  else sc ++ [(o.off, o.n * (o.kk * o.d.w / 8))]

/-- The codes of a dense row. -/
def denseCodes (w : Nat) : Nat → Nat → List (Option Nat)
  | 0, _ => []
  | k + 1, x => some (x % 2 ^ w) :: denseCodes w k (x / 2 ^ w)

/-- The codes of a sparse row from the bitmap and the value stream, and what is left of the stream. -/
def sparseCodes (w : Nat) : Nat → Nat → Nat → List (Option Nat) × Nat
  | 0, _, v => ([], v)
  | k + 1, b, v =>
    if b % 2 = 1 then let r := sparseCodes w k (b / 2) (v / 2 ^ w); (some (v % 2 ^ w) :: r.1, r.2)
    else let r := sparseCodes w k (b / 2) v; (none :: r.1, r.2)

/-- The rows of a sparse operand. -/
def sparseRows (w kk : Nat) : Nat → Nat → Nat → List (List (Option Nat))
  | 0, _, _ => []
  | n + 1, b, v => let r := sparseCodes w kk b v; r.1 :: sparseRows w kk n (b / 2 ^ kk) r.2

/-- Reads an operand: its rows of element codes with their scale codes (R389, R390). -/
def Opnd.read (o : Opnd) (s : State) (tm : Space) : List (List (Option (Nat × Nat))) :=
  let rows := if o.sp then
      let bm := ofBytes (s.chipBytes tm o.bmof o.bmLen)
      sparseRows o.d.w o.kk o.n bm (ofBytes (s.chipBytes tm o.off ((onesIn (o.n * o.kk) bm * o.d.w + 7) / 8)))
    else (List.range o.n).map fun i =>
      denseCodes o.d.w o.kk (ofBytes (s.chipBytes tm (o.off + i * (o.kk * o.d.w / 8)) (o.kk * o.d.w / 8)))
  (List.range o.n).zip rows |>.map fun r =>
    let sc := s.chipBytes tm (o.scof + r.1 * o.nsc) o.nsc
    ((List.range o.kk).zip r.2).map fun e => e.2.map fun c =>
      (c, if o.d.sc then ((sc[e.1 / o.d.blk]?).getD 0).toNat else 127)

/-- The value of an element (R388). -/
def Side.value (d : Side) (e : Nat × Nat) : Num :=
  if d.family = 4 then Num.ofInt (sextI e.1 d.w)
  else if d.sc then scaleBy e.2 (mxValue d.ty e.1)
  else (nty d.ty).value e.1

/-! ### Steps (R273, R275, R391, R393) -/

/-- The columns k of R275's sequence that is common to all outputs: for each k, whether some A[·, k] and some B[k, ·]
is present (a dense operand has them all). -/
def kMask (rows : List (List (Option (Nat × Nat)))) (kk : Nat) : List Bool :=
  rows.foldl (fun m r => (m.zip r).map fun e => e.1 || e.2.isSome) (List.replicate kk false)

/-- Keeps the elements at which a mask is true. -/
def selectBy {α : Type} (m : List Bool) (r : List α) : List α := (m.zip r).filterMap fun e => if e.1 then some e.2 else none

/-- The products of one output element as pairs of factors, group by group (R275). `inner` forms the sequence for each
output element separately; else `m` is the common sequence, and a group without a product is empty. -/
def stepGroups (inner : Bool) (base : Nat) (m : List Bool) (a b : Side) (ra rb : List (Option (Nat × Nat))) : List (List (Num × Num)) :=
  let both := (ra.zip rb).map fun e => match e.1, e.2 with
    | some x, some y => some (a.value x, b.value y)
    | _, _ => none
  if inner then chunks base both.length (both.filterMap id)
  else (chunks base both.length (selectBy m both)).map fun g => g.filterMap id

/-- The sum of integer products. -/
def intSum (g : List (Num × Num)) : Int :=
  match (stepSum g).1 with
  | .fin n m e => (if n then -(m : Int) else m) * 2 ^ e.toNat
  | _ => 0

/-- One output element after its steps, with the flags (R273, R274). -/
def accumulate (s32 : Bool) (gs : List (List (Num × Num))) (c : W32) : W32 × Flags :=
  gs.foldl (fun (a : W32 × Flags) g =>
    if g.isEmpty then a
    else if s32 then (BitVec.ofInt 32 ((a.1.toNat : Int) + intSum g), a.2)
    else
      let r := accF32 .rne a.1.toNat (stepSum g)
      (BitVec.ofNat 32 r.1, a.2 ||| r.2)) (c, 0)

/-- The whole accumulation: the team's tiles, the flags, and the number of steps. -/
def accumulateAll (y : Team) (sh : BitVec 5) (acc : BitVec 3) (zero s32 inner : Bool) (base : Nat) (a b : Side)
    (A B : List (List (Option (Nat × Nat)))) (kk : Nat) : Team × Flags × Nat :=
  let m := ((kMask A kk).zip (kMask B kk)).map fun e => e.1 && e.2
  let common := ((m.filter id).length + base - 1) / base
  ((List.range (shapeM sh)).zip A).foldl (fun (r : Team × Flags × Nat) ra =>
    ((List.range (shapeN sh)).zip B).foldl (fun (r : Team × Flags × Nat) cb =>
      let gs := stepGroups inner base m a b ra.2 cb.2
      let x := accumulate s32 gs (if zero then 0 else r.1.out sh acc ra.1 cb.1)
      (r.1.setOut sh acc ra.1 cb.1 x.1, r.2.1 ||| x.2, max r.2.2 (if inner then gs.length else common))) r) (y, 0, 0)

/-- Held elements that a wider K names and the latch does not have: the spec gives them no value (log 27). The latch keeps all that
it holds (R392). -/
def widenRow (s : State) (sp : Bool) (kk : Nat) (r : List (Option (Nat × Nat))) : State × List (Option (Nat × Nat)) :=
  if kk ≤ r.length then (s, r)
  else (List.range (kk - r.length)).foldl (fun (a : State × List (Option (Nat × Nat))) _ =>
    let (x, s) := a.1.freeNat
    let (c, s) := s.freeNat
    let (p, s) := s.freeNat
    (s, a.2 ++ [if sp ∧ p % 2 = 0 then none else some (x, c % 256)])) (s, r)

/-- Widens every row. -/
def widenRows (s : State) (sp : Bool) (kk : Nat) : List (List (Option (Nat × Nat))) → State × List (List (Option (Nat × Nat)))
  | [] => (s, [])
  | r :: rs =>
    let a := widenRow s sp kk r
    let b := widenRows a.1 sp kk rs
    (b.1, a.2 :: b.2)

/-- The column mismatches in the arrays that the instruction drives (R253, R394): at each a spare takes the column and the step is
performed again, until none is left. -/
def replay (s : State) (cores : List Nat) : State × Bool :=
  cores.foldl (fun (a : State × Bool) c =>
    let n := tGet a.1.residue 0 c
    let m := tGet a.1.belv.spares 4 c
    if a.2 ∨ n = 0 then a
    else
      let s := { a.1 with residue := tSet a.1.residue 0 c (n - (m + 1)),
                          belv := { a.1.belv with spares := tSet a.1.belv.spares 4 c (m - n) } }
      (s.count 0x28 c (min n m), decide (m < n))) (s, false)

/-- `mma` and `mmas`: `mode` is the SPM field of `mmas`. At which step the last mismatch comes when no spare is left, the spec does not
say: the number of steps completed before it is free (log 88). R19 and R224 do not say which core's unit counts the K-steps of a
`.pair` instruction that drives both arrays: that the even core, where the sequencer runs, counts each step once is the model's
choice (log 97). -/
def QCtx.matmul (k : QCtx) (s : State) (sh : BitVec 5) (acc : BitVec 3) (ra rb rf : BitVec 4) (mode : Option (BitVec 2))
    (zero reuse : Bool) : State :=
  let fo := k.m rf
  if fo % 32 ≠ 0 then k.stop s 0x06
  else if fo + 32 > s.spaceSize k.tm then k.stop s 0x07
  else match s.scanRead k.tm fo 32 with
    | (s, some _) => k.stop s 0x21
    | (s, none) =>
      let w (i : Nat) : Nat := k.word s (fo + 4 * i)
      match sideOf (w 0), sideOf (w 2) with
      | some a, some b =>
        let s32 : Bool := a.family == 4
        let kc := sh.getLsbD 0
        let spA := mode == some 0 || mode == some 2 || mode == some 3
        let spB := mode == some 1 || mode == some 2 || mode == some 3
        let base := baseK a b
        let kk := base * (if kc then 2 else 1)
        let agrees : Bool := match k.q.alatch with
          | none => true
          | some h => h.m == shapeM sh && h.kc == kc && h.ty == a.ty && h.blk == a.blk && h.sc == a.sc && h.sparse == spA
        if w 4 / 2 ≠ 0 ∨ w 7 ≠ 0 ∨ a.family ≠ b.family ∨ (w 4 % 2 == 1) ≠ s32 ∨ agrees = false then k.stop s 0x01
        else
          let oA : Opnd := { d := a, n := shapeM sh, kk := kk, off := k.m ra, scof := w 1, bmof := w 5, sp := spA }
          let oB : Opnd := { d := b, n := shapeN sh, kk := kk, off := k.m rb, scof := w 3, bmof := w 6, sp := spB }
          let rA := if k.q.alatch.isSome then [] else oA.ranges s k.tm
          let rB := oB.ranges s k.tm
          k.checked s sh acc ((if k.q.alatch.isSome then [] else oA.aligns) ++ oB.aligns) (rA ++ rB) [] fun s =>
            let (s, A, labA) : State × List (List (Option (Nat × Nat))) × Label := match k.q.alatch with
              | some h => let r := widenRows s spA kk h.rows; (r.1, r.2, h.lab)
              | none => (s, oA.read s k.tm, Label.join (k.labs s rA) (k.ml ra))
            let used := A.map (·.take kk)
            let held : Option ALatch := if reuse then
                some { m := shapeM sh, kc := kc, ty := a.ty, blk := a.blk, sc := a.sc, sparse := spA, rows := A, lab := labA }
              else none
            let lab (i j : Nat) : Label := Label.joinAll [
              match k.q.alatch with
              | some h => h.lab
              | none => Label.join (k.labs s (oA.part rA i)) (k.ml ra),
              k.labs s (oB.part rB j), s.chipLab k.tm fo 32, k.ml rb, k.ml rf]
            let (y, fl, steps) := accumulateAll k.y sh acc zero s32 (mode == some 3) base a b used (oB.read s k.tm) kk
            let cores := if k.g.kernel.pair ∧ 64 ≤ shapeM sh then [k.y.core, k.y.core + 1] else [k.y.core]
            let (s, dead) := if steps = 0 then (s, false) else replay s cores
            let (m, s) := if dead then s.freeNat else (0, s)
            let s := s.pmc (dieOf k.y.core) (some k.y.core) k.g.ctx 7 (if dead then m % steps else steps)
            if dead then k.stop s 0x20
            else k.done s fun z =>
              ((raiseTiles { z with tiles := y.tiles } sh acc lab).flag fl).modSeq fun q =>
                { q with alatch := held, sc := BitVec.ofNat 32 steps }
      | _, _ => k.stop s 0x01

/-- R391. Dense matrix multiply-accumulate. -/
def execMma (shape : BitVec 5) (acc : BitVec 3) (ra rb rf : BitVec 4) (zero reuse : Bool) (s : State) : Res :=
  runSeq (.mma shape acc ra rb rf zero reuse) s fun k => k.matmul s shape acc ra rb rf none zero reuse

/-- R393. Sparse matrix multiply-accumulate. -/
def execMmas (shape : BitVec 5) (acc : BitVec 3) (ra rb rf : BitVec 4) (spm : BitVec 2) (zero reuse : Bool) (s : State) : Res :=
  runSeq (.mmas shape acc ra rb rf spm zero reuse) s fun k => k.matmul s shape acc ra rb rf (some spm) zero reuse

/-- R395. `mzero`: whole tiles become +0 with the context's starting label. -/
def execMzero (shape : BitVec 5) (acc : BitVec 3) (s : State) : Res :=
  runSeq (.mzero shape acc) s fun k => k.checked s shape acc [] [] [] fun s =>
    k.done s fun y => (tilesOf shape acc).foldl (fun (y : Team) t =>
      { y with tiles := tDelRange y.tiles (4096 * t) 4096, tileLab := tSet y.tileLab y.lab0 t y.lab0 }) y

/-- The rows of an element range: base, pitch or the default, bytes per row. -/
def rowRanges (base pitch len n : Nat) : List (Nat × Nat) :=
  (List.range n).map fun i => (base + i * (if pitch = 0 then len else pitch), len)

/-- R396. `mload`. -/
def execMload (shape : BitVec 5) (acc : BitVec 3) (ra : BitVec 4) (pitch : BitVec 20) (s : State) : Res :=
  runSeq (.mload shape acc ra pitch) s fun k =>
    let rows := rowRanges (k.m ra) pitch.toNat (4 * shapeN shape) (shapeM shape)
    k.checked s shape acc [k.m ra, pitch.toNat] rows [] fun s =>
      let lab (i j : Nat) : Label :=
        Label.join (k.labs s (((rows.drop i).take 64).map fun r => (r.1 + 4 * j, min 256 (r.2 - 4 * j)))) (k.ml ra)
      k.done s fun y => raiseTiles (((List.range (shapeM shape)).zip rows).foldl (fun (y : Team) r =>
        (List.range (shapeN shape)).foldl (fun (y : Team) j =>
          y.setOut shape acc r.1 j (BitVec.ofNat 32 (k.word s (r.2.1 + 4 * j)))) y) y) shape acc lab

/-- Writes the part of a row that lies in each tile, with that tile's label and the register's (R386): `bs` answers the bytes
of the part that begins at a column, `off` their place. -/
def QCtx.storeRow (k : QCtx) (s : State) (sh : BitVec 5) (acc : BitVec 3) (i : Nat) (r : BitVec 4) (off : Nat → Nat)
    (bs : Nat → List Byte) : State :=
  (colBlocks sh).foldl (fun (s : State) j =>
    s.chipStore k.tm (off j) (bs j) (Label.join (k.y.labT (placeOf sh acc i j).1) (k.ml r))) s

/-- R396. `mstore`. -/
def execMstore (shape : BitVec 5) (acc : BitVec 3) (ra : BitVec 4) (pitch : BitVec 20) (s : State) : Res :=
  runSeq (.mstore shape acc ra pitch) s fun k =>
    let rows := rowRanges (k.m ra) pitch.toNat (4 * shapeN shape) (shapeM shape)
    k.checked s shape acc [k.m ra, pitch.toNat] [] rows fun s =>
      let s := ((List.range (shapeM shape)).zip rows).foldl (fun (s : State) r =>
        k.storeRow s shape acc r.1 ra (r.2.1 + 4 * ·) fun j =>
          (rangeFrom j (min 64 (shapeN shape - j))).flatMap fun j => toBytes 4 (k.y.out shape acc r.1 j).toNat) s
      k.done s id

/-- The value of an output element: FP32, or an S32 integer (R397, R398). -/
def outNum (src : Bool) (x : W32) : Num := if src then Num.ofInt x.toInt else fmtF32.value x.toNat

/-- A row quantised: its scale codes, element codes and flags (R397). -/
def quantRow (fmt : Nat) (clip : Option (Nat × Nat)) (xs : List Num) : List Nat × List Nat × Flags :=
  if fmt = 6 then
    let rs := xs.map (fmtBf16.round .rne false)
    ([], rs.map (·.1), joinFlags (rs.map (·.2)))
  else (chunks 32 xs.length xs).foldl (fun (a : List Nat × List Nat × Flags) b =>
    let (c, cs, fl) := quantBlock fmt clip b
    (a.1 ++ [c], a.2.1 ++ cs, a.2.2 ||| fl)) ([], [], 0)
/-- Element codes packed as a bit stream (R262). -/
def packCodes (w : Nat) : List Nat → Nat
  | [] => 0
  | c :: r => c % 2 ^ w + 2 ^ w * packCodes w r

/-- R397. `mquant`. -/
def execMquant (shape : BitVec 5) (acc : BitVec 3) (ra rb : BitVec 4) (fmt : BitVec 4) (clip : Bool) (p : BitVec 7) (f : BitVec 6)
    (src : Bool) (pitch : BitVec 13) (s : State) : Res :=
  runSeq (.mquant shape acc ra rb fmt clip p f src pitch) s fun k =>
    let w := (targetBits fmt.toNat).getD 8
    let len := shapeN shape * w / 8
    let nsc := if fmt = 6 then 0 else shapeN shape / 32
    let rows := rowRanges (k.m ra) pitch.toNat len (shapeM shape)
    k.checked s shape acc [k.m ra, pitch.toNat] [] (rows ++ [(k.m rb, shapeM shape * nsc)]) fun s =>
      let (s, fl) := ((List.range (shapeM shape)).zip rows).foldl (fun (a : State × Flags) r =>
        let (scs, cs, fl) := quantRow fmt.toNat (if clip then some (p.toNat, f.toNat) else none)
          ((List.range (shapeN shape)).map fun j => outNum src (k.y.out shape acc r.1 j))
        let s := k.storeRow a.1 shape acc r.1 ra (fun j => r.2.1 + j * w / 8) fun j =>
          let cs := (cs.drop j).take 64
          toBytes (cs.length * w / 8) (packCodes w cs)
        let s := if nsc = 0 then s
          else k.storeRow s shape acc r.1 rb (fun j => k.m rb + r.1 * nsc + j / 32) fun j =>
            ((scs.drop (j / 32)).take 2).map (BitVec.ofNat 8)
        (s, a.2 ||| fl)) (s, 0)
      k.done s fun y => y.flag fl

/-- One element of `mscale` (R398): a NaN factor first, then 0 × Inf. -/
def scaleElem (x r c : Num) : Nat × Flags :=
  if x.isNan ∨ r.isNan ∨ c.isNan then (0x7FC00000, sigFlag [x, r, c])
  else
    let (p, f1) := x.mul r
    let (q, f2) := if p.isNan then (p, 0) else p.mul c
    let (o, f3) := fmtF32.round .rne false q
    (o, f1 ||| f2 ||| f3)

/-- R398. `mscale`. -/
def execMscale (shape : BitVec 5) (acc : BitVec 3) (ra rb : BitVec 4) (src col row : Bool) (s : State) : Res :=
  runSeq (.mscale shape acc ra rb src col row) s fun k =>
    let rd := (if row then [(k.m ra, 4 * shapeM shape)] else []) ++ (if col then [(k.m rb, 4 * shapeN shape)] else [])
    k.checked s shape acc (rd.map (·.1)) rd [] fun s =>
      let vec (on : Bool) (base i : Nat) : Num := if on then fmtF32.value (k.word s (base + 4 * i)) else Num.one
      let lab (i j : Nat) : Label := Label.joinAll [
        if row then Label.join (k.labs s [(k.m ra + 4 * i, 4 * min 64 (shapeM shape - i))]) (k.ml ra) else 0,
        if col then Label.join (k.labs s [(k.m rb + 4 * j, 4 * min 64 (shapeN shape - j))]) (k.ml rb) else 0]
      let (y, fl) := (cells shape).foldl (fun (a : Team × Flags) e =>
        let r := scaleElem (outNum src (k.y.out shape acc e.1 e.2)) (vec row (k.m ra) e.1) (vec col (k.m rb) e.2)
        (a.1.setOut shape acc e.1 e.2 (BitVec.ofNat 32 r.1), a.2 ||| r.2)) (k.y, 0)
      k.done s fun z => (raiseTiles { z with tiles := y.tiles } shape acc lab).flag fl

/-! ### Control (R399, R400, R403) -/

/-- R399. `mset`. -/
def execMset (ra : BitVec 4) (imm : W32) (s : State) : Res :=
  runSeq (.mset ra imm) s fun k => k.done s fun y => y.writeM ra.toNat ⟨imm, 0⟩

/-- R399. `madd`. -/
def execMadd (ra rb rf : BitVec 4) (reg : Bool) (imm : W32) (s : State) : Res :=
  runSeq (.madd ra rb rf reg imm) s fun k =>
    let b := k.y.readM rb.toNat
    let f := k.y.readM rf.toNat
    k.done s fun y => y.writeM ra.toNat (if reg then ⟨b.val + f.val, Label.join b.lab f.lab⟩ else ⟨b.val + imm, b.lab⟩)

/-- A branch target of the sequencer (R282). -/
def QCtx.target (k : QCtx) (disp : W32) : W32 := sectionTarget 0xFFFFFFF8 (k.q.pc.toNat + 8 * disp.toInt)

/-- R399. `mloop`: its counter's label stays. -/
def execMloop (ra : BitVec 4) (disp : W32) (s : State) : Res :=
  runSeq (.mloop ra disp) s fun k =>
    let c := k.y.readM ra.toNat
    let f := fun (y : Team) => y.writeM ra.toNat ⟨c.val - 1, c.lab⟩
    if c.val - 1 ≠ 0 then k.jump s f (k.target disp) else k.done s f

/-- R399. `mjmp`. -/
def execMjmp (disp : W32) (s : State) : Res := runSeq (.mjmp disp) s fun k => k.jump s id (k.target disp)

/-- R400. `mhalt` releases the latch and ends the stream. -/
def execMhalt (s : State) : Res :=
  runSeq .mhalt s fun k => s.modTeam k.t fun y => y.modSeq fun q => { q with alatch := none, run := .halted, waits := false }

/-- R403. `mfence`. -/
def execMfence (s : State) : Res := runSeq .mfence s fun k => k.done s id

/-! ### Barriers and tokens (R401, R402) -/

/-- Reads a barrier word (R67). -/
def QCtx.readBar (k : QCtx) (s : State) (n : BitVec 4) (f : State → State) : State :=
  match s.scanRead (.bar k.t) (8 * n.toNat) 8 with
  | (s, some _) => k.stop s 0x21
  | (s, none) => f s

/-- R401. `mwait`. -/
def execMwait (n ra : BitVec 4) (s : State) : Res :=
  runSeq (.mwait n ra) s fun k => k.readBar s n fun s =>
    if (k.y.bar n.toNat).phase ≠ (k.y.readM ra.toNat).val then k.done s id else k.wait s

/-- R401. `marrive`: an arrival; with TOK the token goes to m[ra] with label 0. -/
def execMarrive (n ra : BitVec 4) (tok : Bool) (e : BitVec 6) (s : State) : Res :=
  runSeq (.marrive n ra tok e) s fun k => k.readBar s n fun s =>
    match (k.y.bar n.toNat).arrive e with
    | none => k.stop s 0x04
    | some (b, t) => k.done s fun y =>
      let y := { y with bars := tSet y.bars ⟨0, 0, 0⟩ n.toNat b }
      if tok then y.writeM ra.toNat ⟨t, 0⟩ else y

/-- R402. `mtrel`. -/
def execMtrel (acc : BitVec 3) (s : State) : Res :=
  runSeq (.mtrel acc) s fun k =>
    match k.y.tok acc.toNat with
    | .seq => k.done s fun y => { y with tokens := tSet y.tokens .seq acc.toNat .offered }
    | _ => k.stop s 0x05

/-- R402. `mtacq`. -/
def execMtacq (acc : BitVec 3) (s : State) : Res :=
  runSeq (.mtacq acc) s fun k =>
    match k.y.tok acc.toNat with
    | .warps => k.wait s
    | _ => k.done s fun y => { y with tokens := tSet y.tokens .seq acc.toNat .seq }

end Sys2Proof.Machine
end

