-- ==== Sys2Proof/Machine/Views.lean ====
section
/-!
DEFINITION. View registration and rebuilds (R143 to R153), and the registration of nameless pools (R158, R159).
-/
namespace Sys2Proof.Machine

/-! ### View descriptors (R144, R146) -/

/-- A view from the words of its descriptor; the shards follow (R144). -/
def View.ofWords (w : List Nat) (shards : List (Nat × Nat)) : View :=
  let g (i hi lo : Nat) : Nat := fld ((w[i]?).getD 0) hi lo
  { mva := g 0 56 0, mld := g 1 51 28, ct := g 1 27 14, rt := g 1 13 0, dld := g 4 63 40, tfmt := BitVec.ofNat 4 (g 4 39 36),
    tiled := g 4 35 34 == 1, mbf16 := g 4 33 33 == 1, policy := BitVec.ofNat 2 (g 4 29 28), clip := g 4 27 26 == 1,
    clipp := g 4 25 19, clipf := g 4 18 13, shards := (g 2 56 0, g 3 56 0) :: shards, tiles := [], mark := false, revoked := [], live := false }

/-- A descriptor breaks R144 or R146 by its own words. -/
def viewBad (w : List Nat) : Bool :=
  let g (i hi lo : Nat) : Nat := fld ((w[i]?).getD 0) hi lo
  let v := View.ofWords w []
  decide (g 0 63 57 ≠ 0 ∨ g 1 63 52 ≠ 0 ∨ g 2 63 57 ≠ 0 ∨ g 3 63 57 ≠ 0 ∨ g 4 12 0 ≠ 0 ∨ g 5 63 57 ≠ 0 ∨ (w[6]?).getD 0 ≠ 0 ∨ (w[7]?).getD 0 ≠ 0) ||
  decide (g 4 35 34 > 1 ∨ g 4 29 28 = 3 ∨ g 4 27 26 > 1 ∨ v.tfmt.toNat < 6 ∨ v.tfmt.toNat > 12) ||
  decide (v.mva % v.esize ≠ 0 ∨ v.ct = 0 ∨ v.rt = 0 ∨ v.mld < 64 * v.ct ∨ v.clipp > 100 ∨ v.clipf > 32) ||
  (if v.tiled then decide (v.dld ≠ 0) else decide (v.dld % 64 ≠ 0 ∨ v.dld < 64 * v.ct)) ||
  decide (g 2 56 0 % 64 ≠ 0) || (v.scaled == decide (g 3 56 0 = 0)) || (decide (g 4 32 30 = 0) == decide (g 5 56 0 ≠ 0))

/-- A shard-table entry breaks the layouts of words 2 and 3 (R144). -/
def shardBad (v : View) (e : Nat × Nat) : Bool :=
  decide (e.1 / 2 ^ 57 ≠ 0 ∨ e.2 / 2 ^ 57 ≠ 0 ∨ e.1 % 64 ≠ 0) || (v.scaled == decide (e.2 = 0))

/-- The byte ranges of the master's elements, row by row. -/
def View.masterRanges (v : View) : List (Nat × Nat) :=
  (List.range (64 * v.rt)).map fun r => (v.mva + r * v.mld * v.esize, 64 * v.ct * v.esize)

/-- The pages of a list of ranges. -/
def rangePages (l : List (Nat × Nat)) : List Nat := (l.flatMap fun r => pagesOf r.1 r.2).eraseDups

/-- Lighthouse refuses a view for its pages, its overlaps or the room in the view store (R146). A view whose registration has been
accepted and still waits counts as the registered ones do (R148). -/
def State.viewRefused (s : State) (c : Ctx) (v : View) : Bool :=
  let mp := rangePages v.masterRanges
  let dp := rangePages v.destRanges
  let attr (p : Nat) : BitVec 19 := pteAttr (s.leaf c p)
  let bad (p : Nat) : Bool := s.leaf c p % 2 == 0 || !attrR (attr p) || attrTier (attr p) == 3 || attrPool (attr p) || !attrW (attr p)
  let top := Label.joinAll (mp.map fun p => attrLbl (attr p))
  let used := s.ctxs.foldl (fun n e => e.2.views.foldl (fun n x => n + x.2.rt * x.2.ct) n) 0
  mp.any bad || dp.any bad || dp.any (fun p => decide ((attrLbl (attr p)).toNat < top.toNat)) ||
  meetRanges v.masterRanges v.destRanges ||
  c.views.any (fun o => meetRanges v.masterRanges o.2.destRanges || meetRanges v.destRanges o.2.destRanges ||
    meetRanges v.destRanges o.2.masterRanges) ||
  decide (used + v.rt * v.ct > 4194304)

/-- WATCH in a leaf. -/
def setWatch (pte : Nat) (b : Bool) : Nat := pte - (if bitAt pte 16 then 2 ^ 16 else 0) + (if b then 2 ^ 16 else 0)

/-- POOL in a leaf. -/
def setPool (pte : Nat) (b : Bool) : Nat := pte - (if bitAt pte 17 then 2 ^ 17 else 0) + (if b then 2 ^ 17 else 0)

/-- Lighthouse changes a bit of the leaves of pages (R418). -/
def State.remark (s : State) (slot : Nat) (f : Nat → Nat) (pages : List Nat) : State :=
  pages.foldl (fun s p => match s.ctx slot with
    | some c => s.editLeaf slot p (f (s.leaf c p)) false
    | none => s) s

/-- Some page waits for its migration to end (R133 step 1, R418). -/
def State.anyWaits (s : State) (slot : Nat) (pages : List Nat) : Bool := pages.any (s.editWaits slot)

/-- The registration of an accepted view completes: every tile is stale and queued (R147). -/
def State.addView (s : State) (slot index : Nat) (v : View) : State :=
  let n := v.rt * v.ct
  let room := min n (65536 - s.stale.length)
  let tiles := (List.range n).map fun t => (t, { mv := 1, ft := 0, busy := false, poisoned := false, queued := true : VTile })
  let s := s.modCtx slot fun c => { c with views := tPut c.views index { v with tiles := tiles, mark := decide (room < n), live := true } }
  let s := { s with stale := s.stale ++ (List.range room).map fun t => (slot, index, t) }
  if room < n then s.count 0x35 (256 * slot + index) 1 else s

/-- The operations of a context that have taken one of some pages to write under a translation without WATCH and are not performed
(R147). -/
def State.plainWriters (s : State) (slot : Nat) (pages : List Nat) : List Nat :=
  (s.work.ops.filter fun e => e.2.ctx == slot && !e.2.done && e.2.trans.any fun t =>
    memb pages t.1 && t.2.wr && !attrWatch t.2.attr).map (·.1)

/-- R146, R147, R148. VIEWREG. At acceptance the descriptor is loaded and WATCH is set on every master page; registration waits for the
writes that translated one without it. -/
def execViewreg (p : Nat) (s : State) : Res :=
  runPacket p 4 4 s fun x =>
    let index := fld (x.word 5) 15 8
    let finish (s : State) (v : View) (ops : List Nat) : State :=
      match s.undone ops with
      | [] => (s.addView x.ctx index v).finishPacket p 0 0 0 0
      | l => (s.startPacket p).modPacket p fun y => { y with syncOps := l, newView := true }
    let refuse (s : State) : State := s.finishPacket p 1 0x01 0 0
    match s.ctx x.ctx with
    | none => s
    | some c =>
      if x.newView then match tFind c.views index with
        | some v => finish s v x.syncOps
        | none => s
      else match s.readWords x.ctx (x.word 6) 8 .r with
        | (s, .error _) => refuse s
        | (s, .ok w) =>
          if viewBad w ∨ (tFind c.views index).isSome then refuse s
          else match s.readWords x.ctx (fld ((w[5]?).getD 0) 56 0) (2 * fld ((w[4]?).getD 0) 32 30) .r with
            | (s, .error _) => refuse s
            | (s, .ok t) =>
              let sh := (List.range (t.length / 2)).map fun i => ((t[2 * i]?).getD 0, (t[2 * i + 1]?).getD 0)
              let v := View.ofWords w sh
              if sh.any (shardBad v) ∨ s.viewRefused c v then refuse s
              else
                let ps := rangePages v.masterRanges
                if s.anyWaits x.ctx ps then s
                else
                  let s := s.modCtx x.ctx fun c => { c with views := tPut c.views index v }
                  finish (s.remark x.ctx (setWatch · true) ps) v (s.plainWriters x.ctx ps)

/-- Gangs of the context lose the resolution of roles that name a view or pool (R176). -/
def State.unbind (s : State) (slot kind index : Nat) : State :=
  { s with work := { s.work with gangs := tMap s.work.gangs fun _ y => match s.grid y.grid with
    | some g => if g.ctx = slot then
        { y with ptgt := y.ptgt.filter fun e => !(fld (g.role e.1) 58 56 == kind && e.2.toNat == index) } else y
    | none => y } }

/-- What waits for tiles of a deregistered view no longer does (R156; for VWAIT and a refresh, log 82). -/
def State.forgetTiles (s : State) (slot index : Nat) : State :=
  let keep (ts : List TileVer) : List TileVer := ts.filter fun t => !(t.ctx == slot && t.view == index)
  { s with
    work := { s.work with
      warps := tMap s.work.warps fun _ x => { x with mwTiles := keep x.mwTiles }
      ops := tMap s.work.ops fun _ o => match o.kind with
        | .vfence os ts => { o with kind := .vfence os (keep ts) }
        | _ => o }
    front := { s.front with packets := tMap s.front.packets fun _ (p : Packet) => { p with
      tiles := keep p.tiles
      subs := p.subs.map fun (x : Sub) => match x.kind with
        | .refresh v ts => { x with kind := .refresh v (keep ts) }
        | _ => x } } }

/-- R148. VIEWDEREG waits for the view's rebuilds in flight, and for a registration that is not complete (log 89). R148 has no case for
an index that holds no view: the refusal is the model's choice (log 103). -/
def execViewdereg (p : Nat) (s : State) : Res :=
  runPacket p 4 5 s fun x =>
    let index := fld (x.word 5) 15 8
    match s.ctx x.ctx with
    | none => s
    | some c => match tFind c.views index with
      | none => s.finishPacket p 1 0x01 0 0
      | some v =>
        let others := (c.views.filter fun e => e.1 != index).flatMap fun e => rangePages e.2.masterRanges
        let ps := (rangePages v.masterRanges).filter fun q => !memb others q
        if s.units.any (fun e => e.2.ctx == x.ctx && e.2.view == index && !e.2.held) ∨ v.live = false ∨ s.anyWaits x.ctx ps then s.startPacket p
        else
          let s := s.putCtx x.ctx { c with views := tDel c.views index }
          let s := { s with
            stale := s.stale.filter (fun e => !(e.1 == x.ctx && e.2.1 == index)),
            units := s.units.filter fun e => !(e.2.ctx == x.ctx && e.2.view == index) }
          let s := s.remark x.ctx (setWatch · false) ps
          ((s.unbind x.ctx 5 index).forgetTiles x.ctx index).finishPacket p 0 0 0 0

/-! ### Pools (R158, R159) -/

/-- R159. POOLREG. -/
def execPoolreg (p : Nat) (s : State) : Res :=
  runPacket p 4 6 s fun x =>
    let index := fld (x.word 5) 15 8
    let refuse (s : State) : State := s.finishPacket p 1 0x01 0 0
    match s.ctx x.ctx with
    | none => s
    | some c => match s.readWords x.ctx (x.word 6) 4 .r with
      | (s, .error _) => refuse s
      | (s, .ok w) =>
        let g (i hi lo : Nat) : Nat := fld ((w[i]?).getD 0) hi lo
        let base := g 0 56 0
        let n := g 1 20 0
        let pages := rangeFrom (base / 65536) n
        let attr (q : Nat) : BitVec 19 := pteAttr (s.leaf c q)
        let bad (q : Nat) : Bool := s.leaf c q % 2 == 0 || !attrR (attr q) || !attrW (attr q) || attrWatch (attr q) || attrPool (attr q) ||
          decide (attrTier (attr q) > 1)
        let frames := pages.map fun q => ptePpn (s.leaf c q)
        if g 0 63 57 ≠ 0 ∨ g 1 63 21 ≠ 0 ∨ g 2 63 6 ≠ 0 ∨ g 2 4 4 ≠ 0 ∨ (w[3]?).getD 0 ≠ 0 ∨ base = 0 ∨ base % 65536 ≠ 0 ∨ n = 0 ∨ n > 2 ^ 20 ∨
            g 2 3 0 > 8 ∨ index > 15 ∨ (tFind c.pools index).isSome ∨ pages.any bad ∨ frames.eraseDups.length ≠ frames.length then refuse s
        else if s.anyWaits x.ctx pages then s
        else
          let s := pages.foldl (fun s q => s.firstUse (attrKey (attr q)) (ptePpn (s.leaf c q))) s
          let s := s.remark x.ctx (setPool · true) pages
          let pool : Pool := { base := base, pages := n, wfull := bitAt ((w[2]?).getD 0) 5, usz := 2 ^ (g 2 3 0 + 8), used := [], retired := [] }
          (s.modCtx x.ctx fun c => { c with pools := tPut c.pools index pool }).finishPacket p 0 0 0 0

/-- R159. POOLDEREG waits for the pool's operations in flight. R159 has no case for an index that holds no pool: the refusal is the
model's choice (log 103). -/
def execPooldereg (p : Nat) (s : State) : Res :=
  runPacket p 4 7 s fun x =>
    let index := fld (x.word 5) 15 8
    match s.ctx x.ctx with
    | none => s
    | some c => match tFind c.pools index with
      | none => s.finishPacket p 1 0x01 0 0
      | some q =>
        let pages := rangeFrom (q.base / 65536) q.pages
        let busy := s.work.ops.any fun e => e.2.ctx == x.ctx && match e.2.kind with
          | .nstore k _ _ => k == index
          | .relq k _ _ => k == index
          | _ => false
        if busy ∨ s.anyWaits x.ctx pages then s.startPacket p
        else
          let s := s.putCtx x.ctx { c with pools := tDel c.pools index, poolLast := tDel c.poolLast index }
          let s := s.remark x.ctx (setPool · false) pages
          (s.unbind x.ctx 6 index).finishPacket p 0 0 0 0

/-! ### Rebuilds (R151, R152) -/

/-- Changes a tile. -/
def State.modTile (s : State) (slot view tile : Nat) (f : VTile → VTile) : State :=
  s.modCtx slot fun c => { c with views := tMod c.views view fun v => { v with tiles := tMod v.tiles tile f } }

/-- A tile. -/
def State.tile (s : State) (slot view tile : Nat) : Option VTile :=
  match s.ctx slot with
  | some c => match tFind c.views view with
    | some v => tFind v.tiles tile
    | none => none
  | none => none

/-- A device service reads master bytes of one page: none where the rebuild fails; the page's label otherwise (R152). -/
def State.masterRead (s : State) (slot : Nat) (v : View) (va n : Nat) : State × Option (List Byte × Label) :=
  if memb v.revoked (va / 65536) then (s, none)
  else match s.translate 0 slot none va .r with
    | (s, .ok t) =>
      let (s, bad) := s.meetLines 3 slot va n t
      if bad then (s, none) else (s, some (s.peekN (attrKey t.attr) (t.ppn * 65536 + va % 65536) n, attrLbl t.attr))
    | (s, .poison) => (s.markListed slot (va / 65536), none)
    | (s, .fault _) => (s, none)

/-- The address of the master elements of row `i` (0 to 63) of a tile, and their bytes (R145). -/
def View.masterAddr (v : View) (tile i : Nat) : Nat × Nat :=
  (v.mva + ((64 * (tile / v.ct) + i) * v.mld + 64 * (tile % v.ct)) * v.esize, 64 * v.esize)

/-- The master bytes of a row of a tile, page by page. -/
def State.masterRow (s : State) (slot : Nat) (v : View) (tile i : Nat) : State × Option (List Byte × Label) :=
  let (va, n) := v.masterAddr tile i
  (pagesOf va n).foldl (fun (a : State × Option (List Byte × Label)) q =>
    match a.2 with
    | none => a
    | some (bs, l) =>
      let lo := max va (q * 65536)
      let hi := min (va + n) ((q + 1) * 65536)
      match a.1.masterRead slot v lo (hi - lo) with
      | (s, some (b, m)) => (s, some (bs ++ b, Label.join l m))
      | (s, none) => (s, none)) (s, some ([], 0))

/-- The bytes of a converted row with their addresses, and its nonfinite blocks (R151 steps 2 and 3, R145). -/
def View.convertRow (v : View) (tile i : Nat) (bs : List Byte) : List (Nat × Byte) × Nat :=
  let codes := elems v.esize bs
  let xs := codes.map fun c => (if v.mbf16 then fmtBf16 else fmtF32).value c
  let (a, len) := v.rowAddr tile i
  if v.scaled then
    let (scs, cs, _) := quantRow v.tfmt.toNat (if v.clip then some (v.clipp, v.clipf) else none) xs
    let el := toBytes len (packCodes (viewBits v.tfmt) cs)
    let put (i : Nat) (b : Nat) : List (Nat × Byte) := ((scs[b]?).map fun c => (v.scaleAddr tile i b, BitVec.ofNat 8 c)).toList
    (((List.range len).zip el).map (fun e => (a + e.1, e.2)) ++ put i 0 ++ put i 1,
      ((chunks 32 64 xs).filter fun b => b.any fun x => x.isNan || x.isInf).length)
  else
    let cs := if v.mbf16 then codes else (quantRow 6 none xs).2.1
    (((List.range len).zip (toBytes len (packCodes 16 cs))).map (fun e => (a + e.1, e.2)), 0)

/-- The whole snapshot and conversion of a tile: bytes, nonfinite blocks, data label; none where it fails. -/
def State.snapshot (s : State) (slot : Nat) (v : View) (tile : Nat) : State × Option (List (Nat × Byte) × Nat × Label) :=
  (List.range 64).foldl (fun (a : State × Option (List (Nat × Byte) × Nat × Label)) i =>
    match a.2 with
    | none => a
    | some (out, n, l) => match a.1.masterRow slot v tile i with
      | (s, none) => (s, none)
      | (s, some (bs, m)) =>
        let (o, k) := v.convertRow tile i bs
        (s, some (out ++ o, n + k, Label.join l m))) (s, some ([], 0, 0))

/-- A rebuild fails (R152): the tile is POISONED, FT stays. -/
def State.failRebuild (s : State) (unit slot view tile : Nat) : State :=
  let s := (s.modTile slot view tile fun t => { t with busy := false, poisoned := true }).count 0x34 (256 * slot + view) 1
  { s with units := tDel s.units unit }

/-- Steps 1 and 2 of a rebuild (R151): version noted, QUEUED cleared, BUSY set, the master read, which counts as accesses to its pages
(R89), and converted; nonfinite blocks are counted. -/
def State.beginRebuild (s : State) (unit slot view tile : Nat) : State :=
  match s.ctx slot, s.tile slot view tile with
  | some c, some t => match tFind c.views view with
    | none => s
    | some v =>
      let s := s.modTile slot view tile fun t => { t with queued := false, busy := true }
      match s.snapshot slot v tile with
      | (s, none) => s.failRebuild unit slot view tile
      | (s, some (out, n, l)) =>
        let s := s.serviceAccess slot .r (rangePages ((List.range 64).map (v.masterAddr tile)))
        let r : Rebuild := { ctx := slot, view := view, tile := tile, m := t.mv, out := out, lab := l, held := false }
        { s with units := tPut s.units unit r }.count 0x32 (256 * slot + view) n
  | _, _ => { s with units := tDel s.units unit }

/-- The first tile of a view that a sweep rebuilds (R151). -/
def View.sweepTile (v : View) : Option Nat := (v.tiles.find? fun e => e.2.queued && !e.2.busy).map (·.1)

/-- The first marked view. -/
def State.markedView (s : State) : Option (Nat × Nat × View) :=
  s.ctxs.findSome? fun e => (e.2.views.find? fun v => v.2.mark).map fun v => (e.1, v.1, v.2)

/-- R151. An Orangery unit takes the oldest entry of the stale queue, or with an empty queue sweeps a marked view. -/
def execRebuildSnapshot (unit : Nat) (s : State) : Res :=
  if !s.isRunning ∨ unit ≥ 4 then .next s
  else match tFind s.units unit with
    | some r =>
      let busy : Bool := match s.tile r.ctx r.view r.tile with
        | some t => t.busy
        | none => false
      .next (if r.held ∧ !busy then s.beginRebuild unit r.ctx r.view r.tile else s)
    | none => match s.stale with
      | (slot, view, tile) :: q =>
        let s := { s with stale := q }
        match s.tile slot view tile with
        | none => .next s
        | some t =>
          let r : Rebuild := { ctx := slot, view := view, tile := tile, m := 0, out := [], lab := 0, held := true }
          if t.busy then .next { s with units := tPut s.units unit r }
          else if t.queued then .next (s.beginRebuild unit slot view tile)
          else .next s
      | [] => match s.markedView with
        | none => .next s
        | some (slot, view, v) => match v.sweepTile with
          | some t => .next (s.beginRebuild unit slot view t)
          | none => .next (s.modCtx slot fun c => { c with views := tMod c.views view fun v => { v with mark := false } })

/-- A destination page is revoked, unmapped, not writable, or of a lower label than the data (R152). A page with POISON status is not
looked at further, as R130 answers POISON before it looks at the rights: that it fails no rebuild, although it may lack W or have a lower
LBL too, is the model's choice (log 119). -/
def State.destBad (s : State) (slot : Nat) (v : View) (lab : Label) (page : Nat) : Bool :=
  memb v.revoked page || match (s.translate 0 slot none (page * 65536) .w).2 with
    | .ok t => decide ((attrLbl t.attr).toNat < lab.toNat)
    | .poison => false
    | .fault _ => true

/-- Writes a rebuilt byte; a POISON page takes none (R87), and is marked (R86). -/
def State.publishByte (s : State) (slot va : Nat) (b : Byte) : State :=
  match s.translate 0 slot none va .w with
  | (s, .ok t) => match s.meetLine 0 slot va t with
    | (s, true) => s
    | (s, false) => s.pokeN (attrKey t.attr) (t.ppn * 65536 + va % 65536) [b]
  | (s, .poison) => s.markListed slot (va / 65536)
  | (s, .fault _) => s

/-- R151. A rebuilt tile is published: its bytes, then FT := m with BUSY and POISONED clear; or the rebuild fails. -/
def execRebuildPublish (unit : Nat) (s : State) : Res :=
  match s.isRunning, tFind s.units unit with
  | true, some r =>
    if r.held then .next s
    else match s.ctx r.ctx with
      | none => .next { s with units := tDel s.units unit }
      | some c => match tFind c.views r.view with
        | none => .next { s with units := tDel s.units unit }
        | some v =>
          let pages := (r.out.map fun e => e.1 / 65536).eraseDups
          if pages.any (s.destBad r.ctx v r.lab) then .next (s.failRebuild unit r.ctx r.view r.tile)
          else
            let s := s.serviceAccess r.ctx .w pages
            let s := r.out.foldl (fun (s : State) e => s.publishByte r.ctx e.1 e.2) s
            let s := s.modTile r.ctx r.view r.tile fun t => { t with ft := r.m, busy := false, poisoned := false }
            .next ({ s with units := tDel s.units unit }.count 0x33 (256 * r.ctx + r.view) 1)
  | _, _ => .next s

end Sys2Proof.Machine
end

