-- ==== Sys2Proof/Machine/Tide.lean ====
section
/-!
DEFINITION. The tide engine (R89 to R96), the refitter (R136 to R138), the scrubbers (R82, R83), key rotation (R81), and the
links of main memory (R74).
-/
namespace Sys2Proof.Machine

/-! ### Hotness and the tide engine's choice (R89, R90) -/

/-- R89. Every DECAY milliseconds each hotness counter is halved. -/
def execHotnessDecay (s : State) : Res :=
  if s.isRunning ∧ max 1 (s.tidef 31 24) * 1000000 ≤ s.mgmt.decayNs then
    .next ((s.modMgmt fun m => { m with decayNs := 0 }).modMem fun m => { m with
      hot := m.hot.filterMap fun e => if e.2 / 2 = 0 then none else some (e.1, e.2 / 2) })
  else .next s

/-- Frames of a range in use or on the poisoned-frame list. -/
def State.taken (s : State) (lo n : Nat) : Nat :=
  ((s.mem.refs.map (fun (e : Nat × Nat) => e.1) ++ s.mem.listed).eraseDups.filter fun f => decide (lo ≤ f) && decide (f < lo + n)).length

/-- The low-water mark of a number of frames (R91). -/
def State.lowMark (s : State) (n : Nat) : Nat := s.tidef 15 8 * n / 256

/-- Free LPDDR frames. -/
def State.freeLp (s : State) : Nat := 0x1000000 - s.taken 0x1000000 0x1000000

/-- Pressure begins below the low-water mark and ends at twice it (R90). -/
def pressed (old : Bool) (free low : Nat) : Bool := if free < low then true else if 2 * low ≤ free then false else old

/-- Brings the pressure marks up to date. -/
def State.settlePress (s : State) : State :=
  s.modMem fun m => { m with
    pressH := pressed m.pressH s.freeHbm (s.lowMark 0x800000), pressL := pressed m.pressL s.freeLp (s.lowMark 0x1000000) }

/-- A page is POISON: an entry says so, or its frame is listed. -/
def State.isPoison (s : State) (slot vpn pte : Nat) : Bool :=
  memb s.mem.listed (ptePpn pte) || match s.excHit 0 slot vpn with
    | some e => e.state == .poison
    | none => false

/-- The stack of a quadrant with the most free frames, the lowest of equals (R90). -/
def State.bestStack (s : State) (quad : Nat) : Nat :=
  (argMin (fun st => s.taken (2 ^ 20 * st + 2 ^ 18 * quad) (2 ^ 18)) (List.range 8)).getD 0

/-- The frame lies where R90 sends a promotion: the quadrant of the last sampling die; without a sample, anywhere. -/
def State.promoteTo (s : State) (src dst : Nat) : Bool :=
  match tFind s.mem.sampled src with
  | some q => decide (dst / 2 ^ 18 % 4 = q) && decide (dst / 2 ^ 20 = s.bestStack q)
  | none => true

/-- Every mapped page with its context. -/
def State.allPages (s : State) : List (Nat × Nat × Nat) :=
  s.ctxs.flatMap fun e => (s.leaves e.2).map fun p => (e.1, p.1, p.2)

/-- The order of demotion under pressure: COLD, ANY, PREFER_HBM; PIN_HBM never (R90). -/
def demoteRank (place : Nat) : Option Nat :=
  match place with
  | 3 => some 0
  | 0 => some 1
  | 1 => some 2
  | _ => none

/-- The demotion key of a page of a tier, if it is a candidate. -/
def State.demoteKey (s : State) (tier : Nat) (p : Nat × Nat × Nat) : Option Nat :=
  let a := pteAttr p.2.2
  let h := tGet s.mem.hot 0 (ptePpn p.2.2)
  if attrTier a = tier ∧ h ≤ s.tidef 39 32 ∧ s.movable p.1 p.2.1 p.2.2 then (demoteRank (attrPlace a)).map fun r => 256 * r + h else none

/-- A page is the next to be demoted from a tier under pressure. -/
def State.demoteNext (s : State) (tier : Nat) (p : Nat × Nat × Nat) : Bool :=
  match s.demoteKey tier p with
  | none => false
  | some k => s.allPages.all fun q => match s.demoteKey tier q with
    | some j => decide (k ≤ j)
    | none => true

/-- The tide engine's own policy sends a page to a frame (R90). UPTH/2 of an odd UPTH has no rounding in R90: that it is rounded down is
the model's choice (log 99). -/
def State.policy (s : State) (slot vpn pte dst : Nat) : Bool :=
  let a := pteAttr pte
  let src := ptePpn pte
  let h := tGet s.mem.hot 0 src
  let lower := if s.freeLp < s.lowMark 0x1000000 then 2 else 1
  let goal := (tierOf (dst * 65536)).getD 3
  match attrTier a with
  | 0 => goal == lower && ((attrPlace a == 3 && decide (h ≤ s.tidef 39 32)) || (s.mem.pressH && s.demoteNext 0 (slot, vpn, pte)))
  | t =>
    let hotEnough : Bool := match attrPlace a with
      | 0 => decide (s.tidef 47 40 ≤ h)
      | 1 => decide (s.tidef 47 40 / 2 ≤ h)
      | 2 => (tFind s.mem.sampled src).isSome
      | _ => false
    (goal == 0 && hotEnough && decide (s.lowMark 0x800000 < s.freeHbm) && s.promoteTo src dst) ||
    (t == 1 && goal == 2 && s.mem.pressL && s.demoteNext 1 (slot, vpn, pte))

/-! ### The end of a migration before its cut-over (R94, R95) -/

/-- The attributes with which a page in motion is accessed. -/
def State.migAttr (s : State) (m : Mig) : BitVec 19 :=
  match s.excHit 0 m.ctx m.vpn with
  | some e => e.attr
  | none => 0

/-- A migration whose source is lost ends: the page is POISON, dst is freed (R94). R94 calls this an end and no abort; that a page of a
`PLACE.req` counts in NABORT then, since it was neither moved nor skipped, is the model's choice (log 115). -/
def State.loseMig (s : State) (id : Nat) (m : Mig) : State :=
  let s := s.markPoison m.ctx m.vpn m.src (s.migAttr m)
  let s := (s.subRef m.dst).modMem fun x => { x with migs := tDel x.migs id }
  match m.op with
  | some o => s.modOp o fun x => match x.kind with
    | .place ps t st d k ab => { x with kind := .place (ps.filter (· != m.vpn)) t st d k (ab + 1) }
    | _ => x
  | none => s

/-- The src frame of a migration is lost (R94): it has a poison entry, on the list or in an exception table. -/
def State.srcLost (s : State) (m : Mig) : Bool :=
  memb s.mem.listed m.src || s.xlat.exc.any (fun e => e.2.state == .poison && e.2.ppn == m.src) ||
  match s.excHit 0 m.ctx m.vpn with
  | some x => x.state == .poison
  | none => false

/-- Some part of a frame lies behind a root port whose link is down (R74). -/
def State.frameDown (s : State) (ppn : Nat) : Bool := s.mem.down.any (s.frameOnPort ppn)

/-- Ends the migrations before cut-over that R94 or R95 ends: dst's frame is poisoned or lies behind a link that is down, src lies
behind one, or was lost other than by a line that the copy met. -/
def State.settleMigs (s : State) : State :=
  s.mem.migs.foldl (fun s e =>
    let m := e.2
    if m.cut ∨ (tFind s.mem.migs e.1).isNone then s
    else if memb s.mem.listed m.dst ∨ s.frameDown m.dst then s.endMig e.1 m 0x11
    else if s.frameDown m.src ∨ (!m.ue ∧ s.srcLost m) then s.loseMig e.1 m
    else s) s

/-! ### Claims (R92, R97) -/

/-- A claim: the entry IN_MOTION on all four dies, or the claim is withdrawn (R92, R128). -/
def State.claim (s : State) (slot vpn pte dst : Nat) (op : Option Nat) : State :=
  let e : Exc := { fix := true, state := .inMotion, vpn := vpn, ctx := slot, ppn := ptePpn pte, attr := pteAttr pte, dppn := dst }
  let (t, ok) := (List.range 4).foldl (fun (a : State × Bool) d => let r := a.1.insExc d e; (r.1, a.2 && r.2)) (s, true)
  if ok then
    let key := attrKey (pteAttr pte)
    let (id, t) := (((t.joinSlot key dst).firstUse key dst).addRef dst).fresh
    let m : Mig := { ctx := slot, vpn := vpn, src := ptePpn pte, dst := dst, c := 0, d := 0, pass := 0, pos := 0, ue := false, cut := false,
                     tomb := [], op := op }
    t.modMem fun x => { x with migs := tPut x.migs id m }
  else { s with freeCtr := t.freeCtr }.count 0x13 0 1

/-- The first `PLACE.req` of a context that still has a page to do. -/
def State.placeOp (s : State) (slot vpn : Nat) : Option (Nat × Op) :=
  s.work.ops.find? fun e => e.2.ctx == slot && match e.2.kind with
    | .place ps _ _ _ _ _ => memb ps vpn
    | _ => false

/-- A page of a `PLACE.req` is done or skipped. NDONE is the pages on tier T at completion (R97): that each page counts as it is when
it finishes, and is not looked at again when the record is written, is the model's choice (log 100). -/
def State.placeCount (s : State) (o vpn : Nat) (done : Bool) : State :=
  s.modOp o fun x => match x.kind with
    | .place ps t st d k ab => { x with kind := .place (ps.filter (· != vpn)) t st (d + b2n done) (k + b2n (!done)) ab }
    | _ => x

/-- Some frame of a tier is free. -/
def State.tierFree (s : State) (tier : Nat) : Bool := (s.lowFrame tier).isSome

/-- Some page of a `PLACE.req` waits for the tide engine, which takes such pages ahead of its own policy (R97). -/
def State.placeWaits (s : State) : Bool :=
  s.work.ops.any fun e => match e.2.kind with
    | .place ps _ _ _ _ _ => ps.any fun p => (s.migOf e.2.ctx p).isNone
    | _ => false

/-- The tide engine takes up a page of a `PLACE.req` (R97): done, skipped, or claimed for a frame of its tier. A PIN_HBM page
that lies on the tier asked for, other than HBM, is both one to skip and one that counts as done; that it counts as skipped is
the model's choice (log 52). -/
def State.placePage (s : State) (o : Nat) (x : Op) (slot vpn pte dst tier : Nat) : State :=
  let a := pteAttr pte
  let leased : Bool := match s.grid x.grid, s.ctx slot with
    | some g, some c => c.sys || (g.leases.any (fun l => l.allows vpn .r || l.allows vpn .w || l.allows vpn .x) && !memb g.revoked vpn)
    | _, _ => false
  if pte % 2 = 0 ∨ leased = false ∨ attrPool a ∨ attrTier a = 3 ∨ s.isPoison slot vpn pte ∨ (attrPlace a = 2 ∧ tier ≠ 0) then s.placeCount o vpn false
  else if attrTier a = tier then s.placeCount o vpn true
  else if (s.migOf slot vpn).isSome ∨ s.tidef 0 0 = 0 ∨ s.mem.migs.length ≥ 64 then s
  else if s.tierFree tier = false then s.placeCount o vpn false
  else if tierOf (dst * 65536) = some tier ∧ s.frameFree dst then s.claim slot vpn pte dst (some o)
  else s

/-- R92, R90, R97. The tide engine selects a page for a frame: a page of a request first, else by its own policy. A context whose root
is invalid (R256) has no page to move. -/
def execMigrationClaim (slot vpn dst : Nat) (s : State) : Res :=
  match s.isRunning, s.ctx slot with
  | true, some c =>
    if c.invalid then .next s
    else
      let s := s.settlePress
      let pte := s.leaf c vpn
      match s.placeOp slot vpn with
      | some (o, x) => match x.kind with
        | .place _ t _ _ _ _ => .next (s.placePage o x slot vpn pte dst t)
        | _ => .next s
      | none => if s.tidef 0 0 = 1 ∧ s.mem.migs.length < 64 ∧ s.placeWaits = false ∧ s.movable slot vpn pte ∧ s.frameFree dst ∧ s.policy slot vpn pte dst then
          .next (s.claim slot vpn pte dst none)
        else .next s
  | _, _ => .next s

/-! ### Copying and cut-over (R92 to R95) -/

/-- Copies one 64-byte line from src to dst; an uncorrectable line is copied as a poisoned one and the page becomes POISON
(R94). False when the write-verify at dst finds an error (R95). -/
def State.copy64 (s : State) (id : Nat) (m : Mig) (i : Nat) : State × Bool :=
  let a := s.migAttr m
  let from_ := m.src * 1024 + i
  let dest := m.dst * 1024 + i
  let (s, bad) := s.touchLine 2 from_
  if bad then
    let s := s.markPoison m.ctx m.vpn m.src a
    (s.modMem fun x => { x with poison := setAdd x.poison dest, latent := tDel x.latent dest, migs := tMod x.migs id fun y => { y with ue := true } }, true)
  else
    let s := s.pokeN (attrKey a) (64 * dest) (s.peekN (attrKey a) (64 * from_) 64)
    let (s, dead) := s.touchLine 4 dest
    (s, !dead)

/-- Copies one 256-byte line: C set, D cleared (R92). -/
def State.copyLine (s : State) (id i : Nat) : State × Bool :=
  match tFind s.mem.migs id with
  | none => (s, false)
  | some m =>
    let (s, ok) := (List.range 4).foldl (fun (a : State × Bool) j => let r := a.1.copy64 id m (4 * i + j); (r.1, a.2 && r.2)) (s, true)
    let bit : BitVec 256 := 1 <<< i
    (s.modMem fun x => { x with migs := tMod x.migs id fun y => { y with c := y.c ||| bit, d := y.d &&& ~~~bit, pos := i + 1 } }, ok)

/-- The next line of the pass that is to be copied. -/
def Mig.next (m : Mig) : Option Nat :=
  (rangeFrom m.pos (256 - m.pos)).find? fun i => if m.pass = 0 then !m.c.getLsbD i else m.d.getLsbD i

/-- R92. The tide engine copies and verifies one line of a page in MOTION, or ends the pass. -/
def execMigrationCopyLine (mig : Nat) (s : State) : Res :=
  if !s.isRunning then .next s
  else
    let s := s.settleMigs
    match tFind s.mem.migs mig with
    | none => .next s
    | some m =>
      if m.cut ∨ m.pass ≥ 4 ∨ (m.c = BitVec.allOnes 256 ∧ m.d = 0) then .next s
      else match m.next with
        | some i => match s.copyLine mig i with
          | (s, true) => .next s.settleMigs
          | (s, false) => .next ((s.endMig mig m 0x11).settleMigs)
        | none => .next (s.modMem fun x => { x with migs := tPut x.migs mig { m with pass := m.pass + 1, pos := 0 } })

/-- The operations that hold a translation of a page to a frame and are not done. -/
def State.onFrame (s : State) (ctx vpn ppn : Nat) : List Nat :=
  (s.work.ops.filter fun e => e.2.ctx == ctx && !e.2.done && match tFind e.2.trans vpn with
    | some t => t.ppn == ppn
    | none => false).map (·.1)

/-- R93 steps 1 to 5. With the page quiet or after four passes, the tombstone is set, the dirty lines are copied, and every
die's entry becomes MAPPED(dst); the tombstone forwards to dst the accesses that are on their way to src, and those of the warps
that wait at `signal.wait` with a translation to src. -/
def execCutOver (mig : Nat) (s : State) : Res :=
  if !s.isRunning then .next s
  else
    let s := s.settleMigs
    match tFind s.mem.migs mig with
    | none => .next s
    | some m =>
      if m.cut ∨ ¬((m.c = BitVec.allOnes 256 ∧ m.d = 0) ∨ m.pass ≥ 4) then .next s
      else
        let (s, ok) := ((List.range 256).filter fun i => m.d.getLsbD i).foldl (fun (a : State × Bool) i =>
          let r := a.1.copyLine mig i
          (r.1, a.2 && r.2)) (s, true)
        if !ok then .next (s.endMig mig m 0x11)
        else match tFind s.mem.migs mig with
          | none => .next s
          | some m =>
            let attr := pteAttr (movePte (2 * (s.migAttr m).toNat) m.dst ((tierOf (m.dst * 65536)).getD 0))
            let s := (s.insFix { fix := true, state := if m.ue then .poison else .mapped, vpn := m.vpn, ctx := m.ctx, ppn := m.dst, attr := attr, dppn := 0 }).1
            let s := s.moveHot m.src m.dst
            let tomb := s.onFrame m.ctx m.vpn m.src
            let s := s.modTrans m.ctx m.vpn fun t => if t.ppn = m.src then { t with ppn := m.dst } else t
            .next (s.modMem fun x => { x with migs := tPut x.migs mig { m with cut := true, tomb := tomb, d := 0 } })

/-- Every access on its way to src has arrived and been forwarded (R93 step 6). -/
def State.arrived (s : State) (m : Mig) : Bool :=
  m.tomb.all fun o => match s.op o with
    | some x => x.done
    | none => true

/-- R93 step 6. After the last acknowledgement the tombstone goes, the PTE is written, src is freed and the refitter is told. -/
def execCutoverAck (mig : Nat) (s : State) : Res :=
  match s.isRunning, tFind s.mem.migs mig with
  | true, some m => .next (if m.cut && s.arrived m then s.ackMig mig m else s)
  | _, _ => .next s

/-! ### The refitter (R136 to R138) -/

/-- A run of pages under construction (R137). -/
structure FitRun where
  vpn   : Nat
  ppn   : Nat
  attr  : BitVec 19
  slope : Nat
  count : Nat
  deriving DecidableEq, Repr, Inhabited

/-- The slope code of a PPN difference (R126). -/
def slopeCode (d : Nat) : Option Nat := (List.range 6).find? fun i => d == 2 ^ i

/-- Takes the next page into the runs (R137): the current run stands last. -/
def fitPage (rs : List FitRun) (p : Nat × Nat) : List FitRun :=
  let new : FitRun := { vpn := p.1, ppn := ptePpn p.2, attr := pteAttr p.2, slope := 0, count := 1 }
  match rs.getLast? with
  | none => [new]
  | some r =>
    let next := p.1 = r.vpn + r.count ∧ new.attr = r.attr
    if next ∧ r.count = 1 ∧ r.ppn < new.ppn ∧ (slopeCode (new.ppn - r.ppn)).isSome then
      rs.dropLast ++ [{ r with slope := new.ppn - r.ppn, count := 2 }]
    else if next ∧ 2 ≤ r.count ∧ new.ppn = r.ppn + r.count * r.slope ∧ r.count < 2 ^ 25 - 1 then
      rs.dropLast ++ [{ r with count := r.count + 1 }]
    else rs ++ [new]

/-- The segments of a window within a budget (R137): the longest runs, then slope 1, then the lower VSTART. -/
def chooseRuns (budget : Nat) (rs : List FitRun) : List FitRun :=
  let long := rs.filter fun r => decide (2 ≤ r.count)
  (sortBy (fun r => (2 ^ 26 - r.count) * 2 ^ 48 + (if r.slope = 1 then 0 else 2 ^ 47) + r.vpn) long).take budget

/-- The level-`l` entries of a node that covers pages of the window from `lo` to `hi`, read as an engine reads memory: the mapped pages of
the window below it (R121, R137) with their PTEs. The lines read are those that memory or an error lists. A page with a line on its path
that cannot be read belongs to no run, by the model's choice (log 106). -/
def State.readNodes (s : State) (lo hi : Nat) : Nat → Nat → Nat → State × List (Nat × Nat)
  | l, node, p =>
    let inWin (i n : Nat) : Bool := decide ((p * 8192 + i) * 8192 ^ l < hi) && decide (lo < (p * 8192 + i + n) * 8192 ^ l)
    let es := (s.nodeEntries node).filter fun i => inWin i 1
    let hurt := (s.mem.latent.map fun e => e.1).filter fun n => n / 1024 == node && inWin (8 * (n % 1024)) 8
    let ls := (es.map (· / 8) ++ hurt.map (· % 1024)).eraseDups
    let (s, bad) := ls.foldl (fun (a : State × List Nat) j =>
      let r := a.1.touchLine 0 (1024 * node + j)
      (r.1, if r.2 then j :: a.2 else a.2)) (s, [])
    let es := es.filter fun i => !memb bad (i / 8)
    match l with
    | 0 => (s, es.filterMap fun i =>
        let e := s.peek64 (node * 65536 + 8 * i)
        if e % 2 = 1 then some (p * 8192 + i, e) else none)
    | l + 1 => es.foldl (fun (a : State × List (Nat × Nat)) i =>
        let e := a.1.peek64 (node * 65536 + 8 * i)
        if e % 2 = 0 ∨ fld e 63 56 ≠ 0 ∨ fld e 19 1 ≠ 0 ∨ fld e 55 20 ≥ 0x800000 ∨ (l = 2 ∧ 4 ≤ i) then a
        else
          let r := a.1.readNodes lo hi l (fld e 55 20) (p * 8192 + i)
          (r.1, a.2 ++ r.2)) (s, [])

/-- R136 to R138. The refitter takes the oldest entry of the queue and rebuilds its window: read, install, retire, absorb. Every
edit of the window that has completed is folded in (R135); its own entry of the queue stays and asks for a refit of its own. -/
def execRefit (slot : Nat) (s : State) : Res :=
  match s.isRunning, s.ctx slot with
  | true, some c => match c.refitQ with
    | [] => .next s
    | (vpn, _) :: rest =>
      let b := vpn / 512 * 512
      let hit (g : Seg) : Bool := g.valid && decide (g.vstart < b + 512) && decide (b < g.vstart + g.count)
      let old := c.segs.filter hit
      let lo := old.foldl (fun n g => min n g.vstart) b
      let hi := old.foldl (fun n g => max n (g.vstart + g.count)) (b + 512)
      let inWin (v : Nat) : Bool := decide (lo ≤ v) && decide (v < hi)
      let (s, read) := s.readNodes lo hi 3 c.root 0
      let pages := read.filter fun p => !s.refuses (ptePpn p.2) (attrTier (pteAttr p.2))
      let seq := c.refitCtr + 1
      let new := (chooseRuns (2048 - c.segs.length) ((sortBy (fun (p : Nat × Nat) => p.1) pages).foldl fitPage [])).map fun r =>
        ({ valid := true, susp := false, vstart := r.vpn, seq := seq, slope := BitVec.ofNat 3 ((slopeCode r.slope).getD 0), pbase := r.ppn,
           count := r.count, attr := r.attr } : Seg)
      let open_ := c.toFold.filter fun e => !inWin e.1
      let folded := match open_ with
        | [] => c.tickets
        | (_, t) :: _ => t - 1
      let s := s.putCtx slot { c with segs := c.segs.filter (fun g => !hit g) ++ new, refitCtr := seq, refitQ := rest, toFold := open_, folded := folded }
      let absorbed (e : Exc) : Bool := e.fix && e.ctx == slot && inWin e.vpn && (e.state == .mapped || e.state == .unmapped) && (s.migOf slot e.vpn).isNone
      let s := { s with xlat := { s.xlat with exc := s.xlat.exc.filter fun e => !absorbed e.2 } }
      .next (s.count 0x05 slot 1)
  | _, _ => .next s

/-! ### Scrubbers (R82, R83) -/

/-- The lines of a scrubber's pass: a quadrant or a channel of 16 GiB. -/
def scrubLines : Nat := 2 ^ 28

/-- The line at a position of a unit's pass (R71, R72, R221): HBM quadrants 0 to 31, LPDDR channels 32 to 95. -/
def scrubLine (unit pos : Nat) : Nat :=
  if unit < 32 then (unit / 4 * 2 ^ 36 + unit % 4 * 2 ^ 34) / 64 + pos
  else (0x10000000000 + pos / 4 * 16384 + (unit - 32) * 256) / 64 + pos % 4

/-- A scrubber's state; a pass that begins with the device. -/
def State.scrubber (s : State) (unit : Nat) : Scrub := tGet s.mem.scrubs { pos := 0, step := 0, start := 0 } unit

/-- Stores a scrubber's state. -/
def State.putScrub (s : State) (unit : Nat) (x : Scrub) : State := s.modMem fun m => { m with scrubs := tPut m.scrubs unit x }

/-- R82. A scrubber reads the next line of its pass, corrects it or marks it; the last line ends the pass. -/
def execScrubRead (unit : Nat) (s : State) : Res :=
  if !s.isRunning ∨ unit ≥ 96 ∨ s.mgmt.scrub.getLsbD 0 = false then .next s
  else
    let x := s.scrubber unit
    let s := (s.touchLine 1 (scrubLine unit x.pos)).1
    let s := if x.pos + 1 = scrubLines then (s.putScrub unit { pos := 0, step := 0, start := s.time }).count 0x26 unit 1
      else s.putScrub unit { x with pos := x.pos + 1 }
    .next s.settleMigs

/-- The step that a lag calls for (R83); the lag is num / den. Past the deadline with a lag below 1/8 both the entry to step 4 and
the drop by one step apply; that a scrubber in step 4 drops to 3 and enters 4 again at the next event is the model's choice
(log 76). -/
def scrubStep (step : Nat) (num : Int) (den : Nat) (late : Bool) : Nat :=
  let above (n d : Nat) : Bool := decide ((n : Int) * den < num * d)
  let up := if late ∨ above 1 4 then 4 else if above 1 8 then 3 else if above 1 16 then 2 else if above 1 32 then 1 else 0
  let half : Nat := match step with
    | 1 => 64
    | 2 => 32
    | 3 => 16
    | _ => 8
  if step < up then up
  else if step > 0 ∧ num * half < den then step - 1
  else step

/-- R83. The escalator computes a scrubber's lag and sets its step. -/
def execScrubStepChange (unit : Nat) (s : State) : Res :=
  let dl := fld s.mgmt.scrub.toNat 35 20 * 60000000000
  if !s.isRunning ∨ unit ≥ 96 ∨ dl = 0 then .next s
  else
    let x := s.scrubber unit
    let el := (s.time - x.start).toNat
    let num : Int := (el * scrubLines : Nat) - (x.pos * dl : Nat)
    .next (s.putScrub unit { x with step := scrubStep x.step num (dl * scrubLines) (decide (dl ≤ el)) })

/-! ### Key rotation (R81) -/

/-- A fresh key identifier. -/
def State.newKey (s : State) : Nat × State := (s.mem.nextKey, s.modMem fun m => { m with nextKey := m.nextKey + 1 })

/-- R81. A key slot enters ROTATING with a fresh key; its sweeps name every recorded range of the slot. -/
def execKeyRotationStart (slot : Nat) (s : State) : Res :=
  match s.isRunning, tFind s.mem.keys slot with
  | true, some k =>
    if k.next.isSome then .next s
    else
      let (n, s) := s.newKey
      let k : KeySlot := { k with next := some n, sweeps := k.ranges.map fun r => { base := r.1, limit := r.2, ptr := r.1 } }
      .next (s.modMem fun m => { m with keys := tPut m.keys slot k })
  | _, _ => .next s

/-- R81. A sweep reseals the line at its pointer; when every range is done the slot is STEADY under the new key. An access to a line
behind a CXL link that is down completes with POISON status (R74), so nothing of it can be resealed: that the sweep waits there
until the port has been enumerated again is the model's choice (log 93). -/
def execKeySweepStep (slot range : Nat) (s : State) : Res :=
  match s.isRunning, tFind s.mem.keys slot with
  | true, some k => match k.next with
    | none => .next s
    | some n =>
      let s := match k.sweeps[range]? with
        | some w => if w.ptr < w.limit ∧ s.lineDown (w.ptr / 64) = false then ((s.touchLine 5 (w.ptr / 64)).1).modMem fun m => m.sweepLine slot range else s
        | none => s
      match tFind s.mem.keys slot with
      | some k =>
        if k.sweeps.all fun w => decide (w.limit ≤ w.ptr) then
          .next (s.modMem fun m => { m with keys := tPut m.keys slot { k with xts := n, next := none, sweeps := [] } })
        else .next s
      | none => .next s
  | _, _ => .next s

/-- SAVECTR has reached a multiple of 2^40: the context gets a fresh save key, once (R240). -/
def State.renewSaveKey (s : State) (slot : Nat) : State :=
  match s.ctx slot with
  | none => s
  | some c => match tFind s.mem.keys c.keySlot with
    | none => s
    | some k =>
      if c.prot ∧ k.epoch < c.savectr.toNat / 2 ^ 40 then
        let (n, s) := s.newKey
        s.modMem fun m => { m with keys := tPut m.keys c.keySlot { k with save := n, epoch := c.savectr.toNat / 2 ^ 40 } }
      else s

/-- R240. The renewal of a save key. -/
def execSaveKeyRenew (slot : Nat) (s : State) : Res := .next (s.renewSaveKey slot)

/-! ### CXL links (R74) -/

/-- R74, R94, R95. A root-port link goes down: migrations to it abort, migrations from it end with the page POISON. A frame
that the two ports share (R71) is lost with either. -/
def execCxlLinkDown (port : Nat) (s : State) : Res :=
  if !s.isRunning then .next s
  else
    let s := s.modMem fun m => { m with down := setAdd m.down port }
    .next s.settleMigs

/-- R74. Lighthouse re-enumerates a root port: accesses to its part of the window are performed again. -/
def execCxlPortReenumeration (port : Nat) (s : State) : Res :=
  .next (if s.isRunning then s.modMem fun m => { m with down := setDel m.down port } else s)

end Sys2Proof.Machine
end

