-- ==== Sys2Proof/Machine/Manage.lean ====
section
/-!
DEFINITION. The host's registers (R6, R7, R180, R191 to R194, R220, R221), the management commands (R193, R195), time slices
(R190), pre-emption and its deadline (R207, R258), the watchdog (R212), forced removal (R256), collective aborts (R213) and link
faults (R78, R79).
-/
namespace Sys2Proof.Machine

/-! ### Reads of memory-mapped registers -/

/-- The code of a life-cycle state (R192). -/
def LifeCycle.code : LifeCycle → Nat
  | .manufacture => 0
  | .development => 1
  | .production => 2
  | .rma => 3
  | .decommissioned => 4

/-- The code of Belvedere's run state (R192). -/
def Run.code : Run → Nat
  | .boot => 0
  | .run => 1
  | .halt => 2

/-- MSTATUS (R192). -/
def State.mstatus (s : State) : Nat :=
  let m := s.mgmt
  m.failDie.toNat * 2 ^ 24 + m.failStep.toNat * 2 ^ 16 + s.belv.lc.code * 2 ^ 8 + b2n m.bootFail * 2 ^ 7 + b2n m.cmdBusy * 2 ^ 6 +
    m.run.code

/-- A register of a queue: 0 QBASE, 1 QCFG, 2 TAIL, 3 HEAD (R180). -/
def Queue.read (x : Queue) (r : Nat) : Nat :=
  match r with
  | 0 => x.base.toNat / 4096 * 4096
  | 1 => b2n x.en * 2 ^ 63 + x.ict.toNat * 2 ^ 32 + x.vec.toNat * 2 ^ 16 + x.log2n.toNat
  | 3 => x.inflight.toNat * 2 ^ 16 + x.head.toNat
  | _ => 0

/-- A read of BAR0 of a function (R180, R191). -/
def State.mmioRead (s : State) (fn off : Nat) : W64 :=
  let m := s.mgmt
  BitVec.ofNat 64 <|
    if fn = 16 ∧ off = 0 then s.mstatus
    else if m.run = .boot ∨ fn > 16 then 0
    else if 0x1000 ≤ off ∧ off < 0x1200 ∧ off % 8 = 0 then (s.queue fn ((off - 0x1000) / 32)).read (off % 32 / 8)
    else if fn ≠ 16 then 0
    else match off with
      | 0x08 => m.mevBase.toNat
      | 0x10 => m.mevCfg.toNat
      | 0x18 => m.dropped.toNat * 2 ^ 32 + m.mevTail.toNat
      | 0x20 => m.mevHead.toNat
      | 0x188 => m.mresult.toNat
      | _ => if 0x100 ≤ off ∧ off < 0x180 ∧ off % 8 = 0 then (tGet m.mcmd 0 ((off - 0x100) / 8)).toNat else 0

/-- A gauge (R222); none for the index of an event counter. -/
def State.gauge (s : State) (code inst : Nat) : Option Nat :=
  match code with
  | 0x01 => some (s.xlat.exc.filter fun e => e.1 / 131072 == inst).length
  | 0x02 => some (s.xlat.exc.filter fun e =>
      e.1 / 131072 == inst % 4 && e.2.fix && e.2.ctx == inst / 4 && (e.2.state == .mapped || e.2.state == .unmapped)).length
  | 0x27 => some (if inst < 96 then (tGet s.mem.scrubs { pos := 0, step := 0, start := 0 } inst).step else 0)
  | 0x29 => some (if inst < 192 then tGet s.belv.spares 4 inst else 0)
  | _ => none

/-- The context slot to which an instance of a counter belongs (R221, R222). -/
def ctrCtx (code inst : Nat) : Option Nat :=
  match code with
  | 0x02 => some (inst / 4)
  | 0x03 => some inst
  | 0x04 => some (inst / 4)
  | 0x05 => some inst
  | 0x14 => some (inst / 4)
  | 0x36 => some (inst / 16)
  | _ => if 0x30 ≤ code ∧ code ≤ 0x35 then some (inst / 256) else none

/-- A counter's instance belongs to a virtual function, or to a context bound to it (R221). -/
def State.ctrVisible (s : State) (fn code inst : Nat) : Bool :=
  fn == 16 || match ctrCtx code inst with
    | some c => match s.ctx c with
      | some x => x.fn == fn
      | none => false
    | none => (decide (0x40 ≤ code ∧ code ≤ 0x4D) || decide (0x52 ≤ code ∧ code ≤ 0x55)) && inst == fn

/-- A read of the counter of an index in BAR2 of a function (R221). -/
def State.ctrRead (s : State) (fn ix : Nat) : W64 :=
  let code := fld ix 23 16
  let inst := fld ix 15 0
  if s.ctrVisible fn code inst then match s.gauge code inst with
    | some n => BitVec.ofNat 64 n
    | none => tGet s.ctrs 0 (ctrIx code inst)
  else 0

/-! ### Writes of memory-mapped registers -/

/-- MEVCFG.EN goes from 0 to 1: the index of MEVTAIL and DROPPED become 0 (R194). -/
def State.enableEvents (s : State) : State :=
  if s.mgmt.mevCfg.getLsbD 8 then s
  else s.modMgmt fun m => { m with mevCfg := m.mevCfg ||| 0x100, mevTail := 0, dropped := 0 }

/-- R194. MEVCFG.EN goes from 0 to 1. -/
def execEventRingEnable (s : State) : Res := .next (if s.isRunning then s.enableEvents else s)

/-- A write of QCFG (R180): ICT and VEC always, LOG2N only with EN = 0 before it; then EN. -/
def State.writeQcfg (s : State) (fn q : Nat) (v : Nat) : State :=
  let x := s.queue fn q
  let ict := fld v 47 32
  let n := fld v 5 0
  let x := { x with
    ict := BitVec.ofNat 16 (if ict = 0 then 1 else min ict 1024), vec := BitVec.ofNat 11 (fld v 26 16),
    log2n := if x.en then x.log2n else BitVec.ofNat 6 (if n < 6 ∨ 16 < n then 6 else n) }
  let s := s.putQueue fn q x
  if bitAt v 63 then s.enable fn q else s.disable fn q

/-- The commands that R193 names. -/
def commandOps : List Nat :=
  [1, 2, 3, 4, 5, 6, 7, 8, 9, 10, 0x10, 0x11, 0x12, 0x13, 0x14, 0x15]

/-- A word of the command block as Lighthouse has read it (R193 step 1). -/
def State.cmdWord (s : State) (i : Nat) : Nat := (tGet s.mgmt.cmd 0 i).toNat

/-- Steps 3 to 5 of a command (R193): returned words, MRESULT, CMDBUSY, the CMDDONE event. -/
def State.answer (s : State) (status : Nat) (cause : BitVec 8) (words : List W64) : State :=
  let tag := fld (s.cmdWord 0) 63 32
  let put (t : Table W64) : Table W64 :=
    (List.range words.length).foldl (fun t i => tSet t 0 (i + 1) ((words[i]?).getD 0)) t
  let s := s.modMgmt fun m => { m with
    mcmd := put m.mcmd, mresult := BitVec.ofNat 64 (tag * 2 ^ 32 + cause.toNat * 65536 + status), cmdBusy := false }
  if s.mgmt.mevCfg.getLsbD 9 then s.postEvent 4 0 0 tag 0 0 0 else s

/-- A write to MDOOR (R193): ignored while a command executes; otherwise Lighthouse reads the block once. An unknown OP is refused. -/
def State.submit (s : State) : State :=
  if s.mgmt.cmdBusy then s
  else
    let s := s.modMgmt fun m => { m with cmdBusy := true, cmd := m.mcmd }
    if memb commandOps (fld (s.cmdWord 0) 15 0) then s else s.answer 1 0x01 []

/-- A write to a management register (R191). -/
def State.mgmtWrite (s : State) (off : Nat) (v : W64) : State :=
  match off with
  | 0x08 => s.modMgmt fun m => { m with mevBase := v &&& 0xFFFFFFFFFFFFF000 }
  | 0x10 =>
    let old := s.mgmt.mevCfg.getLsbD 8
    let s := s.modMgmt fun m => { m with mevCfg := v &&& 0x7FF020F ||| (if old then 0x100 else 0) }
    if v.getLsbD 8 then s.enableEvents else s.modMgmt fun m => { m with mevCfg := m.mevCfg &&& 0x7FF020F }
  | 0x20 => s.modMgmt fun m => { m with mevHead := v.setWidth 16 }
  | 0x180 => if v.getLsbD 0 then s.submit else s
  | _ => if 0x100 ≤ off ∧ off < 0x180 ∧ off % 8 = 0 then s.modMgmt fun m => { m with mcmd := tSet m.mcmd 0 ((off - 0x100) / 8) v } else s

/-- A write to BAR0 of a function (R6, R180, R191); every other offset ignores it. -/
def State.mmioWrite (s : State) (fn off : Nat) (v : W64) : State :=
  if !s.isRunning ∨ fn > 16 then s
  else if 0x1000 ≤ off ∧ off < 0x1200 ∧ off % 8 = 0 then
    let q := (off - 0x1000) / 32
    match off % 32 / 8 with
    | 0 => if (s.queue fn q).en then s else s.putQueue fn q { s.queue fn q with base := v &&& 0xFFFFFFFFFFFFF000 }
    | 1 => s.writeQcfg fn q v.toNat
    | 2 => s.ring fn q (v.setWidth 16)
    | _ => s
  else if fn = 16 then s.mgmtWrite off v else s

/-- R6, R7. The host writes a 64-bit register. -/
def execRegisterWrite (fn off : Nat) (val : BitVec 64) (s : State) : Res := .next (s.mmioWrite fn off val)

/-! ### The frame of every command (R193) -/

/-- Some bit that `masks` does not name is set in the argument words 1 to 15; words beyond the list name no bit. -/
def State.unnamed (s : State) (masks : List Nat) : Bool :=
  (List.range 15).any fun i => BitVec.ofNat 64 (s.cmdWord (i + 1)) &&& ~~~(BitVec.ofNat 64 ((masks[i]?).getD 0)) != 0

/-- The whole word. -/
def allBits : Nat := 2 ^ 64 - 1

/-- Runs a command that Lighthouse has accepted: FORMAT for reserved bits, else what `f` answers on the argument words. A refused
command changes nothing but the free choices it has used. -/
def runCmd (op : Nat) (masks : List Nat) (s : State) (f : (Nat → Nat) → State × Except (BitVec 8) (List W64)) : Res :=
  if !s.isRunning ∨ s.mgmt.cmdBusy = false ∨ fld (s.cmdWord 0) 15 0 ≠ op then .next s
  else if fld (s.cmdWord 0) 31 16 ≠ 0 ∨ s.unnamed masks then .next (s.answer 1 0x01 [])
  else match f s.cmdWord with
    | (t, .ok ws) => .next (t.answer 0 0 ws)
    | (t, .error c) => .next (({ s with freeCtr := t.freeCtr } : State).answer 1 c [])

/-! ### Settings -/

/-- R190, R193. SETSLICE. -/
def execSetslice (s : State) : Res :=
  runCmd 1 [0x7F] s fun w => if w 1 < 1 ∨ 64 < w 1 then (s, .error 0x01) else (s.modMgmt fun m => { m with slice := w 1 }, .ok [])

/-- R190, R193. SETWEIGHT. -/
def execSetweight (s : State) : Res :=
  runCmd 2 [0xF, 0x1F] s fun w =>
    if w 2 < 1 ∨ 16 < w 2 then (s, .error 0x01) else (s.modMgmt fun m => { m with weight := tSet m.weight 1 (w 1) (w 2) }, .ok [])

/-- An index that REGWRITE and REGREAD accept (R193). -/
def regIndex (r inst : Nat) : Bool :=
  match r with
  | 5 => decide (inst < 16)
  | 6 => decide (inst < 64)
  | _ => decide (1 ≤ r ∧ r ≤ 4 ∧ inst = 0)

/-- A management register of the hub die with its reserved fields 0 (R84, R91, R141, R214, R224, R225). -/
def State.hubReg (s : State) (r inst : Nat) : W64 :=
  match r with
  | 1 => s.mgmt.sched
  | 2 => s.mgmt.scrub
  | 3 => s.mgmt.tide
  | 4 => s.mgmt.ctrctl
  | 5 => tGet s.mgmt.pfctl 0x0000000000800901 inst
  | _ => tGet s.mgmt.pmsel 0x0000000000FF0000 inst

/-- Writes a management register of the hub die; a write to PMSEL clears its counter (R224). -/
def State.setHubReg (s : State) (r inst : Nat) (v : W64) : State :=
  match r with
  | 1 => s.modMgmt fun m => { m with sched := v &&& 0x0000FFFFFFFFFFFF }
  | 2 => s.modMgmt fun m => { m with scrub := v &&& 0x0000000FFFF0FF01 }
  | 3 => s.modMgmt fun m => { m with tide := v &&& 0x0000FFFFFFFFFF01 }
  | 4 => s.modMgmt fun m => { m with ctrctl := v &&& 1 }
  | 5 => s.modMgmt fun m => { m with pfctl := tSet m.pfctl 0x0000000000800901 inst (v &&& 0x0000000000FF0F01) }
  | _ =>
    let s := s.modMgmt fun m => { m with pmsel := tSet m.pmsel 0x0000000000FF0000 inst (v &&& 0x00000000FFFFFFFF) }
    { s with ctrs := tDel s.ctrs (ctrIx 0x60 inst) }

/-- R193. REGWRITE. -/
def execRegwrite (s : State) : Res :=
  runCmd 8 [0xFF, allBits, allBits] s fun w =>
    if regIndex (w 1) (w 3) then (s.setHubReg (w 1) (w 3) (BitVec.ofNat 64 (w 2)), .ok []) else (s, .error 0x01)

/-- R193. REGREAD. -/
def execRegread (s : State) : Res :=
  runCmd 9 [0xFF, 0, allBits] s fun w => if regIndex (w 1) (w 3) then (s, .ok [s.hubReg (w 1) (w 3)]) else (s, .error 0x01)

/-! ### Contexts -/

/-- The deques of a new context, dealt round-robin over the dies of its mask, with the lowest free physical deques of each:
key and byte offset in the die's area; none when a die has too few (R203). -/
def State.dealDeques (s : State) (dies : List Nat) (cap n : Nat) : Option (List (Nat × Nat)) :=
  let free (d : Nat) : List Nat := (List.range 4096).filter fun p => (tFind s.deques (4096 * d + p)).isNone
  let pools := dies.map fun d => (d, free d)
  let dealt := (List.range n).map fun i =>
    match pools[i % dies.length]? with
    | some (d, l) => (l[i / dies.length]?).map fun p => (4096 * d + p, 8 * 2 ^ cap * (i / dies.length))
    | none => none
  if dealt.any (·.isNone) then none else some (dealt.map (·.getD (0, 0)))

/-- The deque area of a die in units of 64 KiB, rounded up (R65). -/
def areaUnits (cap n : Nat) : Nat := (8 * 2 ^ cap * n + 65535) / 65536

/-- A context as Lighthouse creates it (R49, R124, R207, R240). That its refit counter begins at 0 is the model's choice: R126 gives no
first value (log 90). -/
def Ctx.start (fn : Nat) (label : Label) (prot mfctx sys : Bool) (root key : Nat) (pool dqs : List Nat) (area : Table Nat) : Ctx :=
  { fn := fn, label := label, prot := prot, mfctx := mfctx, sys := sys, root := root, keySlot := key, savectr := 0,
    saveseq := 0, code := 0, mutableC := false, nodes := [], nodePool := pool, codePgs := [], segs := [], refitCtr := 0,
    refitQ := [], toFold := [], tickets := 0, folded := 0, views := [], pools := [], poolLast := [], dqs := dqs, dqArea := area,
    pre := .run, sliced := false, wdogNs := 0, dbg := none, children := 0, invalid := false }

/-- Takes n frames of HBM for a node pool (R124). -/
def State.takeFrames (s : State) : Nat → State × Option (List Nat)
  | 0 => (s, some [])
  | n + 1 => match s.takeFrame 0 with
    | none => (s, none)
    | some (f, s) => match s.takeFrames n with
      | (s, some l) => (s, some (f :: l))
      | r => r

/-- A key slot with fresh keys (R236). -/
def State.loadKey (s : State) (slot : Nat) : State :=
  let k := s.mem.nextKey
  let x : KeySlot := { xts := k, next := none, save := k + 1, sweeps := [], epoch := 0, ranges := [] }
  s.modMem fun m => { m with nextKey := k + 2, keys := tPut m.keys slot x }

/-- Creates a context (R193): the lowest free slot, its node pool, deques, deque areas and key slot, or RESOURCE. That the fit over an
empty page table refits no window, and counts none, is the model's choice: R126 does not say how many it has (log 90). -/
def State.createCtx (s : State) (w : Nat → Nat) : State × Except (BitVec 8) (List W64) :=
  let prot := bitAt (w 2) 0
  let n := fld (w 5) 12 0
  let cap := fld (w 5) 19 16
  let dies := (List.range 4).filter fun d => bitAt (fld (w 5) 27 24) d
  if w 1 > 16 ∨ (bitAt (w 2) 2 ∧ w 1 ≠ 16) ∨ w 4 = 0 ∨ n > 4096 ∨ cap < 4 ∨ 10 < cap ∨ dies = [] then (s, .error 0x01)
  else
    let slot := findNat (fun c => (s.ctx c).isNone) 64 0
    let key := if prot then findNat (fun k => (tFind s.mem.keys k).isNone) 63 1 else some 0
    match slot, key, s.dealDeques dies cap n with
    | some c, some k, some dq =>
      let units := dies.map fun d => (d, areaUnits cap (dq.filter fun e => e.1 / 4096 == d).length)
      if units.any fun e => decide (1024 < s.scratchUsed e.1 + e.2) then (s, .error 0x41)
      else match s.takeFrames (w 4) with
        | (s, some (root :: pool)) =>
          let s := s.zeroFrame 0 root
          let s := if prot then s.loadKey k else s
          let area := units.foldl (fun t e => tSet t 0 e.1 e.2) ([] : Table Nat)
          let x := Ctx.start (w 1) (BitVec.ofNat 3 (w 3)) prot (bitAt (w 2) 1) (bitAt (w 2) 2) root k pool (dq.map (·.1)) area
          let deq := dq.foldl (fun t e =>
            tPut t e.1 { log2cap := cap, owner := none, ctx := c, base := e.2, bottom := 0, top := 0, ring := [], ce := [], ue := [] }) s.deques
          let ctrs := s.ctrs.filter fun e => ctrCtx (e.1 / 65536) (e.1 % 65536) != some c
          ({ s with ctxs := tPut s.ctxs c x, deques := deq, ctrs := ctrs }, .ok [BitVec.ofNat 64 c])
        | (s, _) => (s, .error 0x41)
    | _, _, _ => (s, .error 0x41)

/-- R193. CTXCREATE. -/
def execCtxcreate (s : State) : Res :=
  runCmd 3 [0x1F, 7, 7, 0xFFFF, 0x0F0F1FFF] s fun w => s.createCtx w

/-- R193, R256, R257. CTXREMOVE. -/
def execCtxremove (s : State) : Res :=
  runCmd 4 [0x3F] s fun w => match s.ctx (w 1) with
    | none => (s, .error 0x45)
    | some _ => (s.removeContext (w 1) 0x44 false, .ok [])

/-- R256. A warp still resident 100 µs after the removal began is stopped, and the removal finishes. -/
def execRemovalForceStop (slot : Nat) (s : State) : Res :=
  match s.ctx slot with
  | some c => match c.pre with
    | .removing _ ns _ => .next (if 100000 ≤ ns then s.finishRemoval slot else s)
    | _ => .next s
  | none => .next s

/-! ### Pre-emption (R207 to R209) -/

/-- A context enters DRAIN (R207): the deadline timer takes PDEAD (R210), SAVECTR and SAVESEQ move (R240), and each warp of a resident
`.persistent` team has a notice due, unless one is pending (R208). -/
def State.startDrain (s : State) (slot : Nat) (sliced : Bool) : State :=
  let notice : DueTrap := { rank := 5, code := 0x30, val := 0, lanes := 0, entry := none, pcL := 0 }
  let s := s.mapCtxWarps slot fun g x =>
    if g.kernel.pers ∧ !(x.due.any fun d => d.rank == 5) then { x with due := x.due ++ [notice] } else x
  (s.modCtx slot fun c => { c with pre := .drain s.pdeadNs, sliced := sliced, savectr := c.savectr + 1, saveseq := 0 }).renewSaveKey slot

/-- R193, R207. PREEMPT. -/
def execPreempt (s : State) : Res :=
  runCmd 5 [0x3F] s fun w => match s.ctx (w 1) with
    | some c => if c.pre = .run then (s.startDrain (w 1) false, .ok []) else (s, .error 0x45)
    | none => (s, .error 0x45)

/-- R193, R209. RESUME. -/
def execResume (s : State) : Res :=
  runCmd 6 [0x3F] s fun w => match s.ctx (w 1) with
    | some c => if c.pre = .saved then (s.modCtx (w 1) fun c => { c with pre := .run, sliced := false }, .ok []) else (s, .error 0x45)
    | none => (s, .error 0x45)

/-- No team of a context is resident and every engine operation of its teams has retired (R117, R207). -/
def State.drained (s : State) (slot : Nat) : Bool :=
  (s.work.teams.all fun e => match s.grid e.2.grid with
    | some g => g.ctx != slot
    | none => true) && s.work.ops.all fun e => e.2.ctx != slot || e.2.slot.isSome

/-- R207, R258. A drained context is reported SAVED; pre-empted at the end of a slice, it runs again at once if its function
already holds the slice. -/
def execDrainComplete (slot : Nat) (s : State) : Res :=
  match s.ctx slot with
  | some c => match c.pre with
    | .drain _ =>
      if s.isRunning ∧ s.drained slot then
        let s := (s.postEvent 1 slot 0 0 0 0 0).emit (.saved c.fn slot)
        let back := c.sliced && c.fn == s.mgmt.holder
        .next (s.modCtx slot fun c => { c with pre := if back then .run else .saved, sliced := c.sliced && !back })
      else .next s
    | _ => .next s
  | none => .next s

/-- R207. The deadline timer of a draining context has reached 0: the context is removed with CAUSE 0x43. -/
def execPreemptDeadline (slot : Nat) (s : State) : Res :=
  match s.ctx slot with
  | some c => match c.pre with
    | .drain left => .next (if s.isRunning ∧ left = 0 then (s.count 0x52 c.fn 1).removeContext slot 0x43 false else s)
    | _ => .next s
  | none => .next s

/-- R212. The watchdog timer of a context has reached WDOG: the context is removed with CAUSE 0x42. -/
def execWatchdogExpiry (slot : Nat) (s : State) : Res :=
  match s.ctx slot with
  | some c =>
    .next (if s.isRunning ∧ s.wdog ≠ 0 ∧ s.wdog * 1000000 ≤ c.wdogNs ∧ !c.removing then (s.count 0x53 c.fn 1).removeContext slot 0x42 false
      else s)
  | none => .next s

/-! ### Time slices (R190) -/

/-- The weight of a function; the physical function has weight 1 (R190). -/
def State.weightOf (s : State) (fn : Nat) : Nat := if fn < 16 then tGet s.mgmt.weight 1 fn else 1

/-- A grid has teams still to place. -/
def Grid.unplaced (g : Grid) : Bool :=
  (decide (g.nextTeam < g.teams) || !g.relaunch.isEmpty || !g.resumeQ.isEmpty) && g.failed.isNone && g.killed.isNone

/-- A function has a launch waiting (R190). -/
def State.hasWaiting (s : State) (fn : Nat) : Bool := s.work.grids.any fun e => s.gridFn e.2 == fn && e.2.unplaced

/-- The next function in the rotation that has a launch waiting; the holder itself comes last (R190). -/
def State.nextHolder (s : State) : Option Nat := ((rangeFrom 1 17).map fun i => (s.mgmt.holder + i) % 17).find? s.hasWaiting

/-- Some ready launch of a function could place a gang if the functions that `skip` names held no cores. -/
def State.fitsWithout (s : State) (fn : Nat) (skip : Nat → Bool) : Bool :=
  s.work.grids.any fun e => s.gridFn e.2 == fn && e.2.ready && e.2.unplaced &&
    if e.2.nextTeam < e.2.teams then (s.nextGang e.2 skip true).isSome else (s.findRoom e.2 skip true 1).isSome

/-- A function has a resident team. -/
def State.hasTeams (s : State) (fn : Nat) : Bool := s.work.teams.any fun e => match s.grid e.2.grid with
  | some g => s.gridFn g == fn
  | none => false

/-- The functions whose teams hold cores that a function waits for: each whose absence would make room, or, where no single
one would, all of them. -/
def State.victims (s : State) (fn : Nat) : List Nat :=
  let fs := (List.range 17).filter fun f => f != fn && s.hasTeams f
  if s.fitsWithout fn allTeams then []
  else
    let one := fs.filter fun f => s.fitsWithout fn (· == f)
    if one ≠ [] then one else if s.fitsWithout fn (· != fn) then fs else []

/-- R190. A slice ends, or its holder has nothing waiting: the next function takes it, those that hold cores it waits for are
pre-empted, and its own contexts that a slice had pre-empted run again. -/
def execSliceEnd (s : State) : Res :=
  let h := s.mgmt.holder
  if !s.isRunning ∨ (s.hasWaiting h ∧ s.mgmt.sliceNs < s.mgmt.slice * s.weightOf h * 1000000) then .next s
  else match s.nextHolder with
    | none => .next s
    | some n =>
      let s := s.modMgmt fun m => { m with holder := n, sliceNs := 0 }
      if n = h then .next s
      else
        let s : State := { s with ctxs := tMap s.ctxs fun _ (c : Ctx) =>
          if c.fn = n ∧ c.sliced ∧ c.pre = Pre.saved then { c with pre := .run, sliced := false } else c }
        let vs := s.victims n
        .next (s.ctxs.foldl (fun (s : State) (e : Nat × Ctx) =>
          if memb vs e.2.fn ∧ e.2.pre = Pre.run ∧ !(s.warpsOfCtx e.1).isEmpty then s.startDrain e.1 true else s) s)

/-! ### The debugger (R193, R195, R233) -/

/-- External debug of a context is allowed in a life-cycle state (R233). -/
def LifeCycle.debugs (l : LifeCycle) (prot : Bool) : Bool :=
  match l with
  | .production => !prot
  | .decommissioned => false
  | _ => true

/-- R193. DBGATTACH. -/
def execDbgattach (s : State) : Res :=
  runCmd 0x10 [0x3F] s fun w => match s.ctx (w 1) with
    | none => (s, .error 0x45)
    | some c =>
      if !s.belv.lc.debugs c.prot then (s, .error 0x46)
      else if c.dbg.isSome then (s, .error 0x45)
      else (s.modCtx (w 1) fun c => { c with dbg := some [] }, .ok [])

/-- The warps of a context stopped under DEBUG resume as `tret` resumes them (R193, R250). -/
def State.resumeDebug (s : State) (slot : Nat) : State :=
  s.mapCtxWarps slot fun _ x => match x.debug, x.frame with
    | true, some f => x.restore f false
    | _, _ => x

/-- R193. DBGDETACH. -/
def execDbgdetach (s : State) : Res :=
  runCmd 0x11 [0x3F] s fun w => match s.ctx (w 1) with
    | none => (s, .error 0x45)
    | some c =>
      if c.dbg.isNone then (s, .ok [])
      else
        let s := (s.modCtx (w 1) fun c => { c with dbg := none }).resumeDebug (w 1)
        (s.mapCtxWarps (w 1) fun _ x => { x with due := x.due.filter fun d => d.rank != 6 }, .ok [])

/-- A debugger command on a context with a debugger; STATE on any other (R193). -/
def State.withDebugger (s : State) (slot : Nat) (f : Ctx → Table Brk → State × Except (BitVec 8) (List W64)) :
    State × Except (BitVec 8) (List W64) :=
  match s.ctx slot with
  | none => (s, .error 0x45)
  | some c => match c.dbg with
    | none => (s, .error 0x45)
    | some b => f c b

/-- R193. DBGBREAK. -/
def execDbgbreak (s : State) : Res :=
  runCmd 0x12 [0x3F, 0x1F, allBits, 0xFFFFFFFF] s fun w => s.withDebugger (w 1) fun _ b =>
    let i := fld (w 2) 2 0
    let x : Brk := { image := w 3, lane := bitAt (w 2) 4, pc := BitVec.ofNat 32 (w 4) }
    (s.modCtx (w 1) fun c => { c with dbg := some (if bitAt (w 2) 3 then tPut b i x else tDel b i) }, .ok [])

/-- R193. DBGHALT: a warp that is not stopped already, and has no DEBUG due, gets one. -/
def execDbghalt (s : State) : Res :=
  runCmd 0x13 [0x3F] s fun w => s.withDebugger (w 1) fun _ _ =>
    let d : DueTrap := { rank := 6, code := 0x32, val := 0xFF, lanes := 0, entry := none, pcL := 0 }
    (s.mapCtxWarps (w 1) fun _ x => if x.debug ∨ x.due.any (fun d => d.rank == 6) then x else { x with due := x.due ++ [d] }, .ok [])

/-- Word 1 of a saved split entry (R164). -/
def entryWord (slot : Nat) (e : Entry) : Nat :=
  let st : Nat := match e.state with
    | .ready => 0
    | .rcvWait => 1
    | .atLend => 2
    | .splitWait => 3
  2 ^ 63 + st * 2 ^ 60 + slot * 2 ^ 56 + e.parent.toNat * 2 ^ 52 +
    (b2n e.b0.valid + 2 * b2n e.b1.valid + 4 * b2n e.b2.valid + 8 * b2n e.b3.valid) * 2 ^ 48 + e.rcvn.toNat * 2 ^ 45 + e.pc.toNat

/-- The scalar frame of a stopped warp (R195). -/
def Warp.scalarFrame (x : Warp) (f : Frame) : List Byte :=
  let rcvs := (List.range 8).flatMap fun i =>
    let r := tGet f.rcv Rcv.none i
    [b2n r.armed, r.exp.toNat, r.arr.toNat, r.rparent.toNat]
  ([x.cause.toNat, x.tval.toNat, x.pcS.toNat, x.pcL.toNat, x.flmask.toNat, f.pc.toNat, 0, 0] ++
    (List.range 64).map (fun r => (x.readS r).val.toNat) ++ (List.range 16).map (fun r => (x.readK r).val.toNat) ++ rcvs ++
    [f.entries.length, 0] ++ f.entries.flatMap fun e => [e.2.mask.toNat, entryWord x.slot e.2]).flatMap (toBytes 8)

/-- A latch as the debugger reads it: each lane's 8 bytes (R195). -/
def Latch.dump (l : Latch) (width : Nat) : List Byte := (List.range width).flatMap fun i => toBytes 8 (tGet l.vals 0 i).toNat

/-- The latches of a saved entry and its valid bits (R195). -/
def Entry.dump (e : Entry) (width : Nat) : List Byte :=
  e.b0.dump width ++ e.b1.dump width ++ e.b2.dump width ++ e.b3.dump width ++
    [BitVec.ofNat 8 (b2n e.b0.valid + 2 * b2n e.b1.valid + 4 * b2n e.b2.valid + 8 * b2n e.b3.valid)]

/-- A number of n bytes at an offset of a buffer. -/
def bufWord (bs : List Byte) (off n : Nat) : Nat := ofBytes ((bs.drop off).take n)

/-- The debugger writes the scalar frame (R195): s1–s63, k0–k15 and the PC of each saved entry. -/
def Warp.writeFrame (x : Warp) (f : Frame) (lab : Label) (bs : List Byte) : Warp :=
  let x := (rangeFrom 1 63).foldl (fun (x : Warp) r => x.writeS r ⟨BitVec.ofNat 64 (bufWord bs (64 + 8 * r) 8), Label.join (x.readS r).lab lab⟩) x
  let x := (List.range 16).foldl (fun (x : Warp) r => x.writeK r ⟨BitVec.ofNat 64 (bufWord bs (576 + 8 * r) 8), Label.join (x.readK r).lab lab⟩) x
  let es := (List.range f.entries.length).filterMap fun i => (f.entries[i]?).map fun e =>
    (e.1, { e.2 with pc := BitVec.ofNat 32 (bufWord bs (984 + 16 * i) 4) })
  { x with frame := some { f with entries := es } }

/-- The debugger writes v registers in every lane (R195). -/
def Warp.writeRange (x : Warp) (first n : Nat) (lab : Label) (bs : List Byte) : Warp :=
  (List.range n).foldl (fun (x : Warp) i =>
    let x := (List.range x.width).foldl (fun (x : Warp) l => x.writeV (first + i) l (BitVec.ofNat 32 (bufWord bs (4 * (x.width * i + l)) 4))) x
    x.setLabV (first + i) (Label.join (x.labV (first + i)) lab)) x

/-- The warp that a DBGFRAME names, stopped under DEBUG, with its frame (R193). -/
def State.stoppedWarp (s : State) (slot : Nat) (gridId : W64) (team num : Nat) : Option (Nat × Warp × Frame) :=
  (s.warpsOfCtx slot).findSome? fun e => match s.home e.2, e.2.frame with
    | some (t, g, _), some f =>
      if g.gridId = gridId ∧ t.num = team ∧ e.2.num = num ∧ e.2.debug then some (e.1, e.2, f) else none
    | _, _ => none

/-- R193, R195. DBGFRAME. -/
def execDbgframe (s : State) : Res :=
  runCmd 0x14 [0x3F, allBits, 0xFFFFFFFFF, allBits, 0x103, 0x03FF03FF] s fun w => s.withDebugger (w 1) fun c _ =>
    let part := fld (w 5) 1 0
    let wr := bitAt (w 5) 8
    let a := hostPa (w 4)
    match s.stoppedWarp (w 1) (BitVec.ofNat 64 (w 2)) (fld (w 3) 31 0) (fld (w 3) 35 32) with
    | none => (s, .error 0x45)
    | some (k, x, f) =>
      let first := fld (w 6) 9 0
      let n := fld (w 6) 25 16
      match part with
      | 0 =>
        if w 6 ≠ 0 then (s, .error 0x01)
        else if wr then (s.putWarp k (x.writeFrame f c.label (s.peekN 0 a (976 + 16 * f.entries.length))), .ok [])
        else (s.pokeN 0 a (x.scalarFrame f), .ok [])
      | 1 =>
        if first + n > x.c then (s, .error 0x01)
        else if wr then (s.putWarp k (x.writeRange first n c.label (s.peekN 0 a (4 * x.width * n))), .ok [])
        else (s.pokeN 0 a ((rangeFrom first n).flatMap fun r => (List.range x.width).flatMap fun l => toBytes 4 (x.readV r l).toNat), .ok [])
      | 2 => match f.entries[w 6]? with
        | some e => if wr then (s, .error 0x01) else (s.pokeN 0 a (e.2.dump x.width), .ok [])
        | none => (s, .error 0x01)
      | _ => (s, .error 0x01)

/-- R193. DBGRESUME. -/
def execDbgresume (s : State) : Res :=
  runCmd 0x15 [0x3F] s fun w => s.withDebugger (w 1) fun _ _ => (s.resumeDebug (w 1), .ok [])

/-! ### Collective aborts (R213) -/

/-- A collective completes as ABORTED. -/
def Op.abort (o : Op) : Op :=
  match o.kind with
  | .coll d got bad _ => { o with kind := .coll d got bad true }
  | _ => o

/-- R213. A peer's COLL_ABORT has arrived. -/
def execCollAbort (ident : BitVec 64) (s : State) : Res :=
  .next (if s.isRunning then { s with work := { s.work with ops := tMap s.work.ops fun _ o => match o.kind with
    | .coll d _ _ _ => if d.ident = ident ∧ !o.done then o.abort else o
    | _ => o } } else s)

/-- R213. A peer's route goes down: COLL_ABORT goes to every peer of each collective that uses it. -/
def execPeerRouteDown (route : Nat) (s : State) : Res :=
  if !s.isRunning then .next s
  else
    let s := { s with routes := tMod s.routes route fun r => { r with up := false } }
    .next (s.work.ops.foldl (fun (s : State) e => match e.2.kind with
      | .coll d _ _ ab =>
        if memb d.routes route ∧ !ab ∧ !e.2.done then
          (d.routes.foldl (fun (s : State) r => s.emit (.collAbort r d.ident)) s).modOp e.1 Op.abort
        else s
      | _ => s) s)

/-! ### Links (R78, R79) -/

/-- R78. Belvedere installs a new key pair in a link, with its counters at 0. -/
def execLinkRekey (link : Nat) (s : State) : Res :=
  if !s.isRunning ∨ (tFind s.belv.links (2 * link)).isNone then .next s
  else
    let k := s.mem.nextKey
    .next { s with
      mem := { s.mem with nextKey := k + 2 },
      belv := { s.belv with links := tPut (tPut s.belv.links (2 * link) (k, 0)) (2 * link + 1) (k + 1, 0) } }

/-- R79. A flit group fails its tag: the link is shut, every context is removed at once, and the device is held until a cold
reset. The CAUSE of these removals is free. -/
def execIntegrityFault (link : Nat) (s : State) : Res :=
  if !s.isRunning then .next s
  else
    let (r, s) := s.freeNat
    let s := { s with belv := { s.belv with down := setAdd s.belv.down link } }
    let s := (s.ctxs.map fun e => e.1).foldl (fun (s : State) c => (s.removeContext c (BitVec.ofNat 8 r) false).finishRemoval c) s
    .next ((s.modMgmt fun m => { m with run := .halt }).postEvent 5 0 0 0 0 0 0)

end Sys2Proof.Machine
end

