-- ==== Sys2Proof/Machine/ScalarAlu.lean ====
section
/-!
DEFINITION. Scalar integer arithmetic: the ALU group (R306), the immediate forms (R307) and `LUI` (R308).
-/
namespace Sys2Proof.Machine

/-- A register-register operation: the result's label is the larger of the sources' (R50, R306). -/
def runAlu (i : Instr) (f : W64 → W64 → W64) (d a b : BitVec 6) (s : State) : Res :=
  runScalar i legal [a, b] (some d) s fun k =>
    k.done s (k.x.writeS d.toNat ⟨f (k.rd a).val (k.rd b).val, Label.join (k.rd a).lab (k.rd b).lab⟩)

/-- A register-immediate operation: the result's label is that of sa (R307). -/
def runAluImm (i : Instr) (f : W64 → W64) (d a : BitVec 6) (s : State) : Res :=
  runScalar i legal [a] (some d) s fun k => k.done s (k.x.writeS d.toNat ⟨f (k.rd a).val, (k.rd a).lab⟩)

/-- R306: a + b modulo 2^64. -/
def aluAdd (a b : W64) : W64 := a + b

/-- R306: a − b modulo 2^64. -/
def aluSub (a b : W64) : W64 := a - b

/-- R306: bitwise AND. -/
def aluAnd (a b : W64) : W64 := a &&& b

/-- R306: bitwise OR. -/
def aluOr (a b : W64) : W64 := a ||| b

/-- R306: bitwise exclusive OR. -/
def aluXor (a b : W64) : W64 := a ^^^ b

/-- R306: left shift by b[5:0]. -/
def aluShl (a b : W64) : W64 := a <<< (b.toNat % 64)

/-- R306: logical right shift by b[5:0]. -/
def aluShr (a b : W64) : W64 := a >>> (b.toNat % 64)

/-- R306: arithmetic right shift by b[5:0]. -/
def aluSar (a b : W64) : W64 := a.sshiftRight (b.toNat % 64)

/-- R306: low 64 bits of the product. -/
def aluMul (a b : W64) : W64 := a * b

/-- R306: high 64 bits of the unsigned product. -/
def aluMulhn (a b : W64) : W64 := BitVec.ofNat 64 (a.toNat * b.toNat / 2 ^ 64)

/-- R306: high 64 bits of the signed product. -/
def aluMulh (a b : W64) : W64 := BitVec.ofInt 64 (a.toInt * b.toInt / 2 ^ 64)

/-- R306: unsigned quotient, all ones for b = 0. -/
def aluDivn (a b : W64) : W64 := if b = 0 then BitVec.allOnes 64 else BitVec.ofNat 64 (a.toNat / b.toNat)

/-- R306: unsigned remainder, a for b = 0. -/
def aluRemn (a b : W64) : W64 := if b = 0 then a else BitVec.ofNat 64 (a.toNat % b.toNat)

/-- R306: signed minimum. -/
def aluMin (a b : W64) : W64 := if a.toInt ≤ b.toInt then a else b

/-- R306: signed maximum. -/
def aluMax (a b : W64) : W64 := if a.toInt ≤ b.toInt then b else a

/-- R306: unsigned minimum. -/
def aluMinn (a b : W64) : W64 := if a.toNat ≤ b.toNat then a else b

/-- R306: unsigned maximum. -/
def aluMaxn (a b : W64) : W64 := if a.toNat ≤ b.toNat then b else a

/-- R306: 1 if equal. -/
def aluSeq (a b : W64) : W64 := if a = b then 1 else 0

/-- R306: 1 if not equal. -/
def aluSne (a b : W64) : W64 := if a = b then 0 else 1

/-- R306: 1 if signed less. -/
def aluSlt (a b : W64) : W64 := if a.toInt < b.toInt then 1 else 0

/-- R306: 1 if unsigned less. -/
def aluSltn (a b : W64) : W64 := if a.toNat < b.toNat then 1 else 0

/-- R306. `add sd, sa, sb`. -/
def execAdd (d a b : BitVec 6) (s : State) : Res := runAlu (.add d a b) aluAdd d a b s

/-- R306. `sub sd, sa, sb`. -/
def execSub (d a b : BitVec 6) (s : State) : Res := runAlu (.sub d a b) aluSub d a b s

/-- R306. `and sd, sa, sb`. -/
def execAnd (d a b : BitVec 6) (s : State) : Res := runAlu (.and d a b) aluAnd d a b s

/-- R306. `or sd, sa, sb`. -/
def execOr (d a b : BitVec 6) (s : State) : Res := runAlu (.or d a b) aluOr d a b s

/-- R306. `xor sd, sa, sb`. -/
def execXor (d a b : BitVec 6) (s : State) : Res := runAlu (.xor d a b) aluXor d a b s

/-- R306. `shl sd, sa, sb`. -/
def execShl (d a b : BitVec 6) (s : State) : Res := runAlu (.shl d a b) aluShl d a b s

/-- R306. `shr sd, sa, sb`. -/
def execShr (d a b : BitVec 6) (s : State) : Res := runAlu (.shr d a b) aluShr d a b s

/-- R306. `sar sd, sa, sb`. -/
def execSar (d a b : BitVec 6) (s : State) : Res := runAlu (.sar d a b) aluSar d a b s

/-- R306. `mul sd, sa, sb`. -/
def execMul (d a b : BitVec 6) (s : State) : Res := runAlu (.mul d a b) aluMul d a b s

/-- R306. `mulhn sd, sa, sb`. -/
def execMulhn (d a b : BitVec 6) (s : State) : Res := runAlu (.mulhn d a b) aluMulhn d a b s

/-- R306. `mulh sd, sa, sb`. -/
def execMulh (d a b : BitVec 6) (s : State) : Res := runAlu (.mulh d a b) aluMulh d a b s

/-- R306. `divn sd, sa, sb`. -/
def execDivn (d a b : BitVec 6) (s : State) : Res := runAlu (.divn d a b) aluDivn d a b s

/-- R306. `remn sd, sa, sb`. -/
def execRemn (d a b : BitVec 6) (s : State) : Res := runAlu (.remn d a b) aluRemn d a b s

/-- R306. `min sd, sa, sb`. -/
def execMin (d a b : BitVec 6) (s : State) : Res := runAlu (.min d a b) aluMin d a b s

/-- R306. `max sd, sa, sb`. -/
def execMax (d a b : BitVec 6) (s : State) : Res := runAlu (.max d a b) aluMax d a b s

/-- R306. `minn sd, sa, sb`. -/
def execMinn (d a b : BitVec 6) (s : State) : Res := runAlu (.minn d a b) aluMinn d a b s

/-- R306. `maxn sd, sa, sb`. -/
def execMaxn (d a b : BitVec 6) (s : State) : Res := runAlu (.maxn d a b) aluMaxn d a b s

/-- R306. `seq sd, sa, sb`. -/
def execSeq (d a b : BitVec 6) (s : State) : Res := runAlu (.seq d a b) aluSeq d a b s

/-- R306. `sne sd, sa, sb`. -/
def execSne (d a b : BitVec 6) (s : State) : Res := runAlu (.sne d a b) aluSne d a b s

/-- R306. `slt sd, sa, sb`. -/
def execSlt (d a b : BitVec 6) (s : State) : Res := runAlu (.slt d a b) aluSlt d a b s

/-- R306. `sltn sd, sa, sb`. -/
def execSltn (d a b : BitVec 6) (s : State) : Res := runAlu (.sltn d a b) aluSltn d a b s

/-- R307. `addi sd, sa, #imm`. -/
def execAddi (d a : BitVec 6) (imm : BitVec 14) (s : State) : Res :=
  runAluImm (.addi d a imm) (fun x => aluAdd x (imm.signExtend 64)) d a s

/-- R307. `andi sd, sa, #imm`. -/
def execAndi (d a : BitVec 6) (imm : BitVec 14) (s : State) : Res :=
  runAluImm (.andi d a imm) (fun x => aluAnd x (imm.signExtend 64)) d a s

/-- R307. `ori sd, sa, #imm`. -/
def execOri (d a : BitVec 6) (imm : BitVec 14) (s : State) : Res :=
  runAluImm (.ori d a imm) (fun x => aluOr x (imm.signExtend 64)) d a s

/-- R307. `xori sd, sa, #imm`. -/
def execXori (d a : BitVec 6) (imm : BitVec 14) (s : State) : Res :=
  runAluImm (.xori d a imm) (fun x => aluXor x (imm.signExtend 64)) d a s

/-- R307. `slti sd, sa, #imm`. -/
def execSlti (d a : BitVec 6) (imm : BitVec 14) (s : State) : Res :=
  runAluImm (.slti d a imm) (fun x => aluSlt x (imm.signExtend 64)) d a s

/-- R307. `sltni sd, sa, #imm`. -/
def execSltni (d a : BitVec 6) (imm : BitVec 14) (s : State) : Res :=
  runAluImm (.sltni d a imm) (fun x => aluSltn x (imm.signExtend 64)) d a s

/-- R307. `shli sd, sa, #sh`. -/
def execShli (d a sh : BitVec 6) (s : State) : Res :=
  runAluImm (.shli d a sh) (fun x => aluShl x (sh.setWidth 64)) d a s

/-- R307. `shri sd, sa, #sh`. -/
def execShri (d a sh : BitVec 6) (s : State) : Res :=
  runAluImm (.shri d a sh) (fun x => aluShr x (sh.setWidth 64)) d a s

/-- R307. `sari sd, sa, #sh`. -/
def execSari (d a sh : BitVec 6) (s : State) : Res :=
  runAluImm (.sari d a sh) (fun x => aluSar x (sh.setWidth 64)) d a s

/-- R308. `lui sd, #imm`: the sign-extended immediate times 2^14, label 0. -/
def execLui (d : BitVec 6) (imm : BitVec 20) (s : State) : Res :=
  runScalar (.lui d imm) legal [] (some d) s fun k => k.done s (k.x.writeS d.toNat ⟨imm.signExtend 64 <<< 14, 0⟩)

end Sys2Proof.Machine
end

