-- ==== Sys2Proof/Machine/Trust.lean ====
section
/-!
DEFINITION. Belvedere: boot (R27, R228 to R231), resets (R234), measurement registers (R230), the life cycle (R233) and SPDM
answers (R232).
-/
namespace Sys2Proof.Machine

/-! ### Measurement registers (R230) -/

/-- A measurement register. -/
def State.mslAt (s : State) (n : Nat) : BitVec 512 := tGet s.belv.msl 0 n

/-- Extension: M := SHAKE256(M ‖ d) (R230). -/
def State.extend (s : State) (n : Nat) (d : BitVec 512) : State :=
  let x := Config.shake256 (toBytes 64 (s.mslAt n).toNat ++ toBytes 64 d.toNat)
  { s with belv := { s.belv with msl := tSet s.belv.msl 0 n x } }


/-- R193, R230. MSLEXTEND. -/
def execMslextend (s : State) : Res :=
  runCmd 7 ([0x1F] ++ List.replicate 8 allBits) s fun w =>
    if w 1 < 24 then (s, .error 0x01)
    else
      let d := (List.range 8).foldl (fun n i => n + w (i + 2) * 2 ^ (64 * i)) 0
      (s.extend (w 1) (BitVec.ofNat 512 d), .ok [])

/-! ### Boot (R228) -/

/-- The links that Belvedere keys: CDn to the hub die (0–3), the ring (4–7), the HBM interfaces (8–39), the sideband to every
other die (40–52) (R12). -/
def linkCount : Nat := 53

/-- Fresh keys for both directions of every link, with every counter at 0 (R228 step 6). -/
def State.keyLinks (s : State) : State :=
  let k := s.mem.nextKey
  { s with
    mem := { s.mem with nextKey := k + 2 * linkCount },
    belv := { s.belv with links := (List.range (2 * linkCount)).map fun i => (i, k + i, 0) } }

/-- The first 32 bytes of a digest (R231). -/
def seedOf (bs : List Byte) : BitVec 256 := (Config.shake256 bs).setWidth 256

/-- The seeds of DeviceID and Alias, the maker's certificate of DeviceID's public key, and the Alias certificate, which DeviceID signs
(R231). That the flash holds a certificate for DeviceID in each life-cycle state, signed by the key of which VROOT is the digest, is the
model's choice (log 79). -/
def State.deriveIds (s : State) : State :=
  let b := s.belv
  let base := toBytes 32 b.uds.toNat ++ toBytes 2 (Config.lcFuses b.lc).toNat
  let dev := seedOf (1 :: base)
  let alias_ := seedOf (2 :: base ++ toBytes 64 (s.mslAt 0).toNat ++ toBytes 64 (s.mslAt 14).toNat)
  let key := Config.publicKey dev
  { s with belv := { b with ids := some (dev, alias_), devCert := ⟨key, b.vroot⟩, aliasCert := some ⟨Config.publicKey alias_, key⟩ } }

/-- The die type of a die's measurement register: 1 hub, 2 base, 10 compute (R229). -/
def dieType (n : Nat) : Nat := if n = 1 then 1 else if n < 10 then 2 else 10

/-- The image in flash for MSL0, MSL14 or MSL15; an image that nothing has replaced is the maker's, signed under VROOT and not
below FWSVN (R228, log 79). -/
def Belv.image (b : Belv) (n : Nat) : Image := (tFind b.flash n).getD ⟨b.vroot, 64, Config.bootDigest n⟩

/-- What the die of register MSL1 to MSL13 presents; a die that nothing has replaced is the maker's (R229, log 79). -/
def Belv.presents (b : Belv) (n : Nat) : Image :=
  (tFind b.flash n).getD ⟨b.vroot, 0, Config.manifest (b.image 0).digest (dieType n)⟩

/-- The version that FWSVN demands: its thermometer code counts set bits (R227). -/
def Belv.minVersion (b : Belv) : Nat := ((List.range 64).filter fun i => b.fwsvn.getLsbD i).length

/-- An image verifies against VROOT and is not below FWSVN (R228); the maker's does (log 79). -/
def Belv.verifies (b : Belv) (n : Nat) : Bool :=
  match tFind b.flash n with
  | some i => i.root == b.vroot && decide (b.minVersion ≤ i.version)
  | none => true

/-- A die's chain ends at VROOT and its measurement equals the manifest's (R229); the maker's does (log 79). -/
def Belv.authentic (b : Belv) (n : Nat) : Bool :=
  match tFind b.flash n with
  | some i => i.root == b.vroot && i.digest == Config.manifest (b.image 0).digest (dieType n)
  | none => true

/-- The measurement registers of the dies in the order of authentication: H0 to H7, the hub die, CD0 to CD3 (R228, R229). -/
def bootOrder : List Nat := [2, 3, 4, 5, 6, 7, 8, 9, 1, 10, 11, 12, 13]

/-- Boot fails at a step and a die: BOOT_FAIL is reported, and no die is released (R228). -/
def State.bootFails (s : State) (step die : Nat) : State :=
  ({ s with belv := { s.belv with fault := none } }).modMgmt fun m =>
    { m with bootFail := true, failStep := BitVec.ofNat 8 step, failDie := BitVec.ofNat 8 die }

/-- The number of the die of register MSL1 to MSL13 in FAILDIE (R191). -/
def dieNumber (n : Nat) : Nat := if n = 1 then 0x08 else if n < 10 then n - 2 else n + 6

/-- Images are verified one by one and extended into their registers (R228 steps 1 and 3); FAILDIE names Belvedere for an image
(log 57). -/
def State.bootImages (step : Nat) : List Nat → State → State
  | [], s => s
  | n :: r, s => if s.belv.verifies n then State.bootImages step r (s.extend n (s.belv.image n).digest) else s.bootFails step 0xFF

/-- Dies are authenticated one by one and extended into their registers (R228 step 2, R229), up to one that fails: by what it
presents, or as the outside decides (`Belv.fault`). -/
def State.bootDies : List Nat → State → State
  | [], s => match s.belv.fault with
    | some (2, die) => s.bootFails 2 die
    | _ => s
  | n :: r, s =>
    if s.belv.authentic n ∧ s.belv.fault ≠ some (2, dieNumber n) then State.bootDies r (s.extend n (s.belv.presents n).digest)
    else s.bootFails 2 (dieNumber n)

/-- What a boot step does (R228). -/
def State.bootWork (s : State) (step : Nat) : State :=
  match step with
  | 1 => State.bootImages 1 [0] s
  | 2 => State.bootDies bootOrder s
  | 3 => State.bootImages 3 [14, 15] s
  | 4 => s.extend 16 (Config.configDigest s.belv.spares)
  | 5 => s.deriveIds
  | 6 => s.keyLinks
  | _ => (s.loadKey 0).modMgmt fun m => { m with run := .run }

/-- One step of the boot sequence (R228), unless an earlier one has failed; a step other than the second fails as a whole. -/
def State.bootStep (s : State) (step : Nat) : State :=
  if s.mgmt.bootFail then s
  else match s.belv.fault with
  | some (n, die) => if step = n ∧ n ≠ 2 then s.bootFails n die else s.bootWork step
  | none => s.bootWork step

/-- The boot sequence (R228). A step that fails is reported with its die, and the device stays in reset. A DECOMMISSIONED device
releases no die (R233). -/
def State.boot (s : State) : State :=
  if s.belv.lc = .decommissioned then s else (rangeFrom 1 7).foldl State.bootStep s

/-- R27, R228. Power-on: with every die in reset, the boot sequence runs. -/
def execPowerOn (s : State) : Res := .next (if s.mgmt.run = .boot ∧ s.mgmt.bootFail = false then s.boot else s)

/-! ### Resets (R234) -/

/-- The frames of HBM and LPDDR whose contents are not known to be zero; an LPDDR or CXL frame is owed its zeros after a device reset in
any case (`Mem.owes`). -/
def Mem.dirtyFrames (m : Mem) : List Nat :=
  let fs := m.bytes.map (fun e => e.1 / 65536) ++ m.sealed.map (fun e => e.1 / 1024) ++ m.poison.map (· / 1024) ++ m.latent.map fun e => e.1 / 1024
  (fs.filter fun f => (tierOf (f * 65536) == some 0 || tierOf (f * 65536) == some 1) && !memb m.listed f).foldl setAdd []

/-- Main memory after a cold reset: zero but for the host's bytes, keys erased (R234); no sealed frame has been written with zeros under
a new key yet (R235). -/
def Mem.cold (m : Mem) : Mem :=
  { Mem.reset with bytes := m.bytes.filter (fun e => tierOf e.1 == some 3), nextKey := m.nextKey }

/-- Main memory after a warm reset: HBM and LPDDR keep their contents, each frame to be zeroed before it is used again, and the
poisoned-frame list is kept with the poisoned lines; CXL as for a cold reset, every frame to be zeroed under its new key (R234,
R235). -/
def Mem.warm (m : Mem) : Mem :=
  { Mem.reset with
    bytes := m.bytes.filter (fun e => tierOf e.1 != some 2), sealed := m.sealed.filter (fun e => tierOf (64 * e.1) != some 2),
    poison := m.poison, listed := m.listed, latent := m.latent.filter (fun e => tierOf (64 * e.1) != some 2),
    owed := m.dirtyFrames, nextKey := m.nextKey }

/-- What every device reset leaves: reset values everywhere but in the fuses, what flash holds, the host's memory and
page state, and the model's own bookkeeping (R220, R229, R234). -/
def State.wiped (s : State) (mem : Mem) (nextGrid : W64) : State :=
  { State.reset with
    agenda := s.agenda, freeCtr := s.freeCtr, nextId := s.nextId, outbox := s.outbox, mem := mem,
    xlat := { Xlat.reset with host := s.xlat.host }, work := { Work.reset with nextGrid := nextGrid },
    belv := { Belv.reset with uds := s.belv.uds, lc := s.belv.lc, vroot := s.belv.vroot, fwsvn := s.belv.fwsvn,
                              fault := s.belv.fault, spares := s.belv.spares, flash := s.belv.flash, devCert := s.belv.devCert } }

/-- R234. A cold reset, then boot. -/
def execColdReset (s : State) : Res := .next (s.wiped s.mem.cold 1).boot

/-- R234. A warm reset, then boot; it does not end a HALT (R79). GRIDIDs stay unique since the last cold reset (R48). -/
def execWarmReset (s : State) : Res :=
  .next (if s.mgmt.run = .halt then s else (s.wiped s.mem.warm s.work.nextGrid).boot)

/-- R234, R256. A function-level reset of a virtual function: its queues at reset values, its packets and mailbox dropped, its
contexts removed without records. -/
def execFlr (fn : Nat) (s : State) : Res :=
  if !s.isRunning ∨ fn ≥ 16 then .next s
  else
    let s := { s with
      front := { s.front with
        queues := tDelRange s.front.queues (16 * fn) 16, packets := s.front.packets.filter (fun (e : Nat × Packet) => e.2.fn != fn),
        mail := tDel s.front.mail fn },
      xlat := { s.xlat with asked := s.xlat.asked.filter (fun e => e.1 / 65536 != fn), ats := s.xlat.ats.filter fun e => e.1 != fn } }
    let cs := (s.ctxs.filter fun e => e.2.fn == fn).map fun e => e.1
    .next (cs.foldl (fun (s : State) c => s.removeContext c 0x44 true) s)

/-! ### Life cycle (R233) -/

/-- The transitions of R233. -/
def LifeCycle.allows (l n : LifeCycle) : Bool :=
  match l, n with
  | .manufacture, .development => true
  | .manufacture, .production => true
  | .development, .production => true
  | .production, .rma => true
  | .rma, .decommissioned => true
  | _, _ => false

/-- A transition blows the fuses, erases UDS in DECOMMISSIONED, and proceeds as a cold reset with MSL17 extended (R230, R233). -/
def State.advance (s : State) (n : LifeCycle) : State :=
  let s := s.wiped s.mem.cold 1
  let s := { s with belv := { s.belv with lc := n, uds := if n = LifeCycle.decommissioned then 0 else s.belv.uds } }
  (s.extend 17 (Config.stateDigest n)).boot

/-- R193, R233. LCCHANGE. -/
def execLcchange (s : State) : Res :=
  if !s.isRunning ∨ s.mgmt.cmdBusy = false ∨ fld (s.cmdWord 0) 15 0 ≠ 0x0A then .next s
  else if fld (s.cmdWord 0) 31 16 ≠ 0 ∨ s.unnamed [allBits, 0x3FFF] then .next (s.answer 1 0x01 [])
  else
    let seed := match s.belv.ids with
      | some (d, _) => d
      | none => 0
    match Config.authorises seed (s.peekN 0 (hostPa (s.cmdWord 1)) (s.cmdWord 2)) with
    | some n => if s.belv.lc.allows n then .next (s.advance n) else .next (s.answer 1 0x01 [])
    | none => .next (s.answer 1 0x01 [])

/-! ### SPDM (R232) -/

/-- Belvedere answers a request of a function with a body under Alias and the records asked for. The session of a function passes
through GET_VERSION, GET_CAPABILITIES and NEGOTIATE_ALGORITHMS (`level` 1 to 3) before the others; a request out of turn is
answered with an error (log 29). -/
def answerSpdm (fn req need level : Nat) (s : State) (records : List (BitVec 512)) : Res :=
  match s.isRunning, s.belv.ids with
  | true, some (_, seed) =>
    if fn > 16 then .next s
    else if tGet s.belv.spdm 0 fn < need then .next (s.emit (.spdm fn 0x7F []))
    else
      let s := if level = 0 then s else { s with belv := { s.belv with spdm := tSet s.belv.spdm 0 fn level } }
      .next (s.emit (.spdm fn req (records ++ Config.spdmBody seed req records)))
  | _, _ => .next s

/-- R232. GET_VERSION. -/
def execGetVersion (fn : Nat) (s : State) : Res := answerSpdm fn 0x84 0 1 s []
/-- R232. GET_CAPABILITIES. -/
def execGetCapabilities (fn : Nat) (s : State) : Res := answerSpdm fn 0xE1 1 2 s []
/-- R232. NEGOTIATE_ALGORITHMS. -/
def execNegotiateAlgorithms (fn : Nat) (s : State) : Res := answerSpdm fn 0xE3 2 3 s []
/-- The certificate chain: DeviceID's certificate from flash, then Alias's (R231). -/
def Belv.chain (b : Belv) : List (BitVec 512) :=
  [b.devCert.key, b.devCert.signer] ++ match b.aliasCert with
    | some c => [c.key, c.signer]
    | none => []

/-- R232. GET_DIGESTS: the digest of the certificate chain. -/
def execGetDigests (fn : Nat) (s : State) : Res :=
  answerSpdm fn 0x81 3 0 s [Config.shake256 (s.belv.chain.flatMap fun k => toBytes 64 k.toNat)]
/-- R232, R231. GET_CERTIFICATE: the certificate chain. -/
def execGetCertificate (fn : Nat) (s : State) : Res := answerSpdm fn 0x82 3 0 s s.belv.chain
/-- R232. CHALLENGE, signed with Alias. -/
def execChallenge (fn : Nat) (s : State) : Res := answerSpdm fn 0x83 3 0 s []

/-- The record of a context (R232): CODE, then words 8 and 9. -/
def Ctx.record (c : Ctx) : List (BitVec 512) :=
  [c.code, BitVec.ofNat 512 (c.label.toNat * 2 ^ 8 + b2n c.mutableC * 2 + b2n c.prot + c.savectr.toNat * 2 ^ 64)]

/-- The record of one measurement index for a function; empty where it may not read it (R232). -/
def State.measurement (s : State) (fn index : Nat) : List (BitVec 512) :=
  if 0x01 ≤ index ∧ index ≤ 0x20 then [s.mslAt (index - 1)]
  else if 0x40 ≤ index ∧ index < 0x80 then match s.ctx (index - 0x40) with
    | some c => if fn = 16 ∨ c.fn = fn then c.record else []
    | none => []
  else []

/-- R232. GET_MEASUREMENTS; index 0xFF names every index that the requester may read. -/
def execGetMeasurements (fn : Nat) (index : BitVec 8) (s : State) : Res :=
  answerSpdm fn 0xE0 3 0 s
    (if index = 0xFF then (List.range 0x80).flatMap (s.measurement fn) else s.measurement fn index.toNat)

end Sys2Proof.Machine
end

