-- ==== Sys2Proof/Machine/Dispatch.lean ====
section
/-!
DEFINITION. The dispatch of every instruction and event to its meaning, one arm per constructor of `Instr`.
-/
namespace Sys2Proof.Machine

/-- The meaning of an instruction or event in a state. -/
def exec (i : Instr) (s : State) : Host.Outcome State Fault Refusal :=
  match i with
  | .add d a b => Sys2Proof.Machine.execAdd d a b s
  | .sub d a b => Sys2Proof.Machine.execSub d a b s
  | .and d a b => Sys2Proof.Machine.execAnd d a b s
  | .or d a b => Sys2Proof.Machine.execOr d a b s
  | .xor d a b => Sys2Proof.Machine.execXor d a b s
  | .shl d a b => Sys2Proof.Machine.execShl d a b s
  | .shr d a b => Sys2Proof.Machine.execShr d a b s
  | .sar d a b => Sys2Proof.Machine.execSar d a b s
  | .mul d a b => Sys2Proof.Machine.execMul d a b s
  | .mulhn d a b => Sys2Proof.Machine.execMulhn d a b s
  | .mulh d a b => Sys2Proof.Machine.execMulh d a b s
  | .divn d a b => Sys2Proof.Machine.execDivn d a b s
  | .remn d a b => Sys2Proof.Machine.execRemn d a b s
  | .min d a b => Sys2Proof.Machine.execMin d a b s
  | .max d a b => Sys2Proof.Machine.execMax d a b s
  | .minn d a b => Sys2Proof.Machine.execMinn d a b s
  | .maxn d a b => Sys2Proof.Machine.execMaxn d a b s
  | .seq d a b => Sys2Proof.Machine.execSeq d a b s
  | .sne d a b => Sys2Proof.Machine.execSne d a b s
  | .slt d a b => Sys2Proof.Machine.execSlt d a b s
  | .sltn d a b => Sys2Proof.Machine.execSltn d a b s
  | .addi d a imm => Sys2Proof.Machine.execAddi d a imm s
  | .andi d a imm => Sys2Proof.Machine.execAndi d a imm s
  | .ori d a imm => Sys2Proof.Machine.execOri d a imm s
  | .xori d a imm => Sys2Proof.Machine.execXori d a imm s
  | .shli d a sh => Sys2Proof.Machine.execShli d a sh s
  | .shri d a sh => Sys2Proof.Machine.execShri d a sh s
  | .sari d a sh => Sys2Proof.Machine.execSari d a sh s
  | .slti d a imm => Sys2Proof.Machine.execSlti d a imm s
  | .sltni d a imm => Sys2Proof.Machine.execSltni d a imm s
  | .lui d imm => Sys2Proof.Machine.execLui d imm s
  | .bz a disp => Sys2Proof.Machine.execBz a disp s
  | .bnz a disp => Sys2Proof.Machine.execBnz a disp s
  | .bltz a disp => Sys2Proof.Machine.execBltz a disp s
  | .bgez a disp => Sys2Proof.Machine.execBgez a disp s
  | .jmp disp => Sys2Proof.Machine.execJmp disp s
  | .call d disp => Sys2Proof.Machine.execCall d disp s
  | .jr a => Sys2Proof.Machine.execJr a s
  | .sld d a b sz sx sp => Sys2Proof.Machine.execSld d a b sz sx sp s
  | .sst a b c sz sp => Sys2Proof.Machine.execSst a b c sz sp s
  | .argld d a imm => Sys2Proof.Machine.execArgld d a imm s
  | .kmov d a => Sys2Proof.Machine.execKmov d a s
  | .lrun entry => Sys2Proof.Machine.execLrun entry s
  | .lsync => Sys2Proof.Machine.execLsync s
  | .yield => Sys2Proof.Machine.execYield s
  | .yieldc cls n disp => Sys2Proof.Machine.execYieldc cls n disp s
  | .waitc cls n => Sys2Proof.Machine.execWaitc cls n s
  | .exit => Sys2Proof.Machine.execExit s
  | .barArrive d n e => Sys2Proof.Machine.execBarArrive d n e s
  | .barWait a n => Sys2Proof.Machine.execBarWait a n s
  | .barSync d n e => Sys2Proof.Machine.execBarSync d n e s
  | .fence ord scope => Sys2Proof.Machine.execFence ord scope s
  | .tokacq t => Sys2Proof.Machine.execTokacq t s
  | .tokrel t => Sys2Proof.Machine.execTokrel t s
  | .copy a b c dir stat => Sys2Proof.Machine.execCopy a b c dir stat s
  | .copy2d a b c dir stat => Sys2Proof.Machine.execCopy2d a b c dir stat s
  | .nstore a b role => Sys2Proof.Machine.execNstore a b role s
  | .namepop d => Sys2Proof.Machine.execNamepop d s
  | .relq a b role => Sys2Proof.Machine.execRelq a b role s
  | .vfence => Sys2Proof.Machine.execVfence s
  | .coll a => Sys2Proof.Machine.execColl a s
  | .launch a b => Sys2Proof.Machine.execLaunch a b s
  | .signalSetInsn b c scope => Sys2Proof.Machine.execSignalSetInsn b c scope s
  | .signalAdd b c scope => Sys2Proof.Machine.execSignalAdd b c scope s
  | .signalWaitInsn b c cmp ext scope => Sys2Proof.Machine.execSignalWaitInsn b c cmp ext scope s
  | .satom a b c aop w32 ordsc => Sys2Proof.Machine.execSatom a b c aop w32 ordsc s
  | .dqpush a dsc role => Sys2Proof.Machine.execDqpush a dsc role s
  | .dqpop d dsc role => Sys2Proof.Machine.execDqpop d dsc role s
  | .dqsteal d dsc role => Sys2Proof.Machine.execDqsteal d dsc role s
  | .bndmin a => Sys2Proof.Machine.execBndmin a s
  | .bndrd d => Sys2Proof.Machine.execBndrd d s
  | .role d role => Sys2Proof.Machine.execRole d role s
  | .csrr d csr => Sys2Proof.Machine.execCsrr d csr s
  | .csrw a csr => Sys2Proof.Machine.execCsrw a csr s
  | .trap imm => Sys2Proof.Machine.execTrap imm s
  | .placeHint a b tier => Sys2Proof.Machine.execPlaceHint a b tier s
  | .placeReq a b c tier => Sys2Proof.Machine.execPlaceReq a b c tier s
  | .savev a b => Sys2Proof.Machine.execSavev a b s
  | .restv a b => Sys2Proof.Machine.execRestv a b s
  | .savet a b c => Sys2Proof.Machine.execSavet a b c s
  | .restt a b c => Sys2Proof.Machine.execRestt a b c s
  | .tret => Sys2Proof.Machine.execTret s
  | .tretSkip => Sys2Proof.Machine.execTretSkip s
  | .mapedit a b c => Sys2Proof.Machine.execMapedit a b c s
  | .mapsync a b c => Sys2Proof.Machine.execMapsync a b c s
  | .refitf d c => Sys2Proof.Machine.execRefitf d c s
  | .lbldn index level kind => Sys2Proof.Machine.execLbldn index level kind s
  | .mov f => Sys2Proof.Machine.execMov f s
  | .laneid f => Sys2Proof.Machine.execLaneid f s
  | .sel f => Sys2Proof.Machine.execSel f s
  | .pset f => Sys2Proof.Machine.execPset f s
  | .iadd f => Sys2Proof.Machine.execIadd f s
  | .isub f => Sys2Proof.Machine.execIsub f s
  | .imul f => Sys2Proof.Machine.execImul f s
  | .imulh f => Sys2Proof.Machine.execImulh f s
  | .imad f => Sys2Proof.Machine.execImad f s
  | .imin f => Sys2Proof.Machine.execImin f s
  | .imax f => Sys2Proof.Machine.execImax f s
  | .iabs f => Sys2Proof.Machine.execIabs f s
  | .iand f => Sys2Proof.Machine.execIand f s
  | .ior f => Sys2Proof.Machine.execIor f s
  | .ixor f => Sys2Proof.Machine.execIxor f s
  | .inot f => Sys2Proof.Machine.execInot f s
  | .ishl f => Sys2Proof.Machine.execIshl f s
  | .ishr f => Sys2Proof.Machine.execIshr f s
  | .isar f => Sys2Proof.Machine.execIsar f s
  | .icmp f => Sys2Proof.Machine.execIcmp f s
  | .popc f => Sys2Proof.Machine.execPopc f s
  | .clz f => Sys2Proof.Machine.execClz f s
  | .brev f => Sys2Proof.Machine.execBrev f s
  | .bfe f => Sys2Proof.Machine.execBfe f s
  | .bfi f => Sys2Proof.Machine.execBfi f s
  | .idiv f => Sys2Proof.Machine.execIdiv f s
  | .irem f => Sys2Proof.Machine.execIrem f s
  | .fadd f => Sys2Proof.Machine.execFadd f s
  | .fsub f => Sys2Proof.Machine.execFsub f s
  | .fmul f => Sys2Proof.Machine.execFmul f s
  | .ffma f => Sys2Proof.Machine.execFfma f s
  | .fmin f => Sys2Proof.Machine.execFmin f s
  | .fmax f => Sys2Proof.Machine.execFmax f s
  | .fcmp f => Sys2Proof.Machine.execFcmp f s
  | .fclass f => Sys2Proof.Machine.execFclass f s
  | .frcp f => Sys2Proof.Machine.execFrcp f s
  | .frsq f => Sys2Proof.Machine.execFrsq f s
  | .fsqrt f => Sys2Proof.Machine.execFsqrt f s
  | .fex2 f => Sys2Proof.Machine.execFex2 f s
  | .flg2 f => Sys2Proof.Machine.execFlg2 f s
  | .fdiv f => Sys2Proof.Machine.execFdiv f s
  | .cvt f => Sys2Proof.Machine.execCvt f s
  | .pack f => Sys2Proof.Machine.execPack f s
  | .unpk f => Sys2Proof.Machine.execUnpk f s
  | .dp4i f => Sys2Proof.Machine.execDp4i f s
  | .dp8i f => Sys2Proof.Machine.execDp8i f s
  | .dp4f f => Sys2Proof.Machine.execDp4f f s
  | .dp8f f => Sys2Proof.Machine.execDp8f f s
  | .mxscale f => Sys2Proof.Machine.execMxscale f s
  | .qcvt f => Sys2Proof.Machine.execQcvt f s
  | .dqcvt f => Sys2Proof.Machine.execDqcvt f s
  | .shfl f => Sys2Proof.Machine.execShfl f s
  | .shflx f => Sys2Proof.Machine.execShflx f s
  | .vred f => Sys2Proof.Machine.execVred f s
  | .vscan f => Sys2Proof.Machine.execVscan f s
  | .vvote f => Sys2Proof.Machine.execVvote f s
  | .vfirst f => Sys2Proof.Machine.execVfirst f s
  | .ldt f => Sys2Proof.Machine.execLdt f s
  | .stt f => Sys2Proof.Machine.execStt f s
  | .ldc f => Sys2Proof.Machine.execLdc f s
  | .stc f => Sys2Proof.Machine.execStc f s
  | .lds f => Sys2Proof.Machine.execLds f s
  | .sts f => Sys2Proof.Machine.execSts f s
  | .att f => Sys2Proof.Machine.execAtt f s
  | .atc f => Sys2Proof.Machine.execAtc f s
  | .accrd f => Sys2Proof.Machine.execAccrd f s
  | .accwr f => Sys2Proof.Machine.execAccwr f s
  | .gath f => Sys2Proof.Machine.execGath f s
  | .scat f => Sys2Proof.Machine.execScat f s
  | .scatAdd f => Sys2Proof.Machine.execScatAdd f s
  | .matom f => Sys2Proof.Machine.execMatom f s
  | .bra f => Sys2Proof.Machine.execBra f s
  | .lcall f => Sys2Proof.Machine.execLcall f s
  | .lret f => Sys2Proof.Machine.execLret f s
  | .rcvMark f => Sys2Proof.Machine.execRcvMark f s
  | .rcvWait f => Sys2Proof.Machine.execRcvWait f s
  | .lend f => Sys2Proof.Machine.execLend f s
  | .refill f => Sys2Proof.Machine.execRefill f s
  | .idle f => Sys2Proof.Machine.execIdle f s
  | .ltrap f => Sys2Proof.Machine.execLtrap f s
  | .mma shape acc ra rb rf zero reuse => Sys2Proof.Machine.execMma shape acc ra rb rf zero reuse s
  | .mmas shape acc ra rb rf spm zero reuse => Sys2Proof.Machine.execMmas shape acc ra rb rf spm zero reuse s
  | .mzero shape acc => Sys2Proof.Machine.execMzero shape acc s
  | .mload shape acc ra pitch => Sys2Proof.Machine.execMload shape acc ra pitch s
  | .mstore shape acc ra pitch => Sys2Proof.Machine.execMstore shape acc ra pitch s
  | .mquant shape acc ra rb fmt clip p f src pitch => Sys2Proof.Machine.execMquant shape acc ra rb fmt clip p f src pitch s
  | .mscale shape acc ra rb src col row => Sys2Proof.Machine.execMscale shape acc ra rb src col row s
  | .mset ra imm => Sys2Proof.Machine.execMset ra imm s
  | .madd ra rb rf reg imm => Sys2Proof.Machine.execMadd ra rb rf reg imm s
  | .mloop ra disp => Sys2Proof.Machine.execMloop ra disp s
  | .mjmp disp => Sys2Proof.Machine.execMjmp disp s
  | .mhalt => Sys2Proof.Machine.execMhalt s
  | .mwait n ra => Sys2Proof.Machine.execMwait n ra s
  | .marrive n ra tok e => Sys2Proof.Machine.execMarrive n ra tok e s
  | .mtrel acc => Sys2Proof.Machine.execMtrel acc s
  | .mtacq acc => Sys2Proof.Machine.execMtacq acc s
  | .mfence => Sys2Proof.Machine.execMfence s
  | .entryFuse w => Sys2Proof.Machine.execEntryFuse w s
  | .splitRetry w e => Sys2Proof.Machine.execSplitRetry w e s
  | .candidateRaise core quad => Sys2Proof.Machine.execCandidateRaise core quad s
  | .yieldTimeout w => Sys2Proof.Machine.execYieldTimeout w s
  | .yieldcResume w => Sys2Proof.Machine.execYieldcResume w s
  | .counterRetire op => Sys2Proof.Machine.execCounterRetire op s
  | .nstorePlace op unit => Sys2Proof.Machine.execNstorePlace op unit s
  | .trapEntry w => Sys2Proof.Machine.execTrapEntry w s
  | .preemptNotice w => Sys2Proof.Machine.execPreemptNotice w s
  | .distributorWalk => Sys2Proof.Machine.execDistributorWalk s
  | .backfillLimit launch => Sys2Proof.Machine.execBackfillLimit launch s
  | .copyDescriptor launch slot => Sys2Proof.Machine.execCopyDescriptor launch slot s
  | .packetRetire p => Sys2Proof.Machine.execPacketRetire p s
  | .coalesceTimer fn q => Sys2Proof.Machine.execCoalesceTimer fn q s
  | .doorbell fn q tail => Sys2Proof.Machine.execDoorbell fn q tail s
  | .queueEnable fn q => Sys2Proof.Machine.execQueueEnable fn q s
  | .queueDisable fn q => Sys2Proof.Machine.execQueueDisable fn q s
  | .registerWrite fn off val => Sys2Proof.Machine.execRegisterWrite fn off val s
  | .bundle p => Sys2Proof.Machine.execBundle p s
  | .signalSet p => Sys2Proof.Machine.execSignalSet p s
  | .signalWait p => Sys2Proof.Machine.execSignalWait p s
  | .mapEdit p => Sys2Proof.Machine.execMapEdit p s
  | .mapSync p => Sys2Proof.Machine.execMapSync p s
  | .mapRefit p => Sys2Proof.Machine.execMapRefit p s
  | .viewreg p => Sys2Proof.Machine.execViewreg p s
  | .viewdereg p => Sys2Proof.Machine.execViewdereg p s
  | .poolreg p => Sys2Proof.Machine.execPoolreg p s
  | .pooldereg p => Sys2Proof.Machine.execPooldereg p s
  | .timestamp p => Sys2Proof.Machine.execTimestamp p s
  | .nop p => Sys2Proof.Machine.execNop p s
  | .mailboxRequest fn => Sys2Proof.Machine.execMailboxRequest fn s
  | .mailboxTimeout fn => Sys2Proof.Machine.execMailboxTimeout fn s
  | .setslice => Sys2Proof.Machine.execSetslice s
  | .setweight => Sys2Proof.Machine.execSetweight s
  | .ctxcreate => Sys2Proof.Machine.execCtxcreate s
  | .ctxremove => Sys2Proof.Machine.execCtxremove s
  | .removalForceStop slot => Sys2Proof.Machine.execRemovalForceStop slot s
  | .preempt => Sys2Proof.Machine.execPreempt s
  | .resume => Sys2Proof.Machine.execResume s
  | .mslextend => Sys2Proof.Machine.execMslextend s
  | .regwrite => Sys2Proof.Machine.execRegwrite s
  | .regread => Sys2Proof.Machine.execRegread s
  | .lcchange => Sys2Proof.Machine.execLcchange s
  | .dbgattach => Sys2Proof.Machine.execDbgattach s
  | .dbgdetach => Sys2Proof.Machine.execDbgdetach s
  | .dbgbreak => Sys2Proof.Machine.execDbgbreak s
  | .dbghalt => Sys2Proof.Machine.execDbghalt s
  | .dbgframe => Sys2Proof.Machine.execDbgframe s
  | .dbgresume => Sys2Proof.Machine.execDbgresume s
  | .eventRingEnable => Sys2Proof.Machine.execEventRingEnable s
  | .sliceEnd => Sys2Proof.Machine.execSliceEnd s
  | .drainComplete slot => Sys2Proof.Machine.execDrainComplete slot s
  | .preemptDeadline slot => Sys2Proof.Machine.execPreemptDeadline slot s
  | .watchdogExpiry slot => Sys2Proof.Machine.execWatchdogExpiry slot s
  | .holdTimeout launch => Sys2Proof.Machine.execHoldTimeout launch s
  | .operatingPointReached die => Sys2Proof.Machine.execOperatingPointReached die s
  | .hotnessDecay => Sys2Proof.Machine.execHotnessDecay s
  | .migrationClaim slot vpn dst => Sys2Proof.Machine.execMigrationClaim slot vpn dst s
  | .migrationCopyLine mig => Sys2Proof.Machine.execMigrationCopyLine mig s
  | .cutOver mig => Sys2Proof.Machine.execCutOver mig s
  | .cutoverAck mig => Sys2Proof.Machine.execCutoverAck mig s
  | .refit slot => Sys2Proof.Machine.execRefit slot s
  | .rebuildSnapshot unit => Sys2Proof.Machine.execRebuildSnapshot unit s
  | .rebuildPublish unit => Sys2Proof.Machine.execRebuildPublish unit s
  | .scrubRead unit => Sys2Proof.Machine.execScrubRead unit s
  | .scrubStepChange unit => Sys2Proof.Machine.execScrubStepChange unit s
  | .keyRotationStart slot => Sys2Proof.Machine.execKeyRotationStart slot s
  | .keySweepStep slot range => Sys2Proof.Machine.execKeySweepStep slot range s
  | .saveKeyRenew slot => Sys2Proof.Machine.execSaveKeyRenew slot s
  | .linkRekey link => Sys2Proof.Machine.execLinkRekey link s
  | .integrityFault link => Sys2Proof.Machine.execIntegrityFault link s
  | .cxlLinkDown port => Sys2Proof.Machine.execCxlLinkDown port s
  | .peerRouteDown route => Sys2Proof.Machine.execPeerRouteDown route s
  | .collAbort ident => Sys2Proof.Machine.execCollAbort ident s
  | .prgResponse fn group code => Sys2Proof.Machine.execPrgResponse fn group code s
  | .atsInvalidation fn page => Sys2Proof.Machine.execAtsInvalidation fn page s
  | .getVersion fn => Sys2Proof.Machine.execGetVersion fn s
  | .getCapabilities fn => Sys2Proof.Machine.execGetCapabilities fn s
  | .negotiateAlgorithms fn => Sys2Proof.Machine.execNegotiateAlgorithms fn s
  | .getDigests fn => Sys2Proof.Machine.execGetDigests fn s
  | .getCertificate fn => Sys2Proof.Machine.execGetCertificate fn s
  | .challenge fn => Sys2Proof.Machine.execChallenge fn s
  | .getMeasurements fn index => Sys2Proof.Machine.execGetMeasurements fn index s
  | .powerOn => Sys2Proof.Machine.execPowerOn s
  | .coldReset => Sys2Proof.Machine.execColdReset s
  | .warmReset => Sys2Proof.Machine.execWarmReset s
  | .flr fn => Sys2Proof.Machine.execFlr fn s
  | .signalWordPoll p warp => Sys2Proof.Machine.execSignalWordPoll p warp s
  | .cxlPortReenumeration port => Sys2Proof.Machine.execCxlPortReenumeration port s
  | .modulePowerOverLimit above => Sys2Proof.Machine.execModulePowerOverLimit above s
  | .thermalProtection die mhz => Sys2Proof.Machine.execThermalProtection die mhz s
  | .atsTranslationCompletion fn page present => Sys2Proof.Machine.execAtsTranslationCompletion fn page present s
  | .priReenable fn => Sys2Proof.Machine.execPriReenable fn s

end Sys2Proof.Machine
end

