-- ==== Sys2Proof/Machine/Weak.lean ====
section
/-!
DEFINITION. Chip-scratchpad accesses that are performed out of their issue order (R106 note 6, R370, log 12): a plain store or load
that is performed late, a plain load that was performed early. Everything else about an instruction is what `exec` says of it.
-/
namespace Sys2Proof.Machine

/-- The state that `exec` answers; `exec` never stops. -/
def execIn (i : Instr) (a : Agent) (s : State) : State :=
  match exec i { s with cur := a } with
  | .next t => t
  | _ => s

/-! ### What an instruction is to the ordering matrices (R106) -/

/-- A plain load of the chip scratchpad. -/
def plainLoad (i : Instr) : Bool :=
  match i with
  | .sld _ _ _ _ _ sp => sp
  | .ldc _ => true
  | .atc f => f.md == 0 && accessOrder i == 0
  | _ => false

/-- A store to the chip scratchpad that no acquire is: a release is kept before no later store (R106). -/
def plainStore (i : Instr) : Bool :=
  match i with
  | .sst _ _ _ _ sp => sp
  | .stc _ => true
  | .atc f => f.md == 1 && accessOrder i % 2 == 0
  | _ => false

/-- A chip-scratchpad atomic that changes its words and returns what they held, and no acquire is (R371). -/
def plainRmw (i : Instr) : Bool :=
  match i with
  | .atc f => decide (2 ≤ f.md.toNat) && accessOrder i % 2 == 0
  | _ => false

/-- An earlier scratchpad store of the agent need not be performed before the instruction: on-chip accesses without release,
acquires that are no engine operation, the bound, and what accesses nothing and meets nobody (R106 to R108, R112). -/
def staysLate (i : Instr) : Bool :=
  match i with
  | .sld _ _ _ _ _ _ => true
  | .sst _ _ _ _ _ => true
  | .ldt _ => true
  | .stt _ => true
  | .ldc _ => true
  | .stc _ => true
  | .lds _ => true
  | .sts _ => true
  | .accrd _ => true
  | .accwr _ => true
  | .att _ => decide (accessOrder i ≤ 1)
  | .atc _ => decide (accessOrder i ≤ 1)
  | .fence o _ => decide (o.toNat ≤ 1)
  | .barWait _ _ => true
  | .tokacq _ => true
  | .signalWaitInsn _ _ _ _ _ => true
  | .namepop _ => true
  | .bndmin _ => true
  | .bndrd _ => true
  | .lend _ => false
  | .rcvWait _ => false
  | .idle _ => false
  | .lsync => false
  | .exit => false
  | i => !accesses i

/-- A later scratchpad load of the agent must be performed after the instruction: acquires, meeting points, and waits on a counter,
which cover engine operations (R105 to R108). -/
def endsEarly (i : Instr) : Bool :=
  accessOrder i % 2 == 1 || match i with
  | .namepop _ => true
  | .lend _ => true
  | .rcvWait _ => true
  | .idle _ => true
  | .lsync => true
  | .waitc _ _ => true
  | .yieldc _ _ _ => true
  | _ => false

/-- The warp of an agent. -/
def Agent.warp : Agent → Option Nat
  | .scalar w => some w
  | .lane w _ => some w
  | _ => Option.none

/-- The lanes of an agent, none for the scalar stream. -/
def State.agentLanes (s : State) (a : Agent) : List Nat :=
  match a with
  | .lane w e => match s.warp w with
    | some x => match tFind x.entries e with
      | some y => lanesOf y.mask x.width
      | none => []
    | none => []
  | _ => []

/-- The plain chip-scratchpad accesses that an instruction is about to make; of a load the bytes are so many zeros. -/
def State.chipAcc (s : State) (a : Agent) (i : Instr) : Option LateStore :=
  match a with
  | .scalar w => match s.warp w with
    | some x => match s.home x with
      | some (t, _, _) =>
        let rd (r : BitVec 6) : LVal := x.readS r.toNat
        let one (off : W64) (bs : List Byte) (lab : Label) : Option LateStore :=
          some { grid := t.grid, die := dieOf x.core, parts := [(64, off.toNat % 2 ^ 32, bs)], lab := lab }
        match i with
        | .sld _ a b sz _ true => one ((rd a).val + (rd b).val) (List.replicate (2 ^ sz.toNat) 0) 0
        | .sst a b c sz true => one ((rd b).val + (rd c).val) (toBytes (2 ^ sz.toNat) (rd a).val.toNat)
            (Label.joinAll [(rd a).lab, (rd b).lab, (rd c).lab])
        | _ => none
      | none => none
    | none => none
  | .lane w e => match s.laneCtx w e i with
    | some k =>
      let n := tyBits k.f.ty.toNat / 8
      let each (off : Nat → Nat) (bs : Nat → List Byte) : Option LateStore :=
        some { grid := k.q.t.grid, die := dieOf k.q.x.core, parts := k.part.map fun l => (l, off l, bs l), lab := k.dataLab }
      match i with
      | .ldc _ => each k.off32 fun _ => List.replicate n 0
      | .stc _ => each k.off32 fun l => toBytes n (k.b l)
      | .atc _ => each k.off24 fun l => toBytes n (k.b l)
      | _ => none
    | none => none
  | _ => none

/-- Some agent accesses the same byte in both (R100). -/
def LateStore.meets (x y : LateStore) : Bool :=
  x.grid == y.grid && x.die == y.die && x.parts.any fun p => y.parts.any fun q =>
    p.1 == q.1 && rangesMeet (p.2.1, p.2.2.length) (q.2.1, q.2.2.length)

/-- No word of a range has an error. -/
def Sram.sound (m : Sram) (r : Nat × Nat) : Bool := (wordsIn 8 r.1 r.2).all fun i => !memb m.ce i && (tFind m.ue i).isNone

/-! ### Late stores -/

/-- Late stores to perform and those that stay: the chosen ones, with every earlier one that meets a chosen one (R100). The stores of
one instruction's lanes go together (R60, R108). -/
def pickLate (p : LateStore → Bool) : List LateStore → List LateStore × List LateStore
  | [] => ([], [])
  | x :: r =>
    let d := pickLate p r
    if p x || d.1.any x.meets then (x :: d.1, d.2) else (d.1, x :: d.2)

/-- Performs the late stores of one instruction of a warp, lanes in ascending order (R60); an uncorrectable word that has come
meanwhile kills the team (R67). -/
def State.performLate (s : State) (w : Nat) (x : LateStore) : State :=
  match s.warp w with
  | none => s
  | some y =>
    let s := s.putWarp w { y with early := y.early.map fun e => { e with seen := e.seen ++ x.ranges } }
    let (s, bad) := s.scanRanges false x
    if bad then s.lateError y
    else x.parts.foldl (fun s p => s.chipStore x.space p.2.1 p.2.2 x.lab) s

/-- Performs the late stores of a warp that `p` chooses. -/
def State.flushLate (s : State) (w : Nat) (p : LateStore → Bool) : State :=
  match s.warp w with
  | none => s
  | some x =>
    let d := pickLate p x.late
    if d.1.isEmpty then s else d.1.foldl (fun s y => s.performLate w y) (s.putWarp w { x with late := d.2 })

/-! ### Late loads

A load that is performed late has its result at once, as if it were performed at its issue, and may take a newer one until an
instruction comes that it must be performed before, or that meets its result. An atomic that is performed late has a result at once
too, but its words change, and its result becomes what they then held, when it is performed: at the latest before such an instruction. -/

/-- The late load that a load would be. -/
def State.lateLoad (s : State) (a : Agent) (i : Instr) (acc : LateStore) : Option LateLoad :=
  match a, i with
  | .scalar _, .sld d _ _ _ sx true =>
    some { acc := acc, reg := some d.toNat, wide := false, ty := 0, sx := sx, entry := 0, latch := 0, rmw := none }
  | .lane w e, _ => (s.laneCtx w e i).map fun k =>
    { acc := acc, reg := if k.f.wbs then none else some k.f.dst.toNat, wide := k.p.dst == .w64, ty := k.f.ty, sx := false, entry := e, latch := 0,
      rmw := if plainRmw i then some (aopLane k.f.ty k.f.md.toNat, k.part.map fun l => BitVec.ofNat 64 (k.c l)) else none }
  | _, _ => none

/-- The scalar registers that an instruction names, of those instructions that a late load can stand behind: all that work on
registers alone, and the on-chip accesses. -/
def scalarNames (i : Instr) : Option (List Nat) :=
  let abc (d a b : BitVec 6) : Option (List Nat) := some [d.toNat, a.toNat, b.toNat]
  let ab (d a : BitVec 6) : Option (List Nat) := some [d.toNat, a.toNat]
  match i with
  | .add d a b => abc d a b
  | .sub d a b => abc d a b
  | .and d a b => abc d a b
  | .or d a b => abc d a b
  | .xor d a b => abc d a b
  | .shl d a b => abc d a b
  | .shr d a b => abc d a b
  | .sar d a b => abc d a b
  | .mul d a b => abc d a b
  | .mulhn d a b => abc d a b
  | .mulh d a b => abc d a b
  | .divn d a b => abc d a b
  | .remn d a b => abc d a b
  | .min d a b => abc d a b
  | .max d a b => abc d a b
  | .minn d a b => abc d a b
  | .maxn d a b => abc d a b
  | .seq d a b => abc d a b
  | .sne d a b => abc d a b
  | .slt d a b => abc d a b
  | .sltn d a b => abc d a b
  | .addi d a _ => ab d a
  | .andi d a _ => ab d a
  | .ori d a _ => ab d a
  | .xori d a _ => ab d a
  | .shli d a _ => ab d a
  | .shri d a _ => ab d a
  | .sari d a _ => ab d a
  | .slti d a _ => ab d a
  | .sltni d a _ => ab d a
  | .lui d _ => some [d.toNat]
  | .bz a _ => some [a.toNat]
  | .bnz a _ => some [a.toNat]
  | .bltz a _ => some [a.toNat]
  | .bgez a _ => some [a.toNat]
  | .jmp _ => some []
  | .call d _ => some [d.toNat]
  | .jr a => some [a.toNat]
  | .argld d a _ => ab d a
  | .kmov _ a => some [a.toNat]
  | .csrr d _ => some [d.toNat]
  | .csrw _ a => some [a.toNat]
  | .yield => some []
  | .yieldc _ _ _ => some []
  | .waitc _ _ => some []
  | .signalWaitInsn b c _ _ _ => some [b.toNat, c.toNat]
  | .placeHint a b _ => some [a.toNat, b.toNat]
  | .sld d a b _ _ _ => some [d.toNat, a.toNat, b.toNat]
  | .sst a b c _ _ => some [a.toNat, b.toNat, c.toNat]
  | .tokacq _ => some []
  | .bndrd d => some [d.toNat]
  | .bndmin a => some [a.toNat]
  | .barWait _ a => some [a.toNat]
  | _ => none

/-- The v registers and latches that a lane instruction names, of those instructions that a late load can stand behind. -/
def LCtx.names (k : LCtx) : List Nat × List Nat :=
  let wide (r : Nat) : List Nat := if r < 640 then [r, r + 1] else []
  ((k.srcs.filter fun x => x.1 == .w32 || x.1 == .w64).flatMap (fun x => wide x.2.toNat) ++ k.dstRegs, k.latches)

/-- An instruction of an agent names the result of a late load. -/
def State.namesLoad (s : State) (a : Agent) (i : Instr) (y : LateLoad) : Bool :=
  match a with
  | .lane w e => match s.laneCtx w e i with
    | some k =>
      let n := k.names
      y.acc.agents != [64] && ((y.reg.any fun d => memb n.1 d || (y.wide && memb n.1 (d + 1))) || (y.entry == e && memb n.2 y.latch))
    | none => false
  | _ => y.acc.agents == [64] && match scalarNames i with
    | some l => y.reg.any (memb l)
    | none => true

/-- An instruction that every earlier load of its agent is performed before, although a store need not be: `FENCE` with acquire
effect (R104). -/
def readsFirst (i : Instr) : Bool :=
  match i with
  | .fence _ _ => true
  | _ => false

/-- The late loads of a warp that an instruction of an agent leaves open; any other has been performed. -/
def State.openLoads (s : State) (a : Agent) (i : Instr) (names : List Nat) (acc : Option LateStore) (x : Warp) : List LateLoad :=
  x.lateLd.filter fun y => !(s.namesLoad a i y || acc.any y.acc.meets ||
    ((!staysLate i || readsFirst i) && names.any (memb y.acc.agents)) || i == .exit)

/-- An instruction of an entry has put a result into its latches (R37): those of late loads stand one further on. -/
def LateLoad.shift (e : Nat) (y : LateLoad) : LateLoad := if y.acc.agents != [64] && y.entry == e then { y with latch := y.latch + 1 } else y

/-! ### An instruction of a warp -/

/-- An agent went on to the next instruction without a trap. -/
def wentOn (s t : State) (a : Agent) : Bool :=
  match a with
  | .scalar w => match s.warp w, t.warp w with
    | some x, some y => y.pc == x.pc + 4 && y.handler == x.handler
    | _, _ => false
  | .lane w e => match s.warp w, t.warp w with
    | some x, some y => match tFind x.entries e, tFind y.entries e with
      | some p, some q => q.pc == p.pc + 1
      | _, _ => false
    | _, _ => false
  | _ => false

/-- A load may take what was read ahead: the same copy, whose words have no error there (R67), no byte that the warp has since loaded
or stored, no agent that something has ordered since. -/
def EarlyRead.serves (e : EarlyRead) (acc : LateStore) : Bool :=
  e.use && acc.grid == e.grid && acc.die == e.die && acc.ranges.all (fun r => e.copy.sound r && !e.seen.any (rangesMeet r)) &&
    !acc.agents.any (memb e.dead)

/-- Executes an instruction whose scratchpad accesses may stand apart: a store that is to be performed late leaves the copy as it was
and is listed; a load that is to be performed late is listed with its result, and so is an atomic, which leaves the copy and FSTAT as they
were; a load performed early takes what was read. -/
def State.execApart (s : State) (i : Instr) (a : Agent) (w : Nat) (x : Warp) (acc : LateStore) : State :=
  let t := execIn i a s
  let m := s.sram acc.space
  if acc.parts.isEmpty || !acc.ranges.all m.sound then t
  else if x.lateNext && plainStore i then
    if wentOn s t a then (t.putSram acc.space m).modWarp w fun x => { x with lateNext := false, late := x.late ++ [acc] } else t
  else if x.lateNext && plainLoad i then
    if wentOn s t a then t.modWarp w fun x => { x with lateNext := false, lateLd := x.lateLd ++ (s.lateLoad a i acc).toList } else t
  else if x.lateNext && plainRmw i then
    if wentOn s t a then (t.putSram acc.space m).modWarp w fun y =>
      { y with lateNext := false, fstat := x.fstat, lateLd := y.lateLd ++ (s.lateLoad a i acc).toList } else t
  else match x.early with
    | some e =>
      let u := execIn i a (s.putSram acc.space { m with bytes := e.copy.bytes, labs := e.copy.labs })
      if plainLoad i && e.serves acc && wentOn s u a then (u.putSram acc.space m).modWarp w fun x => { x with early := none } else t
    | none => t

/-- An instruction of an entry makes a result that its latches take (R37). -/
def latches (i : Instr) : Bool :=
  match laneSpec i with
  | some (_, p) => p.dst == .w32 || p.dst == .w64
  | none => false

/-- Executes an instruction of an agent (R106): late stores that it must follow are performed first, late loads that it must follow
have been performed, late atomics are. -/
def State.execWeak (s : State) (i : Instr) (a : Agent) : State :=
  match a.warp with
  | none => execIn i a s
  | some w => match s.warp w with
    | none => execIn i a s
    | some x =>
      if x.late.isEmpty && !x.lateNext && x.lateLd.isEmpty && x.early.isNone then execIn i a s
      else
        let names := earlyNames (s.agentLanes a)
        let acc := s.chipAcc a i
        let s := s.flushLate w fun y => i == .exit || acc.any y.meets || (!staysLate i && names.any (memb y.agents))
        let closed := match s.warp w with
          | some x => x.lateLd.filter fun y => !(s.openLoads a i names acc x).contains y
          | none => []
        let s := s.performRmws w closed
        let s := s.modWarp w fun x => { x with lateLd := x.lateLd.filter fun y => !closed.contains y }
        match s.warp w with
        | none => s
        | some x =>
          let t := match acc with
            | some y => s.execApart i a w x y
            | none => execIn i a s
          let shifts := latches i && wentOn s t a
          let old := x.lateLd.length
          t.modWarp w fun x =>
            let x := { x with
              early := x.early.map fun e => { e with seen := e.seen ++ (acc.map LateStore.ranges).getD [] }
              lateLd := match a with
                | .lane _ e => if shifts then (x.lateLd.take old).map (LateLoad.shift e) ++ x.lateLd.drop old else x.lateLd
                | _ => x.lateLd }
            if endsEarly i then x.noEarly names else x

/-! ### The turns -/

/-- The next plain chip-scratchpad access of a warp is to be performed late. -/
def State.lateTurn (s : State) (w : Nat) : State := if s.isRunning then s.modWarp w fun x => { x with lateNext := true } else s

/-- The late stores of one instruction of a warp are performed. -/
def State.drainTurn (s : State) (w i : Nat) : State :=
  match s.isRunning, s.warp w with
  | true, some x => match x.late[i]? with
    | some y => s.flushLate w (· == y)
    | none => s
  | _, _ => s

/-- The late loads, or the late atomics, of one instruction of a warp are performed, together (R108). A word that has an error meanwhile leaves the result as
it is: the load was performed at its issue. -/
def State.reloadTurn (s : State) (w i : Nat) : State :=
  match s.isRunning, s.warp w with
  | true, some x => match x.lateLd[i]? with
    | some y =>
      match y.rmw with
      | some (op, cmps) => s.performRmw w y op cmps
      | none =>
      let x := x.dropLd y
      if y.acc.ranges.all (s.sram y.acc.space).sound then
        let read (p : Nat × Nat × List Byte) : Nat :=
          let v := ofBytes (s.chipBytes y.acc.space p.2.1 p.2.2.length)
          if y.acc.agents = [64] then (Sys2Proof.Machine.extend p.2.2.length y.sx v).toNat else tyOut y.ty v
        s.putWarp w (x.retake y (Label.joinAll (y.acc.ranges.map fun r => s.chipLab y.acc.space r.1 r.2))
          (y.acc.parts.map fun p => (p.1, read p)))
      else s.putWarp w x
    | none => s
  | _, _ => s

/-- A load to come of a warp reads the scratchpad copy now; with `use` the next load is that one. -/
def State.earlyTurn (s : State) (w : Nat) (use : Bool) : State :=
  match s.isRunning, s.warp w with
  | true, some x =>
    if use then s.putWarp w { x with early := x.early.map fun e => { e with use := true } }
    else match s.team x.team with
      | some t =>
        let dead := match x.wait with
          | .yieldc _ _ _ => [64]
          | _ => []
        s.putWarp w { x with early := some {
          grid := t.grid, die := dieOf x.core, copy := s.sram (.scr t.grid (dieOf x.core)), seen := [], dead := dead, use := false } }
      | none => s
  | _, _ => s

end Sys2Proof.Machine
end

