-- ==== Sys2Proof/Machine/Issue.lean ====
section
/-!
DEFINITION. Issue (R168, R201, R202, R247, R292, R293): fetching, the selection among candidates of a quadrant, traps at a
scalar boundary, breakpoints, and the bookkeeping around `exec`. A candidate whose instruction waits is not ready, so the
turn passes to the next one.
-/
namespace Sys2Proof.Machine

/-! ### Stops between instructions -/

/-- The warp takes no instruction: it is stopped under DEBUG, or a trap is to be taken first. -/
def Warp.stopped (x : Warp) : Bool := x.debug || !x.takeable.isEmpty

/-- The breakpoint at a PC of a stream (none: scalar) that the warp has not just taken (R193). -/
def State.breakAt (s : State) (x : Warp) (stream : Option Nat) (pc : W32) : Option Nat :=
  match s.home x with
  | some (_, g, c) => match c.dbg with
    | some bs =>
      if x.handler ∨ x.passed.any (fun o => o == (stream, pc)) then none
      else (bs.find? fun b => b.2.image == g.kernel.image && b.2.lane == stream.isSome && b.2.pc == pc).map (·.1)
    | none => none
  | none => none

/-- A breakpoint stops the warp under DEBUG before the instruction (R193); FLMASK is 0, and so is TRAPPC_L (R47). -/
def State.hitBreak (s : State) (w : Nat) (stream : Option Nat) (index : Nat) : State :=
  s.raise w { rank := 6, code := 0x32, val := BitVec.ofNat 64 index, lanes := 0, entry := stream, pcL := 0 }

/-- Every warp of a quadrant takes the trap that is due at its boundary (R247). -/
def State.boundaries (s : State) (core quad : Nat) : State := (s.quadWarps core quad).foldl (fun s w => s.serveTrap w) s

/-- A list begun at a free place: among equal candidates the spec names no order. -/
def State.anyOrder (s : State) (l : List Nat) : State × List Nat :=
  if l.length ≤ 1 then (s, l)
  else
    let (r, s) := s.freeNat
    (s, l.drop (r % l.length) ++ l.take (r % l.length))

/-- Selection key (R201): raised candidates first, then PRIO, then age; the smallest key goes first. -/
def State.rankOf (s : State) (w : Nat) (raised : Warp → Bool) (age : Warp → Nat) : Nat :=
  match s.warp w with
  | some x =>
    let prio := match s.home x with
      | some (_, g, _) => g.prio
      | none => 0
    (if raised x then 0 else 2 ^ 40) + (3 - prio) * 2 ^ 32 + (2 ^ 32 - 1 - age x)
  | none => 2 ^ 48

/-! ### The scalar streams -/

/-- The warp's scalar stream is not descheduled (R317, R319). -/
def Wait.examined : Wait → Bool
  | .yieldc _ _ _ => false
  | .yield _ _ => false
  | _ => true

/-- One scalar instruction of a warp is fetched and executed, or what keeps it from that happens. -/
def State.issueScalar (s : State) (w : Nat) : State :=
  match s.warp w with
  | none => s
  | some x => match s.home x with
    | none => s
    | some (_, g, _) =>
      match s.breakAt x none x.pc with
      | some i => s.hitBreak w none i
      | none =>
        match { s with cur := .scalar w }.fetchInstr .scalar (dieOf x.core) g.ctx (g.kernel.image + g.kernel.soff) x.pc.toNat
            g.kernel.slen id with
        | (s, .error (c, v)) => s.faultS w c v
        | (s, .ok i) => s.execWeak i (.scalar w)

/-- The scalar candidate of a warp is ready: its instruction, examined now, would not wait (R201). -/
def State.scalarReady (s : State) (w : Nat) : Bool :=
  match (s.issueScalar w).warp w with
  | some x => !x.wait.waits
  | none => true

/-- The warp stands at a breakpoint of its scalar stream. -/
def State.atBreak (s : State) (w : Nat) : Bool :=
  match s.warp w with
  | some x => (s.breakAt x none x.pc).isSome
  | none => false

/-- After an issue: ages, the yields that counted this warp, breakpoints passed, counters. -/
def State.afterScalar (s : State) (core quad w : Nat) : State :=
  let s := s.mapWarps fun k x =>
    if k = w then { x with sAge := 0, sRaised := false, passed := x.passed.filter fun o => o.1.isSome }
    else if x.core = core ∧ x.quad = quad then match x.wait with
      | .yield os n => { x with wait := if setDel os w = [] then .none else .yield (setDel os w) n }
      | _ => x
    else x
  s.progress w

/-- Examines candidates in order until one issues (R201). -/
def State.tryScalars (s : State) (core quad : Nat) : List Nat → State
  | [] => s
  | w :: r =>
    let ctx := match s.warp w with
      | some x => match s.home x with
        | some (_, g, _) => g.ctx
        | none => 0
      | none => 0
    let stop := s.atBreak w
    let s := s.issueScalar w
    if stop then s.tryScalars core quad r
    else if s.scalarWaits w then
      (s.modWarp w fun x => { x with sAge := 0, sRaised := false }).tryScalars core quad r
    else (s.afterScalar core quad w).pmc (dieOf core) (some core) ctx 2 1

/-- Scalar candidates that are ready grow older by a cycle, and those that are not begin again (R201); so do yields (R317). -/
def State.ageScalars (s : State) (core quad : Nat) (ready : List Nat) : State :=
  s.mapWarps fun k x =>
    if x.core = core ∧ x.quad = quad then
      if memb ready k then { x with sAge := x.sAge + 1 }
      else match x.wait with
        | .yield os n => { x with wait := .yield os (n + 1) }
        | _ => { x with sAge := 0, sRaised := false }
    else x

/-- A turn of a quadrant's scalar selector. -/
def State.scalarTurn (s : State) (core quad : Nat) : State :=
  if !s.isRunning then s
  else
    let s := s.boundaries core quad
    let ws := (s.quadWarps core quad).filter fun w => match s.warp w with
      | some x => !x.stopped && x.wait.examined
      | none => false
    let (s, ws) := s.anyOrder ws
    let ws := sortBy (fun w => s.rankOf w (·.sRaised) (·.sAge)) ws
    let ready := ws.filter s.scalarReady
    (({ s with cands := ready }.ageScalars core quad ready).tryScalars core quad ws).raiseQuad core quad

/-! ### The lane blocks -/

/-- One lane instruction of a split entry is fetched and executed (R339, R343). -/
def State.issueLane (s : State) (w e : Nat) : State :=
  match s.warp w with
  | none => s
  | some x => match tFind x.entries e, s.home x with
    | some en, some (_, g, _) =>
      match s.breakAt x (some e) en.pc with
      | some i => s.hitBreak w (some e) i
      | none =>
        match { s with cur := .lane w e }.fetchInstr .lane (dieOf x.core) g.ctx (g.kernel.image + g.kernel.loff) (12 * en.pc.toNat)
            g.kernel.llen (· / 2 ^ 32) with
        | (s, .error (c, v)) => s.faultL w e c v en.mask en.pc
        | (s, .ok i) => s.execWeak i (.lane w e)
    | _, _ => s

/-- Entries in round-robin order after position `rr` (R168). -/
def roundRobin (rr : Nat) (l : List Nat) : List Nat :=
  (l.filter fun e => decide (rr < e)) ++ l.filter fun e => decide (e ≤ rr)

/-- The entries of a warp that can issue, in the order of R168. -/
def State.readyEntries (s : State) (w : Nat) : List Nat :=
  match s.warp w with
  | some x => roundRobin x.rr ((x.entries.filter fun e => e.2.state == .ready && !s.entryBusy w e.1).map (·.1))
  | none => []

/-- The lane candidate of a warp is ready: some entry would issue now (R201). -/
def State.laneReady (s : State) (w : Nat) : Bool :=
  (s.readyEntries w).any fun e => match ((s.modWarp w fun x => { x with lWait := false }).issueLane w e).warp w with
    | some y => !y.lWait
    | none => true

/-- The instruction that an entry would issue next, as it sees the machine. -/
def State.nextLane (s : State) (w e : Nat) : Option LCtx :=
  match s.warp w with
  | some x => match tFind x.entries e, s.home x with
    | some en, some (_, g, _) =>
      match (s.fetchInstr .lane (dieOf x.core) g.ctx (g.kernel.image + g.kernel.loff) (12 * en.pc.toNat) g.kernel.llen id).2 with
      | .ok i => s.laneCtx w e i
      | .error _ => none
    | _, _ => none
  | none => none

/-- The extra team-memory passes of an instruction that was issued (R58). -/
def LCtx.passes (k : LCtx) : Nat :=
  let n := tyBits k.f.ty.toNat / 8
  match k.q.i with
  | .ldt _ => k.extraPasses n k.off32
  | .stt _ => k.extraPasses n k.off32
  | .att _ => k.extraPasses n k.off24
  | _ => 0

/-- Counts of a lane issue (R224): passes, active lanes with a true predicate, extra team-memory passes, splits, group switches.
`s0` is the state before it. -/
def State.countLane (s s0 : State) (old : Warp) (w e : Nat) : State :=
  match s.home old with
  | none => s
  | some (_, g, _) =>
    let add (s : State) (ev n : Nat) : State := s.pmc (dieOf old.core) (some old.core) g.ctx ev n
    let s := add s 3 (if old.width = 64 then 2 else 1)
    match s0.nextLane w e with
    | some k => (add (add s 4 k.part.length) 5 (if wentOn s0 s (.lane w e) then k.passes else 0)).countSplits k.q.i old w e
    | none => s

/-- Examines the entries of a warp in order until one issues; answers whether one did. An entry at a breakpoint stops its warp. -/
def State.tryEntries (s : State) (w : Nat) : List Nat → State × Bool
  | [] => (s, false)
  | e :: r =>
    match s.warp w with
    | none => (s, false)
    | some x =>
      let s0 := s.putWarp w { x with lWait := false }
      let s1 := s0.issueLane w e
      match s1.warp w with
      | some y =>
        if y.lWait then s1.tryEntries w r
        else if ((tFind x.entries e).bind fun en => s.breakAt x (some e) en.pc).isSome then (s1, false)
        else
          let s2 := s1.modWarp w fun x => { x with rr := e, lAge := 0, lRaised := false, passed := x.passed.filter fun o => o.1 != some e }
          ((s2.countLane s0 x w e).progress w, true)
      | none => (s1.countLane s0 x w e, true)

/-- Examines the warps' lane candidates in order until one issues (R201). -/
def State.tryLanes (s : State) : List Nat → State
  | [] => s
  | w :: r => match s.tryEntries w (s.readyEntries w) with
    | (s1, true) => s1
    | (s1, false) => (s1.modWarp w fun x => { x with lAge := 0, lRaised := false }).tryLanes r

/-- The issue decision for a warp's lanes: a block starts, entries fuse (R166). -/
def State.prepLanes (s : State) (w : Nat) : State :=
  match s.warp w with
  | none => s
  | some x =>
    if x.handler ∨ x.stopped then s
    else
      (s.startBlock w).fuse w

/-- A turn of a quadrant's lane selector, before which the caller has retried the splits that wait (R167). -/
def State.laneTurn (s : State) (core quad : Nat) : State :=
  let ws := (s.quadWarps core quad).filter fun w => match s.warp w with
    | some x => !x.stopped && !x.handler && x.running
    | none => false
  let (s, ws) := s.anyOrder ws
  let ws := sortBy (fun w => s.rankOf w (·.lRaised) (·.lAge)) ws
  let ready := ws.filter s.laneReady
  let s := s.mapWarps fun k x => if memb ready k then { x with lAge := x.lAge + 1 }
    else if x.core = core ∧ x.quad = quad then { x with lAge := 0, lRaised := false } else x
  (s.tryLanes ws).raiseQuad core quad

/-- Retries every split of a warp that waits for an entry, at its issue decision (R167). -/
def State.retrySplits (s : State) (w : Nat) : State :=
  match s.warp w with
  | some x => x.entries.foldl (fun s e =>
      if e.2.state = .splitWait then execIn (.splitRetry w e.1) .none s else s) s
  | none => s

/-- A turn of a quadrant's lane side: traps at the boundary, block starts, fusing, split retries, then the selection. -/
def State.laneSide (s : State) (core quad : Nat) : State :=
  if !s.isRunning then s
  else
    let s := s.boundaries core quad
    let s := (s.quadWarps core quad).foldl (fun s w => (s.prepLanes w).retrySplits w) s
    s.laneTurn core quad

/-! ### The sequencers -/

/-- A turn of a team's sequencer (R384): one instruction of `.mcode`, or its stop (R252, R293). R293 gives the ILLEGAL of a fetch beyond
`.mcode` TRAPVAL 0, R252 gives every report of a sequencer its SC and PC: that R252 holds here is the model's reading (log 105). -/
def State.seqTurn (s : State) (t : Nat) : State :=
  match s.isRunning, s.team t with
  | true, some y => match y.seqr, s.grid y.grid with
    | some q, some g => match s.ctx g.ctx with
      | some c =>
        if q.run ≠ .running then s
        else match { s with cur := .seq t }.fetchInstr .seq (dieOf y.core) g.ctx (g.kernel.image + g.kernel.moff) q.pc.toNat g.kernel.mlen id with
          | (s, .error (code, _)) => QCtx.stop { t := t, y := y, q := q, g := g, c := c } s code
          | (s, .ok i) =>
            let s := execIn i (.seq t) s
            match s.team t with
            | some z => match z.seqr with
              | some q => if q.waits then s else s.modCtx g.ctx fun c => { c with wdogNs := 0 }
              | none => s
            | none => s
      | none => s
    | _, _ => s
  | _, _ => s

end Sys2Proof.Machine
end

