-- ==== Sys2Proof/Machine/Turn.lean ====
section
/-!
DEFINITION. The turns of the schedule: what the outside world does (INVENTORY, Host interface), the passing of time with every
timer (R48, R189, R190, R200, R207, R211, R212, R223, R256), the delivery of bounds (R206), and the turn of each agent; where the
first instruction of a program is placed.
-/
namespace Sys2Proof.Machine

/-! ### The outside world -/

/-- A checked word develops an error: correctable, or uncorrectable and not yet found (R67). -/
def Sram.hurt (m : Sram) (word : Nat) (ue : Bool) : Sram :=
  if ue then { m with ue := if (tFind m.ue word).isSome then m.ue else tPut m.ue word false } else { m with ce := setAdd m.ce word }

/-- One page of measured code (R237): a frame of HBM takes the contents, CODE is extended, and the page is mapped X and MEAS. -/
def State.measurePage (s : State) (slot vpn : Nat) (bytes : List Byte) : State :=
  match s.ctx slot with
  | none => s
  | some c =>
    if (s.freeNodes c).length < s.missing 3 c.root vpn ∨ vpn ≥ 2 ^ 41 then s
    else match s.takeFrame 0 with
      | none => s
      | some (f, s) =>
        let page := bytes.take 65536 ++ List.replicate (65536 - bytes.length) 0
        let s := s.zeroFrame c.keySlot f
        let s := s.pokeN 0 (f * 65536) (bytes.take 65536)
        let d := Config.shake256 (toBytes 8 (vpn * 65536) ++ page)
        let s := s.modCtx slot fun c => { c with
          code := Config.shake256 (toBytes 64 c.code.toNat ++ toBytes 64 d.toNat), codePgs := setAdd c.codePgs f }
        s.editLeaf slot vpn (1 + 2 ^ 3 + 2 ^ 15 + c.keySlot * 2 ^ 9 + f * 2 ^ 20) true

/-- What the outside world does. -/
def State.envTurn (s : State) (e : Env) : State :=
  match e with
  | .hostWrite pa v => if tierOf pa = some 3 then s.pokeN 0 pa [v] else s
  | .dramError line ue =>
    if ((memInst (64 * line)).isNone ∧ ¬(tierOf (64 * line) = some 2 ∧ ue)) ∨ memb s.mem.poison line then s
    else s.modMem fun m => { m with latent := if tFind m.latent line = some true then m.latent else tPut m.latent line ue }
  | .teamError t w ue => s.modTeam t fun x => { x with mem := x.mem.hurt w ue }
  | .barrierError t w ue => s.modTeam t fun x => { x with barErr := x.barErr.hurt w ue }
  | .scratchError g d w ue => s.modGrid g fun x => { x with scratch := tMod x.scratch d fun m => m.hurt w ue }
  | .spillError w i ue => s.modWarp w fun x => { x with spill := x.spill.hurt i ue }
  | .dequeError key w ue => { s with deques := tMod s.deques key fun d => { d with
      ce := if ue then d.ce else setAdd d.ce w
      ue := if ue ∧ (tFind d.ue w).isNone then tPut d.ue w false else d.ue } }
  | .residue core => if core < 192 then { s with residue := tSet s.residue 0 core (tGet s.residue 0 core + 1) } else s
  | .hostPage p here => { s with xlat := { s.xlat with host := if here then setAdd s.xlat.host p else setDel s.xlat.host p } }
  | .atomicOps fn b => { s with xlat := { s.xlat with atomics := if b then setAdd s.xlat.atomics fn else setDel s.xlat.atomics fn } }
  | .priAllowance fn n => { s with xlat := { s.xlat with allow := tSet s.xlat.allow 0 fn n } }
  | .route i up lab node tag =>
    if s.isRunning ∧ i < 4096 then { s with routes := tPut s.routes i { up := up, lab := lab, node := node % 65536, tag := tag % 65536 } } else s
  | .hdm base len port =>
    if s.isRunning ∧ tierOf base = some 2 ∧ port.getD 0 < 2 then s.modMem fun m => { m with hdm := m.hdm ++ [(base, len, port)] } else s
  | .collPeer ident rank agrees bytes =>
    { s with work := { s.work with ops := tMap s.work.ops fun _ o => match o.kind with
      | .coll d got bad ab =>
        if d.ident = ident ∧ !o.done ∧ memb d.peers rank ∧ (tFind got rank).isNone then
          { o with kind := .coll d (tPut got rank bytes) (bad || !agrees) ab }
        else o
      | _ => o } }
  | .bootFault step die => if 1 ≤ step ∧ step ≤ 7 then { s with belv := { s.belv with fault := some (step, die) } } else s
  | .flash n root version digest =>
    if n = 0 ∨ n = 14 ∨ n = 15 then { s with belv := { s.belv with flash := tPut s.belv.flash n ⟨root, version, digest⟩ } } else s
  | .dieCert n root meas =>
    if 1 ≤ n ∧ n ≤ 13 then { s with belv := { s.belv with flash := tPut s.belv.flash n ⟨root, 0, meas⟩ } } else s
  | .mailboxReserved fn => { s with front := { s.front with mail := tMod s.front.mail fn fun ms => match ms with
      | m :: r => { m with bad := true } :: r
      | [] => [] } }
  | .measure slot pages => match s.isRunning, s.ctx slot with
    | true, some c => if c.prot ∧ !c.invalid then (sortBy (fun (p : Nat × List Byte) => p.1) pages).foldl
        (fun (s : State) p => s.measurePage slot p.1 p.2) s else s
    | _, _ => s
  | .pField fn => if s.isRunning ∧ fn ≤ 16 then s.count 0x55 fn 1 else s
  | .logFree inst i => s.modMem fun m => m.freeLog inst i

/-! ### Time -/

/-- The scalar stream is in a resolvable wait (R211). -/
def Wait.resolvable : Wait → Bool
  | .hold ext => !ext
  | .barSync _ => true
  | .yieldc cls _ _ => cls != 4
  | .refitf _ _ => true
  | .signal _ _ ext => !ext
  | _ => false

/-- The lane side of a warp has no lane to issue: no block runs, every entry waits, or the instruction waits for a counter (R211). -/
def Warp.lanesWait (x : Warp) : Bool :=
  !x.running || (x.entries.all fun e => e.2.state != EState.ready) ||
  (x.lWait && x.vPend.isEmpty && x.entries.all fun e => !e.2.awaits)

/-- A warp is in a resolvable wait (R211): one whose instruction has faulted waits at none. -/
def Warp.resolvable (x : Warp) : Bool :=
  x.wait.resolvable && !x.debug && x.lanesWait && x.due.all fun d => decide (2 < d.rank)

/-- The conditions under which a context's watchdog timer runs (R212). -/
def State.stuck (s : State) (slot : Nat) : Bool :=
  let ws := s.warpsOfCtx slot
  !ws.isEmpty && ws.all (fun e => e.2.resolvable) && s.work.teams.all fun e => match s.grid e.2.grid, e.2.seqr with
    | some g, some q => g.ctx != slot || q.run != SeqRun.running || q.waits
    | _, _ => true

/-- The timers of a context. -/
def State.ageCtx (s : State) (slot : Nat) (c : Ctx) (ns : Nat) : Ctx :=
  let pre : Pre := match c.pre with
    | .drain t => .drain (t - ns)
    | .removing k t f => .removing k (t + ns) f
    | p => p
  { c with pre := pre, wdogNs := if s.stuck slot then c.wdogNs + ns else 0 }

/-- The timers of a launch that holds (R189, R200, R223). -/
def Grid.ageHold (g : Grid) (ns : Nat) : Grid :=
  match g.cause with
  | none => g
  | some h => { g with causeNs := g.causeNs + ns, bfNs := g.bfNs + ns, fcNs := if h = .freq then g.fcNs + ns else g.fcNs }

/-- The bounds on their way reach the copies, which take lower values (R206) and every label (R332). -/
def Gang.deliver (g : Gang) : Gang :=
  { g with
    flying := [],
    copies := g.flying.foldl (fun t e => match tFind t e.1 with
      | some c => tPut t e.1 ⟨if e.2.val.toNat < c.val.toNat then e.2.val else c.val, Label.join c.lab e.2.lab⟩
      | none => t) g.copies }

/-- The warp waits in `WAITC` or `YIELDC` (R224). -/
def State.waitsCount (s : State) (x : Warp) : Bool :=
  match x.wait, s.home x with
  | .yieldc _ _ _, _ => true
  | .hold _, some (_, g, _) =>
    match (s.fetchInstr .scalar (dieOf x.core) g.ctx (g.kernel.image + g.kernel.soff) x.pc.toNat g.kernel.slen id).2 with
    | .ok (.waitc _ _) => true
    | _ => false
  | _, _ => false

/-- The clock cycles of a die in some nanoseconds, in thousandths. -/
def State.milliCycles (s : State) (die ns : Nat) : Nat := ns * (s.point die).mhz

/-- The programmable counters of clocks and of waiting warps (R224). -/
def State.countTime (s : State) (ns : Nat) : State :=
  let whole (d : Nat) : Nat := (tGet s.cycles 0 d + s.milliCycles d ns) / 1000 - tGet s.cycles 0 d / 1000
  let t := (List.range 4).foldl (fun (t : State) d => t.pmc d none 64 1 (whole d)) s
  s.work.warps.foldl (fun (t : State) e => match s.home e.2 with
    | some (_, g, _) => if s.waitsCount e.2 then t.pmc (dieOf e.2.core) (some e.2.core) g.ctx 0x0B (whole (dieOf e.2.core)) else t
    | none => t) t

/-- Time passes. -/
def State.elapse (s : State) (ns : Nat) : State :=
  let s := s.countTime ns
  let cycles := (List.range 4).foldl (fun t d => tSet t 0 d (tGet t 0 d + s.milliCycles d ns)) s.cycles
  let s := { s with
    time := s.time + BitVec.ofNat 64 ns, cycles := cycles, ctxs := tMap s.ctxs (fun k c => s.ageCtx k c ns),
    work := { s.work with grids := tMap s.work.grids (fun _ g => g.ageHold ns), gangs := tMap s.work.gangs (fun _ g => g.deliver) },
    front := { s.front with
      queues := tMap s.front.queues (fun _ (q : Queue) => { q with pend := q.pend.map (· + ns) }),
      mail := tMap s.front.mail (fun _ ms => ms.map fun (m : Mail) => { m with ns := m.ns + ns }) },
    power := tMap s.power fun _ (p : Power) => { p with ns := p.ns + ns } }
  (s.modMgmt fun m => { m with sliceNs := m.sliceNs + ns, decayNs := m.decayNs + ns }).settlePress

/-! ### The turn of each agent -/

/-- A device event by the meaning that `exec` gives it. -/
def State.eventTurn (s : State) (i : Instr) : State := execIn i .none s

/-- The watchdog timer of a context restarts at 0 whenever a condition under which it runs does not hold (R212). -/
def State.settleWatch (s : State) : State :=
  { s with ctxs := tMap s.ctxs fun k (c : Ctx) => if s.stuck k then c else { c with wdogNs := 0 } }

/-- What a turn of the schedule does. -/
def State.turn (s : State) (t : Turn) : State :=
  match t with
  | .scalar core quad => s.scalarTurn core quad
  | .lane core quad => s.laneSide core quad
  | .seq team => s.seqTurn team
  | .event i => s.eventTurn i
  | .engine op i => s.enginePiece op i
  | .env e => s.envTurn e
  | .elapse ns => s.elapse ns
  | .late w => s.lateTurn w
  | .drain w i => s.drainTurn w i
  | .reload w i => s.reloadTurn w i
  | .early w use => s.earlyTurn w use

/-- One turn of the schedule, after which the watchdog timers that do not run are at 0. -/
def State.take (s : State) (t : Turn) : State := (s.turn t).settleWatch

/-- The turn that comes next: the head of the agenda, or a free choice (log 1). -/
def State.nextTurn (s : State) : Turn × State :=
  match s.agenda with
  | t :: r => (t, { s with agenda := r })
  | [] => (Config.nextTurn s.freeCtr, { s with freeCtr := s.freeCtr + 1 })

/-! ### Placing a first instruction -/

/-- A kernel whose three sections hold one instruction each at the start of its image. -/
def probeKernel : Kernel :=
  { image := 0, soff := 0, slen := 12, loff := 0, llen := 12, moff := 0, mlen := 16, tdoff := 0, tlen := 0, regs := 640, width := 32,
    warps := 1, pair := false, idem := false, pers := false, prot := false, gpref := 1, gfall := 1, teammem := 65536, spill := 1024,
    nargs := 1, handler := 1 }

/-- The frames of the page-table path and of the page of a placed instruction. -/
def probeRoot : Nat := 0x100

/-- A device on which one warp of one team of a system context is about to issue the bytes `bs`: running, the page table, context,
grid, gang, team and warp in place, the page mapped X (log 15). -/
def State.placed (s : State) (bs : List Byte) (lane : Bool) : State :=
  let node (f : Nat) : List Byte := toBytes 8 (f * 2 ^ 20 + 1)
  let mem := (((s.mem.pokeN 0 (probeRoot * 65536) (node (probeRoot + 1))).pokeN 0 ((probeRoot + 1) * 65536) (node (probeRoot + 2))).pokeN 0
    ((probeRoot + 2) * 65536) (node (probeRoot + 3))).pokeN 0 ((probeRoot + 3) * 65536) (toBytes 8 ((probeRoot + 4) * 2 ^ 20 + 9))
  let mem := mem.pokeN 0 ((probeRoot + 4) * 65536) bs
  let ctx : Ctx := {
    fn := 16, label := 0, prot := false, mfctx := false, sys := true, root := probeRoot, keySlot := 0, savectr := 0, saveseq := 0,
    code := 0, mutableC := false, nodes := [probeRoot + 1, probeRoot + 2, probeRoot + 3], nodePool := [], codePgs := [], segs := [],
    refitCtr := 0, refitQ := [], toFold := [], tickets := 0, folded := 0, views := [], pools := [], poolLast := [], dqs := [], dqArea := [],
    pre := .run, sliced := false, wdogNs := 0, dbg := none, children := 0, invalid := false }
  let grid : Grid := {
    ctx := 0, gridId := 1, kernel := probeKernel, trapvec := 1, args := [0], leases := [], revoked := [], roles := [], scrUnits := 0,
    scratch := [], teams := 1, nextTeam := 1, nGangs := 1, live := 1, relaunch := [], resumeQ := [], nRelaunch := 0, prio := 0,
    fc := 1, holdBit := false, ready := true, started := true, cause := none, causeNs := 0, bfNs := 0, blocks := false, fcNs := 0,
    fcDie := none, absent := [], failed := none, killed := none, seqFail := none, packet := none, complVa := none, before := [] }
  let gang : Gang := { grid := 1, num := 0, die := 0, teams := [3], bound := ⟨BitVec.allOnes 64, 0⟩, copies := [(0, ⟨BitVec.allOnes 64, 0⟩)],
                       flying := [], ptgt := [] }
  let team : Team := {
    grid := 1, num := 0, gang := 2, core := 0, slot := 0, warps := [4], lab0 := 0, mem := Sram.zero, bars := [], barErr := Sram.zero,
    tiles := [], tileLab := [], tokens := [], seqr := some Seqr.start, mfstat := 0, noticed := false }
  let warp := Warp.start 3 0 0 0 0 32 640 0
  let entry : Entry := { mask := 0xFFFFFFFF, state := .ready, parent := 0, rcvn := 0, pc := 0, b0 := Latch.none, b1 := Latch.none,
                         b2 := Latch.none, b3 := Latch.none }
  let warp := if lane then { warp with running := true, queue := [{ entry := 0, k := [] }], entries := [(0, entry)] } else warp
  { s with
    mem := { mem with refs := (rangeFrom probeRoot 5).map fun f => (f, 1) }, ctxs := [(0, ctx)],
    work := { s.work with grids := [(1, grid)], gangs := [(2, gang)], teams := [(3, team)], warps := [(4, warp)], order := [1], nextGrid := 2 },
    nextId := 5, mgmt := { s.mgmt with run := .run } }

end Sys2Proof.Machine
end

