-- ==== Sys2Proof/Machine/Step.lean ====
section
/-!
DEFINITION. The step of the device: one turn, by the agenda or by free choice.
-/
namespace Sys2Proof.Machine

/-- One step: the next turn is taken. Every step has a next state. -/
def step (s : State) : Host.Outcome State Fault Refusal := .next (s.nextTurn.2.take s.nextTurn.1)

/-- The device with an instruction placed where the next step fetches it: its bytes as the hardware stores them, and the turn of
the agent of its stream first on the agenda (log 15). -/
def State.withFetchWord (s : State) (nbits w : Nat) : State :=
  let st := streamOfBits nbits
  let p := s.placed (toBytes st.bytes w) (st == .lane)
  match st with
  | .scalar => { p with agenda := [.scalar 0 0] }
  | .lane => { p with agenda := [.lane 0 0] }
  | .seq => { p with agenda := [.seq 3] }

end Sys2Proof.Machine
end

