-- ==== Sys2Proof/Safety.lean ====
section
/-!
DEFINITION. The terms of claims about the machine: where an agent stands before its instruction, when the instruction reaches
its own effect (the checks of R31, R106, R292, R304, R343 and R385 passed), what main memory reads as, and the invariant that
every step keeps.
-/
namespace Sys2Proof.Machine

/-- The scalar stream of warp `w` executes; its warp, team, grid and context. -/
def ScalarAt (s : State) (w : Nat) (x : Warp) (t : Team) (g : Grid) (c : Ctx) : Prop :=
  s.cur = .scalar w ∧ s.warp w = some x ∧ s.home x = some (t, g, c)

/-- The scalar instruction `i`, which reads `srcs` and writes `dst`, reaches its own effect: its fields are legal, no register
that it names is pending, and no earlier ordered access holds it back. -/
def ScalarRuns (s : State) (w : Nat) (x : Warp) (t : Team) (g : Grid) (c : Ctx) (i : Instr) (srcs dst : List (BitVec 6)) : Prop :=
  ScalarAt s w x t g c ∧ legalStatic i = true ∧ (∀ r ∈ srcs, memb x.sPend r.toNat = false) ∧
  (∀ r ∈ dst, memb x.sPend r.toNat = false) ∧ s.ordered x [] i = false

/-- The scalar context of an instruction of a warp. -/
def scalarCtx (i : Instr) (w : Nat) (x : Warp) (t : Team) (g : Grid) (c : Ctx) : SCtx :=
  { i := i, w := w, x := x, t := t, g := g, c := c }

/-- The warp after a scalar instruction that completes without a jump. -/
def Warp.next (x : Warp) : Warp := { x with pc := x.pc + 4, wait := .none }

/-- The warp after a scalar instruction that completes at a target. -/
def Warp.goes (x : Warp) (pc : W32) : Warp := { x with pc := pc, wait := .none }

/-- A split entry of a running block executes the lane instruction that `k` describes: everything in `k` is what the state holds. -/
def LaneAt (s : State) (k : LCtx) : Prop :=
  s.cur = .lane k.q.w k.e ∧ s.warp k.q.w = some k.q.x ∧ tFind k.q.x.entries k.e = some k.en ∧
  (∃ b r, k.q.x.queue = b :: r ∧ k.ks = b.k) ∧ s.home k.q.x = some (k.q.t, k.q.g, k.q.c) ∧
  laneSpec k.q.i = some (k.f, k.p) ∧ k.act = lanesOf k.en.mask k.q.x.width ∧ k.part = k.act.filter k.pred

/-- The fields of the lane instruction are legal and name registers that the warp owns (R30, R343 class 1). -/
def LaneLegal (k : LCtx) : Prop :=
  k.p.legal k.f = true ∧ k.p.a.beyond k.q.x.c k.f.a = false ∧ (k.f.i = true ∨ k.p.b.beyond k.q.x.c k.f.b = false) ∧
  k.p.c.beyond k.q.x.c k.f.c = false ∧ k.p.dst.beyond k.q.x.c k.f.dst = false

/-- The lane instruction of `k` reaches its own effect: the checks of R343 classes 1 to 3 pass and nothing holds it back. -/
def LaneRuns (s : State) (k : LCtx) : Prop :=
  LaneAt s k ∧ LaneLegal k ∧ (∀ n ∈ k.latches, (k.en.latch n).valid = true) ∧ k.waits = false ∧
  (∀ r ∈ k.dstRegs, k.vPending r = false) ∧ s.ordered k.q.x k.act k.q.i = false

/-- The sequencer of a team executes an instruction: everything in `k` is what the state holds, and it is running. -/
def SeqAt (s : State) (k : QCtx) : Prop :=
  s.cur = .seq k.t ∧ s.team k.t = some k.y ∧ k.y.seqr = some k.q ∧ s.grid k.y.grid = some k.g ∧ s.ctx k.g.ctx = some k.c ∧
  k.q.run = .running

/-- The sequencer's fields are legal (the first check of R385). -/
def SeqRuns (s : State) (k : QCtx) (i : Instr) : Prop := SeqAt s k ∧ legalStatic i = true

/-- `u` is `s` but for warps and teams: those listed hold the values listed, every other one what it held, and nothing else of the
device has changed. -/
def State.Becomes (s u : State) (ws : List (Nat × Warp)) (ts : List (Nat × Team)) : Prop :=
  u = { s with work := { s.work with warps := u.work.warps, teams := u.work.teams } } ∧
  (∀ p ∈ ws, u.warp p.1 = some p.2) ∧ (∀ p ∈ ts, u.team p.1 = some p.2) ∧
  (∀ v, v ∉ ws.map (·.1) → u.warp v = s.warp v) ∧ (∀ t, t ∉ ts.map (·.1) → u.team t = s.team t)

/-- The instruction completes: `exec` answers a next state, which is `s` but for the warps and teams listed. -/
def Completes (i : Instr) (s : State) (ws : List (Nat × Warp)) (ts : List (Nat × Team)) : Prop :=
  ∃ u, exec i s = .next u ∧ s.Becomes u ws ts

/-- A fault of an instruction of the warp is taken at once and finds a handler (R245 to R249): nothing else is due, no return is
in flight, no late atomic is still to be performed (log 12), the warp is not in handler mode, and TRAPVEC.EN is 1. -/
def TrapReady (s : State) (w : Nat) (x : Warp) (g : Grid) : Prop :=
  x.handler = false ∧ x.debug = false ∧ x.due = [] ∧ x.inFlight = false ∧ s.refilling w = false ∧ g.trapvec.getLsbD 0 = true ∧
  x.lateLd.all (·.rmw.isNone) = true

/-- The warp in its handler after a trap (R47, R248, R249): the trap CSRs, the frame, the handler's PC; nothing else changed. -/
def Warp.inHandler (x : Warp) (g : Grid) (cause tval : W64) (pcL : W32) (lanes : W64) (kind : FrameKind) : Warp :=
  { x with
    handler := true, pc := BitVec.ofNat 32 (4 * (g.trapvec.toNat / 4)), wait := .none, due := [], entries := [], rcv := [],
    cause := cause, tval := tval, pcS := x.pc, pcL := pcL, flmask := lanes, lateLd := [],
    frame := some { kind := kind, pc := x.pc, entries := x.entries, rcv := x.rcv, wait := x.wait } }

/-- Every byte of main memory reads under every key slot as before. -/
def SameMain (s t : State) : Prop := ∀ slot pa, t.peek slot pa = s.peek slot pa

/-- Every byte of main memory outside a range of physical addresses reads under every key slot as before. -/
def SameMainOutside (s t : State) (base n : Nat) : Prop :=
  ∀ slot pa, (pa < base ∨ base + n ≤ pa) → t.peek slot pa = s.peek slot pa

/-- One byte of an on-chip memory: team memory, scratchpad copy or spill stack (R51). -/
def State.chipByte (s : State) (sp : Space) (off : Nat) : Byte := tGet (s.sram sp).bytes 0 off

/-- The checked words of a range of an on-chip memory hold no error (R67). -/
def Sound (s : State) (sp : Space) (off n : Nat) : Prop :=
  ∀ i ∈ wordsIn sp.word off n, tFind (s.sram sp).ue i = none ∧ memb (s.sram sp).ce i = false

/-- Every byte of every on-chip memory reads as before. -/
def SameChip (s t : State) : Prop := ∀ sp off, t.chipByte sp off = s.chipByte sp off

/-- Every byte of every on-chip memory reads as before, but those of one memory in one range. -/
def SameChipOutside (s t : State) (sp : Space) (base n : Nat) : Prop :=
  ∀ sp' off, (sp' ≠ sp ∨ off < base ∨ base + n ≤ off) → t.chipByte sp' off = s.chipByte sp' off

/-- A scalar engine command has issued (R215, R216, R305): its operation stands under a fresh key and is counted on its class, the
scalar destination is pending, the PC advances; `x` is the warp before but for what the command itself changes. Nothing is performed
yet: no byte of a memory, no other warp, team or operation has changed. -/
def Issued (s u : State) (w : Nat) (x : Warp) (cls : Nat) (d : Option Nat) (o : Op) : Prop :=
  u.op s.nextId = some o ∧ o.warp = w ∧ o.cls = cls ∧ o.done = false ∧ u.nextId = s.nextId + 1 ∧
  (∀ n, n ≠ s.nextId → u.op n = s.op n) ∧
  (∃ y : Warp, u.warp w = some y ∧
    y = { x with pc := x.pc + 4, wait := .none, pend := y.pend, mwOps := y.mwOps, sPend := y.sPend } ∧
    y.pendOf cls = x.pendOf cls ++ [s.nextId] ∧ (∀ c, c ≠ cls → y.pendOf c = x.pendOf c) ∧
    ∀ r, memb y.sPend r = true ↔ memb x.sPend r = true ∨ d = some r) ∧
  (∀ v, v ≠ w → u.warp v = s.warp v) ∧ (∀ t, u.team t = s.team t) ∧ SameMain s u ∧ SameChip s u

/-- Pieces of a move read each of n bytes from address `a` of memory `ms` into the engine's buffer at `b`, and write it from there to
address `d` of memory `md` (R76, R323). -/
def MovesRow (ps : List Piece) (ms a b md d n : Nat) : Prop :=
  ∀ j, j < n → (∃ p ∈ ps, ∃ h, h ≤ j ∧ j < h + p.len ∧ p.src = locIn ms (a + h) ∧ p.dst = .buf (b + h)) ∧
    ∃ p ∈ ps, ∃ h, h ≤ j ∧ j < h + p.len ∧ p.src = .buf (b + h) ∧ p.dst = locIn md (d + h)

/-- A piece reads or writes some bytes of a row, within aligned 8 bytes (R76), and no byte beyond it. -/
def Piece.ofRow (p : Piece) (ms a b md d n : Nat) : Prop :=
  ∃ j, 0 < p.len ∧ j + p.len ≤ n ∧ ((p.src = locIn ms (a + j) ∧ p.dst = .buf (b + j) ∧ (a + j) % 8 + p.len ≤ 8) ∨
    (p.src = .buf (b + j) ∧ p.dst = locIn md (d + j) ∧ (d + j) % 8 + p.len ≤ 8))

/-- The translations of a range of main memory for a warp, as the checks of R305 step 3 find them. -/
def State.rangeFor (s : State) (x : Warp) (t : Team) (g : Grid) (c : Ctx) (acc : AccKind) (lab : Option Label) (va n : Nat) :
    State × Except (BitVec 8 × W64) (Table Trans × Label) :=
  s.transRange (dieOf x.core) g.ctx (if c.sys then none else some t.grid) acc lab va n

/-- A warp's direct access reaches the 8-byte word at `va` (R327): it is aligned, translates with the rights and the label that it
needs to `p`, a page without POISON status, and its line is sound. `u` is the state after these checks. -/
def WordAt (s u : State) (x : Warp) (t : Team) (g : Grid) (c : Ctx) (acc : AccKind) (lab : Option Label) (va : Nat) (p : Trans) : Prop :=
  va % 8 = 0 ∧ ∃ (s0 : State) (tr : Table Trans) (l : Label),
    s.rangeFor x t g c acc lab va 8 = (s0, .ok (tr, l)) ∧ tFind tr (va / 65536) = some p ∧ p.poison = false ∧
    (acc = .a → s0.atomicDenied c.fn tr .add = false) ∧
    (s0.accessAll (some (dieOf x.core)) g.ctx tr).touchLine 0 ((p.ppn * 65536 + va % 65536) / 64) = (u, false)

/-- The key slot that seals a line, where its tier seals at all, is not rotating (R80, R81). -/
def State.steady (s : State) (slot pa : Nat) : Prop := sealedTier pa = true → ∀ k, tFind s.mem.keys slot = some k → k.next = none

/-- Every byte of main memory outside a range reads under this key slot as before. -/
def SameSlotOutside (s t : State) (slot base n : Nat) : Prop := ∀ pa, (pa < base ∨ base + n ≤ pa) → t.peek slot pa = s.peek slot pa

/-- The code and the flags that R267's table delivers in place of a value beyond the largest finite one, of sign `n`. -/
def Overflows (t : FFmt) (md : RM) (sat n : Bool) (code : Nat) (fl : Flags) : Prop :=
  let big : Prop := ∃ m e, t.value t.top = .fin false m e ∧ t.value code = .fin n m e
  code < 2 ^ t.w ∧
  if sat = true ∨ t ∈ [fmtE3m2, fmtE2m3, fmtE2m1] then big ∧ fl = fSAT
  else if md = .rne ∨ (md = .rdn ∧ n = true) ∨ (md = .rup ∧ n = false) then
    if t = fmtE4m3 then t.nan = some code ∧ t.value code = .nan false ∧ fl = fNV else t.value code = .inf n ∧ fl = 0
  else big ∧ fl = 0

/-- The issuing entry after a lane instruction that leaves its latches as they were: it goes on (R339). -/
def LCtx.stepped (k : LCtx) (y : Warp) : Prop :=
  ∀ e, tFind y.entries e = if e = k.e then some { k.en with pc := k.en.pc + 1 } else tFind k.q.x.entries e

/-- The issuing entry after a register result (R37): it goes on, b0 holds the value in the lanes that take part and 0 in the others,
with the label, and the older latches have moved up by one. Every other entry is as it was. -/
def LCtx.shifted (k : LCtx) (y : Warp) (lab : Label) (val : Nat → Nat) : Prop :=
  ∃ z : Entry, (∀ e, tFind y.entries e = if e = k.e then some z else tFind k.q.x.entries e) ∧
    z = { k.en with pc := k.en.pc + 1, b0 := z.b0, b1 := k.en.b0, b2 := k.en.b1, b3 := k.en.b2 } ∧
    z.b0.valid = true ∧ z.b0.lab = lab ∧ z.b0.await = none ∧
    ∀ l, l < 64 → tGet z.b0.vals 0 l = if l ∈ k.part then BitVec.ofNat 64 (val l) else 0

/-- The registers after a register result (R339, R341, R50): unless WBS suppresses it, vD, and vD + 1 for a 64-bit form, hold the value
in the lanes that take part, and the label of what was written is `lab` where every lane of the warp took part and joined to the old
label otherwise. Every other lane and register, and their labels, are as they were. -/
def LCtx.written (k : LCtx) (y : Warp) (lab : Label) (val : Nat → Nat) : Prop :=
  (∀ r l, l < 64 → y.readV r l =
    if k.f.wbs = false ∧ l ∈ k.part ∧ r = k.f.dst.toNat then BitVec.ofNat 32 (val l)
    else if k.f.wbs = false ∧ l ∈ k.part ∧ k.p.dst = .w64 ∧ r = k.f.dst.toNat + 1 then BitVec.ofNat 32 (val l / 2 ^ 32)
    else k.q.x.readV r l) ∧
  ∀ r, y.labV r =
    if k.f.wbs = false ∧ k.part ≠ [] ∧ (r = k.f.dst.toNat ∨ (k.p.dst = .w64 ∧ r = k.f.dst.toNat + 1)) then
      (if k.part.length = k.q.x.width then lab else Label.join (k.q.x.labV r) lab)
    else k.q.x.labV r

/-- A lane instruction completes with a register result: `val` in each lane that takes part, the label `lab`, the flags `fl`. Nothing
else of the device changes. -/
def LaneWrites (s : State) (k : LCtx) (lab : Label) (fl : Flags) (val : Nat → Nat) : Prop :=
  ∃ y : Warp, Completes k.q.i s [(k.q.w, y)] [] ∧
    y = { k.q.x with v := y.v, vLab := y.vLab, entries := y.entries, fstat := k.q.x.fstat ||| fl } ∧
    k.written y lab val ∧ k.shifted y lab val

/-- A lane instruction completes with a predicate result (R36, R50): pD, unless it is p0, is `val` in the lanes that take part. -/
def LanePredicates (s : State) (k : LCtx) (fl : Flags) (val : Nat → Bool) : Prop :=
  ∃ y : Warp, Completes k.q.i s [(k.q.w, y)] [] ∧
    y = { k.q.x with p := y.p, pLab := y.pLab, entries := y.entries, fstat := k.q.x.fstat ||| fl } ∧
    (∀ q l, l < 64 → (y.predMask q).getLsbD l =
      if q = k.f.dst.toNat % 8 ∧ q ≠ 0 ∧ l ∈ k.part then val l else (k.q.x.predMask q).getLsbD l) ∧
    (∀ q, y.labP q = if q = k.f.dst.toNat % 8 ∧ q ≠ 0 ∧ k.part ≠ [] then
      (if k.part.length = k.q.x.width then k.lab else Label.join (k.q.x.labP q) k.lab) else k.q.x.labP q) ∧
    k.stepped y

/-- An engine command of a split entry has issued (R373): one operation for the lanes that take part, counted on its class; the entry
goes on as `after` says. No byte of a memory, no other warp, team or operation has changed. -/
def LaneIssued (s u : State) (k : LCtx) (x : Warp) (cls : Nat) (o : Op) : Prop :=
  u.op s.nextId = some o ∧ o.warp = k.q.w ∧ o.cls = cls ∧ o.lanes = k.part ∧ o.done = false ∧ u.nextId = s.nextId + 1 ∧
  (∀ n, n ≠ s.nextId → u.op n = s.op n) ∧
  (∃ y : Warp, u.warp k.q.w = some y ∧ y = { x with pend := y.pend, mwOps := y.mwOps } ∧
    y.pendOf cls = x.pendOf cls ++ [s.nextId] ∧ ∀ c, c ≠ cls → y.pendOf c = x.pendOf c) ∧
  (∀ v, v ≠ k.q.w → u.warp v = s.warp v) ∧ (∀ t, u.team t = s.team t) ∧ SameMain s u ∧ SameChip s u

/-- `u` is `s` but for one packet, which is now `p`. -/
def State.PacketTo (s u : State) (k : Nat) (p : Packet) : Prop :=
  u = { s with front := { s.front with packets := u.front.packets } } ∧ u.packet k = some p ∧ ∀ j, j ≠ k → u.packet j = s.packet j

/-- The packet has finished with a status; nothing else of it changes. -/
def Packet.ends (p : Packet) (status : Nat) (cause : BitVec 8) (detail : W64) : Packet :=
  { p with stage := .finished, status := status, cause := cause, slot := 0, detail := detail }

/-- `u` is `s` but for the registers of one queue, which are now `x`. -/
def State.QueueTo (s u : State) (fn q : Nat) (x : Queue) : Prop :=
  u = { s with front := { s.front with queues := u.front.queues } } ∧ u.queue fn q = x ∧
  ∀ f r, r < 16 → (f ≠ fn ∨ r ≠ q) → u.queue f r = s.queue f r

/-- Nothing is left to fetch on any queue of a function (R180). -/
def State.fetched (s : State) (fn : Nat) : Prop := ∀ q, q < 16 → (s.queue fn q).en = false ∨ (s.queue fn q).head = (s.queue fn q).tail

/-- A management command executes (R193): the device runs, a block has been submitted, and the OP read then is `op`. -/
def CommandAt (s : State) (op : Nat) : Prop :=
  s.mgmt.run = .run ∧ s.mgmt.cmdBusy = true ∧ s.cmdWord 0 % 65536 = op

/-- Every bit of the command block that `masks` does not name for words 1, 2, … is 0, and so is [31:16] of word 0. -/
def NamesOnly (s : State) (masks : List Nat) : Prop :=
  s.cmdWord 0 / 65536 % 65536 = 0 ∧
  ∀ i, 1 ≤ i → i ≤ 15 → BitVec.ofNat 64 (s.cmdWord i) &&& ~~~(BitVec.ofNat 64 ((masks[i - 1]?).getD 0)) = 0

/-- Steps 3 to 5 of R193 after a command whose effect is `t`: the returned words, MRESULT, CMDBUSY, and CMDDONE with CMDEV = 1. -/
def Answered (s t u : State) (status : Nat) (cause : BitVec 8) (ws : List W64) : Prop :=
  let tag := s.cmdWord 0 / 2 ^ 32
  ∃ v : State,
    v = { t with mgmt := { t.mgmt with
      mcmd := v.mgmt.mcmd, mresult := BitVec.ofNat 64 (tag * 2 ^ 32 + cause.toNat * 65536 + status), cmdBusy := false } } ∧
    (∀ i, tGet v.mgmt.mcmd 0 i = if 1 ≤ i ∧ i ≤ ws.length then (ws[i - 1]?).getD 0 else tGet t.mgmt.mcmd 0 i) ∧
    u = if s.mgmt.mevCfg.getLsbD 9 then v.postEvent 4 0 0 tag 0 0 0 else v

/-- A packet of a kind starts (R181): it is validated, its context is its function's, and its turn in its queue has come. -/
def PacketStarts (s : State) (k : Nat) (p : Packet) : Prop :=
  s.packet k = some p ∧ s.mgmt.run = .run ∧ p.stage = .valid ∧ p.subs = [] ∧
  (∃ c, s.ctx p.ctx = some c ∧ c.fn = p.fn ∧ c.invalid = false) ∧
  (∀ e ∈ s.front.packets, e.1 < k → e.2.fn = p.fn → e.2.q = p.q →
    e.2.stage = .finished ∨ (e.2.stage = .started ∧ e.2.kind ≠ 3 ∧ bitAt (p.word 0) 8 = false ∧ p.kind ≠ 5)) ∧
  (bitAt (p.word 0) 8 = true ∨ p.kind = 5 → ∀ e ∈ s.front.packets, e.1 < k → e.2.fn = p.fn → e.2.q ≠ p.q)

/-- R199's choice of a core for one team: the lowest that holds teams of the context and has room for it (R17), or, where there is none,
the lowest empty one that has. -/
def Chooses (k : Kernel) (ctx : Nat) (us : List CoreUse) (i : Nat) : Prop :=
  let takes (empty : Bool) (j : Nat) : Prop := j < us.length ∧ coreSuits k ctx us empty j = true ∧ (tryCore k ctx us j).isSome = true
  (takes false i ∧ ∀ j, j < i → ¬ takes false j) ∨ ((∀ j, ¬ takes false j) ∧ takes true i ∧ ∀ j, j < i → ¬ takes true j)

/-- The teams of a gang stand, in team-number order, each at the core that R199 chooses with those before it in place. -/
def Fills (k : Kernel) (ctx : Nat) : List CoreUse → List Spot → Prop
  | _, [] => True
  | us, p :: ps => ∃ vs, Chooses k ctx us p.core ∧ tryCore k ctx us p.core = some (vs, p) ∧ Fills k ctx vs ps

/-- A die has room for `n` teams of a grid at these places, and, where `scr` says so, for its scratchpad allocation (R64). -/
def State.Room (s : State) (g : Grid) (skip : Nat → Bool) (scr : Bool) (n d : Nat) (ps : List Spot) : Prop :=
  d < 4 ∧ (scr = true → s.scratchFits g d = true) ∧ ps.length = n ∧ Fills g.kernel g.ctx (s.dieUse skip d) ps

/-- Where R199 places the next gang of a grid: a preferred gang where one has room, else a fallback gang or all that remain, on the die of
fewest teams, the lowest of equals. -/
def State.GangAt (s : State) (g : Grid) (d : Nat) (ps : List Spot) : Prop :=
  let left := g.teams - g.nextTeam
  let best (n : Nat) : Prop := s.Room g allTeams true n d ps ∧ ∀ e qs, s.Room g allTeams true n e qs →
    s.dieTeams d < s.dieTeams e ∨ (s.dieTeams d = s.dieTeams e ∧ d ≤ e)
  let pref : Prop := g.kernel.gpref ≤ left ∧ ∃ e qs, s.Room g allTeams true g.kernel.gpref e qs
  (pref ∧ best g.kernel.gpref) ∨ (¬ pref ∧ best (min g.kernel.gfall left))

/-- The invariant of a run: main memory is in its canonical form. -/
abbrev State.Inv (s : State) : Prop := Memory.wf s.mem = true

end Sys2Proof.Machine
end

