-- ==== Sys2Proof/Certificates/Slice0/Obligations.lean ====
section
/-!
DEFINITION. The statements for the provers.
-/

section
open Sys2Proof Sys2Proof.Machine

/-! ### Encoding and the step -/

/-- R281 to R292. Words that the spec writes out bit by bit (16, 17, 18, 19: "Worked encodings") decode to the instructions they
stand for, and neighbouring words with a nonzero reserved field or an unassigned code are refused. -/
def Obligations.SpecWordsDecode : Prop :=
  decodeTableWord 32 0x04310500 = some (.add 3 4 5) ∧
  decodeTableWord 32 0x2C400005 = some (.lui 4 5) ∧
  decodeTableWord 32 0x08412345 = some (.addi 4 4 (-7355)) ∧
  decodeTableWord 32 0x345FFFFB = some (.bnz 5 (-5)) ∧
  decodeTableWord 32 0x58010000 = some (.kmov 0 4) ∧
  decodeTableWord 32 0x74025200 = some (.barWait 9 2) ∧
  decodeTableWord 32 0x78000013 = some (.fence 2 3) ∧
  decodeTableWord 32 0x84510600 = some (.copy 5 4 6 0 false) ∧
  decodeTableWord 32 0xC4400001 = some (.csrr 4 1) ∧
  decodeTableWord 96 0x334000900200805000000000 = some (.ffma
    { ty := 4, pred := 0, neg := false, wbs := false, dst := 4, a := 0x400, b := 0x401, c := 5, i := false, md := 0, imm := 0 }) ∧
  decodeTableWord 96 0x80020000_00000000_FFFFFFFA = some (.bra
    { ty := 0, pred := 1, neg := false, wbs := false, dst := 0, a := 0, b := 0, c := 0, i := false, md := 0, imm := -6 }) ∧
  decodeTableWord 96 0x83000000_00000000_00000009 = some (.rcvWait
    { ty := 0, pred := 0, neg := false, wbs := false, dst := 0, a := 0, b := 0, c := 0, i := false, md := 0, imm := 9 }) ∧
  decodeTableWord 64 0x01A8123100000000 = some (.mma 0x15 0 1 2 3 false true) ∧
  decodeTableWord 64 0x1000600000000008 = some (.mset 6 8) ∧
  decodeTableWord 64 0x2000500000000003 = some (.mwait 3 5) ∧
  decodeTableWord 32 0x70000001 = none ∧ decodeTableWord 32 0x04310515 = none ∧ decodeTableWord 32 0 = none ∧
  decodeTableWord 64 0x1400000000000001 = none ∧ decodeTableWord 96 0 = none

/-- R280 to R292. Every well-formed instruction of each stream, with every operand at every value its encoding admits, decodes
from its own bytes, whatever follows them, and leaves the rest. -/
def Obligations.DecodeOfEncode : Prop :=
  ∀ (i : Instr) (rest : List Byte), i.wf = true →
    ((encodeScalar i).isSome = true → decode .scalar (encode i ++ rest) = .ok (i, rest)) ∧
    ((encodeLane i).isSome = true → decode .lane (encode i ++ rest) = .ok (i, rest)) ∧
    ((encodeSeq i).isSome = true → decode .seq (encode i ++ rest) = .ok (i, rest))

/-- R280 to R292. Decoding drops no bit: bytes that decode are exactly the encoding of the instruction they decode to, followed
by the rest. Every fixed and reserved bit therefore holds its value. -/
def Obligations.EncodeOfDecode : Prop :=
  ∀ (st : Stream) (bs : List Byte) (i : Instr) (rest : List Byte), decode st bs = .ok (i, rest) → encode i ++ rest = bs

/-- R201, R293, R304. A turn of a quadrant's scalar selector runs the decoded instruction: the one warp of the quadrant, stopped
by nothing, fetches the four bytes at its PC, and executes what they decode to. Around `exec` the step adds: the turn leaves the
agenda; a warp that is ready, its instruction as it stands not waiting, ages by a cycle and is the turn's one candidate; one that
still waits starts its age again; one that issued is counted and restarts the watchdog; candidates that have become old are raised.
After every turn the watchdog timer of each context whose conditions do not hold is at 0 (R212).
R168, R201, R339. A turn of a quadrant's lane selector runs the decoded instruction: the one entry of the one running block
of the quadrant fetches the twelve bytes at its lane PC and executes what they decode to. Around `exec` the step adds: the turn
leaves the agenda; the warp ages by a cycle where it is ready; an entry that issued becomes the last of the round robin, restarts the
watchdog and is counted (R224). Both are said of a warp none of whose scratchpad accesses stands apart (log 12).
R384. A turn of a running sequencer runs the instruction that the eight bytes at its PC decode to; an instruction that does not
wait restarts the watchdog. A turn of a device event runs the event's meaning and adds nothing else.
R292, R293, R303. The bytes that a fetch delivers are those that main memory holds at the translation of the PC: where the
address translates for execution to a frame without POISON status and the line is sound, four bytes that lie in one 64-byte line
are read from it under the page's key slot. -/
def Obligations.StepRunsDecoded : Prop :=
  (∀ (s s1 u : State) (r : List Turn) (core quad w : Nat) (x : Warp) (t : Team) (g : Grid) (c : Ctx) (i : Instr) (bs rest : List Byte),
     s.agenda = .scalar core quad :: r → s.isRunning = true → s.quadWarps core quad = [w] → s.warp w = some x →
     s.home x = some (t, g, c) → x.due = [] → x.debug = false → x.wait.examined = true → c.dbg = none →
     x.late = [] → x.lateNext = false → x.lateLd = [] → x.early = none → x.pc.toNat + 4 ≤ g.kernel.slen →
     (let s0 := { s with agenda := r }
      let ready := if s0.scalarReady w then [w] else []
      { ({ s0 with cands := ready }).ageScalars core quad ready with cur := .scalar w }.fetchLines (dieOf x.core) g.ctx 3
        (g.kernel.image + g.kernel.soff + x.pc.toNat) 4 = (s1, .ok bs)) →
     decode .scalar bs = .ok (i, rest) →
     exec i { s1 with cur := .scalar w } = .next u →
     step s = .next (((if u.scalarWaits w then u.modWarp w (fun y => { y with sAge := 0, sRaised := false })
       else (u.afterScalar core quad w).pmc (dieOf core) (some core) g.ctx 2 1).raiseQuad core quad).settleWatch)) ∧
  (∀ (s s1 a u : State) (r : List Turn) (core quad w e : Nat) (x z y : Warp) (en : Entry) (t : Team) (g : Grid) (c : Ctx) (i : Instr)
     (bs rest : List Byte),
     s.agenda = .lane core quad :: r → s.isRunning = true → s.quadWarps core quad = [w] → s.warp w = some x →
     s.home x = some (t, g, c) → x.due = [] → x.debug = false → x.handler = false → x.running = true → x.entries = [(e, en)] →
     en.state = .ready → s.entryBusy w e = false → c.dbg = none → x.late = [] → x.lateNext = false → x.lateLd = [] → x.early = none →
     12 * en.pc.toNat + 12 ≤ g.kernel.llen →
     (let s0 := { s with agenda := r }
      let b := s0.mapWarps fun k v => if memb (if s0.laneReady w then [w] else []) k then { v with lAge := v.lAge + 1 }
        else if v.core = core ∧ v.quad = quad then { v with lAge := 0, lRaised := false } else v
      b.warp w = some z ∧ a = b.putWarp w { z with lWait := false }) →
     { a with cur := .lane w e }.fetchLines (dieOf x.core) g.ctx 3 (g.kernel.image + g.kernel.loff + 12 * en.pc.toNat) 12 = (s1, .ok bs) →
     decode .lane bs = .ok (i, rest) →
     exec i { s1 with cur := .lane w e } = .next u → u.warp w = some y →
     step s = .next (((if y.lWait then u.modWarp w (fun z => { z with lAge := 0, lRaised := false })
       else ((u.modWarp w fun z =>
           { z with rr := e, lAge := 0, lRaised := false, passed := z.passed.filter fun o => o.1 != some e }).countLane a z w e).progress
         w).raiseQuad core quad).settleWatch)) ∧
  ((∀ (s s1 u : State) (r : List Turn) (t : Nat) (y z : Team) (q p : Seqr) (g : Grid) (c : Ctx) (i : Instr) (bs rest : List Byte),
     s.agenda = .seq t :: r → s.isRunning = true → s.team t = some y → y.seqr = some q → s.grid y.grid = some g →
     s.ctx g.ctx = some c → q.run = .running → q.pc.toNat + 8 ≤ g.kernel.mlen →
     ({ s with agenda := r, cur := .seq t }).fetchLines (dieOf y.core) g.ctx 3 (g.kernel.image + g.kernel.moff + q.pc.toNat) 8 = (s1, .ok bs) →
     decode .seq bs = .ok (i, rest) → exec i { s1 with cur := .seq t } = .next u → u.team t = some z → z.seqr = some p →
     step s = .next (if p.waits then u else u.modCtx g.ctx fun c => { c with wdogNs := 0 }).settleWatch) ∧
   (∀ (s u : State) (r : List Turn) (i : Instr), s.agenda = .event i :: r → exec i { s with agenda := r, cur := .none } = .next u →
     step s = .next u.settleWatch)) ∧
  (∀ (s s1 s2 : State) (die ctx va : Nat) (n : Nat) (tr : Trans), 0 < n → va % 64 + n ≤ 64 →
     s.translate die ctx none va .x = (s1, .ok tr) → s1.touchLine 0 ((tr.ppn * 65536 + va % 65536) / 64) = (s2, false) →
     s.fetchLines die ctx 3 va n = (s2, .ok (s2.peekN (attrKey tr.attr) (tr.ppn * 65536 + va % 65536) n)))

/-- R69, R234. The invariant of main memory's canonical form holds at reset. That every byte of main memory then reads 0, in the CXL
window and in host memory too, is the model's choice (log 4, DESIGN CHOICE): the spec says so of HBM and LPDDR alone.
R84, R91, R180, R190 to R192, R214, R220, R225, R230, R234. After a cold reset and before the boot sequence Belvedere is
in BOOT with no boot failure and no command executing, SCHEDCTL, SCRUBCTL and TIDECTL hold their reset values, SLICE is 4 ms and
every weight 1, nothing is on the device, every measurement register and every device counter is 0, no key is loaded, and a queue at
reset holds the values of R180, as every queue of the device then does. -/
def Obligations.ResetState : Prop :=
  (State.reset.Inv ∧ ∀ slot pa, State.reset.peek slot pa = 0) ∧
  (let s := State.reset
   s.mgmt.run = .boot ∧ s.mgmt.bootFail = false ∧ s.mgmt.cmdBusy = false ∧ s.mgmt.failStep = 0 ∧ s.mgmt.failDie = 0 ∧
   s.sched 47 32 = 2000 ∧ s.sched 31 16 = 500 ∧ s.sched 15 8 = 20 ∧ s.sched 7 0 = 8 ∧ s.sched 63 48 = 0 ∧
   fld s.mgmt.scrub.toNat 35 20 = 1440 ∧ fld s.mgmt.scrub.toNat 15 8 = 32 ∧ fld s.mgmt.scrub.toNat 0 0 = 1 ∧
   s.tidef 47 40 = 64 ∧ s.tidef 39 32 = 2 ∧ s.tidef 31 24 = 10 ∧ s.tidef 23 16 = 5 ∧ s.tidef 15 8 = 4 ∧ s.tidef 0 0 = 1 ∧
   s.mgmt.slice = 4 ∧ (∀ f, tGet s.mgmt.weight 1 f = 1) ∧ s.mgmt.ctrctl = 0 ∧
   (∀ c, s.ctx c = none) ∧ (∀ w, s.warp w = none) ∧ (∀ t, s.team t = none) ∧ (∀ g, s.grid g = none) ∧
   (∀ n, tGet s.belv.msl 0 n = 0) ∧ (∀ code inst, tGet s.ctrs 0 (ctrIx code inst) = 0) ∧ (∀ n, tFind s.mem.keys n = none) ∧
   Queue.reset.base = 0 ∧ Queue.reset.en = false ∧ Queue.reset.ict = 50 ∧ Queue.reset.vec = 0 ∧ Queue.reset.log2n = 6 ∧
   Queue.reset.tail = 0 ∧ Queue.reset.head = 0 ∧ Queue.reset.inflight = 0 ∧ ∀ fn q, s.queue fn q = Queue.reset)

/-- R69. Every step keeps main memory in its canonical form, from every state that has it: whatever agent moves, whatever event,
trap, engine, migration, key sweep or reset the step is. -/
def Obligations.StepKeepsMemoryCanonical : Prop :=
  ∀ s t : State, s.Inv → step s = .next t → t.Inv

/-! ### Reset and traps -/

/-- R245, R248, R249, R283, R292. A scalar instruction with an illegal field, a privileged instruction outside a system warp, `TRET`
outside handler mode, an access to a privileged CSR outside a system warp, and a token instruction in a team without a sequencer
raise ILLEGAL (0x01), whatever the registers hold: the warp enters its handler with the instruction's 32-bit word in TRAPVAL, the
saved scalar PC at the instruction, and nothing else of the device changed.
R246, R248, R252, R292, R343, R385. A lane instruction with an illegal field or a register that the warp does not own raises
ILLEGAL in every lane of `Active()`: TRAPCAUSE.LANE is 1, TRAPVAL holds bits [95:32] of the instruction, FLMASK the lanes and
TRAPPC_L its lane PC; no register and no latch changes. A sequencer instruction with an illegal field stops the sequencer with its
PC and SC as they stood, and the report becomes due in the lowest-numbered warp of the team. -/
def Obligations.IllegalInstructionsTrap : Prop :=
  (∀ (s : State) (w : Nat) (x : Warp) (t : Team) (g : Grid) (c : Ctx) (i : Instr) (word : BitVec 32),
     ScalarAt s w x t g c → TrapReady s w x g → encodeScalar i = some word →
     (legalStatic i = false ∨
       (c.sys = false ∧ (∃ a b d n l k, i = .mapedit a b d ∨ i = .mapsync a b d ∨ i = .refitf a b ∨ i = .lbldn n l k)) ∨
       (i = .tret ∨ i = .tretSkip) ∨
       (c.sys = false ∧ ∃ d csr, (i = .csrr d csr ∨ i = .csrw d csr) ∧ csr.getLsbD 11 = true) ∨
       (t.seqr = none ∧ ∃ n, i = .tokacq n ∨ i = .tokrel n)) →
     Completes i s [(w, Warp.inHandler { x with wait := .none } g 0x01 (word.setWidth 64) 0 0 .scalarFault)] []) ∧
  ((∀ (s : State) (k : LCtx) (word : BitVec 96), LaneAt s k → ¬ LaneLegal k → TrapReady s k.q.w k.q.x k.q.g → encodeLane k.q.i = some word →
     Completes k.q.i s
       [(k.q.w, k.q.x.inHandler k.q.g 0x101 (word.extractLsb' 32 64) k.en.pc (maskOf k.act) (.laneFault k.e))] []) ∧
   (∀ (s : State) (k : QCtx) (i : Instr) (v : Nat) (z : Warp), SeqAt s k → (encodeSeq i).isSome = true → legalStatic i = false →
     s.firstWarp k.y = some v → s.warp v = some z →
     Completes i s
       [(v, { z with due := z.due ++ [{ rank := 3, code := 0x01, val := k.q.sc ++ k.q.pc, lanes := 0, entry := none, pcL := 0 }] })]
       [(k.t, { k.y with seqr := some { k.q with run := .stopped 0x01, waits := false } })]))

/-- R247, R248. The trap entry of a warp in which several traps are due takes the first of the lowest rank (scalar fault, lane fault,
sequencer report, retirement point, PREEMPT, DEBUG), wherever it stands on the list, and leaves the others in their order; with a return
in flight, or where only traps are due that are held back, nothing is taken. Handler mode holds back every rank but the faults of
instructions; that DEBUG is among them (log 32), and that a waiting warp holds back a sequencer report (log 85), is the model's reading; so is it that a warp with a late atomic first
has it performed (log 12, DESIGN CHOICE: a premise here).
R251, R254, R256, R258. Outcomes without a handler. A fault of the memory group fails the grid; with CTXCTL.MFCTX = 1, or during DRAIN, it
removes the context (that CAUSE is then the trap's code, where a removal during DRAIN has no cause of its own, is the model's reading: log 30,
DEDUCED), whose grids place no further team, the faulting grid being the one that completes FAILED. SOFT fails the grid with
its cause where TRAPVEC.EN = 0 or in handler mode; the trap CSRs hold the trap all the same. A grid that fails keeps no team and no
warp, places no further team, and its failure is the first cause that it met. -/
def Obligations.TrapEntry : Prop :=
  (∀ (s : State) (w : Nat) (x : Warp) (t : Team) (g : Grid) (c : Ctx),
     s.warp w = some x → s.home x = some (t, g, c) → x.debug = false →
     ((x.inFlight = true ∨ s.refilling w = true ∨ (x.handler = true ∧ ∀ e ∈ x.due, 3 ≤ e.rank) ∨
       (x.wait.holds = true ∧ ∀ e ∈ x.due, e.rank = 3)) → Completes (.trapEntry w) s [(w, x)] []) ∧
     (∀ (pre post : List DueTrap) (d : DueTrap), x.handler = false → x.inFlight = false → s.refilling w = false →
       x.lateLd.all (·.rmw.isNone) = true →
       x.due = pre ++ d :: post → (∀ e ∈ pre, d.rank < e.rank) → (∀ e ∈ post, d.rank ≤ e.rank) →
       (d.rank = 3 → x.wait.holds = false) →
       (d.code ≠ 0x30 → d.code ≠ 0x32 → ¬ (0x10 ≤ d.code.toNat ∧ d.code.toNat ≤ 0x17) → d.code ≠ 0x20 → d.code ≠ 0x21 →
         g.trapvec.getLsbD 0 = true →
         ∃ u y, exec (.trapEntry w) s = .next u ∧ s.Becomes u [(w, y)] [] ∧ y.due = pre ++ post ∧ y.handler = true ∧
           y.pc = BitVec.ofNat 32 (4 * (g.trapvec.toNat / 4)) ∧ y.cause.toNat % 256 = d.code.toNat ∧ y.tval = d.val ∧ y.pcS = x.pc ∧
           y.pcL = d.pcL ∧ y.flmask = d.lanes ∧ y.s = x.s ∧ y.k = x.k ∧ y.v = x.v ∧ y.p = x.p ∧ y.queue = x.queue ∧ y.pend = x.pend) ∧
       (0x10 ≤ d.code.toNat → d.code.toNat ≤ 0x17 → c.mfctx = true ∨ c.draining = true → c.removing = false →
         ∃ u k h, exec (.trapEntry w) s = .next u ∧ u.ctx g.ctx = some k ∧ k.pre = .removing d.code 0 false ∧ k.invalid = true ∧
           k.segs = [] ∧ u.grid t.grid = some h ∧ h.failed = some (g.failed.getD d.code) ∧
           ∀ n f, u.grid n = some f → f.ctx = g.ctx → f.killed.isSome = true ∧ f.nextTeam = f.teams ∧ f.relaunch = [] ∧ f.resumeQ = []) ∧
       (0x10 ≤ d.code.toNat → d.code.toNat ≤ 0x17 → c.mfctx = false → c.draining = false → c.removing = false →
         ∃ s1 y, exec (.trapEntry w) s = .next (s1.failGrid t.grid d.code) ∧ s.Becomes s1 [(w, y)] [] ∧
           y.cause.toNat % 256 = d.code.toNat ∧ y.tval = d.val ∧ y.pcS = x.pc))) ∧
  ((∀ (s : State) (w : Nat) (x : Warp) (t : Team) (g : Grid) (c : Ctx) (n : BitVec 20),
     ScalarRuns s w x t g c (.trap n) [] [] → x.debug = false → x.due = [] → x.inFlight = false → s.refilling w = false →
     x.lateLd.all (·.rmw.isNone) = true →
     c.draining = false → c.removing = false → (x.handler = true ∨ g.trapvec.getLsbD 0 = false) →
     ∃ s1 y, exec (.trap n) s = .next (s1.failGrid t.grid 0x31) ∧ s.Becomes s1 [(w, y)] [] ∧
       y.cause = 0x31 ∧ y.tval = n.setWidth 64 ∧ y.pcS = x.pc ∧ y.flmask = 0 ∧ y.pcL = 0) ∧
   (∀ (s : State) (k : Nat) (g : Grid) (cause : BitVec 8), s.grid k = some g →
     (∀ t y, (s.failGrid k cause).team t = some y → y.grid ≠ k) ∧
     (∀ v z t y, (s.failGrid k cause).warp v = some z → s.team t = some y → y.grid = k → z.team ≠ t) ∧
     (∀ h, (s.failGrid k cause).grid k = some h → h.failed = some (g.failed.getD cause) ∧
       h.nextTeam = g.teams ∧ h.relaunch = [] ∧ h.resumeQ = [])))

/-- R250, R404. `tret` and `tret.skip` leave handler mode and restore the frame exactly: the split entries with their PCs, masks
and latches, and the barriers; the queue, the registers and the trap CSRs keep what they hold. That a `BAR.SYNC` which had arrived still
waits with its token, and does not arrive again, is the model's reading (log 19); any other wait ends. The scalar stream resumes at the saved
PC, after `TRAP` for SOFT, and after the instruction for `tret.skip` of a scalar fault; after SOFT from `LTRAP` and for `tret.skip`
of a lane fault the entry resumes one instruction on.
R335, R247 to R249. `trap #n` takes SOFT (0x31): TRAPVAL is the zero-extended immediate, the saved scalar PC the instruction's own, so
that the return resumes after it; the warp stands in its handler and nothing else of the device has changed. -/
def Obligations.SoftTrapAndReturn : Prop :=
  (∀ (s : State) (w : Nat) (x : Warp) (t : Team) (g : Grid) (c : Ctx) (f : Frame) (skip : Bool),
     let i : Instr := if skip then .tretSkip else .tret
     ScalarRuns s w x t g c i [] [] → x.handler = true → x.frame = some f →
     ∃ y, Completes i s [(w, y)] [] ∧
       y = { x with handler := false, debug := false, frame := none, pc := y.pc, entries := y.entries, rcv := f.rcv, wait := y.wait } ∧
       y.wait = (if f.kind = .softScalar ∨ (f.kind = .scalarFault ∧ skip = true) then .none else match f.wait with
         | .barSync tok => .barSync tok
         | _ => .none) ∧
       y.pc = (match f.kind with
         | .softScalar => f.pc + 4
         | .scalarFault => if skip then f.pc + 4 else f.pc
         | _ => f.pc) ∧
       (∀ e, tFind y.entries e = match f.kind with
         | .softLane n => if e = n then (tFind f.entries e).map (fun z => { z with pc := z.pc + 1 }) else tFind f.entries e
         | .laneFault n => if e = n ∧ skip = true then (tFind f.entries e).map (fun z => { z with pc := z.pc + 1 })
             else tFind f.entries e
         | _ => tFind f.entries e)) ∧
  (∀ (s : State) (w : Nat) (x : Warp) (t : Team) (g : Grid) (c : Ctx) (n : BitVec 20),
     ScalarRuns s w x t g c (.trap n) [] [] → TrapReady s w x g →
     Completes (.trap n) s [(w, Warp.inHandler { x with wait := .none } g 0x31 (n.setWidth 64) 0 0 .softScalar)] [])

/-- R31, R304. A scalar instruction that reads a pending register waits at its PC, changing nothing else; one whose destination is
pending raises INFLIGHT with 0x400 plus the register's number in TRAPVAL, and since that return is in flight the trap becomes due and
is not taken yet. That an instruction whose pending source is also its pending destination waits, and raises no INFLIGHT, is the model's
choice (log 86, DESIGN CHOICE). Shown for the ALU group, the immediate forms, `lui`, `argld` and `sld`.
R33. s0 reads zero with label 0, whatever is written to it; every other scalar register reads what was last written to it, value and
label together, and a write changes no other register. An instruction of the ALU group whose destination is s0 changes only the PC. -/
def Obligations.PendingAndZeroRegisters : Prop :=
  (∀ (s : State) (w : Nat) (x : Warp) (t : Team) (g : Grid) (c : Ctx) (d a b sh : BitVec 6) (imm : BitVec 14) (up : BitVec 20)
     (sz : BitVec 2) (sp : Bool),
     ScalarAt s w x t g c →
     ∀ p ∈ [(Instr.add d a b, [a, b]), (.sub d a b, [a, b]), (.and d a b, [a, b]), (.or d a b, [a, b]), (.xor d a b, [a, b]),
       (.shl d a b, [a, b]), (.shr d a b, [a, b]), (.sar d a b, [a, b]), (.mul d a b, [a, b]), (.mulhn d a b, [a, b]),
       (.mulh d a b, [a, b]), (.divn d a b, [a, b]), (.remn d a b, [a, b]), (.min d a b, [a, b]), (.max d a b, [a, b]),
       (.minn d a b, [a, b]), (.maxn d a b, [a, b]), (.seq d a b, [a, b]), (.sne d a b, [a, b]), (.slt d a b, [a, b]),
       (.sltn d a b, [a, b]), (.addi d a imm, [a]), (.andi d a imm, [a]), (.ori d a imm, [a]), (.xori d a imm, [a]),
       (.shli d a sh, [a]), (.shri d a sh, [a]), (.sari d a sh, [a]), (.slti d a imm, [a]), (.sltni d a imm, [a]), (.lui d up, []),
       (.argld d a imm, [a]), (.sld d a b sz false sp, [a, b])],
     ((∃ r ∈ p.2, memb x.sPend r.toNat = true) → Completes p.1 s [(w, { x with wait := .hold true })] []) ∧
     ((∀ r ∈ p.2, memb x.sPend r.toNat = false) → memb x.sPend d.toNat = true →
       Completes p.1 s [(w, { x with wait := .none, due := x.due ++
         [{ rank := 1, code := 0x03, val := BitVec.ofNat 64 (0x400 + d.toNat), lanes := 0, entry := none, pcL := 0 }] })] [])) ∧
  ((∀ (x : Warp) (v : LVal) (r q : Nat), (x.writeS r v).readS 0 = ⟨0, 0⟩ ∧ (q ≠ 0 → (x.writeS q v).readS q = v) ∧
     (q ≠ r → (x.writeS r v).readS q = x.readS q)) ∧
   (∀ (s : State) (w : Nat) (x : Warp) (t : Team) (g : Grid) (c : Ctx) (a b : BitVec 6), ScalarRuns s w x t g c (.add 0 a b) [a, b] [0] →
     Completes (.add 0 a b) s [(w, x.next)] []))

/-- R316, R219. `exit` waits while a block is queued, while a counter is not 0, while a return is in flight, and in the last warp of its team
while the sequencer runs, the wait being external exactly while `.cl` is not 0; then the warp ends: it is gone, and a team of which
it was not the last warp keeps the others.
R255, R68, R258. A team-kill cause ends the team: no warp and no operation of it is left, and its owned deques become unowned; an
`.idempotent` kernel's team is to be placed again with its number and gang while its grid has relaunches left; with the relaunches
exhausted, and for any other kernel, the grid fails with the cause, and during DRAIN its context is removed. -/
def Obligations.WarpsAndTeamsEnd : Prop :=
  (∀ (s : State) (w : Nat) (x : Warp) (t : Team) (g : Grid) (c : Ctx), ScalarRuns s w x t g c .exit [] [] → x.handler = false →
     (x.queue = [] → x.quiet = true → x.inFlight = false → (t.warps.length ≠ 1 ∨ t.seqEnded = true) → c.pre = .run →
       ∃ u, exec .exit s = .next u ∧ u.warp w = none ∧
         (setDel t.warps w ≠ [] → ∃ y, u.team x.team = some y ∧ y = { t with warps := setDel t.warps w })) ∧
     ((x.queue ≠ [] ∨ x.quiet = false ∨ x.inFlight = true ∨ (t.warps.length = 1 ∧ t.seqEnded = false)) →
       Completes .exit s [(w, { x with wait := .hold (x.count 4 != 0) })] [])) ∧
  (∀ (s : State) (t : Nat) (y : Team) (g : Grid) (cause : BitVec 8), s.team t = some y → s.grid y.grid = some g →
     (s.killTeam t cause).team t = none ∧ (∀ v z, (s.killTeam t cause).warp v = some z → z.team ≠ t) ∧
     (∀ d q, tFind (s.killTeam t cause).deques d = some q → q.owner ≠ some (g.gridId, BitVec.ofNat 32 y.num)) ∧
     (∀ o p, (s.killTeam t cause).op o = some p → p.slot = none → p.team ≠ t) ∧
     (g.kernel.idem = true → g.nRelaunch < s.rlim → ∀ h, (s.killTeam t cause).grid y.grid = some h →
       h.relaunch = g.relaunch ++ [(y.num, y.gang)] ∧ h.nRelaunch = g.nRelaunch + 1 ∧ h.failed = g.failed) ∧
     (g.kernel.idem = false ∨ s.rlim ≤ g.nRelaunch →
       (∀ h, (s.killTeam t cause).grid y.grid = some h → h.failed = some (g.failed.getD cause) ∧ h.relaunch = [] ∧ h.resumeQ = []) ∧
       ∀ c k, s.ctx g.ctx = some c → c.draining = true → (s.killTeam t cause).ctx g.ctx = some k → k.invalid = true))

/-! ### Scalar arithmetic and control -/

/-- R306, R304, R50. The ALU group: for every instruction of it whose registers are not pending, sd takes the value of the table, a and b
being s[sa] and s[sb], with the larger of the sources' labels; the PC advances by 4; no other register, no other warp, no team and no
other part of the device changes.
R307, R308. The immediate forms: sd takes the value of the table, i being the immediate sign-extended, with the label of sa; `lui`
writes its sign-extended immediate times 2^14 with label 0. Nothing else changes but the PC. -/
def Obligations.ScalarArithmetic : Prop :=
  (∀ (s : State) (w : Nat) (x : Warp) (t : Team) (g : Grid) (c : Ctx) (d sa sb : BitVec 6) (p : Instr × W64),
     let a := (x.readS sa.toNat).val
     let b := (x.readS sb.toNat).val
     let n := b.toNat % 64
     p ∈ [(Instr.add d sa sb, a + b), (.sub d sa sb, a - b), (.and d sa sb, a &&& b), (.or d sa sb, a ||| b), (.xor d sa sb, a ^^^ b),
       (.shl d sa sb, BitVec.ofNat 64 (a.toNat * 2 ^ n)), (.shr d sa sb, BitVec.ofNat 64 (a.toNat / 2 ^ n)),
       (.sar d sa sb, BitVec.ofInt 64 (a.toInt / 2 ^ n)), (.mul d sa sb, BitVec.ofNat 64 (a.toNat * b.toNat)),
       (.mulhn d sa sb, BitVec.ofNat 64 (a.toNat * b.toNat / 2 ^ 64)), (.mulh d sa sb, BitVec.ofInt 64 (a.toInt * b.toInt / 2 ^ 64)),
       (.divn d sa sb, if b = 0 then 0xFFFFFFFFFFFFFFFF else BitVec.ofNat 64 (a.toNat / b.toNat)),
       (.remn d sa sb, if b = 0 then a else BitVec.ofNat 64 (a.toNat - b.toNat * (a.toNat / b.toNat))),
       (.min d sa sb, if a.toInt ≤ b.toInt then a else b), (.max d sa sb, if b.toInt ≤ a.toInt then a else b),
       (.minn d sa sb, if a.toNat ≤ b.toNat then a else b), (.maxn d sa sb, if b.toNat ≤ a.toNat then a else b),
       (.seq d sa sb, if a = b then 1 else 0), (.sne d sa sb, if a = b then 0 else 1),
       (.slt d sa sb, if a.toInt < b.toInt then 1 else 0), (.sltn d sa sb, if a.toNat < b.toNat then 1 else 0)] →
     ScalarRuns s w x t g c p.1 [sa, sb] [d] →
     Completes p.1 s [(w, (x.writeS d.toNat ⟨p.2, Label.join (x.readS sa.toNat).lab (x.readS sb.toNat).lab⟩).next)] []) ∧
  (∀ (s : State) (w : Nat) (x : Warp) (t : Team) (g : Grid) (c : Ctx) (d sa sh : BitVec 6) (imm : BitVec 14) (up : BitVec 20)
     (p : Instr × W64),
     let a := (x.readS sa.toNat).val
     let i := imm.signExtend 64
     (p ∈ [(Instr.addi d sa imm, a + i), (.andi d sa imm, a &&& i), (.ori d sa imm, a ||| i), (.xori d sa imm, a ^^^ i),
       (.shli d sa sh, BitVec.ofNat 64 (a.toNat * 2 ^ sh.toNat)), (.shri d sa sh, BitVec.ofNat 64 (a.toNat / 2 ^ sh.toNat)),
       (.sari d sa sh, BitVec.ofInt 64 (a.toInt / 2 ^ sh.toNat)), (.slti d sa imm, if a.toInt < imm.toInt then 1 else 0),
       (.sltni d sa imm, if a.toNat < i.toNat then 1 else 0)] →
       ScalarRuns s w x t g c p.1 [sa] [d] →
       Completes p.1 s [(w, (x.writeS d.toNat ⟨p.2, (x.readS sa.toNat).lab⟩).next)] []) ∧
     (ScalarRuns s w x t g c (.lui d up) [] [d] →
       Completes (.lui d up) s [(w, (x.writeS d.toNat ⟨BitVec.ofInt 64 (up.toInt * 2 ^ 14), 0⟩).next)] []))

/-- R309, R282. Branches, jumps and calls: a branch whose condition holds goes to PC + 4 × the sign-extended displacement, otherwise to
PC + 4; `jmp` and `call` go to their target, `call` after writing PC + 4 with label 0 to sd; `jr` goes to s[sa] where that is a
multiple of 4 and raises ALIGN where it is no multiple of 4, with the value in TRAPVAL. Nothing else changes. A target that does not fit
in 32 bits lies outside every section; that the PC then stands at its last word address is the model's choice (log 20). -/
def Obligations.BranchesAndJumps : Prop :=
  ∀ (s : State) (w : Nat) (x : Warp) (t : Team) (g : Grid) (c : Ctx) (d sa : BitVec 6) (disp : BitVec 20) (far : BitVec 26),
    let a := (x.readS sa.toNat).val
    let to_ (n : Int) : W32 := if 0 ≤ n ∧ n < 2 ^ 32 then BitVec.ofInt 32 n else 0xFFFFFFFC
    let target : W32 := to_ (x.pc.toNat + 4 * disp.toInt)
    (∀ p ∈ [(Instr.bz sa disp, decide (a = 0)), (.bnz sa disp, decide (a ≠ 0)), (.bltz sa disp, decide (a.toInt < 0)),
      (.bgez sa disp, decide (0 ≤ a.toInt))],
      ScalarRuns s w x t g c p.1 [sa] [] →
      Completes p.1 s [(w, if p.2 = true then x.goes target else x.next)] []) ∧
    (ScalarRuns s w x t g c (.jmp far) [] [] → Completes (.jmp far) s [(w, x.goes (to_ (x.pc.toNat + 4 * far.toInt)))] []) ∧
    (ScalarRuns s w x t g c (.call d disp) [] [d] →
      Completes (.call d disp) s [(w, (x.writeS d.toNat ⟨(x.pc + 4).setWidth 64, 0⟩).goes target)] []) ∧
    (ScalarRuns s w x t g c (.jr sa) [sa] [] → a.toNat % 4 = 0 → Completes (.jr sa) s [(w, x.goes (to_ a.toNat))] []) ∧
    (ScalarRuns s w x t g c (.jr sa) [sa] [] → a.toNat % 4 ≠ 0 → TrapReady s w x g →
      Completes (.jr sa) s [(w, Warp.inHandler { x with wait := .none } g 0x06 a 0 0 .scalarFault)] [])

/-- R310, R52, R63. `sld`: at an aligned offset within the allocation, whose words hold no error, sd takes the 1, 2, 4 or 8 bytes there,
lowest address least significant, sign- or zero-extended, with the largest label of the address registers and of the lines read; nothing
else changes. A misaligned offset raises ALIGN before a range beyond the allocation raises BOUNDS, each with the offset in TRAPVAL.
R311, R63. `sst`: at an aligned offset within the allocation, whose words hold no error, the bytes of s[sa] stand at the offset,
lowest address least significant; every byte of every on-chip memory outside them and every byte of main memory reads as before; the
PC advances and no register changes; the lines stored to hold at least the largest label of the three registers. A misaligned or
out-of-range offset raises ALIGN or BOUNDS and stores nothing. -/
def Obligations.ScalarLoadsAndStores : Prop :=
  (∀ (s : State) (w : Nat) (x : Warp) (t : Team) (g : Grid) (c : Ctx) (d a b : BitVec 6) (sz : BitVec 2) (sx sp : Bool),
     let i : Instr := .sld d a b sz sx sp
     let mem : Space := if sp then .scr t.grid (dieOf x.core) else .team x.team
     let off := ((x.readS a.toNat).val + (x.readS b.toNat).val).toNat % 2 ^ 32
     let n := 2 ^ sz.toNat
     let raw := ofBytes (s.chipBytes mem off n)
     ScalarRuns s w x t g c i [a, b] [d] →
     (off % n = 0 → off + n ≤ s.spaceSize mem → Sound s mem off n →
       Completes i s [(w, (x.writeS d.toNat ⟨if sx then BitVec.ofInt 64 (sextI raw (8 * n)) else BitVec.ofNat 64 raw,
         Label.joinAll [(x.readS a.toNat).lab, (x.readS b.toNat).lab, s.chipLab mem off n]⟩).next)] []) ∧
     (off % n ≠ 0 → TrapReady s w x g →
       Completes i s [(w, Warp.inHandler { x with wait := .none } g 0x06 (BitVec.ofNat 64 off) 0 0 .scalarFault)] []) ∧
     (off % n = 0 → s.spaceSize mem < off + n → TrapReady s w x g →
       Completes i s [(w, Warp.inHandler { x with wait := .none } g 0x07 (BitVec.ofNat 64 off) 0 0 .scalarFault)] [])) ∧
  (∀ (s : State) (w : Nat) (x : Warp) (t : Team) (g : Grid) (c : Ctx) (a b e : BitVec 6) (sz : BitVec 2) (sp : Bool),
     let i : Instr := .sst a b e sz sp
     let mem : Space := if sp then .scr t.grid (dieOf x.core) else .team x.team
     let off := ((x.readS b.toNat).val + (x.readS e.toNat).val).toNat % 2 ^ 32
     let n := 2 ^ sz.toNat
     let lab := Label.joinAll [(x.readS a.toNat).lab, (x.readS b.toNat).lab, (x.readS e.toNat).lab]
     ScalarRuns s w x t g c i [a, b, e] [] →
     (off % n = 0 → off + n ≤ s.spaceSize mem → Sound s mem off n →
       ∃ u, exec i s = .next u ∧ u.warp w = some x.next ∧ (∀ v, v ≠ w → u.warp v = s.warp v) ∧
         (∀ j, j < n → u.chipByte mem (off + j) = BitVec.ofNat 8 ((x.readS a.toNat).val.toNat / 2 ^ (8 * j))) ∧
         SameChipOutside s u mem off n ∧ SameMain s u ∧
         (∀ j, j < n → lab.toNat ≤ (tGet (u.sram mem).labs (u.spaceLab mem) ((off + j) / 64)).toNat)) ∧
     (off % n ≠ 0 → TrapReady s w x g →
       Completes i s [(w, Warp.inHandler { x with wait := .none } g 0x06 (BitVec.ofNat 64 off) 0 0 .scalarFault)] []) ∧
     (off % n = 0 → s.spaceSize mem < off + n → TrapReady s w x g →
       Completes i s [(w, Warp.inHandler { x with wait := .none } g 0x07 (BitVec.ofNat 64 off) 0 0 .scalarFault)] []))

/-- R312, R313, R35. `argld` reads the 8-byte argument at its offset with the larger of the context's starting label and sa's label,
and raises ALIGN or BOUNDS with the offset; `kmov` copies value and label of s[sa] into one live k register and changes no snapshot of a
queued block.
R314, R315, R317 to R319, R35, R202. `lrun` appends a block with its entry and a copy of the live k0–k15, or waits while four are
held; `lsync` waits until the queue is empty; `waitc` and `yieldc` go on at once where the counter is at most n and otherwise wait, `yieldc`
descheduled with its target, a wait on `.cl` being external; `yield` lets every other scalar candidate of the quadrant that is ready as it
issues go first. None of them changes a register. (The PC of a target beyond 32 bits is the model's choice, log 20.) -/
def Obligations.BlockConstantsQueueAndWaits : Prop :=
  (∀ (s : State) (w : Nat) (x : Warp) (t : Team) (g : Grid) (c : Ctx) (d a : BitVec 6) (imm : BitVec 14),
     let off := (x.readS a.toNat).val + imm.signExtend 64
     (ScalarRuns s w x t g c (.argld d a imm) [a] [d] →
       (∀ v, off.toNat % 8 = 0 → off.toNat < 8 * g.kernel.nargs → g.args[off.toNat / 8]? = some v →
         Completes (.argld d a imm) s [(w, (x.writeS d.toNat ⟨v, Label.join c.label (x.readS a.toNat).lab⟩).next)] []) ∧
       (off.toNat % 8 ≠ 0 → TrapReady s w x g →
         Completes (.argld d a imm) s [(w, Warp.inHandler { x with wait := .none } g 0x06 off 0 0 .scalarFault)] []) ∧
       (off.toNat % 8 = 0 → 8 * g.kernel.nargs ≤ off.toNat → TrapReady s w x g →
         Completes (.argld d a imm) s [(w, Warp.inHandler { x with wait := .none } g 0x07 off 0 0 .scalarFault)] [])) ∧
     (ScalarRuns s w x t g c (.kmov d a) [a] [] → memb x.kPend d.toNat = false →
       ∃ y : Warp, Completes (.kmov d a) s [(w, y.next)] [] ∧ y = { x with k := y.k } ∧ y.readK d.toNat = x.readS a.toNat ∧
         ∀ n, n ≠ d.toNat → y.readK n = x.readK n)) ∧
  (∀ (s : State) (w : Nat) (x : Warp) (t : Team) (g : Grid) (c : Ctx) (entry : BitVec 20) (cls : BitVec 3) (n : BitVec 8)
     (disp : BitVec 12),
     let to_ (n : Int) : W32 := if 0 ≤ n ∧ n < 2 ^ 32 then BitVec.ofInt 32 n else 0xFFFFFFFC
     let target : W32 := to_ (x.pc.toNat + 4 * disp.toInt)
     (ScalarRuns s w x t g c (.lrun entry) [] [] → x.handler = false → x.kPend = [] →
       (x.queue.length < 4 →
         Completes (.lrun entry) s [(w, Warp.next { x with queue := x.queue ++ [{ entry := entry, k := x.k }] })] []) ∧
       (4 ≤ x.queue.length → Completes (.lrun entry) s [(w, { x with wait := .hold false })] [])) ∧
     (ScalarRuns s w x t g c .lsync [] [] → x.handler = false →
       (x.queue = [] → Completes .lsync s [(w, x.next)] []) ∧
       (x.queue ≠ [] → Completes .lsync s [(w, { x with wait := .hold false })] [])) ∧
     (ScalarRuns s w x t g c (.waitc cls n) [] [] →
       (x.count cls.toNat ≤ n.toNat → Completes (.waitc cls n) s [(w, x.next)] []) ∧
       (n.toNat < x.count cls.toNat → Completes (.waitc cls n) s [(w, { x with wait := .hold (cls == 4) })] [])) ∧
     (ScalarRuns s w x t g c (.yieldc cls n disp) [] [] → x.handler = false →
       (x.count cls.toNat ≤ n.toNat → Completes (.yieldc cls n disp) s [(w, x.goes target)] []) ∧
       (n.toNat < x.count cls.toNat → Completes (.yieldc cls n disp) s
         [(w, { x with wait := .yieldc cls.toNat n.toNat target })] [])) ∧
     (ScalarRuns s w x t g c .yield [] [] → x.handler = false →
       ∃ y, Completes .yield s [(w, y)] [] ∧ y = { x.next with wait := y.wait } ∧
         (s.cands.filter (· != w) = [] → y.wait = .none) ∧
         (s.cands.filter (· != w) ≠ [] → y.wait = .yield (s.cands.filter (· != w)) 0)))

/-- R320, R173. `bar.arrive` adds one to COUNT and returns PHASE in sd with label 0; the arrival that makes COUNT the expected count
flips the phase and clears the word; an expected count that differs from the one that is set raises BAR_EXPECT. `bar.wait` completes where the
phase differs from its token and otherwise waits; `bar.sync` arrives and completes where its arrival flips the phase, and otherwise waits
with its token; one that has arrived counts no second time (that it does not after a trap either is log 19, DEDUCED): it completes once the
phase differs from its token, and where an earlier access or a pending sd holds it back it keeps the token. Only the barrier word, sd and the PC change.
R41, R322, R321. `tokacq` takes an offered token to the warps, completes where the warps hold it, and waits otherwise; `tokrel` returns
a token that the warps hold and raises TOKEN with the tile number in every other state; `fence` changes nothing but the PC in a machine whose
accesses that it orders are already performed. -/
def Obligations.BarriersTokensAndFences : Prop :=
  (∀ (s : State) (w : Nat) (x : Warp) (t : Team) (g : Grid) (c : Ctx) (d a : BitVec 6) (n : BitVec 4) (e : BitVec 6),
     let b := t.bar n.toNat
     let put (y : Bar) : Team := { t with bars := tSet t.bars ⟨0, 0, 0⟩ n.toNat y }
     Sound s (.bar x.team) (8 * n.toNat) 8 →
     (ScalarRuns s w x t g c (.barArrive d n e) [] [d] →
       ((b.exp = 0 ∨ b.exp = e) → b.count + 1 ≠ e →
         Completes (.barArrive d n e) s [(w, (x.writeS d.toNat ⟨b.phase.setWidth 64, 0⟩).next)]
           [(x.team, put { phase := b.phase, exp := e, count := b.count + 1 })]) ∧
       ((b.exp = 0 ∨ b.exp = e) → b.count + 1 = e →
         Completes (.barArrive d n e) s [(w, (x.writeS d.toNat ⟨b.phase.setWidth 64, 0⟩).next)]
           [(x.team, put { phase := b.phase + 1, exp := 0, count := 0 })]) ∧
       (b.exp ≠ 0 → b.exp ≠ e → TrapReady s w x g →
         Completes (.barArrive d n e) s [(w, Warp.inHandler { x with wait := .none } g 0x04
           (BitVec.ofNat 64 (b.exp.toNat * 65536 + n.toNat * 256 + e.toNat)) 0 0 .scalarFault)] [])) ∧
     (ScalarRuns s w x t g c (.barWait a n) [a] [] →
       (b.phase.setWidth 64 ≠ (x.readS a.toNat).val → Completes (.barWait a n) s [(w, x.next)] []) ∧
       (b.phase.setWidth 64 = (x.readS a.toNat).val → Completes (.barWait a n) s [(w, { x with wait := .hold false })] [])) ∧
     (ScalarRuns s w x t g c (.barSync d n e) [] [d] → (∀ tok, x.wait ≠ .barSync tok) → (b.exp = 0 ∨ b.exp = e) →
       (b.count + 1 = e → Completes (.barSync d n e) s [(w, (x.writeS d.toNat ⟨b.phase.setWidth 64, 0⟩).next)]
           [(x.team, put { phase := b.phase + 1, exp := 0, count := 0 })]) ∧
       (b.count + 1 ≠ e → Completes (.barSync d n e) s [(w, { x with wait := .barSync b.phase })]
           [(x.team, put { phase := b.phase, exp := e, count := b.count + 1 })])) ∧
     (∀ tok, x.wait = .barSync tok →
       (ScalarRuns s w x t g c (.barSync d n e) [] [d] →
         (b.phase ≠ tok → Completes (.barSync d n e) s [(w, (x.writeS d.toNat ⟨tok.setWidth 64, 0⟩).next)] []) ∧
         (b.phase = tok → Completes (.barSync d n e) s [(w, x)] [])) ∧
       (ScalarAt s w x t g c → legalStatic (.barSync d n e) = true →
         (memb x.sPend d.toNat = false → s.ordered x [] (.barSync d n e) = true → Completes (.barSync d n e) s [(w, x)] []) ∧
         (memb x.sPend d.toNat = true → Completes (.barSync d n e) s [(w, { x with
           due := x.due ++ [{ rank := 1, code := 0x03, val := BitVec.ofNat 64 (0x400 + d.toNat), lanes := 0, entry := none, pcL := 0 }] })] [])))) ∧
  (∀ (s : State) (w : Nat) (x : Warp) (t : Team) (g : Grid) (c : Ctx) (n : BitVec 3) (ord : BitVec 2) (scope : BitVec 3),
     let put (k : Tok) : Team := { t with tokens := tSet t.tokens .seq n.toNat k }
     (ScalarRuns s w x t g c (.tokacq n) [] [] → t.seqr ≠ none →
       (t.tok n.toNat = .offered → Completes (.tokacq n) s [(w, x.next)] [(x.team, put .warps)]) ∧
       (t.tok n.toNat = .warps → Completes (.tokacq n) s [(w, x.next)] []) ∧
       ((t.tok n.toNat = .seq ∨ t.tok n.toNat = .returned) → Completes (.tokacq n) s [(w, { x with wait := .hold false })] [])) ∧
     (ScalarRuns s w x t g c (.tokrel n) [] [] → t.seqr ≠ none →
       (t.tok n.toNat = .warps → Completes (.tokrel n) s [(w, x.next)] [(x.team, put .returned)]) ∧
       (t.tok n.toNat ≠ .warps → TrapReady s w x g →
         Completes (.tokrel n) s [(w, Warp.inHandler { x with wait := .none } g 0x05 (n.setWidth 64) 0 0 .scalarFault)] [])) ∧
     (ScalarRuns s w x t g c (.fence ord scope) [] [] → Completes (.fence ord scope) s [(w, x.next)] []))

/-! ### Engine commands of the scalar stream -/

/-- R323, R325, R305, R76. `copy` issues on `.cp` where its status offset is aligned and lies in team memory, its on-chip ranges lie in
their allocations, the source holds no error and the main-memory ranges translate with the rights and labels that they need: the
operation reads each source byte and writes it to its destination byte, in pieces that each lie within aligned 8 bytes, and touches no
other byte; only a copy within main memory holds bytes from the start, the free ones of R323's overlap. A misaligned status offset raises
ALIGN with it; a destination beyond its on-chip allocation BOUNDS.
R324, R325, R305. `copy2d` reads its 32-byte shape record in team memory at issue and then issues on `.cp` like `copy`, for every row
of the shape and in every direction, with the status offset of the record: each byte of each row is read and written, and no other. A
misaligned record raises ALIGN, a record beyond team memory BOUNDS, and one with ROWS or ROWBYTES 0 or a nonzero reserved field
ILLEGAL. -/
def Obligations.CopiesIssue : Prop :=
  (∀ (s s1 s2 : State) (w : Nat) (x : Warp) (t : Team) (g : Grid) (c : Ctx) (a b e : BitVec 6) (m : Nat × Nat × Nat) (stat : Bool)
     (t1 t2 : Table Trans) (l1 l2 : Label),
     let i : Instr := .copy a b e (BitVec.ofNat 3 m.1) stat
     let dst := (x.readS a.toNat).val.toNat
     let src := (x.readS b.toNat).val.toNat
     let len := (x.readS e.toNat).val.toNat % 2 ^ 32
     let so := (x.readS e.toNat).val.toNat / 2 ^ 32
     let chip (k : Nat) : Space := if k = 0 then .team x.team else .scr t.grid (dieOf x.core)
     let lab := Label.joinAll [(x.readS a.toNat).lab, (x.readS b.toNat).lab, (x.readS e.toNat).lab]
     m ∈ [(0, 1, 0), (1, 0, 1), (2, 1, 1), (3, 1, 2), (4, 2, 1), (5, 0, 2), (6, 2, 0)] →
     ScalarRuns s w x t g c i [a, b, e] [] →
     ((stat = true → so % 8 = 0 ∧ so + 8 ≤ s.spaceSize (.team x.team)) → x.count 0 < 255 →
       (if m.2.1 = 1 then s.rangeFor x t g c .r none src len = (s1, .ok (t1, l1))
         else s1 = s ∧ l1 = s.chipLab (chip m.2.1) src len ∧ src < 2 ^ 32 ∧ src + len ≤ s.spaceSize (chip m.2.1) ∧
           Sound s (chip m.2.1) src len) →
       (if m.2.2 = 1 then s1.rangeFor x t g c .w (some (Label.join lab l1)) dst len = (s2, .ok (t2, l2))
         else dst < 2 ^ 32 ∧ dst + len ≤ s.spaceSize (chip m.2.2)) →
       ∃ u o ps, exec i s = .next u ∧ Issued s u w x 0 none o ∧ o.kind = .move ps (if stat then some so else none) ∧
         o.lab = Label.join lab l1 ∧ (m.1 ≠ 2 → o.buf = []) ∧ MovesRow ps m.2.1 src 0 m.2.2 dst len ∧
         ∀ p ∈ ps, p.ofRow m.2.1 src 0 m.2.2 dst len) ∧
     (stat = true → so % 8 ≠ 0 → TrapReady s w x g →
       Completes i s [(w, Warp.inHandler { x with wait := .none } g 0x06 (BitVec.ofNat 64 so) 0 0 .scalarFault)] []) ∧
     ((stat = true → so % 8 = 0) → m.2.2 ≠ 1 → (m.2.1 ≠ 1 → src < 2 ^ 32) → len ≠ 0 → s.spaceSize (chip m.2.2) < dst + len → TrapReady s w x g →
       Completes i s [(w, Warp.inHandler { x with wait := .none } g 0x07 (x.readS a.toNat).val 0 0 .scalarFault)] [])) ∧
  (∀ (s s1 s2 : State) (w : Nat) (x : Warp) (t : Team) (g : Grid) (c : Ctx) (a b e : BitVec 6) (m : Nat × Nat × Nat) (stat : Bool)
     (t1 t2 : Table Trans) (l1 l2 : Label) (word : BitVec 32),
     let i : Instr := .copy2d a b e (BitVec.ofNat 3 m.1) stat
     let k := scalarCtx i w x t g c
     let dst := (x.readS a.toNat).val.toNat
     let src := (x.readS b.toNat).val.toNat
     let ro := (x.readS e.toNat).val.toNat
     let rec8 (n : Nat) : Nat := ofBytes (s.chipBytes (.team x.team) (ro + 8 * n) 8)
     let rows := rec8 0 / 2 ^ 32
     let rb := rec8 0 % 2 ^ 32
     let so := rec8 3 % 2 ^ 32
     let chip (k : Nat) : Space := if k = 0 then .team x.team else .scr t.grid (dieOf x.core)
     let from_ (r : Nat) : Nat := if m.2.1 = 1 then (src + r * rec8 1) % 2 ^ 64 else src + r * rec8 1
     let to_ (r : Nat) : Nat := if m.2.2 = 1 then (dst + r * rec8 2) % 2 ^ 64 else dst + r * rec8 2
     let lab := Label.join (Label.joinAll [(x.readS a.toNat).lab, (x.readS b.toNat).lab, (x.readS e.toNat).lab,
       s.chipLab (.team x.team) ro 32]) (if m.2.1 = 1 then 0 else Label.joinAll ((List.range rows).map fun r => s.chipLab (chip m.2.1) (from_ r) rb))
     let good := ro % 8 = 0 ∧ ro + 32 ≤ s.spaceSize (.team x.team) ∧ ro + 32 ≤ 2 ^ 32 ∧ Sound s (.team x.team) ro 32
     m ∈ [(0, 1, 0), (1, 0, 1), (2, 1, 1), (3, 1, 2), (4, 2, 1), (5, 0, 2), (6, 2, 0)] →
     ScalarRuns s w x t g c i [a, b, e] [] →
     (good → rows ≠ 0 → rb ≠ 0 → rec8 3 / 2 ^ 32 = 0 → x.count 0 < 255 →
       (stat = true → so % 8 = 0 ∧ so + 8 ≤ s.spaceSize (.team x.team)) →
       (m.2.1 ≠ 1 → src < 2 ^ 32 ∧ ∀ r, r < rows → from_ r + rb ≤ s.spaceSize (chip m.2.1) ∧ Sound s (chip m.2.1) (from_ r) rb) →
       (m.2.2 ≠ 1 → dst < 2 ^ 32 ∧ ∀ r, r < rows → to_ r + rb ≤ s.spaceSize (chip m.2.2)) →
       k.rowsMain s .r none m.2.1 ((List.range rows).map fun r => (from_ r, rb)) = (s1, .ok (t1, l1)) →
       k.rowsMain s1 .w (some (Label.join lab l1)) m.2.2 ((List.range rows).map fun r => (to_ r, rb)) = (s2, .ok (t2, l2)) →
       ∃ u o ps, exec i s = .next u ∧ Issued s u w x 0 none o ∧ o.kind = .move ps (if stat then some so else none) ∧
         o.lab = Label.join lab l1 ∧ (m.1 ≠ 2 → o.buf = []) ∧
         (∀ r, r < rows → MovesRow ps m.2.1 (from_ r) (rb * r) m.2.2 (to_ r) rb) ∧
         ∀ p ∈ ps, ∃ r, r < rows ∧ p.ofRow m.2.1 (from_ r) (rb * r) m.2.2 (to_ r) rb) ∧
     (ro % 8 ≠ 0 → TrapReady s w x g → Completes i s [(w, Warp.inHandler { x with wait := .none } g 0x06 (x.readS e.toNat).val 0 0 .scalarFault)] []) ∧
     (ro % 8 = 0 → s.spaceSize (.team x.team) < ro + 32 → TrapReady s w x g →
       Completes i s [(w, Warp.inHandler { x with wait := .none } g 0x07 (x.readS e.toNat).val 0 0 .scalarFault)] []) ∧
     (good → (rows = 0 ∨ rb = 0 ∨ rec8 3 / 2 ^ 32 ≠ 0) → TrapReady s w x g → encodeScalar i = some word →
       Completes i s [(w, Warp.inHandler { x with wait := .none } g 0x01 (word.setWidth 64) 0 0 .scalarFault)] []))

/-- R326, R305, R31. `satom` issues on `.at` one read-modify-write of 4 or 8 bytes with the operation that AOP names, its operands cut
to the word, where the address is aligned, translates with the rights of the AOP and no byte of the word lies in a view destination; an LD
of a word that has such a byte raises PROTECT with the address of the first, which fails the grid (R251); sd, unless it is s0
or the operation is ST, is pending until the old value returns. A misaligned address raises ALIGN with the address.
R327, R80, R131. The signal instructions act at once on an aligned, translated word whose line is sound and whose key slot is not
rotating: `signal.set` stores s[sc], `signal.add` the sum modulo 2^64, and every other byte reads under that slot as before;
`signal.wait` completes where the word meets its comparison and otherwise waits at its PC, keeping the translation that it took at issue,
under which it is examined again. A misaligned address raises ALIGN. -/
def Obligations.ScalarAtomicsAndSignals : Prop :=
  (∀ (s s1 : State) (w : Nat) (x : Warp) (t : Team) (g : Grid) (c : Ctx) (a b e : BitVec 6) (w32 : Bool) (os : BitVec 4)
     (p : BitVec 3 × Aop × AccKind) (tr : Table Trans) (l : Label),
     let i : Instr := .satom a b e p.1 w32 os
     let n := if w32 then 4 else 8
     let va := (x.readS b.toNat).val.toNat
     let cut (v : W64) : W64 := BitVec.ofNat 64 (v.toNat % 2 ^ (8 * n))
     let lab := Label.joinAll ([(x.readS b.toNat).lab, (x.readS e.toNat).lab] ++ if p.2.1 = Aop.cas then [(x.readS a.toNat).lab] else [])
     let ret : Option Nat := if p.2.1 = Aop.st ∨ a = 0 then none else some a.toNat
     p ∈ [(0, Aop.ld, AccKind.r), (1, .st, .w), (2, .swap, .a), (3, .cas, .a), (4, .add, .a), (5, .or, .a), (6, .minn, .a), (7, .maxn, .a)] →
     ScalarRuns s w x t g c i (if p.2.1 = Aop.cas then [a, b, e] else [b, e]) (if p.2.1 = Aop.st ∨ a = 0 then [] else [a]) →
     (va % n = 0 → s.rangeFor x t g c p.2.2 (if p.2.1 = Aop.ld then none else some lab) va n = (s1, .ok (tr, l)) →
       s1.inDest g.ctx va n = none → s1.atomicDenied c.fn tr p.2.1 = false → x.count 2 < 255 →
       ∃ u o, exec i s = .next u ∧ Issued s u w x 2 ret o ∧ o.lab = Label.join lab l ∧ o.trans = tr ∧
         o.kind = .rmws [{ va := va, len := n, aop := p.2.1, cmp := cut (x.readS a.toNat).val, opnd := cut (x.readS e.toNat).val, lane := 0 }] ∧
         o.ret = (match ret with
           | some d => .s d
           | none => .none)) ∧
     (∀ v, va % n = 0 → p.2.1 = Aop.ld → s.rangeFor x t g c .r none va n = (s1, .ok (tr, l)) → s1.inDest g.ctx va n = some v →
       TrapReady s w x g → c.mfctx = false → c.draining = false → c.removing = false →
       ∃ (s2 : State) (y : Warp), exec i s = .next (s2.failGrid t.grid 0x13) ∧ s1.Becomes s2 [(w, y)] [] ∧
         y.cause = 0x13 ∧ y.tval = BitVec.ofNat 64 v ∧ y.pcS = x.pc) ∧
     (va % n ≠ 0 → TrapReady s w x g →
       Completes i s [(w, Warp.inHandler { x with wait := .none } g 0x06 (x.readS b.toNat).val 0 0 .scalarFault)] [])) ∧
  (∀ (s s1 : State) (w : Nat) (x : Warp) (t : Team) (g : Grid) (c : Ctx) (b e : BitVec 6) (cmp : BitVec 2) (ext : Bool) (sc : BitVec 3)
     (p : Trans),
     let va := (x.readS b.toNat).val
     let v := (x.readS e.toNat).val
     let lab := some (Label.join (x.readS b.toNat).lab (x.readS e.toNat).lab)
     let pa := p.ppn * 65536 + va.toNat % 65536
     let slot := attrKey p.attr
     let stores (i : Instr) (n : Nat) : Prop := ∃ u, exec i s = .next u ∧ u.warp w = some x.next ∧ (∀ z, z ≠ w → u.warp z = s.warp z) ∧
       (∀ j, j < 8 → u.peek slot (pa + j) = BitVec.ofNat 8 (n / 2 ^ (8 * j))) ∧ SameSlotOutside s u slot pa 8 ∧ SameChip s u
     let word := ofBytes (s.peekN slot pa 8)
     let holds : Prop := (cmp = 0 ∧ word = v.toNat) ∨ (cmp = 1 ∧ v.toNat ≤ word) ∨ (cmp = 2 ∧ word ≠ v.toNat)
     (ScalarRuns s w x t g c (.signalSetInsn b e sc) [b, e] [] → WordAt s s1 x t g c .w lab va.toNat p → s1.steady slot pa →
       stores (.signalSetInsn b e sc) v.toNat) ∧
     (ScalarRuns s w x t g c (.signalAdd b e sc) [b, e] [] → WordAt s s1 x t g c .a lab va.toNat p → s1.steady slot pa →
       stores (.signalAdd b e sc) ((word + v.toNat) % 2 ^ 64)) ∧
     (ScalarRuns s w x t g c (.signalWaitInsn b e cmp ext sc) [b, e] [] →
       (((∀ v0 q e0, x.wait ≠ .signal v0 q e0) ∧ WordAt s s1 x t g c .r none va.toNat p) ∨
         ((∃ v0 e0, x.wait = .signal v0 p e0) ∧ p.poison = false ∧ s.touchLine 0 (pa / 64) = (s1, false))) →
       ∃ u, exec (.signalWaitInsn b e cmp ext sc) s = .next u ∧ SameMain s u ∧ (∀ z, z ≠ w → u.warp z = s.warp z) ∧
         (holds → u.warp w = some x.next) ∧ (¬ holds → u.warp w = some { x with wait := .signal va.toNat p ext, sigWaits := match x.wait with
           | .signal _ _ _ => x.sigWaits
           | _ => x.sigWaits + 1 })) ∧
     (∀ i ∈ [Instr.signalWaitInsn b e cmp ext sc, .signalSetInsn b e sc, .signalAdd b e sc],
       ScalarRuns s w x t g c i [b, e] [] → (∀ v0 q e0, x.wait ≠ .signal v0 q e0) → va.toNat % 8 ≠ 0 → TrapReady s w x g →
       Completes i s [(w, Warp.inHandler { x with wait := .none } g 0x06 va 0 0 .scalarFault)] []))

/-- R160, R161, R162, R217. `nstore` through a role that resolves to a pool reads its source in team memory at issue, counts on `.nm` and
appends an entry without a name to the name queue; with 64 entries it waits. `namepop` gives the oldest entry's name once its store has
retired, waits before, and raises ILLEGAL on an empty queue. `relq` of one whole unit of the pool or more counts on `.nm`; of 0 units it
is done at issue and leaves nothing outstanding: no operation stands and no counter has changed (how it retires at once is log 80). A
misaligned source of `nstore` raises ALIGN; LEN 0 or above the unit ILLEGAL.
R331, R176, R305. The deque instructions issue on `.at` through a role that resolves to a deque: `dqpush` with its word and label,
`dqpop` and `dqsteal` with sd pending. A role that does not resolve to one raises ILLEGAL with the instruction's word. -/
def Obligations.NamelessAndDequeCommands : Prop :=
  (∀ (s : State) (w : Nat) (x : Warp) (t : Team) (g : Grid) (c : Ctx) (a b role : BitVec 6) (q : Nat) (p : Pool) (word : BitVec 32),
     let off := (x.readS a.toNat).val.toNat
     let len := (x.readS b.toNat).val.toNat
     s.roleTarget g c t.gang role.toNat 6 = some q → tFind c.pools q = some p →
     (ScalarRuns s w x t g c (.nstore a b role) [a, b] [] →
       (0 < len → len ≤ p.usz → off % 4 = 0 → off < 2 ^ 32 → off + len ≤ s.spaceSize (.team x.team) →
         (x.names.length < 64 → x.count 3 < 255 → Sound s (.team x.team) off len →
           ∃ u o, exec (.nstore a b role) s = .next u ∧
             Issued s u w { x with names := x.names ++ [{ op := s.nextId, name := none }] } 3 none o ∧
             o.kind = .nstore q (s.chipBytes (.team x.team) off len) 0 ∧
             o.lab = Label.joinAll [(x.readS a.toNat).lab, (x.readS b.toNat).lab, s.chipLab (.team x.team) off len]) ∧
         (64 ≤ x.names.length → Completes (.nstore a b role) s [(w, { x with wait := .hold false })] [])) ∧
       (0 < len → len ≤ p.usz → off % 4 ≠ 0 → TrapReady s w x g →
         Completes (.nstore a b role) s [(w, Warp.inHandler { x with wait := .none } g 0x06 (x.readS a.toNat).val 0 0 .scalarFault)] []) ∧
       ((len = 0 ∨ p.usz < len) → TrapReady s w x g → encodeScalar (.nstore a b role) = some word →
         Completes (.nstore a b role) s [(w, Warp.inHandler { x with wait := .none } g 0x01 (word.setWidth 64) 0 0 .scalarFault)] [])) ∧
     (ScalarRuns s w x t g c (.namepop a) [] [a] →
       (∀ e r v, x.names = e :: r → e.name = some v →
         ∃ y : Warp, Completes (.namepop a) s [(w, y.next)] [] ∧ y = { x with names := r, s := y.s } ∧
           ∀ n, y.readS n = if n = a.toNat ∧ n ≠ 0 then v else x.readS n) ∧
       (∀ e r, x.names = e :: r → e.name = none → Completes (.namepop a) s [(w, { x with wait := .hold false })] []) ∧
       (x.names = [] → TrapReady s w x g → encodeScalar (.namepop a) = some word →
         Completes (.namepop a) s [(w, Warp.inHandler { x with wait := .none } g 0x01 (word.setWidth 64) 0 0 .scalarFault)] [])) ∧
     (ScalarRuns s w x t g c (.relq a b role) [a, b] [] → 0 < p.usz → p.base ≤ off → (off - p.base) % p.usz = 0 →
       off < p.base + p.pages * 65536 → off + len * p.usz ≤ p.base + p.pages * 65536 →
       (0 < len → x.count 3 < 255 →
         ∃ u o, exec (.relq a b role) s = .next u ∧ Issued s u w x 3 none o ∧ o.kind = .relq q ((off - p.base) / p.usz) len) ∧
       (len = 0 → ∃ u, exec (.relq a b role) s = .next u ∧ u.warp w = some x.next ∧ (∀ v, v ≠ w → u.warp v = s.warp v) ∧
         u.work.ops = s.work.ops ∧ u.nextId = s.nextId ∧ SameMain s u ∧ SameChip s u))) ∧
  (∀ (s : State) (w : Nat) (x : Warp) (t : Team) (g : Grid) (c : Ctx) (a : BitVec 6) (dsc : BitVec 2) (role : BitVec 6) (i : Instr)
     (word : BitVec 32),
     (i = .dqpush a dsc role ∧ ScalarRuns s w x t g c i [a] []) ∨
       ((i = .dqpop a dsc role ∨ i = .dqsteal a dsc role) ∧ ScalarRuns s w x t g c i [] [a]) →
     (∀ q, s.roleTarget g c t.gang role.toNat 4 = some q → x.count 2 < 255 →
       ∃ u o, exec i s = .next u ∧ Issued s u w x 2 (if i = .dqpush a dsc role ∨ a = 0 then none else some a.toNat) o ∧
         (i = .dqpush a dsc role → o.kind = .dqPush role.toNat q (x.readS a.toNat) ∧ o.ret = .none) ∧
         (i = .dqpop a dsc role → o.kind = .dqPop role.toNat q ∧ o.ret = .s a.toNat) ∧
         (i = .dqsteal a dsc role → o.kind = .dqSteal q ∧ o.ret = .s a.toNat)) ∧
     (s.roleTarget g c t.gang role.toNat 4 = none → TrapReady s w x g → encodeScalar i = some word →
       Completes i s [(w, Warp.inHandler { x with wait := .none } g 0x01 (word.setWidth 64) 0 0 .scalarFault)] []))

/-- R156, R97, R305. `vfence` counts on `.vw` with the master writes of the warp that have not retired and the tile versions that they
reached. `place.hint` retires at once and changes only hotness: of the frames of the movable, leased pages of its range, to at least
WARM for HBM and to 0 otherwise; every other frame keeps its hotness, and nothing else of the device changes but the warp's PC.
`place.req` counts on `.cp` with the pages of its range; more than 64 MiB is ILLEGAL in both forms and a misaligned
status address ALIGN. -/
def Obligations.FenceAndPlacement : Prop :=
  ∀ (s s1 : State) (w : Nat) (x : Warp) (t : Team) (g : Grid) (c : Ctx) (a b e : BitVec 6) (tier : BitVec 2) (tr : Table Trans) (l : Label)
    (word : BitVec 32),
    let va := (x.readS a.toNat).val.toNat
    let len := (x.readS b.toNat).val.toNat
    let st := (x.readS e.toNat).val
    let lab := Label.joinAll [(x.readS a.toNat).lab, (x.readS b.toNat).lab, (x.readS e.toNat).lab]
    (ScalarRuns s w x t g c .vfence [] [] → x.count 5 < 255 →
      ∃ u o, exec .vfence s = .next u ∧ Issued s u w x 5 none o ∧
        o.kind = .vfence (x.mwOps.filter fun n => (s.op n).isSome) x.mwTiles) ∧
    (ScalarRuns s w x t g c (.placeHint a b tier) [a, b] [] → len ≤ 0x4000000 →
      ∃ u : State, exec (.placeHint a b tier) s = .next u ∧ u.warp w = some x.next ∧ (∀ v, v ≠ w → u.warp v = s.warp v) ∧
        u = { s with mem := { s.mem with hot := u.mem.hot }, work := { s.work with warps := u.work.warps } } ∧
        SameMain s u ∧ SameChip s u ∧ (∀ t, u.team t = s.team t) ∧
        (∀ vpn ∈ pagesOf va len, vpn < 2 ^ 41 → s.movable g.ctx vpn (s.leaf c vpn) = true →
          (scalarCtx (.placeHint a b tier) w x t g c).leased vpn = true →
          tGet u.mem.hot 0 (ptePpn (s.leaf c vpn)) =
            if tier = 0 then max (tGet s.mem.hot 0 (ptePpn (s.leaf c vpn))) (s.tidef 47 40) else 0) ∧
        ∀ f, (∀ vpn ∈ pagesOf va len, vpn < 2 ^ 41 → s.movable g.ctx vpn (s.leaf c vpn) = true →
            (scalarCtx (.placeHint a b tier) w x t g c).leased vpn = true → ptePpn (s.leaf c vpn) ≠ f) →
          tGet u.mem.hot 0 f = tGet s.mem.hot 0 f) ∧
    (ScalarRuns s w x t g c (.placeHint a b tier) [a, b] [] → 0x4000000 < len → TrapReady s w x g →
      encodeScalar (.placeHint a b tier) = some word →
      Completes (.placeHint a b tier) s
        [(w, Warp.inHandler { x with wait := .none } g 0x01 (word.setWidth 64) 0 0 .scalarFault)] []) ∧
    (ScalarRuns s w x t g c (.placeReq a b e tier) [a, b, e] [] →
      (len ≤ 0x4000000 → st.toNat % 8 = 0 → s.rangeFor x t g c .w (some lab) st.toNat 8 = (s1, .ok (tr, l)) → x.count 0 < 255 →
        ∃ u o, exec (.placeReq a b e tier) s = .next u ∧ Issued s u w x 0 none o ∧
          o.kind = .place (pagesOf va len) tier.toNat st.toNat 0 0 0) ∧
      (len ≤ 0x4000000 → st.toNat % 8 ≠ 0 → TrapReady s w x g →
        Completes (.placeReq a b e tier) s [(w, Warp.inHandler { x with wait := .none } g 0x06 st 0 0 .scalarFault)] []) ∧
      (0x4000000 < len → TrapReady s w x g → encodeScalar (.placeReq a b e tier) = some word →
        Completes (.placeReq a b e tier) s
          [(w, Warp.inHandler { x with wait := .none } g 0x01 (word.setWidth 64) 0 0 .scalarFault)] []))

/-- R328, R329, R305. `coll` issues on `.cl` where its 64-byte descriptor is aligned in team memory and not refused, the role of every
peer resolves to a route that is cleared for the source's label, and its source, destination and aligned record translate, the destination
under the labels of the routes that data arrives by (of BROADCAST ROOT's alone): the operation holds the descriptor's fields and the
routes of its peers. A misaligned descriptor raises ALIGN, one beyond team memory BOUNDS, and one whose
fields are refused ILLEGAL.
R330, R115. `launch` with an accepted descriptor adds a child grid: it inherits the parent's priority and frequency class, joins the
end of the distributor's order, waits for the operations that the warp has issued before, and will write its completion word where s[sb]
says (nowhere for s0); the context holds one child more and the warp goes on. With 256 children the warp waits; a misaligned descriptor
or completion word raises ALIGN. -/
def Obligations.CollectivesAndLaunches : Prop :=
  (∀ (s s1 s2 s3 : State) (w : Nat) (x : Warp) (t : Team) (g : Grid) (c : Ctx) (a : BitVec 6) (rs : List Nat) (t1 t2 t3 : Table Trans)
     (l1 l2 l3 : Label) (word : BitVec 32),
     let off := (x.readS a.toNat).val
     let ws := (List.range 8).map fun n => ofBytes (s.chipBytes (.team x.team) (off.toNat + 8 * n) 8)
     let d := CollDesc.ofWords ws
     let clear (r : Nat) : Label := (tFind s.routes r).elim 0 (·.lab)
     let lab := Label.join (x.readS a.toNat).lab (s.chipLab (.team x.team) off.toNat 64)
     let inl : Label := if d.op = 4 then Label.joinAll (((d.peers.zip (rs.map clear)).filter fun e => e.1 == d.root).map (·.2))
       else Label.joinAll (rs.map clear)
     let good := off.toNat % 64 = 0 ∧ off.toNat < 2 ^ 32 ∧ off.toNat + 64 ≤ s.spaceSize (.team x.team) ∧ Sound s (.team x.team) off.toNat 64
     ScalarRuns s w x t g c (.coll a) [a] [] →
     (good → d.refused ws = false → d.peers.map (fun q => s.roleTarget g c t.gang (d.role q) 2) = rs.map some →
       s.rangeFor x t g c .r none d.src d.srcLen = (s1, .ok (t1, l1)) →
       (d.srcLen = 0 ∨ ∀ r ∈ rs, (Label.join lab l1).toNat ≤ (clear r).toNat) →
       s1.rangeFor x t g c .w (some (Label.join (Label.join lab l1) inl)) d.dst d.dstLen = (s2, .ok (t2, l2)) → d.reca % 16 = 0 →
       s2.rangeFor x t g c .w (some lab) d.reca (if d.reca = 0 then 0 else 16) = (s3, .ok (t3, l3)) → x.count 4 < 255 →
       ∃ u o ab, exec (.coll a) s = .next u ∧ Issued s u w x 4 none o ∧ o.kind = .coll { d with routes := rs } [] false ab ∧
         o.lab = Label.join lab l1 ∧
         (ab = false ↔ ∀ r ∈ rs, ∃ z, tFind s3.routes r = some z ∧ z.up = true)) ∧
     (off.toNat % 64 ≠ 0 → TrapReady s w x g →
       Completes (.coll a) s [(w, Warp.inHandler { x with wait := .none } g 0x06 off 0 0 .scalarFault)] []) ∧
     (off.toNat % 64 = 0 → s.spaceSize (.team x.team) < off.toNat + 64 → TrapReady s w x g →
       Completes (.coll a) s [(w, Warp.inHandler { x with wait := .none } g 0x07 off 0 0 .scalarFault)] []) ∧
     (good → d.refused ws = true → TrapReady s w x g → encodeScalar (.coll a) = some word →
       Completes (.coll a) s [(w, Warp.inHandler { x with wait := .none } g 0x01 (word.setWidth 64) 0 0 .scalarFault)] [])) ∧
  (∀ (s s1 s2 : State) (w : Nat) (x : Warp) (t : Team) (g h : Grid) (c : Ctx) (a b : BitVec 6) (tr : Table Trans) (l : Label),
     let off := (x.readS a.toNat).val
     let va := (x.readS b.toNat).val
     let ws := (List.range 8).map fun n => ofBytes (s.chipBytes (.team x.team) (off.toNat + 8 * n) 8)
     ScalarRuns s w x t g c (.launch a b) [a, b] [] →
     (off.toNat % 64 = 0 → off.toNat < 2 ^ 32 → off.toNat + 64 ≤ s.spaceSize (.team x.team) → Sound s (.team x.team) off.toNat 64 →
       va.toNat % 8 = 0 →
       s.rangeFor x t g c .w (some (Label.join (x.readS a.toNat).lab (x.readS b.toNat).lab)) va.toNat (if b = 0 then 0 else 8)
         = (s1, .ok (tr, l)) →
       (c.children < 256 →
         ((s1.accessAll (some (dieOf x.core)) g.ctx tr).modCtx g.ctx fun z => { z with children := z.children + 1 }).acceptGrid g.ctx ws
           (some g) = (s2, .ok h) →
         ∃ u n k, exec (.launch a b) s = .next u ∧ u.warp w = some x.next ∧ (∀ v, v ≠ w → u.warp v = s.warp v) ∧
           u.grid n = some k ∧ k = { h with prio := g.prio, fc := g.fc, complVa := k.complVa, before := k.before } ∧
           k.complVa = (if b = 0 then none else (tFind tr (va.toNat / 65536)).map fun p => (va.toNat, p)) ∧ (∀ o, o ∈ k.before ↔ ∃ q, q < 6 ∧ o ∈ x.pendOf q) ∧ u.work.order = s.work.order ++ [n] ∧
           ∃ z : Ctx, u.ctx g.ctx = some z ∧ z.children = c.children + 1) ∧
       (256 ≤ c.children →
         ∃ u, exec (.launch a b) s = .next u ∧ u.warp w = some { x with wait := .hold false } ∧ (∀ v, v ≠ w → u.warp v = s.warp v) ∧
           u.work.grids = s.work.grids ∧ SameMain s u)) ∧
     (off.toNat % 64 ≠ 0 → TrapReady s w x g →
       Completes (.launch a b) s [(w, Warp.inHandler { x with wait := .none } g 0x06 off 0 0 .scalarFault)] []) ∧
     (off.toNat % 64 = 0 → off.toNat < 2 ^ 32 → off.toNat + 64 ≤ s.spaceSize (.team x.team) → b ≠ 0 → va.toNat % 8 ≠ 0 → TrapReady s w x g →
       Completes (.launch a b) s [(w, Warp.inHandler { x with wait := .none } g 0x06 va 0 0 .scalarFault)] []))

/-- R44 to R49, R334. `csrr` gives every implemented CSR its value, with the context's label; the privileged ones in a system warp only.
An unimplemented number raises ILLEGAL with the instruction's word.
R45, R47, R49, R334. `csrw` writes FSTAT and MFSTAT (bits [6:0]); in a system warp TRAPVEC, with bit 1 as 0, of every grid of the
context that runs the same kernel image, and CTXCTL.MFCTX; a write to any other CSR that may be accessed changes only the PC.
R206, R332, R333, R175. `bndmin` lowers the gang's bound to the unsigned minimum with s[sa] and joins its label; `bndrd` gives the
copy in the warp's core with the labels that have been delivered to it, all ones with label 0 where there is none; `role` gives the role's kind,
target and two valid bits, and 0 for a role that the kernel does not declare, with the context's starting label.
The model's, and in no rule: that `role` of an unbound entry returns KIND and target as its word holds them (log 69, DEDUCED), that the issuing core's own copy of the
bound changes only with a delivery (log 21, DEDUCED), and that a write of TRAPVEC reaches the running grids of the kernel and no later launch (log 78, DESIGN CHOICE). -/
def Obligations.CsrsBoundsAndRoles : Prop :=
  (∀ (s : State) (w : Nat) (x : Warp) (t : Team) (g : Grid) (c : Ctx) (d : BitVec 6) (word : BitVec 32),
     (∀ p ∈ [((0x001 : BitVec 12), (x.fstat.setWidth 64 : W64)), (0x002, t.mfstat.setWidth 64), (0x010, x.cause), (0x011, x.tval),
         (0x012, x.pcS.setWidth 64), (0x013, x.pcL.setWidth 64), (0x014, x.flmask), (0x020, BitVec.ofNat 64 (x.quad * 16 + x.num)),
         (0x021, BitVec.ofNat 64 t.num), (0x022, BitVec.ofNat 64 ((s.gang t.gang).elim 0 (·.num))), (0x023, g.gridId),
         (0x024, BitVec.ofNat 64 x.width), (0x030, BitVec.ofNat 64 (tGet s.cycles 0 (x.core / 48) / 1000)), (0x031, s.time),
         (0x040, c.label.setWidth 64), (0x041, c.savectr), (0x800, g.trapvec.setWidth 64), (0x801, BitVec.ofNat 64 g.ctx),
         (0x802, BitVec.ofNat 64 (c.root * 65536)), (0x803, BitVec.ofNat 64 c.keySlot),
         (0x804, BitVec.ofNat 64 ((if c.sys then 4 else 0) + (if c.mfctx then 2 else 0) + if c.prot then 1 else 0))],
       ScalarRuns s w x t g c (.csrr d p.1) [] [d] → (p.1.getLsbD 11 = true → c.sys = true) →
       Completes (.csrr d p.1) s [(w, (x.writeS d.toNat ⟨p.2, c.label⟩).next)] []) ∧
     (∀ n : BitVec 12, n ∉ [(0x001 : BitVec 12), 0x002, 0x010, 0x011, 0x012, 0x013, 0x014, 0x020, 0x021, 0x022, 0x023, 0x024, 0x030, 0x031,
         0x040, 0x041, 0x800, 0x801, 0x802, 0x803, 0x804] → ScalarAt s w x t g c → TrapReady s w x g →
       encodeScalar (.csrr d n) = some word →
       Completes (.csrr d n) s [(w, Warp.inHandler { x with wait := .none } g 0x01 (word.setWidth 64) 0 0 .scalarFault)] [])) ∧
  (∀ (s : State) (w : Nat) (x : Warp) (t : Team) (g : Grid) (c : Ctx) (a : BitVec 6) (n : BitVec 12),
     let v := (x.readS a.toNat).val
     ScalarRuns s w x t g c (.csrw a n) [a] [] →
     (n = 0x001 → Completes (.csrw a n) s [(w, Warp.next { x with fstat := v.setWidth 7 })] []) ∧
     (n = 0x002 → Completes (.csrw a n) s [(w, x.next)] [(x.team, { t with mfstat := v.setWidth 7 })]) ∧
     (n ∈ [(0x010 : BitVec 12), 0x011, 0x012, 0x013, 0x014, 0x020, 0x021, 0x022, 0x023, 0x024, 0x030, 0x031, 0x040, 0x041] →
       Completes (.csrw a n) s [(w, x.next)] []) ∧
     (n ∈ [(0x801 : BitVec 12), 0x802, 0x803] → c.sys = true → Completes (.csrw a n) s [(w, x.next)] []) ∧
     (n = 0x800 → c.sys = true → ∃ u, exec (.csrw a n) s = .next u ∧ u.warp w = some x.next ∧ (∀ z, z ≠ w → u.warp z = s.warp z) ∧
       SameMain s u ∧ ∀ k h, s.grid k = some h → u.grid k = some (if h.ctx = g.ctx ∧ h.kernel.image = g.kernel.image
         then { h with trapvec := v.setWidth 32 &&& 0xFFFFFFFD } else h)) ∧
     (n = 0x804 → c.sys = true → ∃ u, exec (.csrw a n) s = .next u ∧ u.warp w = some x.next ∧ (∀ z, z ≠ w → u.warp z = s.warp z) ∧
       SameMain s u ∧ ∀ k, u.ctx k = if k = g.ctx then some { c with mfctx := v.getLsbD 1 } else s.ctx k)) ∧
  (∀ (s : State) (w : Nat) (x : Warp) (t : Team) (g : Grid) (c : Ctx) (d a role : BitVec 6) (y : Gang), s.gang t.gang = some y →
     (ScalarRuns s w x t g c (.bndmin a) [a] [] →
       ∃ u z, exec (.bndmin a) s = .next u ∧ u.warp w = some x.next ∧ (∀ v, v ≠ w → u.warp v = s.warp v) ∧ SameMain s u ∧
         u.gang t.gang = some z ∧ z = { y with bound := z.bound, flying := z.flying } ∧
         z.bound.val.toNat = min y.bound.val.toNat (x.readS a.toNat).val.toNat ∧
         z.bound.lab = Label.join y.bound.lab (x.readS a.toNat).lab ∧
         (∀ e, e ∈ z.flying ↔ e ∈ y.flying ∨ (e.2 = x.readS a.toNat ∧
           ∃ n z, (n, z) ∈ s.work.warps ∧ memb y.teams z.team = true ∧ z.core = e.1))) ∧
     (ScalarRuns s w x t g c (.bndrd d) [] [d] →
       Completes (.bndrd d) s [(w, (x.writeS d.toNat ((tFind y.copies x.core).getD ⟨BitVec.allOnes 64, 0⟩)).next)] []) ∧
     (ScalarRuns s w x t g c (.role d role) [] [d] →
       let b : W64 := (g.roles[role.toNat]?).getD 0
       Completes (.role d role) s [(w, (x.writeS d.toNat ⟨if g.roles.length ≤ role.toNat then 0
         else BitVec.ofNat 64 ((if b.getLsbD 63 = true ∧ (tFind y.ptgt role.toNat).isSome = true then 2 ^ 63 else 0) +
           (if b.getLsbD 63 = true then 2 ^ 62 else 0) + b.toNat / 2 ^ 56 % 8 * 2 ^ 56 + b.toNat % 2 ^ 56), c.label⟩).next)] []))

/-! ### CSRs, soft traps, sealed saves, privileged instructions -/

/-- R336, R337, R240, R305. In a protected context with no block queued, `savev` and `savet` of a legal range whose image translates for
writing take the context's SAVESEQ, which goes up by one, and issue on `.cp`: `savev` with the image of the registers as they stand,
`savet` with its range of team memory still to be read. A pending register of the set makes `savev` wait. Outside a protected context
both raise ILLEGAL.
R336, R338, R31, R305. In a protected context with no block queued, `restv` and `restt` of a legal range whose image translates for
reading issue on `.cp`; every register of the set of `restv` is pending from then on. A misaligned team-memory offset of `restt` raises
ALIGN and one beyond team memory BOUNDS, with the offset. Outside a protected context both raise ILLEGAL. -/
def Obligations.SealedImages : Prop :=
  (∀ (s s1 : State) (w : Nat) (x : Warp) (t : Team) (g : Grid) (c : Ctx) (a b e : BitVec 6) (base count : Nat) (scal : Bool)
     (tr : Table Trans) (l : Label) (word : BitVec 32),
     let va := (x.readS a.toNat).val.toNat
     let off := (x.readS b.toNat).val.toNat
     let len := (x.readS e.toNat).val.toNat
     let seqUp (u : State) : Prop := ∃ z : Ctx, u.ctx g.ctx = some z ∧ z.saveseq = c.saveseq + 1
     let key := (tFind s.mem.keys c.keySlot).elim 0 (·.save)
     (ScalarRuns s w x t g c (.savev a b) [a, b] [] →
       (c.prot = true → x.queue = [] → va % 64 = 0 → base < 1024 → count < 1024 → base + count ≤ x.c → (1 ≤ count ∨ scal = true) →
         (x.readS b.toNat).val = BitVec.ofNat 64 (base + count * 2 ^ 16 + (if scal then 2 ^ 32 else 0)) →
         (x.setPending base count scal = true → Completes (.savev a b) s [(w, { x with wait := .hold true })] []) ∧
         (x.setPending base count scal = false → x.count 0 < 255 →
           s.rangeFor x t g c .w (some 0) va (imageLenV x.width count scal) = (s1, .ok (tr, l)) →
           ∃ u o, exec (.savev a b) s = .next u ∧ Issued s u w x 0 none o ∧ seqUp u ∧
             o.kind = .savev va (sealImage key g.ctx c.savectr c.saveseq
               (sealHeader 1 g.ctx x.num x.width t.num base count scal c.savectr c.saveseq)
               (x.imageData base count scal) (x.imageLabels base count scal)))) ∧
       (c.prot = false → TrapReady s w x g → encodeScalar (.savev a b) = some word →
         Completes (.savev a b) s [(w, Warp.inHandler { x with wait := .none } g 0x01 (word.setWidth 64) 0 0 .scalarFault)] [])) ∧
     (ScalarRuns s w x t g c (.savet a b e) [a, b, e] [] →
       (c.prot = true → x.queue = [] → va % 64 = 0 → off % 64 = 0 → len ≠ 0 → len % 64 = 0 → off + len ≤ s.spaceSize (.team x.team) →
         x.count 0 < 255 → s.rangeFor x t g c .w (some 0) va (imageLenT len) = (s1, .ok (tr, l)) →
         ∃ u o, exec (.savet a b e) s = .next u ∧ Issued s u w x 0 none o ∧ seqUp u ∧
           o.kind = .savet va (sealHeader 2 g.ctx 0 0 t.num off len false c.savectr c.saveseq) off len c.saveseq) ∧
       (c.prot = false → TrapReady s w x g → encodeScalar (.savet a b e) = some word →
         Completes (.savet a b e) s [(w, Warp.inHandler { x with wait := .none } g 0x01 (word.setWidth 64) 0 0 .scalarFault)] []))) ∧
  (∀ (s s1 : State) (w : Nat) (x : Warp) (t : Team) (g : Grid) (c : Ctx) (a b e : BitVec 6) (base count : Nat) (scal : Bool)
     (tr : Table Trans) (l : Label) (word : BitVec 32),
     let va := (x.readS a.toNat).val.toNat
     let off := (x.readS b.toNat).val
     let len := (x.readS e.toNat).val.toNat
     (ScalarRuns s w x t g c (.restv a b) [a, b] [] →
       (c.prot = true → x.queue = [] → va % 64 = 0 → base < 1024 → count < 1024 → base + count ≤ x.c → (1 ≤ count ∨ scal = true) →
         off = BitVec.ofNat 64 (base + count * 2 ^ 16 + (if scal then 2 ^ 32 else 0)) →
         x.setPending base count scal = false → x.count 0 < 255 →
         s.rangeFor x t g c .r none va (imageLenV x.width count scal) = (s1, .ok (tr, l)) →
         ∃ u o vp kp sp, exec (.restv a b) s = .next u ∧ Issued s u w { x with vPend := vp, kPend := kp, sPend := sp } 0 none o ∧
           o.kind = .restv va base count scal ∧
           (∀ r q, r < 1024 → q < 64 → (memb vp (64 * r + q) = true ↔
             memb x.vPend (64 * r + q) = true ∨ (base ≤ r ∧ r < base + count ∧ q < x.width))) ∧
           (∀ r, memb kp r = true ↔ memb x.kPend r = true ∨ (scal = true ∧ r < 16)) ∧
           (∀ r, memb sp r = true ↔ memb x.sPend r = true ∨ (scal = true ∧ 1 ≤ r ∧ r ≤ 63))) ∧
       (c.prot = false → TrapReady s w x g → encodeScalar (.restv a b) = some word →
         Completes (.restv a b) s [(w, Warp.inHandler { x with wait := .none } g 0x01 (word.setWidth 64) 0 0 .scalarFault)] [])) ∧
     (ScalarRuns s w x t g c (.restt a b e) [a, b, e] [] →
       (c.prot = true → x.queue = [] → va % 64 = 0 → off.toNat % 64 = 0 → len ≠ 0 → len % 64 = 0 →
         off.toNat + len ≤ s.spaceSize (.team x.team) → x.count 0 < 255 → s.rangeFor x t g c .r none va (imageLenT len) = (s1, .ok (tr, l)) →
         ∃ u o, exec (.restt a b e) s = .next u ∧ Issued s u w x 0 none o ∧ o.kind = .restt va off.toNat len) ∧
       (c.prot = true → x.queue = [] → va % 64 = 0 → len ≠ 0 → len % 64 = 0 → TrapReady s w x g →
         (off.toNat % 64 ≠ 0 →
           Completes (.restt a b e) s [(w, Warp.inHandler { x with wait := .none } g 0x06 off 0 0 .scalarFault)] []) ∧
         (off.toNat % 64 = 0 → s.spaceSize (.team x.team) < off.toNat + len →
           Completes (.restt a b e) s [(w, Warp.inHandler { x with wait := .none } g 0x07 off 0 0 .scalarFault)] [])) ∧
       (c.prot = false → TrapReady s w x g → encodeScalar (.restt a b e) = some word →
         Completes (.restt a b e) s [(w, Warp.inHandler { x with wait := .none } g 0x01 (word.setWidth 64) 0 0 .scalarFault)] [])))

/-- R405, R133 to R135. In a system warp: `mapedit` of a live context whose edit is not refused and whose leaf has its
interior nodes writes the 8 bytes of that leaf and no other byte of main memory, marks the translations of the page that warps at
`signal.wait` hold as replaced, and queues the window for the refitter; where it changes the PPN of a WATCH page it is a master write of the
warp to every tile with an element there (R149), whose new versions the warp's `VFENCE` will wait for (R156); `mapsync` goes on where no operation and no such warp holds a replaced translation of
its range; `refitf` gives the largest count of FIX entries once every edit so far is folded in,
and waits with its ticket before. A slot that holds no live context raises ILLEGAL; `mapedit` alone refuses a slot operand above 63, the
other two name the slot of its low six bits.
R406, R50. `lbldn` in a system warp lowers the label of one scalar, block-constant, vector or predicate register to the level where it
is higher, and changes neither its value, nor any other register, value or label; a pending register makes it wait. -/
def Obligations.MapAndLabelInstructions : Prop :=
  (∀ (s : State) (w : Nat) (x : Warp) (t : Team) (g : Grid) (c z : Ctx) (d a b e : BitVec 6) (word : BitVec 32) (pa : Nat),
     let va := (x.readS a.toNat).val.toNat
     let v := (x.readS b.toNat).val.toNat
     let slot := (x.readS e.toNat).val.toNat
     let dead : Prop := 64 ≤ slot ∨ s.ctx slot = none ∨ ∃ y, s.ctx slot = some y ∧ y.invalid = true
     let traps (i : Instr) : Prop := TrapReady s w x g → encodeScalar i = some word →
       Completes i s [(w, Warp.inHandler { x with wait := .none } g 0x01 (word.setWidth 64) 0 0 .scalarFault)] []
     let live : Prop := slot < 64 ∧ s.ctx slot = some z ∧ z.invalid = false
     let low := slot % 64
     let lowDead : Prop := s.ctx low = none ∨ ∃ y, s.ctx low = some y ∧ y.invalid = true
     let lowLive : Prop := s.ctx low = some z ∧ z.invalid = false
     let raised := (s.editTiles slot (va / 65536) v true).2
     c.sys = true →
     (ScalarRuns s w x t g c (.mapedit a b e) [a, b, e] [] →
       (live → s.editRefused z va v = none → s.editWaits slot (va / 65536) = false → s.leafAddr 3 z.root (va / 65536) = some pa →
         (v % 2 = 0 ∨ (s.mem.owes (ptePpn v) = false ∧ s.steady (attrKey (pteAttr v)) (ptePpn v * 65536))) →
         ∃ u, exec (.mapedit a b e) s = .next u ∧ u.warp w = some { x.next with mwTiles := x.mwTiles ++ raised } ∧
           (attrWatch (pteAttr (s.leaf z (va / 65536))) = false ∨ ptePpn (s.leaf z (va / 65536)) = ptePpn v → raised = []) ∧
           (∀ n y i q, attrWatch (pteAttr (s.leaf z (va / 65536))) = true → ptePpn (s.leaf z (va / 65536)) ≠ ptePpn v → z.views = [(n, y)] →
             i ∈ tilesOnPage y (va / 65536) → tFind y.tiles i = some q →
             ({ ctx := slot, view := n, tile := i, ver := q.mv + 1 } : TileVer) ∈ raised) ∧
           (∀ n, n ≠ w → u.warp n = (s.warp n).map fun y => { y with wait := match y.wait, s.home y with
             | .signal q p ext, some h => if q / 65536 = va / 65536 ∧ h.2.1.ctx = slot then .signal q { p with old := true } ext else y.wait
             | _, _ => y.wait }) ∧
           u.peek64 pa = v ∧ SameMainOutside s u pa 8 ∧
           ∃ y : Ctx, u.ctx slot = some y ∧ y.tickets = z.tickets + 1 ∧ (va / 65536, z.tickets + 1) ∈ y.refitQ) ∧
       (live → s.editRefused z va v = none → s.editWaits slot (va / 65536) = true →
         Completes (.mapedit a b e) s [(w, { x with wait := .hold true })] []) ∧
       (dead → traps (.mapedit a b e))) ∧
     (ScalarRuns s w x t g c (.mapsync a b e) [a, b, e] [] →
       (lowLive → va < 2 ^ 57 → v ≤ 2 ^ 25 → (∀ os ws, x.wait ≠ .mapsync os ws) → s.oldOps low (va / 65536) v = [] →
         s.oldSigs low (va / 65536) v = [] →
         Completes (.mapsync a b e) s [(w, x.next)] []) ∧
       (lowDead ∨ 2 ^ 57 ≤ va ∨ 2 ^ 25 < v → traps (.mapsync a b e))) ∧
     (ScalarRuns s w x t g c (.refitf d e) [e] [d] →
       (lowLive → (∀ n k, x.wait ≠ .refitf n k) →
         (z.tickets ≤ z.folded →
           Completes (.refitf d e) s [(w, (x.writeS d.toNat ⟨BitVec.ofNat 64 (s.fixCount low), c.label⟩).next)] []) ∧
         (z.folded < z.tickets → Completes (.refitf d e) s [(w, { x with wait := .refitf low z.tickets })] [])) ∧
       (lowDead → traps (.refitf d e)))) ∧
  (∀ (s : State) (w : Nat) (x : Warp) (t : Team) (g : Grid) (c : Ctx) (n : BitVec 12) (level : BitVec 3) (kind : BitVec 2),
     let i : Instr := .lbldn n level kind
     let low (l : Label) : Label := if level.toNat < l.toNat then level else l
     let r := n.toNat
     ScalarRuns s w x t g c i [] [] → c.sys = true → x.queue = [] →
     (kind = 0 → r ≤ 63 → memb x.sPend r = false →
       Completes i s [(w, (x.writeS r ⟨(x.readS r).val, low (x.readS r).lab⟩).next)] []) ∧
     (kind = 1 → r ≤ 15 → memb x.kPend r = false →
       Completes i s [(w, (x.writeK r ⟨(x.readK r).val, low (x.readK r).lab⟩).next)] []) ∧
     (kind = 2 → r < x.c → (∀ e ∈ x.vPend, e / 64 ≠ r) → ∃ y : Warp, Completes i s [(w, y.next)] [] ∧ y = { x with vLab := y.vLab } ∧
       ∀ q, y.labV q = if q = r then low (x.labV r) else x.labV q) ∧
     (kind = 3 → r ≤ 7 → ∃ y : Warp, Completes i s [(w, y.next)] [] ∧ y = { x with pLab := y.pLab } ∧
       ∀ q, y.labP q = if q = r then low (x.labP r) else x.labP q) ∧
     (kind = 0 → r ≤ 63 → memb x.sPend r = true → Completes i s [(w, { x with wait := .hold true })] []))

/-! ### Lane instructions: operands, moves, arithmetic -/

/-- R340, R287, R36, R50. The operands of a lane instruction: a v index gives the register or pair of the lane, a k register the block's
snapshot, a latch its value in the lane, each cut to the operand's width, and I = 1 puts the immediate, sign-extended for s64, in place of
B; so for each of the three operands. A lane takes part where it is in the entry and the predicate, negated if the instruction says so,
is true. The result's label is the largest of the sources' labels (of a register, a pair's two, a k register, a latch or a predicate) and
the governing predicate's.
R346 to R349. `mov` writes its source or immediate, a narrow type's low bits extended by its sign or zeros; `laneid` the lane's
number; `sel` A where C is nonzero and B elsewhere; `pset` the combination of two predicates or its constant. Only the lanes that take part
write.
That a register or predicate in whose lanes none takes part keeps its label is the model's choice (log 98, DESIGN CHOICE: R36, R50 and R339 leave
it open). -/
def Obligations.LaneOperandsAndMoves : Prop :=
  (∀ (s : State) (k : LCtx) (l n : Nat), LaneAt s k → LaneLegal k → l < 64 →
     let wide (p : SrcK) (v : W64) : Nat := if p = .w64 ∨ p = .kreg then v.toNat else v.toNat % 2 ^ 32
     let reads (p : SrcK) (r : BitVec 11) (v : Nat) : Prop :=
       (p = .w32 → r.toNat < 640 → v = (k.q.x.readV r.toNat l).toNat) ∧
       (p = .w64 → r.toNat < 640 → v = (k.q.x.readV (r.toNat + 1) l ++ k.q.x.readV r.toNat l).toNat) ∧
       (r.toNat = 1008 + n → n < 16 → v = wide p (tGet k.ks ⟨0, k.q.x.lab0⟩ n).val) ∧
       (r.toNat = 1024 + n → n < 4 → v = wide p (tGet (k.en.latch n).vals 0 l))
     let label (p : SrcK) (r : BitVec 11) : Label :=
       if p = .no then 0 else if p = .pred then k.q.x.labP (r.toNat % 8)
       else if 1024 ≤ r.toNat then (k.en.latch (r.toNat % 4)).lab else if 640 ≤ r.toNat then (tGet k.ks ⟨0, k.q.x.lab0⟩ (r.toNat - 1008)).lab
       else if p = .w64 then (if (k.q.x.labV r.toNat).toNat ≤ (k.q.x.labV (r.toNat + 1)).toNat then k.q.x.labV (r.toNat + 1)
         else k.q.x.labV r.toNat) else k.q.x.labV r.toNat
     let labs := [label k.p.a k.f.a, if k.f.i then 0 else label k.p.b k.f.b, label k.p.c k.f.c, k.q.x.labP k.f.pred.toNat]
     (l ∈ k.part ↔ k.en.mask.getLsbD l = true ∧ l < k.q.x.width ∧ ((k.q.x.predMask k.f.pred.toNat).getLsbD l = true ↔ k.f.neg = false)) ∧
     reads k.p.a k.f.a (k.a l) ∧ (k.f.i = false → reads k.p.b k.f.b (k.b l)) ∧ reads k.p.c k.f.c (k.c l) ∧
     (k.f.i = true → (k.p.b = .w32 ∨ k.p.b = .w64) →
       k.b l = if k.p.b = .w64 ∧ k.f.ty = 2 then (k.f.imm.signExtend 64).toNat else k.f.imm.toNat) ∧
     (∀ z ∈ labs, z.toNat ≤ k.lab.toNat) ∧ k.lab ∈ labs) ∧
  (∀ (s : State) (k : LCtx), LaneRuns s k →
     let low (l : Nat) : Nat := if k.f.i then (if k.f.ty = 2 then (k.f.imm.signExtend 64).toNat else k.f.imm.toNat) else k.a l
     let pa (l : Nat) : Bool := (k.q.x.predMask k.f.a.toNat).getLsbD l
     let pb (l : Nat) : Bool := (k.q.x.predMask k.f.b.toNat).getLsbD l
     (k.q.i = .mov k.f → LaneWrites s k k.lab 0 fun l =>
       if k.f.ty = 12 then ((BitVec.ofNat 8 (low l)).signExtend 32).toNat
       else if k.f.ty = 14 then ((BitVec.ofNat 16 (low l)).signExtend 32).toNat
       else low l % 2 ^ tyBits k.f.ty.toNat) ∧
     (k.q.i = .laneid k.f → LaneWrites s k k.lab 0 fun l => l) ∧
     (k.q.i = .sel k.f → LaneWrites s k k.lab 0 fun l => if k.c l ≠ 0 then k.a l else k.b l) ∧
     (k.q.i = .pset k.f → LanePredicates s k 0 fun l =>
       if k.f.md = 0 then pa l && pb l else if k.f.md = 1 then pa l || pb l else if k.f.md = 2 then pa l != pb l
       else if k.f.md = 3 then pa l && !pb l else k.f.imm.getLsbD 0))

/-- R350, R354, R351. The integer group: the exact result of the table on A, B and C read as two's complement for s types and as unsigned
for n types, wrapped to 32 or 64 bits; division toward zero, all ones and A for a division by zero; `icmp` writes A CC B. No flag is
raised, only lanes that take part write, and the latches shift.
R352, R353. `popc` counts the one bits, `clz` the zeros above the highest one, `brev` reverses the bits of the type's width; `bfe`
gives the field that the control word names, sign-extended for s types, 0 where it is empty; `bfi` replaces that field of A by the low
bits of B.
That a register or predicate in whose lanes none takes part keeps its label is the model's choice (log 98, DESIGN CHOICE: R36, R50 and R339 leave
it open). -/
def Obligations.LaneIntegersAndBits : Prop :=
  (∀ (s : State) (k : LCtx) (p : Instr × (Nat → Int)),
     let w : Nat := if k.f.ty.toNat < 2 then 32 else 64
     let rd (v : Nat) : Int := if k.f.ty = 0 then (BitVec.ofNat 32 v).toInt else if k.f.ty = 1 then (BitVec.ofNat 32 v).toNat
       else if k.f.ty = 2 then (BitVec.ofNat 64 v).toInt else (BitVec.ofNat 64 v).toNat
     let a (l : Nat) : Int := rd (k.a l)
     let b (l : Nat) : Int := rd (k.b l)
     let ua (l : Nat) : Nat := k.a l % 2 ^ w
     let ub (l : Nat) : Nat := k.b l % 2 ^ w
     LaneRuns s k →
     (p ∈ [(Instr.iadd k.f, fun l => a l + b l), (.isub k.f, fun l => a l - b l), (.imul k.f, fun l => a l * b l),
         (.imulh k.f, fun l => a l * b l / 2 ^ w), (.imad k.f, fun l => a l * b l + rd (k.c l)),
         (.imin k.f, fun l => if a l ≤ b l then a l else b l), (.imax k.f, fun l => if a l ≤ b l then b l else a l),
         (.iabs k.f, fun l => if a l < 0 then - a l else a l), (.iand k.f, fun l => ((ua l &&& ub l : Nat) : Int)),
         (.ior k.f, fun l => ((ua l ||| ub l : Nat) : Int)), (.ixor k.f, fun l => ((ua l ^^^ ub l : Nat) : Int)),
         (.inot k.f, fun l => -1 - (ua l : Int)), (.ishl k.f, fun l => (ua l : Int) * 2 ^ (k.b l % w)),
         (.ishr k.f, fun l => (ua l : Int) / 2 ^ (k.b l % w)),
         (.isar k.f, fun l => (if w = 32 then (BitVec.ofNat 32 (k.a l)).toInt else (BitVec.ofNat 64 (k.a l)).toInt) / 2 ^ (k.b l % w)),
         (.idiv k.f, fun l => if b l = 0 then -1 else Int.tdiv (a l) (b l)), (.irem k.f, fun l => if b l = 0 then a l else Int.tmod (a l) (b l))] →
       k.q.i = p.1 → LaneWrites s k k.lab 0 fun l => (p.2 l % 2 ^ w).toNat) ∧
     (k.q.i = .icmp k.f → LanePredicates s k 0 fun l =>
       if k.f.md = 0 then a l == b l else if k.f.md = 1 then a l != b l else if k.f.md = 2 then decide (a l < b l)
       else if k.f.md = 3 then decide (a l ≤ b l) else if k.f.md = 4 then decide (b l < a l) else decide (b l ≤ a l))) ∧
  (∀ (s : State) (k : LCtx), LaneRuns s k →
     let w : Nat := if k.f.ty.toNat < 2 then 32 else 64
     let pos (ctl : Nat) : Nat := ctl % 256
     let e (ctl : Nat) : Nat := min (ctl / 256 % 256) (w - ctl % 256)
     (k.q.i = .popc k.f → LaneWrites s k k.lab 0 fun l => ((List.range w).filter fun j => (k.a l).testBit j).length) ∧
     (k.q.i = .clz k.f → ∃ val, LaneWrites s k k.lab 0 val ∧ ∀ l ∈ k.part,
       (k.a l % 2 ^ w = 0 → val l = w) ∧ (k.a l % 2 ^ w ≠ 0 → 2 ^ (w - 1 - val l) ≤ k.a l % 2 ^ w ∧ k.a l % 2 ^ w < 2 ^ (w - val l) ∧ val l < w)) ∧
     (k.q.i = .brev k.f → ∃ val, LaneWrites s k k.lab 0 val ∧ ∀ l ∈ k.part, val l < 2 ^ w ∧
       ∀ j, j < w → (val l).testBit j = (k.a l).testBit (w - 1 - j)) ∧
     (k.q.i = .bfe k.f → ∃ val, LaneWrites s k k.lab 0 val ∧ ∀ l ∈ k.part, val l < 2 ^ w ∧
       ∀ j, j < w → (val l).testBit j =
         if e (k.b l) = 0 then false
         else if j < e (k.b l) then (k.a l).testBit (pos (k.b l) + j)
         else k.f.ty.toNat % 2 == 0 && (k.a l).testBit (pos (k.b l) + e (k.b l) - 1)) ∧
     (k.q.i = .bfi k.f → ∃ val, LaneWrites s k k.lab 0 val ∧ ∀ l ∈ k.part, ∀ j, j < w → (val l).testBit j =
       if pos (k.c l) ≤ j ∧ j < pos (k.c l) + e (k.c l) then (k.b l).testBit (j - pos (k.c l)) else (k.a l).testBit j))

/-! ### Floating point and conversions in lanes -/

/-- R355 to R358, R344. The floating-point group on f32, f16 and bf16: the exact result of the operands' values rounded once in the
instruction's mode (that the series which stand for 2^A and log2 A are exact enough for this is the model's reading, log 22); `fmin` and `fmax` one operand, with -0 below +0 and a NaN passed over; `fcmp` and `fclass` a predicate. Each lane's
flags go to FSTAT. That a register whose lanes all stand aside keeps its label is the model's choice (log 98).
R264, R265, R355. The special operands, for f32, f16 and bf16 in every mode: a NaN operand gives the canonical NaN and raises NV only
if it signals; Inf - Inf, 0 × Inf, 0 / 0, Inf / Inf and the root or logarithm of a value below zero give NaN with NV; a nonzero over zero,
and the reciprocal, reciprocal root or logarithm of zero, give the infinity with DZ; the rest of the table without a flag.
R265, R268. Sums and products of finite operands are exact, and so is a quotient but for its last bit, which marks what lies beyond 62 bits
or more: every format rounds such a number as it rounds the quotient itself. So is the square root of a positive value, by its square, and
the reciprocal root, by its square times the value. Values are compared as integers scaled by a common power of two. -/
def Obligations.LaneFloatingPoint : Prop :=
  (∀ (s : State) (k : LCtx) (p : Instr × (Nat → Nat × Flags)),
     let t := fltOf k.f.ty.toNat
     let md : RM := if k.f.md = 0 then .rne else if k.f.md = 1 then .rtz else if k.f.md = 2 then .rdn else .rup
     let a (l : Nat) : Machine.Num := t.value (k.a l)
     let b (l : Nat) : Machine.Num := t.value (k.b l)
     let once (ops : List Machine.Num) (r : Machine.Num × Flags) : Nat × Flags :=
       ((t.round md false r.1).1, (t.round md false r.1).2 ||| r.2 ||| (if ops.any Machine.Num.isSig then fNV else 0))
     let pick (l : Nat) (first : Bool) : Nat × Flags :=
       (if (a l).isNan ∧ (b l).isNan then t.nan.getD 0
         else if (a l).isNan ∨ ((b l).isNan = false ∧ first = false) then k.b l % 2 ^ t.w else k.a l % 2 ^ t.w,
        if (a l).isSig ∨ (b l).isSig then fNV else 0)
     let below (x y : Machine.Num) : Bool := x.lt y || (x.isZero && y.isZero && x.sign && !y.sign)
     let un (l : Nat) : Bool := (a l).isNan || (b l).isNan
     let raised (fl : Flags) (f : Nat → Flags) : Prop := ∀ i, fl.getLsbD i = true ↔ ∃ l ∈ k.part, (f l).getLsbD i = true
     LaneRuns s k →
     (p ∈ [(Instr.fadd k.f, fun l => once [a l, b l] ((a l).add md (b l))), (.fsub k.f, fun l => once [a l, b l] ((a l).add md (b l).neg)),
         (.fmul k.f, fun l => once [a l, b l] ((a l).mul (b l))), (.fdiv k.f, fun l => once [a l, b l] ((a l).div (b l))),
         (.ffma k.f, fun l => once [a l, b l, t.value (k.c l)] ((((a l).mul (b l)).1.add md (t.value (k.c l))).1,
           ((a l).mul (b l)).2 ||| (((a l).mul (b l)).1.add md (t.value (k.c l))).2)),
         (.frcp k.f, fun l => once [a l] (Machine.Num.one.div (a l))), (.frsq k.f, fun l => once [a l] (a l).rsqrt),
         (.fsqrt k.f, fun l => once [a l] (a l).sqrt), (.fex2 k.f, fun l => once [a l] ((a l).exp2, 0)),
         (.flg2 k.f, fun l => once [a l] (a l).log2), (.fmin k.f, fun l => pick l (!below (b l) (a l))),
         (.fmax k.f, fun l => pick l (!below (a l) (b l)))] →
       k.q.i = p.1 → ∃ fl, LaneWrites s k k.lab fl (fun l => (p.2 l).1) ∧ raised fl (fun l => (p.2 l).2)) ∧
     (k.q.i = .fcmp k.f → ∃ fl, raised fl (fun l => if 2 ≤ k.f.md.toNat ∧ k.f.md.toNat ≤ 5 then (if un l then fNV else 0)
           else if (a l).isSig ∨ (b l).isSig then fNV else 0) ∧
       LanePredicates s k fl fun l =>
         if k.f.md = 0 then !un l && !(a l).lt (b l) && !(b l).lt (a l) else if k.f.md = 1 then un l || (a l).lt (b l) || (b l).lt (a l)
         else if k.f.md = 2 then !un l && (a l).lt (b l) else if k.f.md = 3 then !un l && !(b l).lt (a l)
         else if k.f.md = 4 then !un l && (b l).lt (a l) else if k.f.md = 5 then !un l && !(a l).lt (b l)
         else if k.f.md = 6 then un l else !un l) ∧
     (k.q.i = .fclass k.f → LanePredicates s k 0 fun l => k.f.imm.getLsbD (match a l with
       | .nan sg => if sg then 8 else 9
       | .inf n => if n then 0 else 7
       | .fin n m e => if m = 0 then (if n then 3 else 4) else if log2E m e < t.emin then (if n then 2 else 5) else if n then 1 else 6))) ∧
  (∀ (t : FFmt) (md : RM) (a b : Nat), t ∈ [fmtF32, fmtF16, fmtBf16] →
     let x := t.value a
     let y := t.value b
     let nan := t.nan.getD 0
     let inf (neg : Bool) : Nat := (if neg then 2 ^ (t.w - 1) else 0) + (t.top + 1)
     let zero (neg : Bool) : Nat := if neg then 2 ^ (t.w - 1) else 0
     (∀ op ∈ [fAdd, fSub, fMul, fDiv], x.isNan ∨ y.isNan → op t md a b = (nan, if x.isSig ∨ y.isSig then fNV else 0)) ∧
     (∀ op ∈ [fRcp, fRsq, fSqrt, fEx2, fLg2], x.isNan → op t md a = (nan, if x.isSig then fNV else 0)) ∧
     (∀ n p, x = .inf n → y = .inf p → (n ≠ p → fAdd t md a b = (nan, fNV)) ∧ (n = p → fSub t md a b = (nan, fNV)) ∧
       fDiv t md a b = (nan, fNV)) ∧
     (∀ n, (x.isZero → y = .inf n → fMul t md a b = (nan, fNV)) ∧ (x = .inf n → y.isZero → fMul t md a b = (nan, fNV))) ∧
     (x.isZero → y.isZero → fDiv t md a b = (nan, fNV)) ∧
     (∀ n m e, x = .fin n m e → m ≠ 0 → y.isZero → fDiv t md a b = (inf (n != y.sign), fDZ)) ∧
     (x.isZero → fRcp t md a = (inf x.sign, fDZ) ∧ fRsq t md a = (inf x.sign, fDZ) ∧ fSqrt t md a = (zero x.sign, 0) ∧
       fLg2 t md a = (inf true, fDZ)) ∧
     (x.isNan = false → x.isZero = false → x.sign = true →
       fSqrt t md a = (nan, fNV) ∧ fRsq t md a = (nan, fNV) ∧ fLg2 t md a = (nan, fNV)) ∧
     (x = .inf false → fRsq t md a = (0, 0) ∧ fLg2 t md a = (inf false, 0) ∧ fEx2 t md a = (inf false, 0)) ∧
     (x = .inf true → fEx2 t md a = (0, 0)) ∧ (∀ n, x = .inf n → fRcp t md a = (zero n, 0)) ∧
     (∀ m e, x = .fin false m e → m * 2 ^ (e + 200).toNat = 2 ^ 200 → -200 ≤ e → fLg2 t md a = (0, 0))) ∧
  (∀ (md : RM) (n p : Bool) (m q : Nat) (e f : Int),
     let x := Machine.Num.fin n m e
     let y := Machine.Num.fin p q f
     let exact (r : Machine.Num × Flags) (b v : Int) : Prop := r.2 = 0 ∧ ∃ sg k g, r.1 = .fin sg k g ∧ b ≤ g ∧ alignTo sg k g b = v
     (∀ b, b ≤ e → b ≤ f →
       let sum := alignTo n m e b + alignTo p q f b
       (sum ≠ 0 → exact (x.add md y) b sum) ∧
       (sum = 0 → ∃ g, x.add md y = (.fin (if m = 0 ∧ q = 0 ∧ n = p then n else md == .rdn) 0 g, 0))) ∧
     (∀ b c, b ≤ e → c ≤ f → exact (x.mul y) (b + c) (alignTo n m e b * alignTo p q f c) ∧ (x.mul y).1.sign = (n != p)) ∧
     (m = 0 → q ≠ 0 → ∃ g, x.div y = (.fin (n != p) 0 g, 0)) ∧
     (m ≠ 0 → q ≠ 0 → ∃ k g, x.div y = (.fin (n != p) k g, 0) ∧ 2 ^ 62 ≤ k ∧ ∀ b, b ≤ e → b ≤ f + g →
       let num := m * 2 ^ (e - b).toNat
       let unit := q * 2 ^ (f + g - b).toNat
       k * unit = num ∨ (k % 2 = 1 ∧ (k - 1) * unit < num ∧ num < (k + 1) * unit)) ∧
     (m ≠ 0 → ∃ k g, (Machine.Num.fin false m e).sqrt = (.fin false k g, 0) ∧ 2 ^ 62 ≤ k ∧ ∀ b, b ≤ e → b ≤ 2 * g →
       let num := m * 2 ^ (e - b).toNat
       let unit := 2 ^ (2 * g - b).toNat
       k * k * unit = num ∨ (k % 2 = 1 ∧ (k - 1) * (k - 1) * unit < num ∧ num < (k + 1) * (k + 1) * unit)) ∧
     (m ≠ 0 → ∃ k g, (Machine.Num.fin false m e).rsqrt = (.fin false k g, 0) ∧ 2 ^ 62 ≤ k ∧ ∀ b c, b ≤ e → c ≤ 2 * g → b + c ≤ 0 →
       let unit := m * 2 ^ (e - b).toNat * 2 ^ (2 * g - c).toNat
       let one := 2 ^ (-(b + c)).toNat
       k * k * unit = one ∨ (k % 2 = 1 ∧ (k - 1) * (k - 1) * unit < one ∧ one < (k + 1) * (k + 1) * unit))) ∧
  (∀ (t : FFmt) (md : RM) (sat n : Bool) (k m : Nat) (g e : Int),
     t ∈ [fmtF32, fmtF16, fmtBf16, fmtE4m3, fmtE5m2, fmtE3m2, fmtE2m3, fmtE2m1] → k % 2 = 1 → 2 ^ 62 ≤ k → e ≤ g →
     (k - 1) * 2 ^ (g - e).toNat < m → m < (k + 1) * 2 ^ (g - e).toNat → t.round md sat (.fin n m e) = t.round md sat (.fin n k g))

/-- R263, R266, R267. Rounding a nonzero finite value to a floating-point format: unless OF is raised, the result is a finite code of the
value's sign, the nearest one (of two equally near ones the even code) under RNE, the largest not above it in magnitude under RTZ, the
largest not above it under RDN, the smallest not below it under RUP; NX is raised exactly where it differs from the value and UF exactly
where it does and the value lies below 2^Emin, and no other flag. OF is raised exactly where the rounded value lies beyond the largest finite one
T: from the next multiple T + U of the last step U on, beyond T in a mode that rounds away from zero there, and under RNE beyond the middle
between T and T + U, in the middle where T is odd. Then NX is raised too and the table of R267 gives the rest: with `.sat`, and in e3m2,
e2m3 and e2m1, the largest finite value of the sign and SAT; else, in a mode that rounds toward it, Inf, or in e4m3 the canonical NaN and
NV; else the largest finite value. An Inf stays Inf without a flag where the format has Inf and `.sat` is not given, and else overflows
without OF and NX, with NV where the format has no Inf; a NaN is the canonical NaN, or +0 and NV in a format without NaN; a zero keeps its
sign. Values are compared as integer multiples of a common power of two, 2^b. -/
def Obligations.RoundingIsCorrect : Prop :=
  (∀ (t : FFmt) (md : RM) (sat n : Bool) (m : Nat) (e b : Int),
    t ∈ [fmtF32, fmtF16, fmtBf16, fmtE4m3, fmtE5m2, fmtE3m2, fmtE2m3, fmtE2m1] → m ≠ 0 → b ≤ e → b ≤ t.emin - (t.mb : Int) →
    let x := alignTo n m e b
    let r := t.round md sat (.fin n m e)
    let v (c : Nat) : Option Int := match t.value c with
      | .fin n m e => some (alignTo n m e b)
      | _ => none
    (r.2.getLsbD 2 = false →
      ∃ y : Int, v r.1 = some y ∧ (t.value r.1).sign = n ∧
        (∀ c z, c < 2 ^ t.w → v c = some z →
          (md = .rne → (y - x).natAbs ≤ (z - x).natAbs ∧ (z ≠ y → (z - x).natAbs = (y - x).natAbs → r.1 % 2 = 0)) ∧
          (md = .rtz → y.natAbs ≤ x.natAbs ∧ (z.natAbs ≤ x.natAbs → z.natAbs ≤ y.natAbs)) ∧
          (md = .rdn → y ≤ x ∧ (z ≤ x → z ≤ y)) ∧ (md = .rup → x ≤ y ∧ (x ≤ z → y ≤ z))) ∧
        (r.2.getLsbD 0 = true ↔ y ≠ x) ∧ (r.2.getLsbD 1 = true ↔ y ≠ x ∧ x.natAbs < 2 ^ (t.emin - b).toNat) ∧ r.2.toNat < 4) ∧
    (r.2.getLsbD 2 = true → ∀ c z, c < 2 ^ t.w → v c = some z → z.natAbs < x.natAbs) ∧
    (∀ T P : Int, v t.top = some T → v (t.top - 1) = some P →
      (r.2.getLsbD 2 = true ↔ 2 * T - P ≤ x.natAbs ∨ (T < x.natAbs ∧ ((md = .rdn ∧ n = true) ∨ (md = .rup ∧ n = false))) ∨
        (md = .rne ∧ (3 * T - P < 2 * x.natAbs ∨ (3 * T - P = 2 * x.natAbs ∧ t.top % 2 = 1))))) ∧
    (r.2.getLsbD 2 = true → Overflows t md sat n r.1 (r.2 &&& ~~~(fOF ||| fNX)) ∧ r.2 &&& (fOF ||| fNX) = fOF ||| fNX)) ∧
  (∀ (t : FFmt) (md : RM) (sat n : Bool),
    t ∈ [fmtF32, fmtF16, fmtBf16, fmtE4m3, fmtE5m2, fmtE3m2, fmtE2m3, fmtE2m1] →
    (∀ e : Int, t.value (t.round md sat (.fin n 0 e)).1 = .fin n 0 (t.emin - (t.mb : Int)) ∧ (t.round md sat (.fin n 0 e)).2 = 0) ∧
    (let r := t.round md sat (.nan n)
     (t ∉ [fmtE3m2, fmtE2m3, fmtE2m1] → t.nan = some r.1 ∧ t.value r.1 = .nan false ∧ r.2 = if n then fNV else 0) ∧
     (t ∈ [fmtE3m2, fmtE2m3, fmtE2m1] → r = (0, fNV))) ∧
    (let r := t.round md sat (.inf n)
     (t ∉ [fmtE4m3, fmtE3m2, fmtE2m3, fmtE2m1] → sat = false → t.value r.1 = .inf n ∧ r.2 = 0) ∧
     (t ∉ [fmtE4m3, fmtE3m2, fmtE2m3, fmtE2m1] → sat = true → Overflows t md sat n r.1 r.2) ∧
     (t ∈ [fmtE4m3, fmtE3m2, fmtE2m3, fmtE2m1] → ∃ fl, Overflows t md sat n r.1 fl ∧ r.2 = fl ||| fNV)))

/-- R359, R360, R363, R365, R344. `cvt` reads its source type's value and rounds it to the destination type; `pack` rounds one element into
its place in B and `unpk` gives one element of A; `mxscale` and `dqcvt` multiply by the scale's power of two before the one rounding, and
scale 0xFF gives the canonical NaN without a flag.
R361, R362, R364, R270. `dp4i` and `dp8i` add the products of packed elements, each read as signed or unsigned, to C and wrap to 32
bits; `dp4f` and `dp8f` round C plus the exact sum of the products once. `qcvt` quantises each group of 32 lanes as one block, lanes that
do not take part counting as +0: every lane that takes part gets the group's scale in bits [15:8] and its own code below.
R270 to R272. A block with an Inf or a NaN takes scale 0xFF, codes 0 and NFB alone. Any other takes X from its largest exponent less Emax,
or -127 where it is all zero, within -127 to 127; with the clip fallback, where more than f nonzero elements get a code of value zero, X comes
from the k-th smallest exponent, k being p per cent of the nonzero elements, rounded up, and at least 1. Codes and flags are those of the
pass under the X delivered: `Round` with RNE and saturation, or for MX INT8 the nearest integer within -127 to 127.
R274. The exact sum of a step's products, its special values in their order; a signalling factor raises NV (log 28, DEDUCED). An
accumulator and that sum are added exactly and rounded once to FP32.
That a register or predicate in whose lanes none takes part keeps its label is the model's choice (log 98, DESIGN CHOICE: R36, R50 and R339 leave
it open). -/
def Obligations.LaneConversionsAndBlocks : Prop :=
  (∀ (s : State) (k : LCtx) (p : Instr × (Nat → Nat × Flags)),
     let ty := k.f.ty.toNat
     let t := nty ty
     let w := tyBits ty
     let md : RM := if k.f.md = 0 then .rne else if k.f.md = 1 then .rtz else if k.f.md = 2 then .rdn else .rup
     let out (v : Nat) : Nat := if ty = 12 then ((BitVec.ofNat 8 v).signExtend 32).toNat
       else if ty = 14 then ((BitVec.ofNat 16 v).signExtend 32).toNat else v % 2 ^ w
     let j := k.f.imm.toNat % 8
     let packed (l : Nat) : Nat × Flags := t.round md (k.f.imm.getLsbD 3) ((if tyIsInt ty then NTy.int 32 (ty % 2 == 0) else .flt fmtF32).value (k.a l))
     let elem (l : Nat) : Nat := k.a l / 2 ^ (w * j) % 2 ^ w
     let scaled (c : Nat) (x : Machine.Num) : Machine.Num := match x with
       | .fin n m e => .fin n m (e + (c : Int) - 127)
       | y => y
     let raised (fl : Flags) (f : Nat → Flags) : Prop := ∀ i, fl.getLsbD i = true ↔ ∃ l ∈ k.part, (f l).getLsbD i = true
     LaneRuns s k →
     p ∈ [(Instr.cvt k.f, fun l =>
           (out (t.round md (k.f.imm.getLsbD 4) ((nty (k.f.imm.toNat % 16)).value (k.a l))).1,
             (t.round md (k.f.imm.getLsbD 4) ((nty (k.f.imm.toNat % 16)).value (k.a l))).2)),
         (.pack k.f, fun l => (k.b l / 2 ^ (w * (j + 1)) * 2 ^ (w * (j + 1)) + (packed l).1 * 2 ^ (w * j) + k.b l % 2 ^ (w * j), (packed l).2)),
         (.unpk k.f, fun l => if tyIsInt ty then (out (elem l), 0) else fmtF32.round .rne false ((fltOf ty).value (elem l))),
         (.mxscale k.f, fun l => if k.b l % 256 = 255 then ((fltOf ty).nan.getD 0, 0)
           else (fltOf ty).round md false (scaled (k.b l % 256) ((fltOf ty).value (k.a l)))),
         (.dqcvt k.f, fun l => if k.a l / 256 % 256 = 255 then (0x7FC00000, 0)
           else fmtF32.round md false (scaled (k.a l / 256 % 256) (mxValue ty (k.a l % 2 ^ w))))] →
     k.q.i = p.1 → ∃ fl, LaneWrites s k k.lab fl (fun l => (p.2 l).1) ∧ raised fl (fun l => (p.2 l).2)) ∧
  (∀ (s : State) (k : LCtx), LaneRuns s k →
     let ty := k.f.ty.toNat
     let md : RM := if k.f.md = 0 then .rne else if k.f.md = 1 then .rtz else if k.f.md = 2 then .rdn else .rup
     let at_ (w x i : Nat) : Nat := x / 2 ^ (w * i) % 2 ^ w
     let si (w v : Nat) : Int := if 2 ^ (w - 1) ≤ v then (v : Int) - 2 ^ w else v
     let dot (n w l : Nat) : Int := ((List.range n).map fun i =>
       (if k.f.md.getLsbD 0 then (at_ w (k.a l) i : Int) else si w (at_ w (k.a l) i)) *
         (if k.f.md.getLsbD 1 then (at_ w (k.b l) i : Int) else si w (at_ w (k.b l) i))).sum
     let sum (n w l : Nat) : Machine.Num × Flags := stepSum ((List.range n).map fun i =>
       ((fltOf ty).value (at_ w (k.a l) i), (fltOf ty).value (at_ w (k.b l) i)))
     let raised (fl : Flags) (f : Nat → Flags) : Prop := ∀ i, fl.getLsbD i = true ↔ ∃ l ∈ k.part, (f l).getLsbD i = true
     let clip : Option (Nat × Nat) := if k.f.imm.getLsbD 13 then some (k.f.imm.toNat % 128, k.f.imm.toNat / 128 % 64) else none
     let block (g : Nat) : List Machine.Num := (List.range 32).map fun j =>
       if 32 * g + j ∈ k.part then fmtF32.value (k.a (32 * g + j)) else .fin false 0 0
     (∀ q ∈ [(Instr.dp4i k.f, 4, 8), (.dp8i k.f, 8, 4)], k.q.i = q.1 →
       LaneWrites s k k.lab 0 fun l => (((BitVec.ofNat 32 (k.c l)).toInt + dot q.2.1 q.2.2 l) % 2 ^ 32).toNat) ∧
     (∀ q ∈ [(Instr.dp4f k.f, 4, 8), (.dp8f k.f, 8, 4)], k.q.i = q.1 → ∃ fl,
       LaneWrites s k k.lab fl (fun l => (accF32 md (k.c l) (sum q.2.1 q.2.2 l)).1) ∧
       raised fl fun l => (accF32 md (k.c l) (sum q.2.1 q.2.2 l)).2) ∧
     (k.q.i = .qcvt k.f → ∃ fl val, LaneWrites s k k.lab fl val ∧ (raised fl fun l => (quantBlock ty clip (block (l / 32))).2.2) ∧
       ∀ l ∈ k.part, val l = (quantBlock ty clip (block (l / 32))).1 * 256 + ((quantBlock ty clip (block (l / 32))).2.1[l % 32]?).getD 0)) ∧
  (∀ (code : Nat) (clip : Option (Nat × Nat)) (xs : List Machine.Num), code ∈ [7, 8, 9, 10, 11, 12] → xs.length = 32 →
     let emax : Int := if code = 7 then 8 else if code = 8 then 15 else if code = 9 then 4 else if code = 12 then 0 else 2
     let expo (x : Machine.Num) : Option Int := match x with
       | .fin _ m e => if m = 0 then none else some (log2E m e)
       | _ => none
     let live := (xs.filterMap expo).length
     let below (v : Int) : Nat := ((xs.filterMap expo).filter fun e => decide (e < v)).length
     let upTo (v : Int) : Nat := ((xs.filterMap expo).filter fun e => decide (e ≤ v)).length
     let scale (v : Int) : Int := max (-127) (min 127 (v - emax))
     let elem (X : Int) (x : Machine.Num) : Nat × Flags := match x with
       | .fin n m e => if code = 12 then quantS8 (.fin n m (e - X + 6)) else (fltOf code).round .rne true (.fin n m (e - X))
       | _ => (0, 0)
     let pass (X : Int) : Nat × List Nat × Flags := ((X + 127).toNat, xs.map fun x => (elem X x).1, joinFlags (xs.map fun x => (elem X x).2))
     let lost (X : Int) : Nat := (xs.filter fun x => !x.isZero && (mxValue code (elem X x).1).isZero).length
     ((∃ x ∈ xs, x.isNan ∨ x.isInf) → quantBlock code clip xs = (255, List.replicate 32 0, fNFB)) ∧
     ((∀ x ∈ xs, x.isNan = false ∧ x.isInf = false) →
       (live = 0 → quantBlock code clip xs = pass (-127)) ∧
       (∀ top, some top ∈ xs.map expo → upTo top = live →
         (clip = none → quantBlock code clip xs = pass (scale top)) ∧
         (∀ p f, clip = some (p, f) → p ≤ 100 → (lost (scale top) ≤ f → quantBlock code clip xs = pass (scale top)) ∧
           (f < lost (scale top) → ∀ v, some v ∈ xs.map expo → below v < max 1 ((p * live + 99) / 100) →
             max 1 ((p * live + 99) / 100) ≤ upTo v → quantBlock code clip xs = pass (scale v)))))) ∧
  (∀ (n : Bool) (m : Nat) (e b : Int), b ≤ e → b ≤ 0 →
     let one : Int := 2 ^ (-b).toNat
     let y := alignTo n m e b
     ∃ r : Int, (∀ z : Int, (r * one - y).natAbs ≤ (z * one - y).natAbs ∧ (z ≠ r → (z * one - y).natAbs = (r * one - y).natAbs → r % 2 = 0)) ∧
       (quantS8 (.fin n m e)).1 = ((max (-127) (min 127 r)) % 256).toNat ∧
       (quantS8 (.fin n m e)).2 = (if r * one = y then 0 else fNX) ||| (if r < -127 ∨ 127 < r then fSAT else 0)) ∧
  (∀ (ps : List (Machine.Num × Machine.Num)) (b : Int), ps ≠ [] → b ≤ 0 →
     (∀ n m e p q f, (Machine.Num.fin n m e, Machine.Num.fin p q f) ∈ ps → b ≤ e + f) →
     let nan (p : Machine.Num × Machine.Num) : Prop := p.1.isNan ∨ p.2.isNan
     let clash (p : Machine.Num × Machine.Num) : Prop := (p.1.isZero ∧ p.2.isInf) ∨ (p.1.isInf ∧ p.2.isZero)
     let inf (n : Bool) (p : Machine.Num × Machine.Num) : Prop := (p.1.isInf ∨ p.2.isInf) ∧ (p.1.sign != p.2.sign) = n
     let sum : Int := (ps.map fun p => match p with
       | (.fin n m e, .fin p q f) => alignTo (n != p) (m * q) (e + f) b
       | _ => 0).sum
     let noNan : Prop := ∀ p ∈ ps, ¬ nan p
     let noClash : Prop := ∀ p ∈ ps, ¬ clash p
     ((∃ p ∈ ps, nan p) → (stepSum ps).1.isNan = true ∧ (stepSum ps).2 = (if ∃ p ∈ ps, p.1.isSig ∨ p.2.isSig then fNV else 0)) ∧
     (noNan → (∃ p ∈ ps, clash p) → (stepSum ps).1.isNan = true ∧ (stepSum ps).2 = fNV) ∧
     (noNan → noClash → (∃ p ∈ ps, inf false p) → (∃ p ∈ ps, inf true p) → (stepSum ps).1.isNan = true ∧ (stepSum ps).2 = fNV) ∧
     (∀ n, noNan → noClash → (∃ p ∈ ps, inf n p) → (∀ p ∈ ps, ¬ inf (!n) p) → stepSum ps = (.inf n, 0)) ∧
     (noNan → (∀ n, ∀ p ∈ ps, ¬ inf n p) →
       (sum ≠ 0 → (stepSum ps).2 = 0 ∧ ∃ sg k g, (stepSum ps).1 = .fin sg k g ∧ b ≤ g ∧ alignTo sg k g b = sum) ∧
       (sum = 0 → ∃ sg g, stepSum ps = (.fin sg 0 g, 0) ∧
         (sg = true ↔ ∀ p ∈ ps, (p.1.isZero ∨ p.2.isZero) ∧ (p.1.sign != p.2.sign) = true)))) ∧
  (∀ (md : RM) (c : Nat) (x : Machine.Num) (fl : Flags),
     let a := fmtF32.value c
     let nv : Flags := fl ||| (if a.isSig then fNV else 0)
     (a.isNan ∨ x.isNan → accF32 md c (x, fl) = (0x7FC00000, nv)) ∧
     (∀ n p, a = .inf n → x = .inf p → accF32 md c (x, fl) = if n = p then ((if n then 0xFF800000 else 0x7F800000), nv) else (0x7FC00000, nv ||| fNV)) ∧
     (∀ n, (a = .inf n ∧ x.isNan = false ∧ x.isInf = false) ∨ (x = .inf n ∧ a.isNan = false ∧ a.isInf = false) →
       accF32 md c (x, fl) = ((if n then 0xFF800000 else 0x7F800000), nv)) ∧
     (∀ n m e p q f, a = .fin n m e → x = .fin p q f →
       let b := min e f
       let sum := alignTo n m e b + alignTo p q f b
       let r := if sum = 0 then fmtF32.round md false (.fin (if m = 0 ∧ q = 0 ∧ n = p then n else md == .rdn) 0 0)
         else fmtF32.round md false (.fin (decide (sum < 0)) sum.natAbs b)
       accF32 md c (x, fl) = (r.1, fl ||| r.2)))

/-! ### Lanes across the warp and on-chip memory -/

/-- R366 to R369, R345. Cross-lane operations see exactly the lanes of the entry: `shfl` and `shflx` give A of the source lane, or the
lane's own A where that lane is absent; `vred` and `vscan` combine A over the participating lanes in ascending order (for f32 rounding
after each addition, a NaN being canonical and a signalling one raising NV also where it comes first); `vvote` tests A ≠ 0 in them; `vfirst` gives A of the lowest.
That a register or predicate in whose lanes none takes part keeps its label is the model's choice (log 98, DESIGN CHOICE: R36, R50 and R339 leave
it open). -/
def Obligations.CrossLaneResults : Prop :=
  ∀ (s : State) (k : LCtx), LaneRuns s k →
    let w := tyBits k.f.ty.toNat
    let pull (l : Nat) (src : Int) : Nat := if 0 ≤ src ∧ src.toNat ∈ k.act then k.a src.toNat else k.a l
    let rd (v : Nat) : Int := if k.f.ty = 0 then (BitVec.ofNat 32 v).toInt else if k.f.ty = 2 then (BitVec.ofNat 64 v).toInt else v
    let op (x y : Nat) : Nat × Flags :=
      if k.f.ty = 4 then (if k.f.md = 0 then fAdd fmtF32 .rne x y else fPick fmtF32 (k.f.md == 2) x y)
      else (if k.f.md = 0 then (x + y) % 2 ^ w else if k.f.md = 1 then (if rd y < rd x then y else x)
        else if k.f.md = 2 then (if rd x < rd y then y else x) else if k.f.md = 3 then x &&& y else if k.f.md = 4 then x ||| y else x ^^^ y, 0)
    let comb (ls : List Nat) : Nat := match ls.map k.a with
      | [] => 0
      | v :: vs => vs.foldl (fun x y => (op x y).1) (if k.f.ty = 4 ∧ (fmtF32.value v).isNan = true then 0x7FC00000 else v)
    let raised (fl : Flags) : Prop := ∀ i, fl.getLsbD i = true ↔
      ∃ l ∈ k.part, (k.part.filter (· < l) ≠ [] ∧ (op (comb (k.part.filter (· < l))) (k.a l)).2.getLsbD i = true) ∨
        (k.part.filter (· < l) = [] ∧ k.f.ty = 4 ∧ (fmtF32.value (k.a l)).isSig = true ∧ fNV.getLsbD i = true)
    (k.q.i = .shfl k.f → LaneWrites s k k.lab 0 fun l => pull l (k.b l)) ∧
    (k.q.i = .shflx k.f → LaneWrites s k k.lab 0 fun l =>
      pull l (if k.f.md = 0 then ((l ^^^ k.b l : Nat) : Int) else if k.f.md = 1 then (l : Int) - (k.b l : Int) else (l : Int) + (k.b l : Int))) ∧
    (k.q.i = .vred k.f → ∃ fl val, LaneWrites s k k.lab fl val ∧ raised fl ∧ ∀ l ∈ k.part, val l = comb k.part) ∧
    (k.q.i = .vscan k.f → ∃ fl val, LaneWrites s k k.lab fl val ∧ raised fl ∧ ∀ l ∈ k.part, val l = comb (k.part.filter (· ≤ l))) ∧
    (k.q.i = .vvote k.f → k.f.md = 0 → LanePredicates s k 0 fun _ => k.part.any fun l => k.a l != 0) ∧
    (k.q.i = .vvote k.f → k.f.md = 1 → LanePredicates s k 0 fun _ => k.part.all fun l => k.a l != 0) ∧
    (k.q.i = .vvote k.f → k.f.md = 2 → ∃ m : Nat, LaneWrites s k k.lab 0 (fun _ => m) ∧ m < 2 ^ 64 ∧
      ∀ j, m.testBit j = true ↔ j ∈ k.part ∧ k.a j ≠ 0) ∧
    (k.q.i = .vfirst k.f → ∃ val, LaneWrites s k k.lab 0 val ∧ ∀ l ∈ k.part, ∃ f ∈ k.part, (∀ j ∈ k.part, f ≤ j) ∧ val l = k.a f)

/-- R370, R52, R54, R63, R343. Lane loads: where every participating lane's offset is aligned and its bytes lie in the allocation and are
sound, vD takes the 1, 2, 4 or 8 bytes there, extended by the type (in a spill stack word w of lane L is word w × W + L), with the largest
of the register labels and the labels of the lines read. Otherwise ALIGN, and else BOUNDS, names the lanes that fault and holds the offset
of the lowest; nothing else changes.
R370, R60, R63, R339. Lane stores: under the same conditions each participating lane's low bytes of B stand at its place, the highest
lane winning where lanes meet; every other byte of every on-chip memory and every byte of main memory is as before, no register changes,
and the lines stored to hold at least the label of the data and address. A misaligned or out-of-range offset traps and stores nothing.
That a register or predicate in whose lanes none takes part keeps its label is the model's choice (log 98, DESIGN CHOICE: R36, R50 and R339 leave
it open). -/
def Obligations.LaneLoadsAndStores : Prop :=
  (∀ (s : State) (k : LCtx) (p : Instr × Space), LaneRuns s k →
     p ∈ [(Instr.ldt k.f, Space.team k.q.x.team), (.ldc k.f, .scr k.q.t.grid (dieOf k.q.x.core)), (.lds k.f, .spill k.q.w)] →
     k.q.i = p.1 →
     let ty := k.f.ty.toNat
     let n : Nat := tyBits ty / 8
     let off (l : Nat) : Nat := (k.a l + k.f.imm.toNat) % 2 ^ 32
     let place (l j : Nat) : Nat := if p.2 = .spill k.q.w then 4 * ((off l + j) / 4 * k.q.x.width + l) + (off l + j) % 4 else off l + j
     let raw (l : Nat) : Nat := ofBytes ((List.range n).map fun j => s.chipByte p.2 (place l j))
     let line (l j : Nat) : Label := tGet (s.sram p.2).labs (s.spaceLab p.2) (place l j / p.2.gran)
     let al := k.part.filter fun l => decide (off l % n ≠ 0)
     let bd := k.part.filter fun l => decide (s.spaceSize p.2 < off l + n)
     let traps (code : W64) (ls : List Nat) : Prop := TrapReady s k.q.w k.q.x k.q.g →
       Completes k.q.i s [(k.q.w, k.q.x.inHandler k.q.g code (BitVec.ofNat 64 (off (ls.headD 0))) k.en.pc (maskOf ls) (.laneFault k.e))] []
     (al = [] → bd = [] → (∀ l ∈ k.part, ∀ j, j < n → Sound s p.2 (place l j) 1) →
       ∃ lab, LaneWrites s k lab 0 (fun l => if ty = 12 then ((BitVec.ofNat 8 (raw l)).signExtend 32).toNat
           else if ty = 14 then ((BitVec.ofNat 16 (raw l)).signExtend 32).toNat else raw l) ∧
         k.lab.toNat ≤ lab.toNat ∧ (∀ l ∈ k.part, ∀ j, j < n → (line l j).toNat ≤ lab.toNat) ∧
         (lab = k.lab ∨ ∃ l ∈ k.part, ∃ j, j < n ∧ lab = line l j)) ∧
     (al ≠ [] → traps 0x106 al) ∧ (al = [] → bd ≠ [] → traps 0x107 bd)) ∧
  (∀ (s : State) (k : LCtx) (p : Instr × Space), LaneRuns s k →
     p ∈ [(Instr.stt k.f, Space.team k.q.x.team), (.stc k.f, .scr k.q.t.grid (dieOf k.q.x.core)), (.sts k.f, .spill k.q.w)] →
     k.q.i = p.1 →
     let n : Nat := tyBits k.f.ty.toNat / 8
     let off (l : Nat) : Nat := (k.a l + k.f.imm.toNat) % 2 ^ 32
     let place (l j : Nat) : Nat := if p.2 = .spill k.q.w then 4 * ((off l + j) / 4 * k.q.x.width + l) + (off l + j) % 4 else off l + j
     let al := k.part.filter fun l => decide (off l % n ≠ 0)
     let bd := k.part.filter fun l => decide (s.spaceSize p.2 < off l + n)
     let traps (code : W64) (ls : List Nat) : Prop := TrapReady s k.q.w k.q.x k.q.g →
       Completes k.q.i s [(k.q.w, k.q.x.inHandler k.q.g code (BitVec.ofNat 64 (off (ls.headD 0))) k.en.pc (maskOf ls) (.laneFault k.e))] []
     (al = [] → bd = [] → (∀ l ∈ k.part, ∀ j, j < n → Sound s p.2 (place l j) 1) →
       ∃ (u : State) (y : Warp), exec k.q.i s = .next u ∧ u.warp k.q.w = some y ∧
         y = { k.q.x with entries := y.entries, spill := y.spill } ∧ k.stepped y ∧ (∀ v, v ≠ k.q.w → u.warp v = s.warp v) ∧ SameMain s u ∧
         (∀ l ∈ k.part, ∀ j, j < n → (∀ h ∈ k.part, ∀ i, i < n → place h i = place l j → h ≤ l) →
           u.chipByte p.2 (place l j) = BitVec.ofNat 8 (k.b l / 2 ^ (8 * j))) ∧
         (∀ sp o, (sp ≠ p.2 ∨ ∀ l ∈ k.part, ∀ j, j < n → place l j ≠ o) → u.chipByte sp o = s.chipByte sp o) ∧
         ∀ l ∈ k.part, ∀ j, j < n →
           (Label.joinAll [k.kindLab k.p.a k.f.a, k.kindLab k.p.b k.f.b]).toNat ≤
             (tGet (u.sram p.2).labs (u.spaceLab p.2) (place l j / p.2.gran)).toNat) ∧
     (al ≠ [] → traps 0x106 al) ∧ (al = [] → bd ≠ [] → traps 0x107 bd))

/-- R371, R61, R344. On-chip atomics: participating lanes are applied in ascending order, each on the value that the last lane before it
at the same word left; the word holds the value of the highest, vD (but for ST) the value just before the lane's own operation, and the
rounding flags of f32 additions go to FSTAT. Every byte outside the words, main memory and every other register are as before.
R63. The 64-byte granules of the words take the labels of the sources joined to their own, except for LD, which raises none (the model's
reading: log 39, DEDUCED); every other granule keeps its label. The return
carries the labels of the sources and of the words' granules, joined.
R372, R40, R41, R343. Accumulator access in a team whose tile's token is with the warps: `accrd` gives element (e / 64, e mod 64),
with the tile's label joined in; `accwr` stores the low 32 bits of B there, the highest lane winning, raises the tile's label, and changes
no other element and no register. A token elsewhere raises TOKEN in every lane of the entry; an index of 4,096 or above BOUNDS in its
lanes.
That a register or predicate in whose lanes none takes part keeps its label is the model's choice (log 98, DESIGN CHOICE: R36, R50 and R339 leave
it open). -/
def Obligations.LaneAtomicsAndTiles : Prop :=
  (∀ (s : State) (k : LCtx) (p : Instr × Space), LaneRuns s k →
     p ∈ [(Instr.att k.f, Space.team k.q.x.team), (.atc k.f, .scr k.q.t.grid (dieOf k.q.x.core))] → k.q.i = p.1 →
     let ty := k.f.ty.toNat
     let n : Nat := if ty = 2 ∨ ty = 3 then 8 else 4
     let off (l : Nat) : Nat := (k.a l + ((k.f.imm.extractLsb' 0 24).signExtend 32).toNat) % 2 ^ 32
     let word (u : State) (l : Nat) : Nat := ofBytes ((List.range n).map fun j => u.chipByte p.2 (off l + j))
     let rd (v : Nat) : Int := if ty = 0 then (BitVec.ofNat 32 v).toInt else if ty = 2 then (BitVec.ofNat 64 v).toInt else v
     let op (l old : Nat) : Nat × Flags :=
       if k.f.md = 0 then (old, 0) else if k.f.md = 1 ∨ k.f.md = 2 then (k.b l, 0)
       else if k.f.md = 3 then (if old = k.c l then k.b l else old, 0)
       else if k.f.md = 4 then (if ty = 4 then fAdd fmtF32 .rne old (k.b l) else ((old + k.b l) % 2 ^ (8 * n), 0))
       else if k.f.md = 5 then (old ||| k.b l, 0)
       else if k.f.md = 6 then (if rd (k.b l) < rd old then k.b l else old, 0)
       else (if rd old < rd (k.b l) then k.b l else old, 0)
     (∀ l ∈ k.part, off l % n = 0 ∧ off l + n ≤ s.spaceSize p.2 ∧ Sound s p.2 (off l) n) →
     ∃ (u : State) (y : Warp) (fl : Flags) (old : Nat → Nat), exec k.q.i s = .next u ∧ u.warp k.q.w = some y ∧
       (∀ v, v ≠ k.q.w → u.warp v = s.warp v) ∧ SameMain s u ∧
       (∀ l ∈ k.part, ((∀ h ∈ k.part, h < l → off h ≠ off l) → old l = word s l) ∧
         ∀ h ∈ k.part, h < l → off h = off l → (∀ i ∈ k.part, h < i → i < l → off i ≠ off l) → old l = (op h (old h)).1) ∧
       (∀ l ∈ k.part, (∀ h ∈ k.part, l < h → off h ≠ off l) → word u l = (op l (old l)).1) ∧
       (∀ sp o, (sp ≠ p.2 ∨ ∀ l ∈ k.part, o < off l ∨ off l + n ≤ o) → u.chipByte sp o = s.chipByte sp o) ∧
       (∀ sp o, u.chipLab sp o 1 = if sp = p.2 ∧ k.f.md ≠ 0 ∧ ∃ l ∈ k.part, off l / 64 = o / 64
         then Label.join (s.chipLab sp o 1) (Label.joinAll [k.kindLab k.p.a k.f.a, if k.f.i then 0 else k.kindLab k.p.b k.f.b,
           k.kindLab k.p.c k.f.c]) else s.chipLab sp o 1) ∧
       (∀ i, fl.getLsbD i = true ↔ ∃ l ∈ k.part, (op l (old l)).2.getLsbD i = true) ∧
       if k.f.md = 1 then y = { k.q.x with entries := y.entries, fstat := k.q.x.fstat ||| fl } ∧ k.stepped y
       else let lab := Label.join k.lab (Label.joinAll (k.part.map fun l => s.chipLab p.2 (off l) n))
         y = { k.q.x with v := y.v, vLab := y.vLab, entries := y.entries, fstat := k.q.x.fstat ||| fl } ∧
         k.written y lab old ∧ k.shifted y lab old) ∧
  (∀ (s : State) (k : LCtx), LaneRuns s k → k.q.t.seqr ≠ none →
     let t := k.f.md.toNat
     let e (l : Nat) : Nat := (k.a l + k.f.imm.toNat) % 2 ^ 32
     let bd := k.part.filter fun l => decide (4096 ≤ e l)
     let traps (code val : W64) (ls : List Nat) : Prop := TrapReady s k.q.w k.q.x k.q.g →
       Completes k.q.i s [(k.q.w, k.q.x.inHandler k.q.g code val k.en.pc (maskOf ls) (.laneFault k.e))] []
     (k.q.i = .accrd k.f → k.q.t.tok t = .warps → bd = [] →
       LaneWrites s k (Label.join k.lab (k.q.t.labT t)) 0 fun l => (k.q.t.elem t (e l / 64) (e l % 64)).toNat) ∧
     (k.q.i = .accwr k.f → k.q.t.tok t = .warps → bd = [] →
       ∃ (y : Warp) (z : Team), Completes k.q.i s [(k.q.w, y)] [(k.q.x.team, z)] ∧
         y = { k.q.x with entries := y.entries } ∧ k.stepped y ∧ z = { k.q.t with tiles := z.tiles, tileLab := z.tileLab } ∧
         (∀ l ∈ k.part, (∀ h ∈ k.part, e h = e l → h ≤ l) → z.elem t (e l / 64) (e l % 64) = BitVec.ofNat 32 (k.b l)) ∧
         (∀ q r c, r < 64 → c < 64 → (q ≠ t ∨ ∀ l ∈ k.part, e l ≠ 64 * r + c) → z.elem q r c = k.q.t.elem q r c) ∧
         ∀ q, z.labT q = if q = t ∧ k.part ≠ [] then
           Label.join (k.q.t.labT q) (Label.joinAll [k.kindLab k.p.a k.f.a, k.kindLab k.p.b k.f.b]) else k.q.t.labT q) ∧
     (k.q.i = .accrd k.f ∨ k.q.i = .accwr k.f →
       (k.q.t.tok t ≠ .warps → traps 0x105 (BitVec.ofNat 64 t) k.act) ∧
       (k.q.t.tok t = .warps → bd ≠ [] → traps 0x107 (BitVec.ofNat 64 (e (bd.headD 0))) bd)))

/-! ### Engine commands of lanes, control, refilling -/

/-- R373 to R375, R343. `gath`, `scat` and `scat.add` issue one operation on `.gs` for the lanes that take part where the team-memory rows
are aligned, inside and (for the scatters) sound, and the main-memory rows pass their checks. `gath` reads each distinct row once (equal
addresses share a place of the engine's buffer, different ones do not) and writes it to the place of every lane that names it, and moves no
other byte. `scat` holds the bytes read at issue, each that of the highest lane whose row covers it, and writes no byte beyond the rows.
`scat.add` makes one addition per element in lane order. With no participating lane the entry only goes on. A misaligned team-memory row
raises ALIGN in its lanes, one that leaves team memory BOUNDS, and main-memory rows all misaligned ALIGN with the lowest lane's address.
R373, R376, R31. `matom` issues one operation on `.at` with one read-modify-write per participating lane, in ascending order. Without
RET the entry goes on; with RET the latches shift, b0 awaits the value and vD (both registers of a pair), unless WBS suppresses it, is
pending. That it is pending in every lane of the warp, as one bit for the register, is the model's reading (log 41, DEDUCED). With RET and
no participating lane the shift takes place with 0.
That in no lane `gath` leaves the labels of its lines and `matom` with RET that of vD as they are is the model's choice (log 98, DESIGN
CHOICE); that the predicate's label is no part of the label of data sent to main memory is its reading (log 72, DEDUCED). -/
def Obligations.LaneEngineCommandsIssue : Prop :=
  (∀ (s s1 : State) (k : LCtx) (tr : Table Trans) (lb : Label), LaneRuns s k →
     let n : Nat := 4 * 2 ^ k.f.md.toNat
     let t (l : Nat) : Nat := (k.a 0 + k.f.imm.toNat) % 2 ^ 32 + n * l
     let off (signed : Bool) (l : Nat) : W64 := if signed then (BitVec.ofNat 32 (k.c l)).signExtend 64 else (BitVec.ofNat 32 (k.c l)).setWidth 64
     let va (signed : Bool) (l : Nat) : Nat := (BitVec.ofNat 64 (k.b 0) + off signed l).toNat
     let tm : Space := .team k.q.x.team
     let e := tyBits k.f.ty.toNat / 8
     let al := k.part.filter fun l => decide (t l % 4 ≠ 0)
     let bd := k.part.filter fun l => decide (s.spaceSize tm < t l + n)
     let rows : Prop := k.part ≠ [] ∧ (∀ l ∈ k.part, t l % 4 = 0 ∧ t l + n ≤ s.spaceSize tm) ∧ k.q.x.count 1 < 255
     let sound : Prop := ∀ l ∈ k.part, Sound s tm (t l) n
     let srcs : Label := Label.joinAll [k.kindLab k.p.a k.f.a, if k.f.i then 0 else k.kindLab k.p.b k.f.b, k.kindLab k.p.c k.f.c]
     let held : Label := Label.joinAll (k.part.map fun l => Label.join srcs (s.chipLab tm (t l) n))
     let host (l : Nat) (u : State) (q : Table Trans) : Option Nat := u.deniedAt k.q.c.fn q .add (va true l)
     let issues (lab : Label) (kind : OpKind → Prop) : Prop := ∃ (u : State) (o : Op) (x : Warp), exec k.q.i s = .next u ∧
       LaneIssued s u k x 1 o ∧ x = { k.q.x with entries := x.entries } ∧ k.stepped x ∧ o.trans = tr ∧ o.ret = .none ∧ o.lab = lab ∧ kind o.kind
     let any : Prop := k.q.i = .gath k.f ∨ k.q.i = .scat k.f ∨ k.q.i = .scatAdd k.f
     let traps (code : W64) (val : Nat) (ls : List Nat) : Prop := TrapReady s k.q.w k.q.x k.q.g →
       Completes k.q.i s [(k.q.w, k.q.x.inHandler k.q.g code (BitVec.ofNat 64 val) k.en.pc (maskOf ls) (.laneFault k.e))] []
     (k.q.i = .gath k.f → rows →
       k.mainCheck s .r n (min n 8) (va (k.f.ty == 0)) (fun _ => none) (fun _ _ _ => none) = (s1, [], tr, lb) →
       issues srcs fun o => ∃ (ps : List Piece) (b : Nat → Nat), o = .move ps none ∧
         (∀ l ∈ k.part, ∀ h ∈ k.part, if va (k.f.ty == 0) l = va (k.f.ty == 0) h then b l = b h else b l + n ≤ b h ∨ b h + n ≤ b l) ∧
         (∀ l ∈ k.part, MovesRow ps 1 (va (k.f.ty == 0) l) (b l) 0 (t l) n) ∧
         (∀ p ∈ ps, ∃ l ∈ k.part, p.ofRow 1 (va (k.f.ty == 0) l) (b l) 0 (t l) n) ∧
         ∀ (i j : Nat) (p q : Piece), ps[i]? = some p → ps[j]? = some q → p.src = q.src → p.dst = q.dst → i = j) ∧
     (k.q.i = .scat k.f → rows → sound →
       k.mainCheck s .w n (min n 8) (va (k.f.ty == 0)) (fun l => some (k.rowLab s l)) (fun _ _ _ => none) = (s1, [], tr, lb) →
       issues held fun o => ∃ ps, o = .move ps none ∧
         (∀ l ∈ k.part, ∀ j, j < n → ∃ p ∈ ps, ∃ bs d, p.src = .held bs ∧ p.dst = .main d ∧
           d ≤ va (k.f.ty == 0) l + j ∧ va (k.f.ty == 0) l + j < d + p.len) ∧
         ∀ p ∈ ps, ∃ bs d, p.src = .held bs ∧ p.dst = .main d ∧ p.len = min n 8 ∧ bs.length = p.len ∧
           ∀ i, i < p.len → ∃ l ∈ k.part, ∃ j, j < n ∧ va (k.f.ty == 0) l + j = d + i ∧ bs[i]? = some (s.chipByte tm (t l + j)) ∧
             ∀ h ∈ k.part, ∀ m, m < n → va (k.f.ty == 0) h + m = d + i → h ≤ l) ∧
     (k.q.i = .scatAdd k.f → rows → sound →
       k.mainCheck s .a n e (va true) (fun l => some (k.rowLab s l)) host = (s1, [], tr, lb) →
       issues held fun o => o = .rmws (k.part.flatMap fun l => (List.range (n / e)).map fun j =>
         { va := va true l + e * j, len := e, aop := if k.f.ty = 4 then .fadd else .add, cmp := 0,
           opnd := BitVec.ofNat 64 (ofBytes ((List.range e).map fun i => s.chipByte tm (t l + e * j + i))), lane := l })) ∧
     (any → k.part = [] →
       ∃ y : Warp, Completes k.q.i s [(k.q.w, y)] [] ∧ y = { k.q.x with entries := y.entries } ∧ k.stepped y) ∧
     (any → al ≠ [] → traps 0x106 (t (al.headD 0)) al) ∧
     (any → al = [] → bd ≠ [] → traps 0x107 (t (bd.headD 0)) bd) ∧
     (any → k.part ≠ [] → al = [] → bd = [] →
       (∀ l ∈ k.part, va (k.f.ty == 0 || k.q.i == .scatAdd k.f) l % (if k.q.i = .scatAdd k.f then e else min n 8) ≠ 0) →
       traps 0x106 (va (k.f.ty == 0 || k.q.i == .scatAdd k.f) (k.part.headD 0)) k.part)) ∧
  (∀ (s s1 : State) (k : LCtx) (tr : Table Trans) (lb : Label) (op : Aop), LaneRuns s k → k.q.i = .matom k.f →
     let ret := k.f.imm.getLsbD 27
     let n : Nat := if k.f.ty = 2 ∨ k.f.ty = 3 then 8 else 4
     let d := k.f.dst.toNat
     let signed := k.f.ty = 0 ∨ k.f.ty = 2
     (k.f.md, op) ∈ [((0 : BitVec 3), Aop.ld), (1, .st), (2, .swap), (3, .cas), (4, if k.f.ty = 4 then .fadd else .add), (5, .or),
       (6, if signed then .min else .minn), (7, if signed then .max else .maxn)] →
     (k.part ≠ [] → k.q.x.count 2 < 255 →
       k.mainCheck s (if op = .ld then .r else if op = .st then .w else .a) n n k.a
         (fun _ => if op = .ld then none else some (Label.joinAll [k.kindLab k.p.a k.f.a, if k.f.i then 0 else k.kindLab k.p.b k.f.b,
           k.kindLab k.p.c k.f.c]))
         (fun j u q => (u.inDest k.q.g.ctx (k.a j) n).or (u.deniedAt k.q.c.fn q op (k.a j))) = (s1, [], tr, lb) →
       ∃ (u : State) (o : Op) (x : Warp), exec k.q.i s = .next u ∧ LaneIssued s u k x 2 o ∧ o.trans = tr ∧ o.lab = Label.join k.lab lb ∧
         o.kind = .rmws (k.part.map fun l =>
           { va := k.a l, len := n, aop := op, cmp := BitVec.ofNat 64 (k.c l), opnd := BitVec.ofNat 64 (k.b l), lane := l }) ∧
         (ret = false → x = { k.q.x with entries := x.entries } ∧ k.stepped x ∧ o.ret = .none) ∧
         (ret = true → x = { k.q.x with entries := x.entries, vPend := x.vPend } ∧
           o.ret = (if k.f.wbs then .latch else .v d (decide (n = 8)) k.part) ∧
           (∃ z : Entry, (∀ e, tFind x.entries e = if e = k.e then some z else tFind k.q.x.entries e) ∧
             z = { k.en with pc := k.en.pc + 1, b0 := { vals := [], lab := Label.join k.lab lb, valid := true, await := some s.nextId },
                             b1 := k.en.b0, b2 := k.en.b1, b3 := k.en.b2 }) ∧
           ∀ r l, l < 64 → k.q.x.width ≤ 64 → (memb x.vPend (64 * r + l) = true ↔ memb k.q.x.vPend (64 * r + l) = true ∨
             (k.f.wbs = false ∧ l < k.q.x.width ∧ (r = d ∨ (n = 8 ∧ r = d + 1)))))) ∧
     (k.part = [] → ret = true → LaneWrites s k k.lab 0 fun _ => 0) ∧
     (k.part = [] → ret = false → ∃ y : Warp, Completes k.q.i s [(k.q.w, y)] [] ∧ y = { k.q.x with entries := y.entries } ∧ k.stepped y))

/-- R377, R378, R166, R167. Branches: taken by every lane of the entry, it goes to its target; taken by none, to PC + 1; by some, with a
free split entry, the others keep the entry at PC + 1 and the takers get the new one at the target with the same PARENT, no latch valid in
either; with none free the entry waits in SPLITWAIT. `lcall` also writes PC + 1 to vD, and where every lane takes it b0 holds that value with
its label. `lret` sends the lanes to A, the group of the lowest
participating lane keeping the entry.
R378. With any number of groups the further ones, and the lanes that do not take part unless the first group's target is PC + 1, take new
entries in ascending order of their lowest lane; where one finds none, the entry waits in SPLITWAIT (that the groups before it have
left then is the model's reading, log 83, DEDUCED).
That a register or predicate in whose lanes none takes part keeps its label is the model's choice (log 98, DESIGN CHOICE: R36, R50 and R339 leave
it open). -/
def Obligations.LaneBranches : Prop :=
  ∀ (s : State) (k : LCtx) (i : Nat), LaneRuns s k →
    let x := k.q.x
    let rest := k.act.filter fun l => decide (l ∉ k.part)
    let target := k.en.pc + k.f.imm
    let bare (z : Entry) : Entry := { z with b0 := Latch.none, b1 := Latch.none, b2 := Latch.none, b3 := Latch.none }
    let fresh (ls : List Nat) (pc : W32) : Entry :=
      bare { mask := maskOf ls, state := .ready, parent := k.en.parent, rcvn := 0, pc := pc, b0 := .none, b1 := .none, b2 := .none, b3 := .none }
    let kept (ls : List Nat) (pc : W32) : Entry := bare { k.en with mask := maskOf ls, pc := pc, state := .ready }
    let one (z : Entry) : Prop := ∃ y : Warp, Completes k.q.i s [(k.q.w, y)] [] ∧ y = { x with entries := y.entries } ∧
      ∀ e, tFind y.entries e = if e = k.e then some z else tFind x.entries e
    let two (y : Warp) (a b : Entry) : Prop :=
      ∀ e, tFind y.entries e = if e = k.e then some a else if e = i then some b else tFind x.entries e
    let split (a b : Entry) : Prop := ∃ y : Warp, Completes k.q.i s [(k.q.w, y)] [] ∧ y = { x with entries := y.entries } ∧ two y a b
    let to_ (l : Nat) : W32 := BitVec.ofNat 32 (k.a l)
    (k.q.i = .bra k.f →
      (k.part = [] → one { k.en with pc := k.en.pc + 1 }) ∧ (k.part ≠ [] → rest = [] → one { k.en with pc := target, state := .ready }) ∧
      (k.part ≠ [] → rest ≠ [] → s.freeEntry k.q.w = some i → split (kept rest (k.en.pc + 1)) (fresh k.part target)) ∧
      (k.part ≠ [] → rest ≠ [] → s.freeEntry k.q.w = none → one { k.en with state := .splitWait })) ∧
    (k.q.i = .lcall k.f →
      (k.part = [] → LaneWrites s k k.lab 0 fun _ => (k.en.pc + 1).toNat) ∧
      (k.part ≠ [] → rest = [] → ∃ (y : Warp) (z : Entry), Completes k.q.i s [(k.q.w, y)] [] ∧
        y = { x with v := y.v, vLab := y.vLab, entries := y.entries } ∧ k.written y k.lab (fun _ => (k.en.pc + 1).toNat) ∧
        (∀ e, tFind y.entries e = if e = k.e then some z else tFind x.entries e) ∧
        z = { k.en with pc := target, state := .ready, b0 := z.b0, b1 := k.en.b0, b2 := k.en.b1, b3 := k.en.b2 } ∧
        z.b0.valid = true ∧ z.b0.lab = k.lab ∧ z.b0.await = none ∧
        ∀ l, l < 64 → tGet z.b0.vals 0 l = if l ∈ k.part then (k.en.pc + 1).setWidth 64 else 0) ∧
      (k.part ≠ [] → rest ≠ [] → s.freeEntry k.q.w = some i → ∃ y : Warp, Completes k.q.i s [(k.q.w, y)] [] ∧
        y = { x with v := y.v, vLab := y.vLab, entries := y.entries } ∧ k.written y k.lab (fun _ => (k.en.pc + 1).toNat) ∧
        two y (kept rest (k.en.pc + 1)) (fresh k.part target)) ∧
      (k.part ≠ [] → rest ≠ [] → s.freeEntry k.q.w = none → one { k.en with state := .splitWait })) ∧
    (k.q.i = .lret k.f →
      (k.part = [] → one { k.en with pc := k.en.pc + 1 }) ∧
      (∀ t, k.part ≠ [] → (∀ l ∈ k.part, to_ l = t) → (rest = [] ∨ t = k.en.pc + 1) → one { k.en with pc := t, state := .ready }) ∧
      (∀ t, k.part ≠ [] → (∀ l ∈ k.part, to_ l = t) → rest ≠ [] → t ≠ k.en.pc + 1 → s.freeEntry k.q.w = some i →
        split (kept k.part t) (fresh rest (k.en.pc + 1))) ∧
      (∀ f ls t, k.part = f :: ls → rest = [] → (∃ l ∈ ls, to_ l = t) → t ≠ to_ f → (∀ l ∈ ls, to_ l = to_ f ∨ to_ l = t) →
        s.freeEntry k.q.w = some i →
        split (kept (k.part.filter fun l => to_ l == to_ f) (to_ f)) (fresh (k.part.filter fun l => to_ l == t) t)) ∧
      (∀ (f : Nat) (ls : List Nat) (gs : List (List Nat × W32)) (idx : Nat → Nat) (n : Nat), k.part = f :: ls →
        let stays : Bool := to_ f == k.en.pc + 1
        let first := k.part.filter fun l => to_ l == to_ f
        let leaver (j : Nat) : Entry := fresh ((gs[j]?).getD ([], 0)).1 ((gs[j]?).getD ([], 0)).2
        let grown (j : Nat) : State := s.modWarp k.q.w fun x =>
          { x with entries := (List.range j).foldl (fun t i => tPut t (idx i) (leaver i)) x.entries }
        let ends (z : Entry) : Prop := ∃ y : Warp, Completes k.q.i s [(k.q.w, y)] [] ∧ y = { x with entries := y.entries } ∧
          tFind y.entries k.e = some z ∧ (∀ j, j < n → tFind y.entries (idx j) = some (leaver j)) ∧
          ∀ e, e ≠ k.e → (∀ j, j < n → e ≠ idx j) → tFind y.entries e = tFind x.entries e
        (∀ g ∈ gs, (g = (rest, k.en.pc + 1) ∧ rest ≠ [] ∧ stays = false) ∨
          (g.2 ≠ to_ f ∧ g.1 ≠ [] ∧ g.1 = k.part.filter fun l => to_ l == g.2)) →
        (∀ l ∈ k.part, to_ l ≠ to_ f → (k.part.filter fun m => to_ m == to_ l, to_ l) ∈ gs) →
        (rest ≠ [] → stays = false → (rest, k.en.pc + 1) ∈ gs) → gs.Pairwise (fun a b => (a.1[0]?).getD 0 < (b.1[0]?).getD 0) →
        n ≤ gs.length → (∀ j, j < n → (grown j).freeEntry k.q.w = some (idx j)) →
        (n = gs.length → gs ≠ [] → ends (kept (first ++ if stays then rest else []) (to_ f))) ∧
        (n < gs.length → (grown n).freeEntry k.q.w = none →
          ends (if n = 0 then { k.en with state := .splitWait }
            else bare { k.en with mask := (gs.take n).foldl (fun m g => m &&& ~~~(maskOf g.1)) k.en.mask, state := .splitWait }))))

/-- R169, R379. `rcv.mark` arms its barrier with the entry's lanes and PARENT, clears its arrivals and puts the entry into the region;
a barrier with arrivals raises ILLEGAL. `rcv.wait` at an unarmed barrier, or in lanes that it does not expect, goes on; where it
expects some lanes of the entry only, the others split off to PC + 1 with the same PARENT, or with no free entry all of it waits in SPLITWAIT and
none arrives; otherwise the
lanes arrive and the entry waits while some expected lane runs elsewhere; where the entry is the warp's only one and holds every expected
lane it goes on at once with the barrier's PARENT, no latch valid, and ARMED, EXP and ARR of the barrier are 0 (RPARENT stays).
R171, R380, R382, R383. `lend` puts its entry at the end of the block, and the block ends with the warp's last running entry: its
entries and barriers are freed and the next queued block may start. `idle` takes its lanes out of the entry, which is freed when none is
left. `ltrap` raises SOFT in the lanes that take part, with its immediate, and goes on where none does.
R170, R381, R204. `refill` with a participating lane pops words from the bottom of its role's deque for the idle lanes, in ascending
order where the ring words hold no error: the j-th of them takes the word j places below BOTTOM, BOTTOM falls by the number of words taken and the
team is the owner. A deque that another team owns raises DQ at the retirement point and keeps its words. The instruction issues on `.at` with the words (that the pops happen at the issue is a choice of the model, log 34); the participating lanes' pair
becomes 0, which shifts the latches, and the pairs of the lanes that will receive a word are pending (with WBS = 1 no register is written
or pending). With none it only shifts. A role of
another kind raises ILLEGAL.
That a register or predicate in whose lanes none takes part keeps its label is the model's choice (log 98, DESIGN CHOICE: R36, R50 and R339 leave
it open). -/
def Obligations.ReconvergenceAndBlockEnds : Prop :=
  (∀ (s : State) (k : LCtx) (word : BitVec 96),
     let x := k.q.x
     let n := k.f.imm.toNat % 8
     let b := x.rcvAt n
     let inside := k.en.mask &&& b.exp
     let outside := k.en.mask &&& ~~~b.exp
     let apart : Entry := { k.en with b0 := .none, b1 := .none, b2 := .none, b3 := .none }
     let gone : Entry :=
       { mask := k.en.mask, state := .ready, parent := b.rparent, rcvn := 0, pc := k.en.pc + 1,
         b0 := .none, b1 := .none, b2 := .none, b3 := .none }
     (LaneRuns s k → k.q.i = .rcvMark k.f → b.arr = 0 →
       ∃ y : Warp, Completes k.q.i s [(k.q.w, y)] [] ∧ y = { x with rcv := y.rcv, entries := y.entries } ∧
         (∀ m, y.rcvAt m = if m = n then { armed := true, exp := k.en.mask, arr := 0, rparent := k.en.parent } else x.rcvAt m) ∧
         ∀ e, tFind y.entries e =
           if e = k.e then some { k.en with parent := BitVec.ofNat 4 (n + 1), pc := k.en.pc + 1 } else tFind x.entries e) ∧
     (LaneAt s k → LaneLegal k → k.q.i = .rcvMark k.f → b.arr ≠ 0 → TrapReady s k.q.w x k.q.g → encodeLane k.q.i = some word →
       Completes k.q.i s [(k.q.w, x.inHandler k.q.g 0x101 (word.extractLsb' 32 64) k.en.pc (maskOf k.act) (.laneFault k.e))] []) ∧
     (LaneRuns s k → k.q.i = .rcvWait k.f →
       ((b.armed = false ∨ k.en.mask &&& b.exp = 0) →
         ∃ y : Warp, Completes k.q.i s [(k.q.w, y)] [] ∧ y = { x with entries := y.entries } ∧ k.stepped y) ∧
       (b.armed = true → k.en.mask &&& b.exp ≠ 0 → k.en.mask &&& ~~~b.exp = 0 → (∀ m, m ≠ n → (x.rcvAt m).armed = false) →
         (∃ q ∈ x.entries, q.1 ≠ k.e ∧ q.2.state ≠ .atLend ∧ b.exp &&& ~~~b.arr &&& ~~~k.en.mask &&& q.2.mask ≠ 0) →
         ∃ y : Warp, Completes k.q.i s [(k.q.w, y)] [] ∧ y = { x with rcv := y.rcv, entries := y.entries } ∧
           (∀ m, y.rcvAt m = if m = n then { b with arr := b.arr ||| k.en.mask } else x.rcvAt m) ∧
           ∀ e, tFind y.entries e = if e = k.e then some { k.en with state := .rcvWait, rcvn := BitVec.ofNat 3 n } else tFind x.entries e) ∧
       (b.armed = true → b.exp = k.en.mask → k.en.mask ≠ 0 → x.entries = [(k.e, k.en)] → (∀ m, m ≠ n → (x.rcvAt m).armed = false) →
         ∃ y : Warp, Completes k.q.i s [(k.q.w, y)] [] ∧
           y = { x.noEarly (List.range 64) with rcv := y.rcv, entries := y.entries } ∧
           (∀ m, y.rcvAt m = if m = n then { armed := false, exp := 0, arr := 0, rparent := b.rparent } else x.rcvAt m) ∧
           ∀ e, tFind y.entries e = if e = k.e then some gone else none) ∧
       (b.armed = true → inside ≠ 0 → outside ≠ 0 →
         (s.freeEntry k.q.w = none → ∃ y : Warp, Completes k.q.i s [(k.q.w, y)] [] ∧ y = { x with entries := y.entries } ∧
           ∀ e, tFind y.entries e = if e = k.e then some { k.en with state := .splitWait } else tFind x.entries e) ∧
         (∀ i, s.freeEntry k.q.w = some i → (∀ m, m ≠ n → (x.rcvAt m).armed = false) →
           ((∃ q ∈ x.entries, q.1 ≠ k.e ∧ q.2.state ≠ .atLend ∧ b.exp &&& ~~~b.arr &&& ~~~k.en.mask &&& q.2.mask ≠ 0) →
             ∃ y : Warp, Completes k.q.i s [(k.q.w, y)] [] ∧ y = { x with rcv := y.rcv, entries := y.entries } ∧
               (∀ m, y.rcvAt m = if m = n then { b with arr := b.arr ||| inside } else x.rcvAt m) ∧
               ∀ e, tFind y.entries e = if e = k.e then some { apart with mask := inside, state := .rcvWait, rcvn := BitVec.ofNat 3 n }
                 else if e = i then some { apart with mask := outside, state := .ready, rcvn := 0, pc := k.en.pc + 1 }
                 else tFind x.entries e) ∧
           (x.entries = [(k.e, k.en)] → b.exp = inside →
             ∃ y : Warp, Completes k.q.i s [(k.q.w, y)] [] ∧
               y = { x.noEarly (List.range 64) with rcv := y.rcv, entries := y.entries } ∧
               (∀ m, y.rcvAt m = if m = n then { armed := false, exp := 0, arr := 0, rparent := b.rparent } else x.rcvAt m) ∧
               ∀ e, tFind y.entries e = if e = k.e then some { gone with mask := inside }
                 else if e = i then some { apart with mask := outside, state := .ready, rcvn := 0, pc := k.en.pc + 1 } else none))))) ∧
  (∀ (s : State) (k : LCtx), LaneRuns s k → k.q.x.running = true →
     let x := k.q.x
     let rest := k.act.filter fun l => decide (l ∉ k.part)
     let others : Prop := ∃ q ∈ x.entries, q.1 ≠ k.e ∧ q.2.state ≠ .atLend
     let unarmed : Prop := ∀ m, (x.rcvAt m).armed = false
     let ended : Prop := ∃ y : Warp, Completes k.q.i s [(k.q.w, y)] [] ∧
       y = { x with entries := [], rcv := [], queue := x.queue.drop 1, running := false, early := y.early } ∧
       (unarmed → y.early = x.early) ∧ y.early.map (fun r => { r with dead := [] }) = x.early.map (fun r => { r with dead := [] }) ∧
       ((∃ m, m < 8 ∧ (x.rcvAt m).armed = true) → ∀ r, y.early = some r → ∀ l, l < 64 → memb r.dead l = true)
     let steps : Prop := ∃ y : Warp, Completes k.q.i s [(k.q.w, y)] [] ∧ y = { x with entries := y.entries } ∧ k.stepped y
     let becomes (z : Option Entry) : Prop := ∃ y : Warp, Completes k.q.i s [(k.q.w, y)] [] ∧ y = { x with entries := y.entries } ∧
       ∀ e, tFind y.entries e = if e = k.e then z else tFind x.entries e
     (k.q.i = .lend k.f →
       (x.entries = [(k.e, k.en)] → ended) ∧
       (others → unarmed → becomes (some { k.en with state := .atLend }))) ∧
     (k.q.i = .idle k.f →
       (k.part = [] → steps) ∧ (k.part ≠ [] → rest = [] → x.entries = [(k.e, k.en)] → ended) ∧
       (k.part ≠ [] → rest = [] → others → unarmed → becomes none) ∧
       (k.part ≠ [] → rest ≠ [] → k.en.state = .ready → unarmed →
         becomes (some { k.en with mask := maskOf rest, pc := k.en.pc + 1, b0 := Latch.none, b1 := Latch.none, b2 := Latch.none, b3 := Latch.none }))) ∧
     (k.q.i = .ltrap k.f →
       (k.part = [] → steps) ∧ (k.part ≠ [] → TrapReady s k.q.w x k.q.g → Completes k.q.i s
         [(k.q.w, x.inHandler k.q.g 0x131 (k.f.imm.setWidth 64) k.en.pc (maskOf k.part) (.softLane k.e))] []))) ∧
  (∀ (s : State) (k : LCtx) (q : Nat) (d d2 : Deque) (ws : List (Nat × LVal)) (word : BitVec 96), k.q.i = .refill k.f →
     let role := k.f.imm.toNat % 64
     let idle := (List.range k.q.x.width).filter fun l => decide (l ∉ s.recipients k.q.w ∧ ∀ e ∈ k.q.x.entries, e.2.mask.getLsbD l = false)
     let me : W64 × W32 := (k.q.g.gridId, BitVec.ofNat 32 k.q.t.num)
     let size := (d.bottom - d.top).toNat
     let ring (j : Nat) : LVal := tGet d.ring ⟨0, 0⟩ ((d.bottom - 1 - BitVec.ofNat 32 j).toNat % 2 ^ d.log2cap)
     (d.owner = none ∨ d.owner = some me → (∀ j, j < size → (ring j).val ≠ 0) →
       refillPops me.1 me.2 d idle = some (
         { d with owner := if idle = [] then d.owner else some me, bottom := d.bottom - BitVec.ofNat 32 (min idle.length size) },
         (List.range (min idle.length size)).map fun j => ((idle[j]?).getD 0, ring j))) ∧
     (LaneRuns s k → s.roleTarget k.q.g k.q.c k.q.t.gang role 4 = some q →
       (k.part = [] → LaneWrites s k k.lab 0 fun _ => 0) ∧
       (k.part ≠ [] → k.q.x.count 2 < 255 → q / 4096 = dieOf k.q.x.core → tFind s.deques q = some d → d.ctx = k.q.g.ctx →
         (∀ j, tFind d.ue j = none ∧ memb d.ce j = false) →
         refillPops me.1 me.2 d idle = some (d2, ws) →
         ∃ (u : State) (o : Op) (x : Warp), exec k.q.i s = .next u ∧ LaneIssued s u k x 2 o ∧ o.kind = .refill k.e ws ∧ o.trap = none ∧
           o.ret = (if k.f.wbs then .none else .v k.f.dst.toNat true (ws.map (·.1))) ∧
           x = { k.q.x with v := x.v, vLab := x.vLab, entries := x.entries, vPend := x.vPend } ∧
           k.written x k.lab (fun _ => 0) ∧ k.shifted x k.lab (fun _ => 0) ∧ tFind u.deques q = some d2 ∧
           ∀ r l, l < 64 → (memb x.vPend (64 * r + l) = true ↔ memb k.q.x.vPend (64 * r + l) = true ∨
             (k.f.wbs = false ∧ (r = k.f.dst.toNat ∨ r = k.f.dst.toNat + 1) ∧ ∃ p ∈ ws, p.1 = l))) ∧
       (k.part ≠ [] → k.q.x.count 2 < 255 → q / 4096 = dieOf k.q.x.core → tFind s.deques q = some d → d.ctx = k.q.g.ctx →
         idle ≠ [] → d.owner ≠ none → d.owner ≠ some me →
         ∃ (u : State) (o : Op) (x : Warp), exec k.q.i s = .next u ∧ LaneIssued s u k x 2 o ∧ o.kind = .refill k.e [] ∧
           o.trap = some (0x09, BitVec.ofNat 64 role) ∧ x = { k.q.x with v := x.v, vLab := x.vLab, entries := x.entries } ∧
           k.written x k.lab (fun _ => 0) ∧ k.shifted x k.lab (fun _ => 0) ∧ u.deques = s.deques)) ∧
     (LaneAt s k → LaneLegal k → s.roleTarget k.q.g k.q.c k.q.t.gang role 4 = none → TrapReady s k.q.w k.q.x k.q.g → encodeLane k.q.i = some word →
       Completes k.q.i s
         [(k.q.w, k.q.x.inHandler k.q.g 0x101 (word.extractLsb' 32 64) k.en.pc (maskOf k.act) (.laneFault k.e))] []))

/-! ### The sequencer -/

/-- R399, R400, R403, R386. Control: `mset` writes its immediate with label 0; `madd` the sum with the label of its sources; `mloop` counts
down and goes to PC + 8 × its displacement while the new value is not 0; `mjmp` goes there always; `mfence` only goes on; `mhalt` ends the
stream and releases the A latch. A target that does not fit in 32 bits lies outside `.mcode`; that the PC then stands at its last word
address is the model's choice (log 20). No other m register, no tile, token, barrier or byte of memory changes, and no other team or warp.
R401, R402, R41, R173, R252. `mwait` goes on once the phase of its barrier differs from m[ra], and waits otherwise; `marrive` performs
one arrival and puts the phase that it saw into m[ra] with label 0 where it asks for the token; `mtrel` moves a token from SEQ to OFFERED;
`mtacq` takes a token to SEQ unless the warps hold it, when it waits. An arrival that breaks the expected count, and `mtrel` in a state but
SEQ, stop the sequencer with BAR_EXPECT and TOKEN, which the lowest-numbered warp is to report with SC and the PC. -/
def Obligations.SequencerControlAndBarriers : Prop :=
  (∀ (s : State) (k : QCtx) (ra rb rf : BitVec 4) (imm : W32) (reg : Bool),
     let m (n : BitVec 4) : LWord := tGet k.q.m ⟨0, k.y.lab0⟩ n.toNat
     let to_ (n : Int) : W32 := if 0 ≤ n ∧ n < 2 ^ 32 then BitVec.ofInt 32 n else 0xFFFFFFF8
     let target : W32 := to_ (k.q.pc.toNat + 8 * imm.toInt)
     let goes (i : Instr) (pc : W32) : Prop :=
       Completes i s [] [(k.t, { k.y with seqr := some { k.q with pc := pc, waits := false } })]
     let writes (i : Instr) (v : LWord) (pc : W32) : Prop :=
       ∃ z : Seqr, Completes i s [] [(k.t, { k.y with seqr := some z })] ∧ z = { k.q with pc := pc, waits := false, m := z.m } ∧
         ∀ n, tGet z.m ⟨0, k.y.lab0⟩ n = if n = ra.toNat then v else tGet k.q.m ⟨0, k.y.lab0⟩ n
     (SeqRuns s k (.mset ra imm) → writes (.mset ra imm) ⟨imm, 0⟩ (k.q.pc + 8)) ∧
     (SeqRuns s k (.madd ra rb rf reg imm) →
       writes (.madd ra rb rf reg imm)
         (if reg then ⟨(m rb).val + (m rf).val, Label.join (m rb).lab (m rf).lab⟩ else ⟨(m rb).val + imm, (m rb).lab⟩) (k.q.pc + 8)) ∧
     (SeqRuns s k (.mloop ra imm) →
       writes (.mloop ra imm) ⟨(m ra).val - 1, (m ra).lab⟩ (if (m ra).val = 1 then k.q.pc + 8 else target)) ∧
     (SeqRuns s k (.mjmp imm) → goes (.mjmp imm) target) ∧
     (SeqRuns s k .mfence → goes .mfence (k.q.pc + 8)) ∧
     (SeqRuns s k .mhalt →
       Completes .mhalt s [] [(k.t, { k.y with seqr := some { k.q with alatch := none, run := .halted, waits := false } })])) ∧
  (∀ (s : State) (k : QCtx) (n ra : BitVec 4) (tok : Bool) (e : BitVec 6) (acc : BitVec 3),
     let d : LWord := ⟨0, k.y.lab0⟩
     let b := k.y.bar n.toNat
     let next : Seqr := { k.q with pc := k.q.pc + 8, waits := false }
     let waits (i : Instr) : Prop := Completes i s [] [(k.t, { k.y with seqr := some { k.q with waits := true } })]
     let stops (i : Instr) (code : BitVec 8) : Prop := ∀ v z, s.firstWarp k.y = some v → s.warp v = some z →
       Completes i s
         [(v, { z with due := z.due ++ [{ rank := 3, code := code, val := k.q.sc ++ k.q.pc, lanes := 0, entry := none, pcL := 0 }] })]
         [(k.t, { k.y with seqr := some { k.q with run := .stopped code, waits := false } })]
     let tokens (i : Instr) (x : Tok) : Prop :=
       ∃ y : Team, Completes i s [] [(k.t, y)] ∧ y = { k.y with seqr := some next, tokens := y.tokens } ∧
         ∀ j, y.tok j = if j = acc.toNat then x else k.y.tok j
     let arrived : Bar := if b.count + 1 = e then ⟨b.phase + 1, 0, 0⟩ else ⟨b.phase, e, b.count + 1⟩
     (SeqRuns s k (.mwait n ra) → Sound s (.bar k.t) (8 * n.toNat) 8 →
       (b.phase ≠ (tGet k.q.m d ra.toNat).val → Completes (.mwait n ra) s [] [(k.t, { k.y with seqr := some next })]) ∧
       (b.phase = (tGet k.q.m d ra.toNat).val → waits (.mwait n ra))) ∧
     (SeqRuns s k (.marrive n ra tok e) → Sound s (.bar k.t) (8 * n.toNat) 8 →
       ((b.exp = 0 ∨ b.exp = e) → ∃ (y : Team) (z : Seqr), Completes (.marrive n ra tok e) s [] [(k.t, y)] ∧
         y = { k.y with seqr := some z, bars := y.bars } ∧ z = { next with m := z.m } ∧
         (∀ j, y.bar j = if j = n.toNat then arrived else k.y.bar j) ∧
         ∀ r, tGet z.m d r = if tok = true ∧ r = ra.toNat then ⟨b.phase, 0⟩ else tGet k.q.m d r) ∧
       (b.exp ≠ 0 → b.exp ≠ e → stops (.marrive n ra tok e) 0x04)) ∧
     (SeqRuns s k (.mtrel acc) →
       (k.y.tok acc.toNat = .seq → tokens (.mtrel acc) .offered) ∧ (k.y.tok acc.toNat ≠ .seq → stops (.mtrel acc) 0x05)) ∧
     (SeqRuns s k (.mtacq acc) →
       (k.y.tok acc.toNat ≠ .warps → tokens (.mtacq acc) .seq) ∧ (k.y.tok acc.toNat = .warps → waits (.mtacq acc))))

/-- R395, R396 (the tiles of a shape are those of R290, tokens those of R41, labels those of R386, and checks come in the order of R385). `mzero` makes whole tiles +0 with the context's starting label; `mload` fills the M × N elements from the
32-bit words at m[ra] + i × P + 4j and raises each tile's label to the largest of the old one, m[ra]'s and those of the lines that enter
it; `mstore` writes the elements there and raises the lines to the label of the tile and m[ra]. Nothing else of the team, no other team and
no warp changes. A tile that is not with the sequencer stops each of the three with TOKEN, before any range is looked at; an offset or
pitch of `mload` or `mstore` that is no multiple of 4 with ALIGN, else a row that leaves team memory with BOUNDS, and a pitch of `mstore` that is
not 0 and below 4N with ILLEGAL. Then no tile, register or byte changes. -/
def Obligations.TileMoves : Prop :=
  ∀ (s : State) (k : QCtx) (sh : BitVec 5) (acc : BitVec 3) (ra : BitVec 4) (pitch : BitVec 20),
    let M := 16 * 2 ^ (sh.toNat / 8)
    let N := 16 * 2 ^ (sh.toNat / 2 % 4)
    let nt := (N + 63) / 64
    let tile (i j : Nat) : Nat := acc.toNat + i / 64 * nt + j / 64
    let used (t : Nat) : Prop := ∃ i j, i < M ∧ j < N ∧ t = tile i j
    let m := tGet k.q.m ⟨0, k.y.lab0⟩ ra.toNat
    let P := if pitch = 0 then 4 * N else pitch.toNat
    let va (i j : Nat) : Nat := m.val.toNat + i * P + 4 * j
    let tm : Space := .team k.t
    let next : Seqr := { k.q with pc := k.q.pc + 8, waits := false }
    let mine : Prop := ∀ t, used t → k.y.tok t = .seq
    let rows : Prop := m.val.toNat % 4 = 0 ∧ pitch.toNat % 4 = 0 ∧ ∀ i, i < M → va i N ≤ s.spaceSize tm ∧ Sound s tm (va i 0) (4 * N)
    let el (y : Team) (i j : Nat) : W32 := y.elem (tile i j) (i % 64) (j % 64)
    let word (i j : Nat) : W32 := BitVec.ofNat 32 (ofBytes ((List.range 4).map fun b => s.chipByte tm (va i j + b)))
    let seg (bi bj : Nat) : Label := Label.joinAll ((List.range (min 64 (M - 64 * bi))).map fun r =>
      s.chipLab tm (va (64 * bi + r) (64 * bj)) (4 * min 64 (N - 64 * bj)))
    (SeqRuns s k (.mzero sh acc) → mine → ∃ y : Team, Completes (.mzero sh acc) s [] [(k.t, y)] ∧
      y = { k.y with seqr := some next, tiles := y.tiles, tileLab := y.tileLab } ∧
      (∀ t r c, r < 64 → c < 64 → (used t → y.elem t r c = 0) ∧ (¬ used t → y.elem t r c = k.y.elem t r c)) ∧
      ∀ t, (used t → y.labT t = k.y.lab0) ∧ (¬ used t → y.labT t = k.y.labT t)) ∧
    (SeqRuns s k (.mload sh acc ra pitch) → mine → rows → ∃ y : Team, Completes (.mload sh acc ra pitch) s [] [(k.t, y)] ∧
      y = { k.y with seqr := some next, tiles := y.tiles, tileLab := y.tileLab } ∧
      (∀ i j, i < M → j < N → el y i j = word i j) ∧
      (∀ t r c, r < 64 → c < 64 → (∀ i j, i < M → j < N → ¬ (t = tile i j ∧ r = i % 64 ∧ c = j % 64)) → y.elem t r c = k.y.elem t r c) ∧
      (∀ bi bj, 64 * bi < M → 64 * bj < N →
        y.labT (acc.toNat + bi * nt + bj) = Label.join (k.y.labT (acc.toNat + bi * nt + bj)) (Label.join (seg bi bj) m.lab)) ∧
      ∀ t, ¬ used t → y.labT t = k.y.labT t) ∧
    (SeqRuns s k (.mstore sh acc ra pitch) → mine → rows → ∃ (u : State) (y : Team), exec (.mstore sh acc ra pitch) s = .next u ∧
      s.Becomes u [] [(k.t, y)] ∧ y = { k.y with seqr := some next, mem := y.mem } ∧
      (∀ i j b, i < M → j < N → b < 4 → u.chipByte tm (va i j + b) = BitVec.ofNat 8 ((el k.y i j).toNat / 256 ^ b)) ∧
      (∀ off, (∀ i, i < M → off < va i 0 ∨ va i N ≤ off) → u.chipByte tm off = s.chipByte tm off) ∧
      ∀ g, let lab (v : State) : Label := tGet (v.sram tm).labs (s.spaceLab tm) g
        Label.join (lab s) (lab u) = lab u ∧
        (∀ i j, i < M → j < N → va i j / 64 = g → Label.join (Label.join (k.y.labT (tile i j)) m.lab) (lab u) = lab u) ∧
        (lab u = lab s ∨ ∃ i j, i < M ∧ j < N ∧ va i j / 64 = g ∧ lab u = Label.join (k.y.labT (tile i j)) m.lab)) ∧
    (∀ v z, s.firstWarp k.y = some v → s.warp v = some z →
      let stops (i : Instr) (code : BitVec 8) : Prop := Completes i s
        [(v, { z with due := z.due ++ [{ rank := 3, code := code, val := k.q.sc ++ k.q.pc, lanes := 0, entry := none, pcL := 0 }] })]
        [(k.t, { k.y with seqr := some { k.q with run := .stopped code, waits := false } })]
      (∀ i ∈ [Instr.mzero sh acc, .mload sh acc ra pitch, .mstore sh acc ra pitch], SeqRuns s k i → ¬ mine → stops i 0x05) ∧
      (∀ i ∈ [Instr.mload sh acc ra pitch, .mstore sh acc ra pitch], SeqRuns s k i → mine →
        (m.val.toNat % 4 ≠ 0 ∨ pitch.toNat % 4 ≠ 0 → stops i 0x06) ∧
        (m.val.toNat % 4 = 0 → pitch.toNat % 4 = 0 → (∃ j, j < M ∧ s.spaceSize tm < va j N) → stops i 0x07)) ∧
      (SeqAt s k → pitch ≠ 0 → pitch.toNat < 4 * N → stops (.mstore sh acc ra pitch) 0x01))

/-- R397, R270, R144, R262. `mquant` quantises each row of the output in blocks of 32: the code of element j stands at bit j × w of the row's
bytes at m[ra] + i × P, the scale of block b at m[rb] + i × (N / 32) + b; a bf16 target is rounded element by element and has no scale. The
flags go to MFSTAT; the tiles, every other byte of team memory, every other team and every warp are unchanged.
R398, R268. `mscale` replaces each element of the output by the product of its value, its row's factor and its column's factor, rounded
once to FP32; a factor that is not given is 1. A NaN factor, or 0 × Inf, which raises NV, gives the canonical NaN; that a NaN
factor beside 0 and Inf raises no NV of theirs is the model's reading (log 28, DEDUCED). The flags go to MFSTAT; each
tile takes the label of the factors of its rows and columns, and of the registers that name them, joined to its own (R386);
elements outside the output, tokens, memory, every other team and every warp are unchanged. -/
def Obligations.QuantisationAndScaling : Prop :=
  (∀ (s : State) (k : QCtx) (sh : BitVec 5) (acc : BitVec 3) (ra rb fmt : BitVec 4) (clip : Bool) (p : BitVec 7) (f : BitVec 6) (src : Bool)
     (pitch : BitVec 13) (w : Nat),
     let i : Instr := .mquant sh acc ra rb fmt clip p f src pitch
     SeqRuns s k i → (fmt.toNat, w) ∈ [(6, 16), (7, 8), (8, 8), (9, 6), (10, 6), (11, 4), (12, 8)] →
     let M := 16 * 2 ^ (sh.toNat / 8)
     let N := 16 * 2 ^ (sh.toNat / 2 % 4)
     let tile (i j : Nat) : Nat := acc.toNat + i / 64 * ((N + 63) / 64) + j / 64
     let m (r : BitVec 4) : Nat := (tGet k.q.m ⟨0, k.y.lab0⟩ r.toNat).val.toNat
     let P := if pitch = 0 then N * w / 8 else pitch.toNat
     let nb := if fmt = 6 then 0 else N / 32
     let row (i : Nat) : Nat := m ra + i * P
     let tm : Space := .team k.t
     let x (i j : Nat) : Machine.Num :=
       let e := k.y.elem (tile i j) (i % 64) (j % 64)
       if src then Machine.Num.ofInt e.toInt else fmtF32.value e.toNat
     let block (i b : Nat) : Nat × List Nat × Flags :=
       quantBlock fmt.toNat (if clip then some (p.toNat, f.toNat) else none) ((List.range 32).map fun j => x i (32 * b + j))
     let fl (i : Nat) : Flags := if fmt = 6 then joinFlags ((List.range N).map fun j => (fmtBf16.round .rne false (x i j)).2)
       else joinFlags ((List.range nb).map fun b => (block i b).2.2)
     (∀ i j, i < M → j < N → k.y.tok (tile i j) = .seq) → m ra % 4 = 0 → pitch.toNat % 4 = 0 →
     (∀ i, i < M → row i + N * w / 8 ≤ s.spaceSize tm ∧ Sound s tm (row i) (N * w / 8)) →
     (nb = 0 ∨ m rb + M * nb ≤ s.spaceSize tm) → Sound s tm (m rb) (M * nb) → (nb = 0 ∨ m rb + M * nb ≤ m ra ∨ row (M - 1) + N * w / 8 ≤ m rb) →
     ∃ (u : State) (y : Team), exec i s = .next u ∧ s.Becomes u [] [(k.t, y)] ∧
       y = { k.y with seqr := some { k.q with pc := k.q.pc + 8, waits := false }, mem := y.mem, mfstat := y.mfstat } ∧
       y.mfstat = k.y.mfstat ||| joinFlags ((List.range M).map fl) ∧
       (∀ i, i < M →
         let bits := ofBytes (u.chipBytes tm (row i) (N * w / 8))
         (fmt = 6 → ∀ j, j < N → bits / 2 ^ (16 * j) % 65536 = (fmtBf16.round .rne false (x i j)).1 % 65536) ∧
         (fmt ≠ 6 → ∀ b j, b < nb → j < 32 →
           bits / 2 ^ ((32 * b + j) * w) % 2 ^ w = (((block i b).2.1)[j]?).getD 0 % 2 ^ w ∧
           u.chipByte tm (m rb + i * nb + b) = BitVec.ofNat 8 (block i b).1)) ∧
       ∀ off, (∀ i, i < M → off < row i ∨ row i + N * w / 8 ≤ off) → (off < m rb ∨ m rb + M * nb ≤ off) → u.chipByte tm off = s.chipByte tm off) ∧
  (∀ (s : State) (k : QCtx) (sh : BitVec 5) (acc : BitVec 3) (ra rb : BitVec 4) (src col row : Bool),
     let i : Instr := .mscale sh acc ra rb src col row
     let M := 16 * 2 ^ (sh.toNat / 8)
     let N := 16 * 2 ^ (sh.toNat / 2 % 4)
     let tile (i j : Nat) : Nat := acc.toNat + i / 64 * ((N + 63) / 64) + j / 64
     let m (r : BitVec 4) : Nat := (tGet k.q.m ⟨0, k.y.lab0⟩ r.toNat).val.toNat
     let tm : Space := .team k.t
     let word (off : Nat) : Nat := ofBytes ((List.range 4).map fun b => s.chipByte tm (off + b))
     let el (y : Team) (i j : Nat) : W32 := y.elem (tile i j) (i % 64) (j % 64)
     let x (i j : Nat) : Machine.Num := if src then Machine.Num.ofInt (el k.y i j).toInt else fmtF32.value (el k.y i j).toNat
     let r (i : Nat) : Machine.Num := if row then fmtF32.value (word (m ra + 4 * i)) else .fin false 1 0
     let c (j : Nat) : Machine.Num := if col then fmtF32.value (word (m rb + 4 * j)) else .fin false 1 0
     let value (x r c : Machine.Num) (v : Nat) (fl : Flags) : Prop :=
       let xs := [x, r, c]
       if xs.any Machine.Num.isNan then v = 0x7FC00000 ∧ fl = (if xs.any Machine.Num.isSig then fNV else 0)
       else if xs.any Machine.Num.isInf ∧ xs.any Machine.Num.isZero then v = 0x7FC00000 ∧ fl = fNV
       else (v, fl) = fmtF32.round .rne false ((x.mul r).1.mul c).1
     SeqRuns s k i → (∀ i j, i < M → j < N → k.y.tok (tile i j) = .seq) →
     (row = true → m ra % 4 = 0 ∧ m ra + 4 * M ≤ s.spaceSize tm ∧ Sound s tm (m ra) (4 * M)) →
     (col = true → m rb % 4 = 0 ∧ m rb + 4 * N ≤ s.spaceSize tm ∧ Sound s tm (m rb) (4 * N)) →
     ∃ (y : Team) (fl : Nat → Nat → Flags), Completes i s [] [(k.t, y)] ∧
       y = { k.y with seqr := some { k.q with pc := k.q.pc + 8, waits := false }, tiles := y.tiles, tileLab := y.tileLab, mfstat := y.mfstat } ∧
       (∀ i j, i < M → j < N → value (x i j) (r i) (c j) (el y i j).toNat (fl i j)) ∧
       y.mfstat = k.y.mfstat ||| joinFlags ((List.range M).flatMap fun i => (List.range N).map (fl i)) ∧
       (∀ t r c, r < 64 → c < 64 → (∀ i j, i < M → j < N → ¬ (t = tile i j ∧ r = i % 64 ∧ c = j % 64)) → y.elem t r c = k.y.elem t r c) ∧
       (∀ t, (∀ i j, i < M → j < N → t ≠ tile i j) → y.labT t = k.y.labT t) ∧
       ∀ bi bj, 64 * bi < M → 64 * bj < N → y.labT (tile (64 * bi) (64 * bj)) = Label.join (k.y.labT (tile (64 * bi) (64 * bj))) (Label.join
         (if row then Label.join (s.chipLab tm (m ra + 256 * bi) (4 * min 64 (M - 64 * bi))) (tGet k.q.m ⟨0, k.y.lab0⟩ ra.toNat).lab else 0)
         (if col then Label.join (s.chipLab tm (m rb + 256 * bj) (4 * min 64 (N - 64 * bj))) (tGet k.q.m ⟨0, k.y.lab0⟩ rb.toNat).lab else 0)))

/-- R391 to R393, R387 to R390, R273 to R275. `mma` and `mmas` complete where the format block, the latch, the tokens and the ranges pass
R385: every output element becomes the accumulation, step by step, of the products of its row of A and column of B onto its old value, or
onto +0 with `.zero`. The sequence of k is all of K for `mma`; for `mmas` those present in some row of a sparse A and some column of a
sparse B, or in this row and this column with `.inner`. A step takes the next base-K of them: its exact sum (O29) is added to the
element with one rounding to FP32, or wrapping to 32 bits for integers, and a step without a product for the element changes nothing. SC counts the steps, the flags go to MFSTAT,
the latch keeps A with `.reuse` and is free without; a latched A whose rows are longer than K stays whole, and is used by its first K columns (log 27, DESIGN CHOICE). Column mismatches that
the arrays have spares for change none of this (R253, R394). Each tile takes the label of what enters it, joined to its own (R386, R50): the
rows of A or the latch, the columns of B (a sparse operand enters each tile as a whole: log 38, DEDUCED), the format block and the registers that name them. Other elements,
tokens, every byte of memory, other teams and every warp are unchanged. -/
def Obligations.MatrixMultiply : Prop :=
  (∀ (s : State) (k : QCtx) (i : Instr) (sh : BitVec 5) (acc : BitVec 3) (ra rb rf : BitVec 4) (mode : Option (BitVec 2)) (zero reuse : Bool)
    (a b : Side),
    i = (match mode with
      | none => .mma sh acc ra rb rf zero reuse
      | some spm => .mmas sh acc ra rb rf spm zero reuse) → SeqRuns s k i →
    let M := 16 * 2 ^ (sh.toNat / 8)
    let N := 16 * 2 ^ (sh.toNat / 2 % 4)
    let tm : Space := .team k.t
    let m (r : BitVec 4) : Nat := (tGet k.q.m ⟨0, k.y.lab0⟩ r.toNat).val.toNat
    let word (n : Nat) : Nat := ofBytes (s.chipBytes tm (m rf + 4 * n) 4)
    let s32 : Bool := decide (a.family = 4)
    let spA : Bool := mode == some 0 || mode == some 2 || mode == some 3
    let spB : Bool := mode == some 1 || mode == some 2 || mode == some 3
    let base := baseK a b
    let K := if sh.toNat % 2 = 1 then 2 * base else base
    let oA : Opnd := { d := a, n := M, kk := K, off := m ra, scof := word 1, bmof := word 5, sp := spA }
    let oB : Opnd := { d := b, n := N, kk := K, off := m rb, scof := word 3, bmof := word 6, sp := spB }
    let tile (i j : Nat) : Nat := acc.toNat + i / 64 * ((N + 63) / 64) + j / 64
    let el (y : Team) (i j : Nat) : W32 := y.elem (tile i j) (i % 64) (j % 64)
    m rf % 32 = 0 → m rf + 32 ≤ s.spaceSize tm → Sound s tm (m rf) 32 →
    sideOf (word 0) = some a → sideOf (word 2) = some b → word 4 = (if s32 then 1 else 0) → word 7 = 0 → a.family = b.family →
    (∀ i j, i < M → j < N → k.y.tok (tile i j) = .seq) →
    (∀ h, k.q.alatch = some h → h.m = M ∧ h.kc = decide (sh.toNat % 2 = 1) ∧ h.ty = a.ty ∧ h.blk = a.blk ∧ h.sc = a.sc ∧ h.sparse = spA ∧
      h.rows.length = M ∧ ∀ r ∈ h.rows, K ≤ r.length) →
    (k.q.alatch = none → (∀ o ∈ oA.aligns, o % 4 = 0) ∧ ∀ r ∈ oA.ranges s tm, r.1 + r.2 ≤ s.spaceSize tm ∧ Sound s tm r.1 r.2) →
    (∀ o ∈ oB.aligns, o % 4 = 0) → (∀ r ∈ oB.ranges s tm, r.1 + r.2 ≤ s.spaceSize tm ∧ Sound s tm r.1 r.2) →
    (∀ c, c = k.y.core ∨ (k.g.kernel.pair = true ∧ 64 ≤ M ∧ c = k.y.core + 1) → tGet s.residue 0 c ≤ tGet s.belv.spares 4 c) →
    let bits (off n : Nat) : Nat := ofBytes (s.chipBytes tm off n)
    let present (o : Opnd) (n : Nat) : Bool := o.sp == false || bitAt (bits o.bmof ((o.n * K + 7) / 8)) n
    let index (o : Opnd) (n : Nat) : Nat := if o.sp then ((List.range n).filter fun q => present o q).length else n
    let code (o : Opnd) (n : Nat) : Nat := bits o.off (((index o n + 1) * o.d.w + 7) / 8) / 2 ^ (index o n * o.d.w) % 2 ^ o.d.w
    let scale (o : Opnd) (r c : Nat) : Nat := if o.d.sc then (s.chipByte tm (o.scof + r * (K / o.d.blk) + c / o.d.blk)).toNat else 127
    let read (o : Opnd) (r c : Nat) : Option (Nat × Nat) := if present o (r * K + c) then some (code o (r * K + c), scale o r c) else none
    let A (r c : Nat) : Option (Nat × Nat) := match k.q.alatch with
      | some h => ((h.rows[r]?).getD [])[c]?.join
      | none => read oA r c
    let B (r c : Nat) : Option (Nat × Nat) := read oB r c
    let ml (r : BitVec 4) : Label := (tGet k.q.m ⟨0, k.y.lab0⟩ r.toNat).lab
    let whole (o : Opnd) : Label := Label.joinAll ((o.ranges s tm).map fun r => s.chipLab tm r.1 r.2)
    let enters (o : Opnd) (n0 : Nat) : Label :=
      let n := min 64 (o.n - n0)
      let sb := K / o.d.blk
      let eb := K * o.d.w / 8
      if o.sp then whole o
      else Label.join (if o.d.sc then s.chipLab tm (o.scof + n0 * sb) (n * sb) else 0) (s.chipLab tm (o.off + n0 * eb) (n * eb))
    let labA (n0 : Nat) : Label := match k.q.alatch with
      | some h => h.lab
      | none => Label.join (enters oA n0) (ml ra)
    let inner := mode == some 3
    let ks (i j : Nat) : List Nat := (List.range K).filter fun c =>
      if inner then (A i c).isSome && (B j c).isSome
      else ((List.range M).any fun r => (A r c).isSome) && ((List.range N).any fun r => (B r c).isSome)
    let steps (i j : Nat) : Nat := ((ks i j).length + base - 1) / base
    let groups (i j : Nat) : List (List (Machine.Num × Machine.Num)) := (List.range (steps i j)).map fun t =>
      (((ks i j).drop (t * base)).take base).filterMap fun c => match A i c, B j c with
        | some p, some q => some (a.value p, b.value q)
        | _, _ => none
    let out (i j : Nat) : W32 × Flags := accumulate s32 (groups i j) (if zero then 0 else el k.y i j)
    ∃ (u : State) (y : Team) (q : Seqr), exec i s = .next u ∧ u.team k.t = some y ∧
      y = { k.y with seqr := some q, tiles := y.tiles, tileLab := y.tileLab, mfstat := y.mfstat } ∧
      q = { k.q with pc := k.q.pc + 8, waits := false, sc := q.sc, alatch := q.alatch } ∧
      (∀ i j, i < M → j < N → el y i j = (out i j).1) ∧
      (∀ t r c, r < 64 → c < 64 → (∀ i j, i < M → j < N → ¬ (t = tile i j ∧ r = i % 64 ∧ c = j % 64)) → y.elem t r c = k.y.elem t r c) ∧
      y.mfstat = k.y.mfstat ||| joinFlags ((List.range M).flatMap fun i => (List.range N).map fun j => (out i j).2) ∧
      (∀ n, (∀ i j, i < M → j < N → steps i j ≤ n) → (∃ i j, i < M ∧ j < N ∧ steps i j = n) → q.sc = BitVec.ofNat 32 n) ∧
      (reuse = false → q.alatch = none) ∧
      (∀ bi bj, 64 * bi < M → 64 * bj < N → y.labT (tile (64 * bi) (64 * bj)) = Label.joinAll [k.y.labT (tile (64 * bi) (64 * bj)),
        labA (64 * bi), enters oB (64 * bj), s.chipLab tm (m rf) 32, ml rb, ml rf]) ∧
      (∀ t, (∀ i j, i < M → j < N → t ≠ tile i j) → y.labT t = k.y.labT t) ∧
      (reuse = true → (∀ h, k.q.alatch = some h → q.alatch = some h) ∧ ∀ h, q.alatch = some h → k.q.alatch = none →
        h.lab = Label.join (whole oA) (ml ra)) ∧
      (reuse = true → ∃ h, q.alatch = some h ∧ h.m = M ∧ h.ty = a.ty ∧ h.blk = a.blk ∧ h.sc = a.sc ∧ h.sparse = spA ∧
        ∀ r c, r < M → c < K → ((h.rows[r]?).getD [])[c]?.join = A r c) ∧
      SameMain s u ∧ SameChip s u ∧ (∀ w, u.warp w = s.warp w) ∧ ∀ t, t ≠ k.t → u.team t = s.team t) ∧
  (∀ (s32 : Bool) (gs : List (List (Machine.Num × Machine.Num))) (g : List (Machine.Num × Machine.Num)) (c : W32),
     let before := accumulate s32 gs c
     let after := accumulate s32 (gs ++ [g]) c
     let int (x : Machine.Num) : Option Int := match x with
       | .fin n m 0 => some (if n then -(m : Int) else m)
       | _ => none
     accumulate s32 [] c = (c, 0) ∧ (g = [] → after = before) ∧
     (g ≠ [] → s32 = false → after = (BitVec.ofNat 32 (accF32 .rne before.1.toNat (stepSum g)).1,
       before.2 ||| (accF32 .rne before.1.toNat (stepSum g)).2)) ∧
     (g ≠ [] → s32 = true → ∀ xs : List (Int × Int), g.map (fun p => (int p.1, int p.2)) = xs.map (fun p => (some p.1, some p.2)) →
       after = (BitVec.ofInt 32 ((before.1.toNat : Int) + (xs.map fun p => p.1 * p.2).sum), before.2)))

/-! ### Events of issue and of the engines -/

/-- R166, R167, R201, R317, R319, R208, R212, R224. Events of the issue decision: entries fuse into the lower one, with the lanes of both and no
valid latch, and the fuse and its group switch count; a waiting split is retried as its instruction, and its splits and switches count;
candidates that have been ready for 64 cycles are raised; a `yield` ends after 64
cycles; a descheduled warp goes on at its target once the counter is low enough, which restarts the watchdog of its context (R212); a PREEMPT notice that is due first enters the handler and
marks the team as noticed, or is dropped where TRAPVEC.EN is 0. That one group switch counts per fuse, what a retried split counts, and that
event 2 counts at a `yieldc` resume are the model's reading of R224 (log 60, DEDUCED: two switches count at a split, one at a completion). -/
def Obligations.IssueEvents : Prop :=
  (∀ (s : State) (w i j : Nat) (x : Warp) (t : Team) (g : Grid) (c : Ctx) (a b : Entry), s.warp w = some x → s.home x = some (t, g, c) →
    x.entries = [(i, a), (j, b)] → i < j → (∀ o ∈ s.work.ops, o.2.warp ≠ w) →
    (a.state = .ready → b.state = .ready → a.pc = b.pc → a.parent = b.parent → ∃ u : State, exec (.entryFuse w) s = .next u ∧
      u = { s with work := { s.work with warps := u.work.warps }, ctrs := u.ctrs } ∧ (∀ v, v ≠ w → u.warp v = s.warp v) ∧
      u.warp w = some { x with
        entries := [(i, { a with mask := a.mask ||| b.mask, b0 := .none, b1 := .none, b2 := .none, b3 := .none })] } ∧
      u.ctrs = ((s.pmc (dieOf x.core) (some x.core) g.ctx 10 1).pmc (dieOf x.core) (some x.core) g.ctx 9 1).ctrs) ∧
    ((a.state ≠ .ready ∨ b.state ≠ .ready ∨ a.pc ≠ b.pc ∨ a.parent ≠ b.parent) → Completes (.entryFuse w) s [(w, x)] [])) ∧
  (∀ (s s1 : State) (w e : Nat) (x : Warp) (t : Team) (g : Grid) (c : Ctx) (en : Entry) (f : LaneFields) (i : Instr), s.warp w = some x →
    s.home x = some (t, g, c) → tFind x.entries e = some en → en.state = .splitWait → i ∈ [Instr.bra f, .lcall f, .lret f, .rcvWait f] →
    s.fetchInstr .lane (dieOf x.core) g.ctx (g.kernel.image + g.kernel.loff) (12 * en.pc.toNat) g.kernel.llen id = (s1, .ok i) →
    ∃ r u : State, exec (.splitRetry w e) s = .next (u.countSplits i x w e) ∧ exec i { r with cur := .lane w e } = .next u ∧
      s1.Becomes r [(w, { x with entries := tMod x.entries e fun z => { z with state := .ready } })] []) ∧
  (∀ (s : State) (core quad : Nat), ∃ u : State, exec (.candidateRaise core quad) s = .next u ∧
    ∀ w x, s.warp w = some x → u.warp w = some (
      if x.core = core ∧ x.quad = quad then
        { x with sRaised := x.sRaised || decide (64 ≤ x.sAge), lRaised := x.lRaised || decide (64 ≤ x.lAge) }
      else x)) ∧
  (∀ (s : State) (w n cls m : Nat) (os : List Nat) (pc : W32) (x : Warp) (t : Team) (g : Grid) (c : Ctx), s.warp w = some x →
    s.home x = some (t, g, c) →
    (x.wait = .yield os n → Completes (.yieldTimeout w) s [(w, if 64 ≤ n then { x with wait := .none } else x)] []) ∧
    (x.wait = .yieldc cls m pc → m < x.count cls → Completes (.yieldcResume w) s [(w, x)] []) ∧
    (x.wait = .yieldc cls m pc → x.count cls ≤ m → ∃ u : State, exec (.yieldcResume w) s = .next u ∧
      u = { s with work := { s.work with warps := u.work.warps }, ctrs := (s.pmc (dieOf x.core) (some x.core) g.ctx 2 1).ctrs,
                   ctxs := (s.modCtx g.ctx fun d => { d with wdogNs := 0 }).ctxs } ∧
      (∀ v, v ≠ w → u.warp v = s.warp v) ∧ u.warp w = some { x.noEarly [64] with wait := .none, pc := pc })) ∧
  (∀ (s : State) (w : Nat) (x : Warp) (t : Team) (g : Grid) (c : Ctx) (d : DueTrap) (rest : List DueTrap), s.warp w = some x →
    s.home x = some (t, g, c) → x.handler = false → x.debug = false → x.inFlight = false → s.refilling w = false →
    x.lateLd.all (·.rmw.isNone) = true → x.due = d :: rest → d.code = 0x30 → d.rank = 5 →
    (∀ e ∈ rest, 5 ≤ e.rank) →
    (g.trapvec.getLsbD 0 = true → Completes (.preemptNotice w) s
      [(w, { Warp.inHandler { x with due := rest } g 0x30 d.val d.pcL d.lanes .boundary with due := rest })] [(x.team, { t with noticed := true })]) ∧
    (g.trapvec.getLsbD 0 = false → Completes (.preemptNotice w) s [(w, { x with due := rest })] []))

/-- R76, R216, R218, R31, R245. An engine performs a read-modify-write on its word at once; when an operation that is the head of its class
has been performed it retires: the counter goes down, the destination holds what it returned and is pending no more, the trap that it met
is due at the retirement point, and the operation is gone.
R160. A nameless store takes a free unit of Cove's choice (one that meets a registered view's destination is not free: the model's choice, log 96): its bytes and zeros to the end of the unit stand there, the unit is in use,
and the name is its address. With no candidate the name is 0, and PFULL counts, or with WFULL the store waits. -/
def Obligations.EnginePiecesAndPlaces : Prop :=
  ((∀ (s s1 : State) (id pa : Nat) (o : Op) (x : Warp) (r : Rmw) (t : Trans), s.mgmt.run = .run → s.op id = some o → s.warp o.warp = some x →
     o.kind = .rmws [r] → o.todo = [0] → (x.pendOf o.cls).head? = some id → tFind o.trans (r.va / 65536) = some t → t.poison = false →
     attrWatch t.attr = false → r.va % r.len = 0 → r.len ∈ [2, 4, 8] → r.aop ∈ [Aop.swap, .cas, .add, .or, .minn, .maxn, .min, .max] →
     pa = t.ppn * 65536 + r.va % 65536 → s.meetLine 0 o.ctx r.va t = (s1, false) → memb s1.mem.poison (pa / 64) = false →
     s1.steady (attrKey t.attr) pa →
     let old := ofBytes ((List.range r.len).map fun i => s1.peek (attrKey t.attr) (pa + i))
     let opnd := r.opnd.toNat % 2 ^ (8 * r.len)
     let new : Nat := match r.aop with
       | .swap => opnd
       | .cas => if old = r.cmp.toNat % 2 ^ (8 * r.len) then opnd else old
       | .add => (old + opnd) % 2 ^ (8 * r.len)
       | .or => old ||| opnd
       | .minn => min old opnd
       | .maxn => max old opnd
       | .min => if sextI opnd (8 * r.len) < sextI old (8 * r.len) then opnd else old
       | _ => if sextI old (8 * r.len) < sextI opnd (8 * r.len) then opnd else old
     ∃ u q, s.enginePiece id 0 = u ∧ u.op id = some q ∧ q.todo = [] ∧ tFind q.got r.lane = some ⟨BitVec.ofNat 64 old, o.lab⟩ ∧
       (∀ i, i < r.len → u.peek (attrKey t.attr) (pa + i) = BitVec.ofNat 8 (new / 256 ^ i)) ∧ SameSlotOutside s1 u (attrKey t.attr) pa r.len) ∧
   (∀ (s : State) (id d : Nat) (o : Op) (x : Warp) (rest : List Nat) (v : LVal), s.mgmt.run = .run → s.op id = some o →
     s.warp o.warp = some x → x.pendOf o.cls = id :: rest → id ∉ rest → (∀ h ∈ rest, ∃ p, s.op h = some p ∧ p.done = false) →
     (∃ rs, o.kind = .rmws rs) ∨ (∃ r k, o.kind = .dqPop r k) ∨ (∃ k, o.kind = .dqSteal k) ∨ (∃ p f n, o.kind = .relq p f n) →
     o.slot = none → o.todo = [] → o.wrote = [] → o.ret = .s d → d ≠ 0 → o.got = [(0, v)] →
     ∃ (u : State) (y : Warp), exec (.counterRetire id) s = .next u ∧ u.op id = none ∧ u.warp o.warp = some y ∧ y.pendOf o.cls = rest ∧
       (∀ c, c ≠ o.cls → y.pendOf c = x.pendOf c) ∧ y.readS d = v ∧ (∀ r, r ≠ d → y.readS r = x.readS r) ∧ memb y.sPend d = false ∧
       (∀ r, r ≠ d → memb y.sPend r = memb x.sPend r) ∧ y.pc = x.pc ∧ y.v = x.v ∧ y.k = x.k ∧ y.p = x.p ∧
       y.due = x.due ++ (match o.trap with
         | some (code, val) => [{ rank := 4, code := code, val := val, lanes := 0, entry := none, pcL := 0 }]
         | none => []) ∧
       (∀ w, w ≠ o.warp → u.warp w = s.warp w) ∧ (∀ t, u.team t = s.team t) ∧ SameMain s u ∧ SameChip s u)) ∧
  (∀ (s s1 : State) (id unit pool tries : Nat) (bytes : List Byte) (o : Op) (c : Ctx) (p : Pool), s.mgmt.run = .run → s.op id = some o →
     o.kind = .nstore pool bytes tries → o.done = false → s.ctx o.ctx = some c → tFind c.pools pool = some p →
     let va := p.base + unit * p.usz
     let pte := s.leaf c (va / 65536)
     let pa := ptePpn pte * 65536 + va % 65536
     (s.anyFree o.ctx c p o.lab = true → s.poolFree o.ctx c p o.lab unit = true → s.fillUnit o va p.usz bytes = (s1, false) →
       bytes.length ≤ p.usz → va % 65536 + p.usz ≤ 65536 → (∀ i, i < p.usz → s.steady (attrKey (pteAttr pte)) (pa + i)) →
       ∃ (u : State) (d : Ctx) (q : Pool), exec (.nstorePlace id unit) s = .next u ∧
         u.op id = some { o with got := [(0, ⟨BitVec.ofNat 64 va, o.lab⟩)], done := true } ∧ u.ctx o.ctx = some d ∧
         tFind d.pools pool = some q ∧ q = { p with used := q.used } ∧ (∀ n, memb q.used n = true ↔ memb p.used n = true ∨ n = unit) ∧
         ∀ i, i < p.usz → u.peek (attrKey (pteAttr pte)) (pa + i) = (bytes[i]?).getD 0) ∧
     (s.anyFree o.ctx c p o.lab = false →
       (p.wfull = true → exec (.nstorePlace id unit) s = .next s) ∧
       (p.wfull = false → ∃ u : State, exec (.nstorePlace id unit) s = .next u ∧ (∀ n, u.ctx n = s.ctx n) ∧ SameMain s u ∧
         u.op id = some { o with got := [(0, ⟨0, o.lab⟩)], done := true } ∧
         (s.mgmt.ctrctl.getLsbD 0 = false →
           (tGet u.ctrs 0 (0x36 * 65536 + (16 * o.ctx + pool))).toNat = min ((tGet s.ctrs 0 (0x36 * 65536 + (16 * o.ctx + pool))).toNat + 1) (2 ^ 64 - 1)))))

/-! ### Queues and packets -/

/-- R180, R188, R191, R193, R7. The registers of queues and of the management interface: EN from 0 to 1 restarts HEAD, TAIL and the
coalescing state in a new period, EN from 1 to 0 only stops fetching; a doorbell fetches the packet that it covers from the ring into the
mailbox; the pending message fires ICT µs after it was set; writes store the fields that R180 and R191 name, within their limits. A write to
MDOOR with bit 0 set, where no command executes, takes the command block as it stands then (R193). -/
def Obligations.QueuesAndRegisters : Prop :=
  ∀ (s : State) (fn q : Nat), s.mgmt.run = .run → fn ≤ 16 → q < 16 →
    let x := s.queue fn q
    let becomes (i : Instr) (y : Queue) : Prop := ∃ u : State, exec i s = .next u ∧ s.QueueTo u fn q y
    let started : Queue := { x with en := true, head := 0, tail := 0, inflight := 0, pend := none, period := x.period + 1 }
    let reg (r : Nat) : Nat := 0x1000 + 32 * q + 8 * r
    (x.en = false → becomes (.queueEnable fn q) started) ∧ (x.en = true → exec (.queueEnable fn q) s = .next s) ∧
    becomes (.queueDisable fn q) { x with en := false } ∧
    (x.pend = none → exec (.coalesceTimer fn q) s = .next s) ∧
    (∀ ns, x.pend = some ns →
      (ns < x.ict.toNat * 1000 → exec (.coalesceTimer fn q) s = .next s) ∧
      (x.ict.toNat * 1000 ≤ ns → ∃ u : State, exec (.coalesceTimer fn q) s = .next u ∧
        s.QueueTo { u with outbox := s.outbox } fn q { x with pend := none } ∧ u.outbox = s.outbox ++ [.msix fn x.vec])) ∧
    (∀ tail : BitVec 16, x.log2n.toNat ≤ 16 → x.head.toNat < 2 ^ x.log2n.toNat →
      (∀ e ∈ s.front.packets, ¬ (e.2.fn = fn ∧ e.2.q = q ∧ e.2.kind = 3 ∧ e.2.stage = .started)) →
      let t := BitVec.ofNat 16 (tail.toNat % 2 ^ x.log2n.toNat)
      (x.en = false ∨ t = x.head → becomes (.doorbell fn q tail) { x with tail := t }) ∧
      (x.en = true → t ≠ x.head → t.toNat = (x.head.toNat + 1) % 2 ^ x.log2n.toNat → fn ≠ 16 →
        ((tFind s.front.mail fn).getD []).length < 64 →
        ∃ (u : State) (p : Packet), exec (.doorbell fn q tail) s = .next u ∧ u.packet s.nextId = some p ∧ p.fn = fn ∧ p.q = q ∧
          p.period = x.period ∧ p.stage = .fetched ∧ p.words = ((List.range 8).map fun i => BitVec.ofNat 64 (ofBytes
            ((List.range 8).map fun b => s.peek 0 (0x8000000000000 + (x.base.toNat / 4096 * 4096 + 64 * x.head.toNat) % 2 ^ 51 + 8 * i + b)))) ∧
          u.queue fn q = { x with tail := t, head := t, inflight := x.inflight + 1 } ∧
          tFind u.front.mail fn = some ((tFind s.front.mail fn).getD [] ++ [{ packet := s.nextId, bad := false, ns := 0 }]) ∧ SameMain s u)) ∧
    (∀ v : BitVec 64,
      let cfg : Queue := { x with
        ict := BitVec.ofNat 16 (max 1 (min (v.toNat / 2 ^ 32 % 65536) 1024)), vec := v.extractLsb' 16 11,
        log2n := if x.en then x.log2n else if 6 ≤ v.toNat % 64 ∧ v.toNat % 64 ≤ 16 then BitVec.ofNat 6 (v.toNat % 64) else 6 }
      (x.en = false → becomes (.registerWrite fn (reg 0) v) { x with base := v &&& 0xFFFFFFFFFFFFF000 }) ∧
      (x.en = true → exec (.registerWrite fn (reg 0) v) s = .next s) ∧
      becomes (.registerWrite fn (reg 1) v) (if v.getLsbD 63 = false then { cfg with en := false } else if x.en then cfg
        else { cfg with en := true, head := 0, tail := 0, inflight := 0, pend := none, period := x.period + 1 }) ∧
      exec (.registerWrite fn (reg 3) v) s = .next s ∧
      (∀ i, i < 16 → ∃ u : State, exec (.registerWrite 16 (0x100 + 8 * i) v) s = .next u ∧
        u = { s with mgmt := { s.mgmt with mcmd := u.mgmt.mcmd } } ∧
        ∀ j, tGet u.mgmt.mcmd 0 j = if j = i then v else tGet s.mgmt.mcmd 0 j) ∧
      exec (.registerWrite 16 8 v) s = .next { s with mgmt := { s.mgmt with mevBase := v &&& 0xFFFFFFFFFFFFF000 } } ∧
      exec (.registerWrite 16 0x20 v) s = .next { s with mgmt := { s.mgmt with mevHead := v.setWidth 16 } } ∧
      exec (.registerWrite 16 0x188 v) s = .next s ∧
      (s.mgmt.cmdBusy = true ∨ v.getLsbD 0 = false → exec (.registerWrite 16 0x180 v) s = .next s) ∧
      (s.mgmt.cmdBusy = false → v.getLsbD 0 = true → (tGet s.mgmt.mcmd 0 0).toNat % 65536 ∈ [1, 2, 3, 4, 5, 6, 7, 8, 9, 10, 16, 17, 18, 19, 20, 21] →
        exec (.registerWrite 16 0x180 v) s = .next { s with mgmt := { s.mgmt with cmdBusy := true, cmd := s.mgmt.mcmd } }))

/-- R178, R179, R185. Lighthouse takes the oldest mailbox entry of a function core: a request whose words break R182 finishes REFUSED with
FORMAT, one whose context is not its function's with OWNER, any other one is valid. An entry left unanswered for 100 ms resets the core,
which files its requests again (R179 has it fetch again from HEAD; that the requests it had filed are filed again is the model's reading, log 48, DEDUCED).
R181, R183, R133 to R135. Packets whose turn has come: SIGNAL_SET and NOP do no work, TIMESTAMP records TIME; SIGNAL_WAIT finishes where its
word meets the condition, or FAILED with the fault's code where it cannot be read, and stays open otherwise, when it is read again (R256: one of a
context whose removal has begun ends FAILED with TRANSLATE, whatever its word holds); EDIT has
the effect or the refusal of `MAPEDIT`; SYNC is done at once where no operation and no waiting warp holds a replaced translation; REFIT waits until its edits are
folded in and reports the FIX count. A packet that must wait for its turn does nothing. -/
def Obligations.MailboxesAndSimplePackets : Prop :=
  (∀ (s : State) (fn : Nat), s.mgmt.run = .run → s.fetched fn →
     (∀ (m : Mail) (r : List Mail) (p : Packet), tFind s.front.mail fn = some (m :: r) → m.bad = false → s.packet m.packet = some p →
       p.stage = .fetched → p.fn = fn →
       ∃ u : State, exec (.mailboxRequest fn) s = .next u ∧ tFind u.front.mail fn = some r ∧
         u = { s with front := { s.front with mail := u.front.mail, packets := u.front.packets } } ∧
         (∀ j, j ≠ m.packet → u.packet j = s.packet j) ∧
         u.packet m.packet = some (
           if p.badFormat then p.ends 1 0x01 0
           else if (s.ctx p.ctx).any fun c => c.fn == fn && !c.invalid then { p with stage := .valid }
           else p.ends 1 0x40 0)) ∧
     (∀ ms, tFind s.front.mail fn = some ms → (∃ m ∈ ms, 100000000 ≤ m.ns) →
       ∃ u : State, exec (.mailboxTimeout fn) s = .next u ∧ u = { s with front := { s.front with mail := u.front.mail } } ∧
         tFind u.front.mail fn = some (ms.map fun m => { packet := m.packet, bad := false, ns := 0 }) ∧
         ∀ f, f ≠ fn → tFind u.front.mail f = tFind s.front.mail f)) ∧
  (∀ (s : State) (k : Nat) (p : Packet),
     let done (i : Instr) (status : Nat) (cause : BitVec 8) (detail : W64) : Prop :=
       ∃ u : State, exec i s = .next u ∧ s.PacketTo u k (p.ends status cause detail)
     let va := p.word 6
     let slot := p.word 5 % 64
     (PacketStarts s k p → p.kind = 2 → done (.signalSet k) 0 0 0) ∧ (PacketStarts s k p → p.kind = 6 → done (.nop k) 0 0 0) ∧
     (PacketStarts s k p → p.kind = 5 → done (.timestamp k) 0 0 s.time) ∧
     (s.packet k = some p → p.stage = .valid → p.subs = [] →
       (∃ e ∈ s.front.packets, e.1 < k ∧ e.2.fn = p.fn ∧ e.2.q = p.q ∧ e.2.kind = 3 ∧ e.2.stage = .started) →
       exec (.signalSet k) s = .next s ∧ exec (.nop k) s = .next s ∧ exec (.timestamp k) s = .next s ∧ exec (.signalWait k) s = .next s) ∧
     (∀ (i : Instr) (s1 : State), (PacketStarts s k p ∧ i = .signalWait k ∨
         (s.mgmt.run = .run ∧ s.packet k = some p ∧ p.stage = .started ∧ i ∈ [Instr.signalWait k, .signalWordPoll k false])) → p.kind = 3 →
       (∀ f, s.devRead p.ctx (p.word 4 % 2 ^ 57) 8 .r = (s1, .error f) →
         ∃ u : State, exec i s = .next u ∧ s1.PacketTo u k (p.ends 2 f 0)) ∧
       (∀ bs, s.devRead p.ctx (p.word 4 % 2 ^ 57) 8 .r = (s1, .ok bs) →
         let word := ofBytes bs
         let cmp := p.word 5 / 256 % 4
         let holds : Bool := if cmp = 0 then word == p.word 6 else if cmp = 1 then decide (p.word 6 ≤ word) else word != p.word 6
         ∃ u : State, exec i s = .next u ∧ s1.PacketTo u k (if holds = true then p.ends 0 0 0 else { p with stage := .started }))) ∧
     (∀ (i : Instr) (c : Ctx), s.mgmt.run = .run → s.packet k = some p → p.stage = .started → p.kind = 3 → s.ctx p.ctx = some c →
       c.invalid = true → i ∈ [Instr.signalWait k, .signalWordPoll k false] → done i 2 0x12 0) ∧
     (∀ c, PacketStarts s k p → p.kind = 4 → s.ctx slot = some c →
       (p.word 4 % 256 = 1 →
         (∀ f v, s.editRefused c va (p.word 7) = some (f, v) → done (.mapEdit k) 1 f 0) ∧
         (s.editRefused c va (p.word 7) = none → s.editWaits slot (va / 65536) = false →
           ∃ u : State, exec (.mapEdit k) s = .next u ∧ (s.editLeaf slot (va / 65536) (p.word 7) true).PacketTo u k (p.ends 0 0 0)) ∧
         (s.editRefused c va (p.word 7) = none → s.editWaits slot (va / 65536) = true →
           ∃ u : State, exec (.mapEdit k) s = .next u ∧ s.PacketTo u k { p with stage := .started })) ∧
       (p.word 4 % 256 = 2 →
         (2 ^ 57 ≤ va ∨ 2 ^ 25 < p.word 7 → done (.mapSync k) 1 0x01 0) ∧
         (va < 2 ^ 57 → p.word 7 ≤ 2 ^ 25 → s.oldOps slot (va / 65536) (p.word 7) = [] →
           s.oldSigs slot (va / 65536) (p.word 7) = [] → done (.mapSync k) 0 0 0)) ∧
       (p.word 4 % 256 = 3 →
         (c.tickets ≤ c.folded → done (.mapRefit k) 0 0 (BitVec.ofNat 64 (s.fixCount slot))) ∧
         (c.folded < c.tickets → ∃ u : State, exec (.mapRefit k) s = .next u ∧ s.PacketTo u k { p with stage := .started, ticket := c.tickets }))))

/-- R184 to R187. A bundle whose descriptor cannot be read, that is empty, or one slot of which is refused, finishes REFUSED with the cause
and the slot, and nothing of it starts; a bundle of COPY slots starts all of them at once (that a hub copy engine is always free is the model's
reading, log 48, DEDUCED). A hub copy engine reads a COPY slot's next
descriptor: a nonzero word 3 or a length above 2^32 ends the slot FAILED with 0x01, an unreadable one or a failed check with its code,
otherwise one operation reads each byte of
the source and writes it to its place, and touches no other byte; after the last descriptor the slot ends DONE, and with the last slot the packet has finished. -/
def Obligations.BundlesAndCopies : Prop :=
  ∀ (s s1 : State) (k : Nat) (p : Packet),
    (PacketStarts s k p → p.kind = 1 →
      (∀ e, s.readWords p.ctx (p.word 4 % 2 ^ 57) 32 .r = (s1, .error e) →
        ∃ u : State, exec (.bundle k) s = .next u ∧ s1.PacketTo u k (p.ends 1 e 0)) ∧
      (∀ d, s.readWords p.ctx (p.word 4 % 2 ^ 57) 32 .r = (s1, .ok d) → d.length = 32 →
        let w (i j : Nat) : Nat := (d[8 * i + j]?).getD 0
        ((∀ i, i < 4 → w i 0 % 16 = 0) → ∃ u : State, exec (.bundle k) s = .next u ∧ s1.PacketTo u k (p.ends 1 0x01 0)) ∧
        (∀ i, i < 4 → w i 0 % 16 ∉ [0, 1, 2, 3, 4] → (∀ j, j < i → w j 0 % 16 = 0 ∧ ∀ n, n < 8 → w j n = 0) →
          ∃ u : State, exec (.bundle k) s = .next u ∧ s1.PacketTo u k { p.ends 1 0x01 0 with slot := i }) ∧
        ((∀ i, i < 4 → w i 0 % 16 = 2 ∧ w i 0 / 16 % 2 ^ 28 = 0 ∧ w i 0 / 2 ^ 48 = 0 ∧ w i 0 / 2 ^ 32 % 65536 ≠ 0 ∧ w i 1 % 32 = 0 ∧
            ∀ n, 2 ≤ n → n < 8 → w i n = 0) →
          ∃ u : State, exec (.bundle k) s = .next u ∧ s1.PacketTo u k { p with
            stage := .started
            subs := (List.range 4).map fun i => { kind := .copy (w i 1) (w i 0 / 2 ^ 32 % 65536) 0, ended := none, detail := 0 } }))) ∧
    (∀ (va n next : Nat), s.mgmt.run = .run → s.packet k = some p → p.stage = .started →
      p.subs = [{ kind := .copy va n next, ended := none, detail := 0 }] → (∀ o ∈ s.work.ops, o.2.slot ≠ some (k, 0)) →
      let ends (t u : State) (status : Nat) (cause : BitVec 8) : Prop := t.PacketTo u k
        { p with stage := .finished, status := status, cause := cause, slot := 0, detail := 0,
                 subs := [{ kind := .copy va n next, ended := some (status, cause), detail := 0 }] }
      (n ≤ next → ∃ u : State, exec (.copyDescriptor k 0) s = .next u ∧ ends s u 0 0) ∧
      (next < n → (∀ e, s.readWords p.ctx (va + 32 * next) 4 .r = (s1, .error e) →
          ∃ u : State, exec (.copyDescriptor k 0) s = .next u ∧ ends s1 u 2 e) ∧
        (∀ src dst len z, s.readWords p.ctx (va + 32 * next) 4 .r = (s1, .ok [src, dst, len, z]) →
          (z ≠ 0 ∨ 2 ^ 32 < len → ∃ u : State, exec (.copyDescriptor k 0) s = .next u ∧ ends s1 u 2 0x01) ∧
          (z = 0 → len ≤ 2 ^ 32 → ∀ (s2 s3 : State) (t1 t2 : Table Trans) (l m : Label),
            s1.transRange 0 p.ctx none .r none src len = (s2, .ok (t1, l)) →
            s2.transRange 0 p.ctx none .w (some l) dst len = (s3, .ok (t2, m)) → (∀ e ∈ mergeTrans t1 t2, e.2.poison = false) →
            ∃ (u : State) (o : Op) (ps : List Piece), exec (.copyDescriptor k 0) s = .next u ∧ u.op s3.nextId = some o ∧
              o.kind = .move ps none ∧ o.slot = some (k, 0) ∧ o.done = false ∧ o.todo = List.range ps.length ∧ o.trans = mergeTrans t1 t2 ∧
              u.packet k = some { p with subs := [{ kind := .copy va n (next + 1), ended := none, detail := 0 }] } ∧
              MovesRow ps 1 src 0 1 dst len ∧ ∀ q ∈ ps, q.ofRow 1 src 0 1 dst len))))

/-- R187, R188, R222. A finished packet whose awaited tiles are fresh writes its record, then its signal, each counted on SIGDROP where it
cannot be made, and is gone; in its own period INFLIGHT falls by one, PEND is set unless NOINT, and at INFLIGHT 0 the message fires. -/
def Obligations.PacketRetirement : Prop :=
  ∀ (s s1 s2 : State) (k : Nat) (p : Packet) (c : Ctx), s.mgmt.run = .run → s.packet k = some p → p.stage = .finished →
    (p.word 0 / 65536 % 2 = 1 → ∀ t ∈ p.tiles, s.freshFor t = true) → p.silent = false → p.q < 16 → s.ctx p.ctx = some c → c.fn = p.fn →
    let x := s.queue p.fn p.q
    let reca := p.word 3 % 2 ^ 57
    let siga := p.word 1 % 2 ^ 57
    let sigop := p.word 0 / 2 ^ 14 % 4
    let record := toBytes 8 (p.word 0 / 2 ^ 32 * 2 ^ 32 + p.cause.toNat * 65536 + p.slot * 256 + p.status) ++ toBytes 8 p.detail.toNat
    let writes (t : State) (va : Nat) (bs : List Byte) (u : State) : Prop :=
      t.devWrite p.ctx va bs = (u, true) ∨ ∃ v, t.devWrite p.ctx va bs = (v, false) ∧ u = v.count 0x54 p.fn 1
    let pend := if p.word 0 / 512 % 2 = 1 then x.pend else some (x.pend.getD 0)
    (reca = 0 → s1 = s) → (reca ≠ 0 → reca % 16 ≠ 0 → s1 = s.count 0x54 p.fn 1) → (reca ≠ 0 → reca % 16 = 0 → writes s reca record s1) →
    (sigop = 0 → s2 = s1) → (sigop = 3 ∨ (sigop ≠ 0 ∧ siga % 8 ≠ 0) → s2 = s1.count 0x54 p.fn 1) →
    (sigop = 1 → siga % 8 = 0 → writes s1 siga (toBytes 8 (p.word 2)) s2) →
    (sigop = 2 → siga % 8 = 0 → match s1.devTranslate p.ctx siga .w with
      | (v, .ok t) => writes v siga (toBytes 8 (ofBytes (v.peekN (attrKey t.attr) (t.ppn * 65536 + siga % 65536) 8) + p.word 2)) s2
      | (v, _) => s2 = v.count 0x54 p.fn 1) →
    ∃ u : State, exec (.packetRetire k) s = .next u ∧ u.packet k = none ∧ u.mem = s2.mem ∧ u.ctrs = s2.ctrs ∧
      (∀ j, j ≠ k → u.packet j = s.packet j) ∧
      (x.period ≠ p.period → u.queue p.fn p.q = x ∧ u.outbox = s2.outbox) ∧
      (x.period = p.period → x.inflight ≠ 1 → u.queue p.fn p.q = { x with inflight := x.inflight - 1, pend := pend } ∧ u.outbox = s2.outbox) ∧
      (x.period = p.period → x.inflight = 1 → u.queue p.fn p.q = { x with inflight := 0, pend := none } ∧
        u.outbox = s2.outbox ++ (if pend.isSome then [.msix p.fn x.vec] else []))

/-! ### Management commands -/

/-- R193, R190, R214, R84, R91, R225, R141, R224, R230, R7. Settings: SETSLICE and SETWEIGHT within their limits; REGWRITE stores the fields of the register
that it names and REGREAD returns it; MSLEXTEND makes M := SHAKE256(M ‖ d) of MSL24–MSL31 and refuses the others. A command with a bit set
that it does not name is REFUSED with FORMAT and changes nothing else. -/
def Obligations.SettingCommands : Prop :=
  ∀ (s : State),
    let w (i : Nat) : Nat := (tGet s.mgmt.cmd 0 i).toNat
    let all := 2 ^ 64 - 1
    let refused (i : Instr) (cause : BitVec 8) : Prop := ∃ u : State, exec i s = .next u ∧ Answered s s u 1 cause []
    let sets (i : Instr) (m : Mgmt) : Prop := ∃ u : State, exec i s = .next u ∧ Answered s { s with mgmt := m } u 0 0 []
    (∀ i op masks, (i, op, masks) ∈ [(Instr.setslice, 1, [0x7F]), (.setweight, 2, [0xF, 0x1F]), (.ctxcreate, 3, [0x1F, 7, 7, 0xFFFF, 0x0F0F1FFF]),
        (.ctxremove, 4, [0x3F]), (.preempt, 5, [0x3F]), (.resume, 6, [0x3F]), (.mslextend, 7, [0x1F, all, all, all, all, all, all, all, all]),
        (.regwrite, 8, [0xFF, all, all]), (.regread, 9, [0xFF, 0, all]), (.lcchange, 10, [all, 0x3FFF]), (.dbgattach, 16, [0x3F]),
        (.dbgdetach, 17, [0x3F]), (.dbgbreak, 18, [0x3F, 0x1F, all, 0xFFFFFFFF]), (.dbghalt, 19, [0x3F]),
        (.dbgframe, 20, [0x3F, all, 0xFFFFFFFFF, all, 0x103, 0x03FF03FF]), (.dbgresume, 21, [0x3F])] →
      CommandAt s op → ¬ NamesOnly s masks → refused i 0x01) ∧
    (CommandAt s 1 → NamesOnly s [0x7F] →
      (1 ≤ w 1 → w 1 ≤ 64 → sets .setslice { s.mgmt with slice := w 1 }) ∧ (w 1 = 0 ∨ 64 < w 1 → refused .setslice 0x01)) ∧
    (CommandAt s 2 → NamesOnly s [0xF, 0x1F] →
      (1 ≤ w 2 → w 2 ≤ 16 → ∃ u t : State, exec .setweight s = .next u ∧ Answered s t u 0 0 [] ∧
        t = { s with mgmt := { s.mgmt with weight := t.mgmt.weight } } ∧
        ∀ f, tGet t.mgmt.weight 1 f = if f = w 1 then w 2 else tGet s.mgmt.weight 1 f) ∧
      (w 2 = 0 ∨ 16 < w 2 → refused .setweight 0x01)) ∧
    (CommandAt s 8 → NamesOnly s [0xFF, all, all] →
      let v := tGet s.mgmt.cmd 0 2
      (w 1 = 1 → w 3 = 0 → sets .regwrite { s.mgmt with sched := v &&& 0x0000FFFFFFFFFFFF }) ∧
      (w 1 = 2 → w 3 = 0 → sets .regwrite { s.mgmt with scrub := v &&& 0x0000000FFFF0FF01 }) ∧
      (w 1 = 3 → w 3 = 0 → sets .regwrite { s.mgmt with tide := v &&& 0x0000FFFFFFFFFF01 }) ∧
      (w 1 = 4 → w 3 = 0 → sets .regwrite { s.mgmt with ctrctl := v &&& 1 }) ∧
      (w 1 = 5 → w 3 < 16 → ∃ u t : State, exec .regwrite s = .next u ∧ Answered s t u 0 0 [] ∧
        t = { s with mgmt := { s.mgmt with pfctl := t.mgmt.pfctl } } ∧
        ∀ f, tGet t.mgmt.pfctl 0x800901 f = if f = w 3 then v &&& 0xFF0F01 else tGet s.mgmt.pfctl 0x800901 f) ∧
      (w 1 = 6 → w 3 < 64 → ∃ u t : State, exec .regwrite s = .next u ∧ Answered s t u 0 0 [] ∧
        t = { s with mgmt := { s.mgmt with pmsel := t.mgmt.pmsel }, ctrs := t.ctrs } ∧ tGet t.ctrs 0 (0x60 * 65536 + w 3) = 0 ∧
        (∀ n, n ≠ 0x60 * 65536 + w 3 → tGet t.ctrs 0 n = tGet s.ctrs 0 n) ∧
        ∀ f, tGet t.mgmt.pmsel 0xFF0000 f = if f = w 3 then v &&& 0xFFFFFFFF else tGet s.mgmt.pmsel 0xFF0000 f) ∧
      (w 1 = 0 ∨ 6 < w 1 ∨ (w 1 ≤ 4 ∧ w 3 ≠ 0) ∨ (w 1 = 5 ∧ 16 ≤ w 3) ∨ (w 1 = 6 ∧ 64 ≤ w 3) → refused .regwrite 0x01)) ∧
    (CommandAt s 9 → NamesOnly s [0xFF, 0, all] → ∀ v, (w 1, w 3, v) ∈ [(1, 0, s.mgmt.sched), (2, 0, s.mgmt.scrub), (3, 0, s.mgmt.tide), (4, 0, s.mgmt.ctrctl)] ∨
        (w 1 = 5 ∧ w 3 < 16 ∧ v = tGet s.mgmt.pfctl 0x800901 (w 3)) ∨ (w 1 = 6 ∧ w 3 < 64 ∧ v = tGet s.mgmt.pmsel 0xFF0000 (w 3)) →
      ∃ u : State, exec .regread s = .next u ∧ Answered s s u 0 0 [v]) ∧
    (CommandAt s 7 → NamesOnly s [0x1F, all, all, all, all, all, all, all, all] →
      let d : List Byte := (List.range 8).flatMap fun i => toBytes 8 (w (i + 2))
      (w 1 < 24 → refused .mslextend 0x01) ∧
      (24 ≤ w 1 → ∃ u t : State, exec .mslextend s = .next u ∧ Answered s t u 0 0 [] ∧ t = { s with belv := { s.belv with msl := t.belv.msl } } ∧
        ∀ n, tGet t.belv.msl 0 n =
          if n = w 1 then Config.shake256 (toBytes 64 (tGet s.belv.msl 0 n).toNat ++ d) else tGet s.belv.msl 0 n))

/-- R193, R203, R124, R49, R236, R256. CTXCREATE binds the lowest-numbered free slot to its function with a zeroed top node, its node pool,
its deques, empty and unowned, and for PROT a fresh key slot from 1 to 63; it refuses arguments out of their limits with FORMAT, and RESOURCE without
a free slot. CTXREMOVE removes the context, or is refused with STATE. A removal without a resident warp ends at once, one with warps when
100 µs have passed: the context, its grids, teams, warps, operations, translations and deques are gone, and its key is erased.
That a removal finishes at once where no warp is resident is the model's reading (log 33, DEDUCED: R256 gives the steps and no such case). -/
def Obligations.ContextCommands : Prop :=
  ∀ (s : State),
    let w (i : Nat) : Nat := (tGet s.mgmt.cmd 0 i).toNat
    let refused (i : Instr) (cause : BitVec 8) : Prop := ∃ u : State, exec i s = .next u ∧ Answered s s u 1 cause []
    let prot := w 2 % 2 = 1
    let sys := w 2 / 4 % 2 = 1
    let n := w 5 % 2 ^ 13
    let cap := w 5 / 2 ^ 16 % 16
    let dies := (List.range 4).filter fun d => decide (w 5 / 2 ^ 24 / 2 ^ d % 2 = 1)
    let legal : Prop := w 1 ≤ 16 ∧ (sys → w 1 = 16) ∧ w 4 ≠ 0 ∧ n ≤ 4096 ∧ 4 ≤ cap ∧ cap ≤ 10 ∧ dies ≠ []
    let gone (u : State) (slot : Nat) (c : Ctx) : Prop := u.ctx slot = none ∧ (∀ e ∈ u.work.grids, e.2.ctx ≠ slot) ∧
      (∀ e ∈ u.work.ops, e.2.ctx ≠ slot) ∧ (∀ e ∈ u.xlat.exc, e.2.ctx ≠ slot) ∧ (∀ e ∈ u.deques, e.2.ctx ≠ slot) ∧
      (c.prot = true → tFind u.mem.keys c.keySlot = none) ∧
      ∀ t y g, s.team t = some y → s.grid y.grid = some g → g.ctx = slot → u.team t = none ∧ ∀ v x, u.warp v = some x → x.team ≠ t
    (CommandAt s 3 → NamesOnly s [0x1F, 7, 7, 0xFFFF, 0x0F0F1FFF] →
      (¬ legal → refused .ctxcreate 0x01) ∧ (legal → (∀ c, c < 64 → s.ctx c ≠ none) → refused .ctxcreate 0x41) ∧
      (∀ (c : Nat) (dq : List (Nat × Nat)) (s1 : State) (root : Nat) (pool : List Nat), legal → c < 64 → s.ctx c = none → (∀ d, d < c → s.ctx d ≠ none) →
        (prot → ∃ k, 1 ≤ k ∧ k ≤ 63 ∧ tFind s.mem.keys k = none) → s.dealDeques dies cap n = some dq →
        (∀ d ∈ dies, s.scratchUsed d + (8 * 2 ^ cap * (dq.filter fun e => e.1 / 4096 == d).length + 65535) / 65536 ≤ 1024) →
        s.takeFrames (w 4) = (s1, some (root :: pool)) →
        ∃ (u t : State) (x : Ctx), exec .ctxcreate s = .next u ∧ Answered s t u 0 0 [BitVec.ofNat 64 c] ∧ t.ctx c = some x ∧
          x.fn = w 1 ∧ x.label = BitVec.ofNat 3 (w 3) ∧ x.prot = decide prot ∧ x.mfctx = decide (w 2 / 2 % 2 = 1) ∧ x.sys = decide sys ∧
          x.savectr = 0 ∧ x.saveseq = 0 ∧ x.code = 0 ∧ x.mutableC = false ∧ x.pre = .run ∧ x.views = [] ∧ x.pools = [] ∧ x.dbg = none ∧
          x.invalid = false ∧ x.root = root ∧ x.nodePool = pool ∧ x.dqs = dq.map (·.1) ∧
          (∀ i, i < 65536 → t.peek 0 (root * 65536 + i) = 0) ∧ (¬ prot → x.keySlot = 0) ∧
          (prot → 1 ≤ x.keySlot ∧ x.keySlot ≤ 63 ∧ tFind s.mem.keys x.keySlot = none ∧
            tFind t.mem.keys x.keySlot = some { xts := s1.mem.nextKey, next := none, save := s1.mem.nextKey + 1, sweeps := [], epoch := 0, ranges := [] }) ∧
          (∀ q ∈ dq.map (·.1), ∃ d, tFind t.deques q = some d ∧ d.ctx = c ∧ d.log2cap = cap ∧ d.owner = none ∧ d.bottom = 0 ∧ d.top = 0 ∧ d.ring = []) ∧
          ∀ d, d ≠ c → t.ctx d = s.ctx d)) ∧
    (CommandAt s 4 → NamesOnly s [0x3F] →
      (s.ctx (w 1) = none → refused .ctxremove 0x45) ∧
      (∀ c, s.ctx (w 1) = some c → ∃ u : State, exec .ctxremove s = .next u ∧ Answered s (s.removeContext (w 1) 0x44 false) u 0 0 [])) ∧
    (∀ slot c cause flr, s.ctx slot = some c → (∀ k t f, c.pre ≠ .removing k t f) →
      ((∀ e ∈ s.work.warps, ∀ t y g, s.home e.2 = some (t, y, g) → y.ctx ≠ slot) →
        gone (s.removeContext slot cause flr) slot c) ∧
      (∀ v x t g, s.warp v = some x → s.home x = some (t, g, c) → g.ctx = slot →
        ∃ d, (s.removeContext slot cause flr).ctx slot = some d ∧ d.pre = .removing cause 0 flr ∧ d.invalid = true ∧
          (∀ e ∈ (s.removeContext slot cause flr).xlat.exc, e.2.ctx ≠ slot) ∧
          ∀ k z, (s.removeContext slot cause flr).grid k = some z → z.ctx = slot → z.killed ≠ none ∧ z.nextTeam = z.teams ∧ z.relaunch = [])) ∧
    (∀ slot c cause ns flr, s.ctx slot = some c → c.pre = .removing cause ns flr →
      (ns < 100000 → exec (.removalForceStop slot) s = .next s) ∧
      (100000 ≤ ns → ∃ u : State, exec (.removalForceStop slot) s = .next u ∧ gone u slot c))

/-- R207 to R210, R194, R240, R258, R212, R190. PREEMPT puts a context from RUN into DRAIN with SAVECTR + 1, SAVESEQ 0 and its deadline timer at PDEAD,
and a notice becomes due in each warp of its persistent teams; once it is drained it is SAVED, the event SAVED is posted to the ring, its function's
mailbox is told so, and RESUME returns it to RUN; time counts the deadline timer down, which at 0 removes the context with CAUSE 0x43, and a
watchdog timer that reaches WDOG removes it with 0x42. Other states are refused with STATE.
R190. At the end of a slice, or when its holder has nothing waiting, the next function in rotation with a launch waiting takes the slice; contexts
of that function that an earlier slice had pre-empted run again, and a function whose resident teams hold the cores that it waits for is pre-empted: that such a function is one without whose teams a gang
that waits would find room is the model's reading (log 54, DEDUCED). -/
def Obligations.PreemptionSlicesAndWatchdog : Prop :=
  (∀ (s : State),
     let slot := (tGet s.mgmt.cmd 0 1).toNat
     let refused (i : Instr) : Prop := ∃ u : State, exec i s = .next u ∧ Answered s s u 1 0x45 []
     let sched (hi lo : Nat) : Nat := s.mgmt.sched.toNat / 2 ^ lo % 2 ^ (hi + 1 - lo)
     (CommandAt s 5 → NamesOnly s [0x3F] →
       ((∀ c, s.ctx slot = some c → c.pre ≠ .run) → refused .preempt) ∧
       (∀ c, s.ctx slot = some c → c.pre = .run → (c.savectr + 1).toNat / 2 ^ 40 = 0 → ∃ u t : State, exec .preempt s = .next u ∧ Answered s t u 0 0 [] ∧
         t.ctx slot = some { c with pre := .drain (max 1 (sched 31 16) * 10000), sliced := false, savectr := c.savectr + 1, saveseq := 0 } ∧
         (∀ d, d ≠ slot → t.ctx d = s.ctx d) ∧
         ∀ v x y g, s.warp v = some x → s.home x = some (y, g, c) → g.ctx = slot → t.warp v = some (
           if g.kernel.pers = true ∧ (∀ d ∈ x.due, d.rank ≠ 5) then
             { x with due := x.due ++ [{ rank := 5, code := 0x30, val := 0, lanes := 0, entry := none, pcL := 0 }] } else x))) ∧
     (CommandAt s 6 → NamesOnly s [0x3F] →
       ((∀ c, s.ctx slot = some c → c.pre ≠ .saved) → refused .resume) ∧
       (∀ c, s.ctx slot = some c → c.pre = .saved → ∃ u t : State, exec .resume s = .next u ∧ Answered s t u 0 0 [] ∧ t = { s with ctxs := t.ctxs } ∧
         t.ctx slot = some { c with pre := .run, sliced := false } ∧ ∀ d, d ≠ slot → t.ctx d = s.ctx d)) ∧
     (∀ k c ns, s.ctx k = some c → c.pre = .drain ns →
       ((∃ e ∈ s.work.teams, ∃ g, s.grid e.2.grid = some g ∧ g.ctx = k) → exec (.drainComplete k) s = .next s) ∧
       (s.mgmt.run = .run → (∀ e ∈ s.work.teams, ∀ g, s.grid e.2.grid = some g → g.ctx ≠ k) →
         (∀ e ∈ s.work.ops, e.2.ctx = k → e.2.slot.isSome = true) → ∃ u : State, exec (.drainComplete k) s = .next u ∧ Out.saved c.fn k ∈ u.outbox ∧
           u = { s.postEvent 1 k 0 0 0 0 0 with ctxs := u.ctxs, outbox := u.outbox } ∧
           (c.sliced = false ∨ c.fn ≠ s.mgmt.holder → u.ctx k = some { c with pre := .saved }) ∧
           (c.sliced = true → c.fn = s.mgmt.holder → u.ctx k = some { c with pre := .run, sliced := false })) ∧
       (∀ a, ∃ d : Ctx, (s.elapse a).ctx k = some d ∧ d.pre = .drain (ns - a)) ∧
       (ns ≠ 0 → exec (.preemptDeadline k) s = .next s) ∧
       (s.mgmt.run = .run → ns = 0 → ∃ u : State, exec (.preemptDeadline k) s = .next u ∧
         u = (s.count 0x52 c.fn 1).removeContext k 0x43 false)) ∧
     (∀ k c, s.ctx k = some c →
       (sched 47 32 = 0 ∨ c.wdogNs < sched 47 32 * 1000000 → exec (.watchdogExpiry k) s = .next s) ∧
       (s.mgmt.run = .run → sched 47 32 ≠ 0 → sched 47 32 * 1000000 ≤ c.wdogNs → (∀ a t f, c.pre ≠ .removing a t f) →
         ∃ u : State, exec (.watchdogExpiry k) s = .next u ∧ u = (s.count 0x53 c.fn 1).removeContext k 0x42 false))) ∧
  (∀ (s : State), s.mgmt.run = .run →
     let h := s.mgmt.holder
     (s.hasWaiting h = true → s.mgmt.sliceNs < s.mgmt.slice * s.weightOf h * 1000000 → exec .sliceEnd s = .next s) ∧
     ((s.hasWaiting h = false ∨ s.mgmt.slice * s.weightOf h * 1000000 ≤ s.mgmt.sliceNs) →
       ((∀ f, f < 17 → s.hasWaiting f = false) → exec .sliceEnd s = .next s) ∧
       (∀ i, 1 ≤ i → i ≤ 17 → s.hasWaiting ((h + i) % 17) = true → (∀ j, 1 ≤ j → j < i → s.hasWaiting ((h + j) % 17) = false) →
         let n := (h + i) % 17
         ∃ u : State, exec .sliceEnd s = .next u ∧ u.mgmt = { s.mgmt with holder := n, sliceNs := 0 } ∧
           (n = h → u = { s with mgmt := u.mgmt }) ∧
           (n ≠ h → ∀ k c, s.ctx k = some c → c.fn = n → (∀ e ∈ s.ctxs, e.1 = k → e.2 = c) → (c.sliced = true → c.pre = .saved → u.ctx k = some { c with pre := .run, sliced := false }) ∧
             (c.sliced = false → u.ctx k = some c)) ∧
           (n ≠ h → ∀ k c f, s.ctx k = some c → c.fn = f → f < 17 → f ≠ n → c.pre = .run → s.fitsWithout n allTeams = false →
             s.fitsWithout n (· == f) = true → (∃ v x t g, s.warp v = some x ∧ s.home x = some (t, g, c) ∧ g.ctx = k) →
             ∃ d : Ctx, u.ctx k = some d ∧ d.pre = .drain (max 1 (s.mgmt.sched.toNat / 2 ^ 16 % 2 ^ 16) * 10000) ∧ d.sliced = true))))

/-- R193, R195, R233, R250. The debugger: DBGATTACH where the life cycle allows it, DENIED or STATE otherwise; DBGBREAK sets and clears a breakpoint;
DBGHALT makes DEBUG due in every warp of the context; DBGRESUME and DBGDETACH resume its stopped warps from their frames; DBGFRAME copies the
parts of a stopped warp's frame to the host, or v registers and the scalar frame from it, never lowering a label. Without a debugger they
are refused with STATE, but DBGDETACH, which does nothing. That DBGHALT passes over stopped warps and those in which DEBUG is due already, that
an empty slot answers STATE, and that a v register is checked against the count rounded up to 8, is the model's reading (log 32, DEDUCED). -/
def Obligations.DebuggerCommands : Prop :=
  ∀ (s : State),
    let w (i : Nat) : Nat := (tGet s.mgmt.cmd 0 i).toNat
    let slot := w 1
    let refused (i : Instr) (cause : BitVec 8) : Prop := ∃ u : State, exec i s = .next u ∧ Answered s s u 1 cause []
    let ok (i : Instr) (t : State) : Prop := ∃ u : State, exec i s = .next u ∧ Answered s t u 0 0 []
    let warps (t : State) (f : Warp → Warp) : Prop :=
      (∀ v x y g c, s.warp v = some x → s.home x = some (y, g, c) → g.ctx = slot → t.warp v = some (f x)) ∧
      (∀ v x y g c, s.warp v = some x → s.home x = some (y, g, c) → g.ctx ≠ slot → t.warp v = some x)
    let resumed (x : Warp) : Warp := match x.debug, x.frame with
      | true, some f => x.restore f false
      | _, _ => x
    (∀ c, CommandAt s 16 → NamesOnly s [0x3F] → s.ctx slot = some c →
      let allowed : Prop := s.belv.lc = .manufacture ∨ s.belv.lc = .development ∨ s.belv.lc = .rma ∨ (s.belv.lc = .production ∧ c.prot = false)
      (¬ allowed → refused .dbgattach 0x46) ∧ (allowed → c.dbg ≠ none → refused .dbgattach 0x45) ∧
      (allowed → c.dbg = none → ∃ t : State, ok .dbgattach t ∧ t = { s with ctxs := t.ctxs } ∧ t.ctx slot = some { c with dbg := some [] } ∧
        ∀ d, d ≠ slot → t.ctx d = s.ctx d)) ∧
    (∀ i op masks, (i, op, masks) ∈ [(Instr.dbgbreak, 18, [0x3F, 0x1F, 2 ^ 64 - 1, 0xFFFFFFFF]), (.dbghalt, 19, [0x3F]),
        (.dbgframe, 20, [0x3F, 2 ^ 64 - 1, 0xFFFFFFFFF, 2 ^ 64 - 1, 0x103, 0x03FF03FF]), (.dbgresume, 21, [0x3F])] → CommandAt s op → NamesOnly s masks →
      (∀ c, s.ctx slot = some c → c.dbg = none) → refused i 0x45) ∧
    (∀ c b, s.ctx slot = some c → c.dbg = some b →
      (CommandAt s 18 → NamesOnly s [0x3F, 0x1F, 2 ^ 64 - 1, 0xFFFFFFFF] → ∃ (t : State) (d : Table Brk), ok .dbgbreak t ∧ t = { s with ctxs := t.ctxs } ∧
        t.ctx slot = some { c with dbg := some d } ∧ ∀ n, tFind d n =
          if n = w 2 % 8 then (if w 2 / 8 % 2 = 1 then some { image := w 3, lane := decide (w 2 / 16 % 2 = 1), pc := BitVec.ofNat 32 (w 4) } else none)
          else tFind b n) ∧
      (CommandAt s 19 → NamesOnly s [0x3F] → ∃ t : State, ok .dbghalt t ∧ t = { s with work := { s.work with warps := t.work.warps } } ∧ warps t fun x =>
        if x.debug = true ∨ x.due.any (fun d => d.rank == 6) then x
        else { x with due := x.due ++ [{ rank := 6, code := 0x32, val := 0xFF, lanes := 0, entry := none, pcL := 0 }] }) ∧
      (CommandAt s 21 → NamesOnly s [0x3F] → ∃ t : State, ok .dbgresume t ∧ t = { s with work := { s.work with warps := t.work.warps } } ∧ warps t resumed) ∧
      (CommandAt s 17 → NamesOnly s [0x3F] → ∃ t : State, ok .dbgdetach t ∧ t = { s with ctxs := t.ctxs, work := { s.work with warps := t.work.warps } } ∧
        t.ctx slot = some { c with dbg := none } ∧
        warps t fun x => { resumed x with due := (resumed x).due.filter fun d => d.rank != 6 })) ∧
    (∀ c, CommandAt s 17 → NamesOnly s [0x3F] → s.ctx slot = some c → c.dbg = none → ok .dbgdetach s) ∧
    (∀ (c : Ctx) (b : Table Brk) (k : Nat) (x : Warp) (f : Frame), CommandAt s 20 →
      NamesOnly s [0x3F, 2 ^ 64 - 1, 0xFFFFFFFFF, 2 ^ 64 - 1, 0x103, 0x03FF03FF] → s.ctx slot = some c → c.dbg = some b →
      s.stoppedWarp slot (tGet s.mgmt.cmd 0 2) (w 3 % 2 ^ 32) (w 3 / 2 ^ 32) = some (k, x, f) → s.warp k = some x →
      let a := 0x8000000000000 + w 4 % 2 ^ 51
      let part := w 5 % 4
      let wr := w 5 / 256 % 2 = 1
      let first := w 6 % 1024
      let n := w 6 / 65536 % 1024
      let copied (bs : List Byte) : Prop := ∃ t : State, ok .dbgframe t ∧ (∀ i, i < bs.length → t.peek 0 (a + i) = (bs[i]?).getD 0) ∧
        SameSlotOutside s t 0 a bs.length ∧ t.work = s.work ∧ t.ctxs = s.ctxs
      (part = 3 → refused .dbgframe 0x01) ∧ (part = 1 → roundUp x.regs 8 < first + n → refused .dbgframe 0x01) ∧
      (part = 2 → f.entries.length ≤ w 6 ∨ wr → refused .dbgframe 0x01) ∧
      (part = 1 → ¬ wr → first + n ≤ roundUp x.regs 8 → a + 4 * x.width * n ≤ 2 ^ 52 →
        copied ((List.range n).flatMap fun r => (List.range x.width).flatMap fun l => toBytes 4 (x.readV (first + r) l).toNat)) ∧
      (part = 1 → wr → x.width ≤ 64 → first + n ≤ roundUp x.regs 8 → ∃ (t : State) (y : Warp), ok .dbgframe t ∧ t.warp k = some y ∧
        (∀ r l, l < 64 → y.readV r l = if first ≤ r ∧ r < first + n ∧ l < x.width then
          BitVec.ofNat 32 (ofBytes (s.peekN 0 (a + 4 * (x.width * (r - first) + l)) 4)) else x.readV r l) ∧
        ∀ r, y.labV r = if first ≤ r ∧ r < first + n then Label.join (x.labV r) c.label else x.labV r) ∧
      (part = 0 → w 6 = 0 → wr → ∃ (t : State) (y : Warp), ok .dbgframe t ∧ t.warp k = some y ∧ y = { x with s := y.s, k := y.k, frame := y.frame } ∧
        (∀ r, 1 ≤ r → r < 64 → y.readS r = ⟨BitVec.ofNat 64 (ofBytes (s.peekN 0 (a + 64 + 8 * r) 8)), Label.join (x.readS r).lab c.label⟩) ∧
        (∀ r, r < 16 → y.readK r = ⟨BitVec.ofNat 64 (ofBytes (s.peekN 0 (a + 576 + 8 * r) 8)), Label.join (x.readK r).lab c.label⟩) ∧
        ∀ (i : Nat) (e : Nat × Entry), f.entries[i]? = some e → ∃ h, y.frame = some h ∧
          h.entries[i]? = some (e.1, { e.2 with pc := BitVec.ofNat 32 (ofBytes (s.peekN 0 (a + 984 + 16 * i) 4)) })) ∧
      (part = 0 → w 6 = 0 → ¬ wr → a + 976 + 16 * f.entries.length ≤ 2 ^ 52 → ∃ bs, copied bs ∧ bs.length = 976 + 16 * f.entries.length ∧
        ((bs.drop 0).take 48 = [x.cause.toNat, x.tval.toNat, x.pcS.toNat, x.pcL.toNat, x.flmask.toNat, f.pc.toNat].flatMap (toBytes 8)) ∧
        (∀ r, r < 64 → (bs.drop (64 + 8 * r)).take 8 = toBytes 8 (x.readS r).val.toNat) ∧
        (∀ r, r < 16 → (bs.drop (576 + 8 * r)).take 8 = toBytes 8 (x.readK r).val.toNat) ∧
        (bs.drop 960).take 8 = toBytes 8 f.entries.length ∧
        ∀ (i : Nat) (e : Nat × Entry), f.entries[i]? = some e → (bs.drop (976 + 16 * i)).take 8 = toBytes 8 e.2.mask.toNat))

/-! ### Placement -/

/-- R197 to R200, R29, R59. The walk, shown for a single launch on the order list, places the next gang of a ready launch on the die and cores that R199 chooses: the gang, each of its teams
in team-number order, and each of their warps stand at their start states, and the launch holds no more; else it records the cause that R198 gives: FREQ where a start under HOLD finds
a die below its class, SLICE where it would have room but for the slice holder's teams, SCRATCH where only its scratchpad allocation has none, GANG where
one team would have room, ROOM where none has.
Once a launch has held for BFWAIT, or has been marked so, the walk goes no further than that launch.
R189. A die that reaches its operating point runs the highest clock that a launch resident on it or held for it requests, within thermal
protection, and the distributor walks; a start that has waited 250 µs under HOLD goes on, with every grid of its bundle, and counts HOLDTO; above 2,300 W a die with an FC2
launch steps down by 25 MHz, no lower than 1.10 GHz or 1.15 GHz beside FC3, and up again below; thermal protection caps a die at once. That a die without
requests keeps its clock is the model's choice (log 10, DESIGN CHOICE); one gang of a launch per walk, and 25 MHz per event up as down, is its reading (log 49,
DEDUCED: R189 gives the steps down alone). -/
def Obligations.PlacementAndOperatingPoints : Prop :=
  (∀ (s : State) (gk : Nat) (g : Grid) (c : Ctx), s.mgmt.run = .run → s.grid gk = some g → s.ctx g.ctx = some c →
     (s.work.order = [gk] → g.relaunch = [] → g.resumeQ = [] → g.packet = none → g.ready = true →
       (g.started = true ∨ (g.leases = [] ∧ g.absent = [])) → g.nextTeam < g.teams → g.failed = none → g.killed = none → c.pre = .run →
       (∀ o ∈ g.before, s.op o = none) →
       (∀ d ps, s.GangAt g d ps → (g.holdBit = true → g.started = false → classMhz g.fc ≤ (s.point d).mhz) →
         ∃ (u : State) (z : Grid) (y : Gang), exec .distributorWalk s = .next u ∧ u.grid gk = some z ∧ u.gang s.nextId = some y ∧
           z = { g with started := true, nextTeam := g.nextTeam + ps.length, nGangs := g.nGangs + 1, live := g.live + ps.length,
                        cause := none, causeNs := 0, bfNs := 0, blocks := false, fcNs := 0, fcDie := none, scratch := z.scratch } ∧
           y.grid = gk ∧ y.num = g.nGangs ∧ y.die = d ∧ y.bound = ⟨BitVec.allOnes 64, 0⟩ ∧ y.teams.length = ps.length ∧
           (∀ i p tk, ps[i]? = some p → y.teams[i]? = some tk → ∃ t : Team, u.team tk = some t ∧ t.grid = gk ∧ t.gang = s.nextId ∧
             t.num = g.nextTeam + i ∧ t.core = 48 * d + p.core ∧ t.slot = p.slot ∧ t.lab0 = c.label ∧ t.mem = Sram.zero ∧ t.tokens = [] ∧
             t.seqr = (if g.kernel.mlen = 0 then none else some Seqr.start) ∧ t.warps.length = g.kernel.warps ∧
             ∀ n wk, t.warps[n]? = some wk → ∃ x : Warp, u.warp wk = some x ∧
               x = Warp.start tk n x.core x.quad x.slot g.kernel.width g.kernel.regs c.label ∧
               x.core = 48 * d + p.core + (if g.kernel.pair = true then n % 2 else 0)) ∧
           SameMain s u) ∧
       (∀ d ps, s.GangAt g d ps → g.holdBit = true → g.started = false → (s.point d).mhz < classMhz g.fc →
         ∃ (u : State) (z : Grid), exec .distributorWalk s = .next u ∧ u.grid gk = some z ∧
           z = { g with cause := some .freq, causeNs := z.causeNs, fcDie := some d } ∧
           u.work.teams = s.work.teams ∧ u.work.warps = s.work.warps) ∧
       ((∀ d ps, ¬ s.GangAt g d ps) → ∃ (u : State) (z : Grid), exec .distributorWalk s = .next u ∧ u.grid gk = some z ∧
         (let has (skip : Nat → Bool) : Prop := ∃ n, ((n = g.kernel.gpref ∧ n ≤ g.teams - g.nextTeam) ∨
            n = min g.kernel.gfall (g.teams - g.nextTeam)) ∧ ∃ d ps, s.Room g skip false n d ps
          let slice : Prop := c.fn ≠ s.mgmt.holder ∧ ¬ has allTeams ∧ has (· == s.mgmt.holder)
          let one : Prop := ∃ d ps, s.Room g allTeams false 1 d ps
          (slice → z.cause = some .slice) ∧ (¬ slice → has allTeams → z.cause = some .scratch) ∧
          (¬ slice → ¬ has allTeams → one → z.cause = some .gang) ∧ (¬ slice → ¬ has allTeams → ¬ one → z.cause = some .room)) ∧
         z.nextTeam = g.nextTeam ∧ z.live = g.live ∧
         z = { g with cause := z.cause, causeNs := z.causeNs, fcDie := z.fcDie } ∧ u.work.teams = s.work.teams ∧ u.work.warps = s.work.warps)) ∧
     (g.cause ≠ none → (s.bfwaitNs ≤ g.bfNs → ∃ u : State, exec (.backfillLimit gk) s = .next u ∧
         u.grid gk = some { g with blocks := true } ∧ (∀ k, k ≠ gk → u.grid k = s.grid k) ∧
         u = { s with work := { s.work with grids := u.work.grids } }) ∧
       (g.bfNs < s.bfwaitNs → exec (.backfillLimit gk) s = .next s)) ∧
     (∀ h d rest, s.waiting g = true → g.resumeQ = [] → s.unstarted g = none → s.placeNext gk = (s, some (h, d)) → g.cause = some h →
       (g.blocks = true ∨ s.bfwaitNs ≤ g.bfNs) → s.walkList (gk :: rest) = s.hold gk h d)) ∧
  (∀ (s : State), s.mgmt.run = .run →
     (∀ die m, die < 4 → s.overPow = false → (∀ f ∈ s.requests die, classMhz f ≤ m) →
       (if s.requests die = [] then m = (s.point die).mhz else ∃ f ∈ s.requests die, classMhz f = m) →
       let new := match (s.point die).cap with
         | some c => min m c
         | none => m
       ∃ u : State, exec (.operatingPointReached die) s = .next u ∧
         exec .distributorWalk { s with power := tPut s.power die { s.point die with mhz := new, ns := 0 } } = .next u) ∧
     (∀ die, 4 ≤ die → exec (.operatingPointReached die) s = .next s) ∧
     (∀ gk g, s.grid gk = some g → g.cause = some .freq →
       (g.fcNs < 250000 → exec (.holdTimeout gk) s = .next s) ∧
       (250000 ≤ g.fcNs → ∃ u t : State, exec (.holdTimeout gk) s = .next u ∧ exec .distributorWalk t = .next u ∧
         (∀ k z, s.grid k = some z → t.grid k = some (
           if k = gk ∨ (s.unstarted g ≠ none ∧ s.unstarted z = s.unstarted g) then { z with holdBit := false } else z)) ∧
         t = { s with work := { s.work with grids := t.work.grids }, ctrs := t.ctrs } ∧ t.ctrs = (s.count 0x46 (s.gridFn g) 1).ctrs)) ∧
     (∀ above, ∃ u : State, exec (.modulePowerOverLimit above) s = .next u ∧ u = { s with overPow := above, power := u.power } ∧
       ∀ die, u.point die = if die < 4 ∧ 2 ∈ s.requests die then
           let p := s.point die
           let floor := if 3 ∈ s.requests die then 1150 else 1100
           { p with mhz := if above = true then (if floor < p.mhz then max floor (p.mhz - 25) else p.mhz) else min (s.target die) (p.mhz + 25) }
         else s.point die) ∧
     (∀ die mhz, die < 4 → ∃ u : State, exec (.thermalProtection die mhz) s = .next u ∧ u = { s with power := u.power } ∧
       ∀ d, u.point d = if d = die then { s.point die with cap := some mhz, mhz := min (s.point die).mhz mhz } else s.point d))

/-- R140, R141. A translation completion records whether the host page is present and brings the launches that lease it up to date; a page-request
group is answered by confirming its pages again, or by refusing its launch with TRANSLATE, and Response Failure also stops the function's page
requests until the host enables PRI again; every ATS invalidation is completed, after which the page is no longer taken as present; a launch that
leases it and has not started asks for it again when the distributor next walks its list. That code 0
is Success, 1 Invalid Request and every other code Response Failure is the model's choice (log 50, PRESUMED). Before Belvedere has released the
dies nothing is answered (R27).
That a launch becomes ready on leased pages confirmed earlier, which it does not request again, is the model's choice (log 101, DESIGN CHOICE). -/
def Obligations.HostPages : Prop :=
  ∀ (s : State) (fn page : Nat),
    let pages (u : State) (present host : Bool) : Prop :=
      (∀ p, memb u.xlat.present p = if p = page then present else memb s.xlat.present p) ∧
      ∀ p, memb u.xlat.host p = if p = page then host else memb s.xlat.host p
    (∀ present, s.mgmt.run = .run → ∃ u : State, exec (.atsTranslationCompletion fn page present) s = .next u ∧ pages u present present ∧
      (s.leasing fn page = [] → u = { s with xlat := { s.xlat with present := u.xlat.present, host := u.xlat.host, ats := u.xlat.ats } } ∧
        ∀ e, e ∈ u.xlat.ats ↔ e ∈ s.xlat.ats ∧ e ≠ (fn, page)) ∧
      ∀ gk g c v, present = true → s.leasing fn page = [(gk, v)] → s.grid gk = some g → s.ctx g.ctx = some c → g.started = false → g.absent = [] →
        (∀ l ∈ g.leases, ∀ p ∈ pagesOf l.base l.len, s.leaf c p % 2 = 1 ∧ attrTier (pteAttr (s.leaf c p)) = 3 ∧
          s.refuses (ptePpn (s.leaf c p)) 3 = false ∧ (l.r = true → attrR (pteAttr (s.leaf c p)) = true) ∧
          (l.w = true → attrW (pteAttr (s.leaf c p)) = true) ∧ (l.x = true → attrX (pteAttr (s.leaf c p)) = true) ∧
          memb s.mem.listed (ptePpn (s.leaf c p)) = false ∧ (∀ e, s.excHit 0 g.ctx p = some e → e.state ≠ .poison) ∧
          (ptePpn (s.leaf c p) = page ∨ memb s.xlat.present (ptePpn (s.leaf c p)) = true)) →
        u.grid gk = some { g with ready := true }) ∧
    (s.mgmt.run ≠ .run → exec (.atsInvalidation fn page) s = .next s) ∧
    (s.mgmt.run = .run → ∃ u : State, exec (.atsInvalidation fn page) s = .next u ∧ u.outbox = s.outbox ++ [.atsDone fn page] ∧ pages u false (memb s.xlat.host page) ∧
      u = { s with xlat := { s.xlat with present := u.xlat.present }, outbox := u.outbox }) ∧
    (∀ group code, tFind s.xlat.asked (65536 * fn + group) = none → exec (.prgResponse fn group code) s = .next s) ∧
    (∀ group code gk g c asked, s.mgmt.run = .run → tFind s.xlat.asked (65536 * fn + group) = some (gk, asked) → s.grid gk = some g → s.ctx g.ctx = some c →
      g.started = false → ∃ u : State, exec (.prgResponse fn group code) s = .next u ∧
        tFind u.xlat.asked (65536 * fn + group) = none ∧
        (∀ f, memb u.xlat.priStop f = true ↔ memb s.xlat.priStop f = true ∨ (f = fn ∧ code ≠ 0 ∧ code ≠ 1)) ∧
        (code = 0 → u.outbox = s.outbox ++ asked.map (fun v => .atsRequest fn (ptePpn (s.leaf c v))) ∧
          ∃ z : Grid, u.grid gk = some z ∧ z = { g with leases := z.leases }) ∧
        (∀ p i x, code ≠ 0 → g.packet = some (p, i) → s.packet p = some x →
          u.grid gk = none ∧ u.packet p = some { x with stage := .finished, status := 1, cause := 0x12, slot := i, subs := [] })) ∧
    (s.mgmt.run = .run → ∃ u : State, exec (.priReenable fn) s = .next u ∧ (∀ f, memb u.xlat.priStop f = if f = fn then false else memb s.xlat.priStop f) ∧
      ∀ gk g c v, s.work.order = [gk] → s.grid gk = some g → s.ctx g.ctx = some c → c.fn = fn → g.started = false → g.absent = [v] →
        s.spanPages c g.leases v = [v] → (∀ e ∈ s.xlat.asked, e.1 / 65536 ≠ fn) → 1 ≤ tGet s.xlat.allow 0 fn →
        u.outbox = s.outbox ++ [.pageRequest fn 0 [ptePpn (s.leaf c v)]] ∧ u.grid gk = some { g with absent := [] } ∧
        tFind u.xlat.asked (65536 * fn) = some (gk, [v])) ∧
    (∀ gk g c l v r, s.mgmt.run = .run → s.work.order = [gk] → s.grid gk = some g → g.relaunch = [] → g.started = false → s.ctx g.ctx = some c →
      c.fn = fn → g.leases = [l] → pagesOf l.base l.len = [v] → s.leaf c v % 2 = 1 → attrTier (pteAttr (s.leaf c v)) = 3 →
      ptePpn (s.leaf c v) = page → s.leaseCheck c g.ctx g.leases = .ok r → memb s.xlat.present page = false → (fn, page) ∉ s.xlat.ats →
      g.absent = [] → (∀ e ∈ s.xlat.asked, e.2.1 ≠ gk) → ∃ u : State, exec .distributorWalk s = .next u ∧ (fn, page) ∈ u.xlat.ats ∧
        s.outbox ++ [.atsRequest fn page] <+: u.outbox)

/-- R194, R191. MEVCFG.EN from 0 to 1 clears the index of MEVTAIL and DROPPED. An event that finds room writes its entry at that index, advances
it modulo the ring size and sends the message on VEC; on a full ring it is counted in DROPPED; with EN 0 nothing happens. -/
def Obligations.EventRing : Prop :=
  ∀ (s : State),
    let m := s.mgmt
    let n := 2 ^ (min 6 (m.mevCfg.toNat % 16) + 6)
    let next := (m.mevTail.toNat + 1) % n
    let entry := 0x8000000000000 + (m.mevBase.toNat / 4096 * 4096 + 32 * m.mevTail.toNat) % 2 ^ 51
    (m.run = .run → (m.mevCfg.getLsbD 8 = true → exec .eventRingEnable s = .next s) ∧
      (m.mevCfg.getLsbD 8 = false → ∃ u : State, exec .eventRingEnable s = .next u ∧
        u = { s with mgmt := { m with mevCfg := m.mevCfg ||| 0x100, mevTail := 0, dropped := 0 } })) ∧
    ∀ (kind slot : Nat) (cause : BitVec 8) (tag : Nat) (detail : W64) (team warp : Nat),
      let u := s.postEvent kind slot cause tag detail team warp
      (m.mevCfg.getLsbD 8 = false → u = s) ∧
      (m.mevCfg.getLsbD 8 = true → next = m.mevHead.toNat % n →
        u = { s with mgmt := { m with dropped := if m.dropped = 0xFFFF then 0xFFFF else m.dropped + 1 } }) ∧
      (m.mevCfg.getLsbD 8 = true → next ≠ m.mevHead.toNat % n → entry + 32 ≤ 2 ^ 52 →
        u.mgmt = { m with mevTail := BitVec.ofNat 16 next } ∧ u.outbox = s.outbox ++ [.msix 16 (m.mevCfg.extractLsb' 16 11)] ∧
        (∀ i, i < 8 → u.peek 0 (entry + i) = ((toBytes 8 (tag * 2 ^ 32 + cause.toNat * 65536 + slot * 256 + kind))[i]?).getD 0 ∧
          u.peek 0 (entry + 8 + i) = ((toBytes 8 s.time.toNat)[i]?).getD 0 ∧
          u.peek 0 (entry + 16 + i) = ((toBytes 8 detail.toNat)[i]?).getD 0 ∧
          u.peek 0 (entry + 24 + i) = ((toBytes 8 (warp * 2 ^ 32 + team))[i]?).getD 0) ∧
        SameSlotOutside s u 0 entry 32 ∧ u.work = s.work)

/-! ### Views and pools -/

/-- R146 to R148. VIEWREG refuses a descriptor that cannot be read, that breaks R144 or R146, or a used index, and changes nothing; else the descriptor is
loaded and WATCH set on every master page; when every operation that translated one to write without it is done, the view stands with every tile at MV 1, FT 0 and QUEUED, in the stale
queue or, where that is full, marked for a sweep. VIEWDEREG waits for the view's rebuilds; then the view, its queue entries and its rebuilds waiting are gone, and no
warp's record of master writes names it. That a deregistration waits for the registration too is the model's choice (log 89).
R159. POOLREG refuses what R158 and R159 refuse and changes nothing; else POOL is set on every page and the pool stands with every unit free. POOLDEREG waits
for the pool's NSTORE and RELQ operations; then the pool is gone.
That VIEWDEREG and POOLDEREG of an index that holds nothing answer REFUSED with CAUSE 0x01 is the model's choice (log 103, DESIGN CHOICE). -/
def Obligations.ViewsAndPoolsRegister : Prop :=
  (∀ (s s1 : State) (k : Nat) (p : Packet) (c : Ctx), PacketStarts s k p → p.kind = 4 → s.ctx p.ctx = some c →
     let index := p.word 5 / 256 % 256
     let refused (i : Instr) (t : State) : Prop := ∃ u : State, exec i s = .next u ∧ t.PacketTo u k (p.ends 1 0x01 0)
     (p.word 4 % 256 = 4 → p.newView = false →
       (∀ e, s.readWords p.ctx (p.word 6) 8 .r = (s1, .error e) → refused (.viewreg k) s1) ∧
       (∀ w, s.readWords p.ctx (p.word 6) 8 .r = (s1, .ok w) →
         (viewBad w = true ∨ tFind c.views index ≠ none → refused (.viewreg k) s1) ∧
         (viewBad w = false → tFind c.views index = none → ((w[4]?).getD 0) / 2 ^ 30 % 8 = 0 →
           let v := View.ofWords w []
           let pages := rangePages v.masterRanges
           let t := (s1.modCtx p.ctx fun d => { d with views := tPut d.views index v }).remark p.ctx (setWatch · true) pages
           let old (e : Nat × Op) : Prop := e.2.ctx = p.ctx ∧ e.2.done = false ∧
             ∃ a ∈ e.2.trans, a.1 ∈ pages ∧ a.2.wr = true ∧ attrWatch a.2.attr = false
           (s1.viewRefused c v = true → refused (.viewreg k) s1) ∧
           (s1.viewRefused c v = false → (∀ q ∈ pages, s1.editWaits p.ctx q = false) →
             ((∀ e ∈ s1.work.ops, ¬ old e) → ∃ u : State, exec (.viewreg k) s = .next u ∧ (t.addView p.ctx index v).PacketTo u k (p.ends 0 0 0)) ∧
             (∀ e ∈ s1.work.ops, old e → s1.op e.1 = some e.2 → ∃ (u : State) (l : List Nat), exec (.viewreg k) s = .next u ∧ e.1 ∈ l ∧
               t.PacketTo u k { p with stage := .started, syncOps := l, newView := true }))))) ∧
     (p.word 4 % 256 = 5 →
       (tFind c.views index = none → refused (.viewdereg k) s) ∧
       (∀ v, tFind c.views index = some v →
         ((∃ e ∈ s.units, e.2.ctx = p.ctx ∧ e.2.view = index ∧ e.2.held = false) →
           ∃ u : State, exec (.viewdereg k) s = .next u ∧ s.PacketTo u k { p with stage := .started }) ∧
         ((∀ e ∈ s.units, e.2.ctx = p.ctx → e.2.view = index → e.2.held = true) →
           v.live = true → (∀ q ∈ rangePages v.masterRanges, s.editWaits p.ctx q = false) →
           let keep (ts : List TileVer) : List TileVer := ts.filter fun y => !(y.ctx == p.ctx && y.view == index)
           ∃ (u : State) (d : Ctx), exec (.viewdereg k) s = .next u ∧ u.packet k = some { p.ends 0 0 0 with tiles := keep p.tiles } ∧
             u.ctx p.ctx = some d ∧
             tFind d.views index = none ∧ (∀ j, j ≠ index → ∀ o, tFind c.views j = some o → tFind d.views j = some o) ∧
             u.stale = s.stale.filter (fun e => !(e.1 == p.ctx && e.2.1 == index)) ∧
             (∀ e ∈ u.units, ¬ (e.2.ctx = p.ctx ∧ e.2.view = index)) ∧ u.work.teams = s.work.teams ∧
             ∀ w x, s.warp w = some x → u.warp w = some { x with mwTiles := keep x.mwTiles }))) ∧
     ∀ (slot i : Nat) (v : View) (d : Ctx), s.ctx slot = some d →
       let u := s.addView slot i v
       let n := v.rt * v.ct
       let room := min n (65536 - s.stale.length)
       (∃ (e : Ctx) (x : View), u.ctx slot = some e ∧ e = { d with views := e.views } ∧ tFind e.views i = some x ∧
         x = { v with tiles := x.tiles, mark := decide (room < n), live := true } ∧ (∀ j, j ≠ i → tFind e.views j = tFind d.views j) ∧
         ∀ j, tFind x.tiles j = if j < n then some { mv := 1, ft := 0, busy := false, poisoned := false, queued := true } else none) ∧
       u.stale = s.stale ++ (List.range room).map (fun j => (slot, i, j)) ∧
       (room = n → u.ctrs = s.ctrs) ∧ (room < n → u.ctrs = (s.count 0x35 (256 * slot + i) 1).ctrs)) ∧
  (∀ (s s1 : State) (k : Nat) (p : Packet) (c : Ctx), PacketStarts s k p → p.kind = 4 → s.ctx p.ctx = some c →
     let index := p.word 5 / 256 % 256
     let refused (i : Instr) (t : State) : Prop := ∃ u : State, exec i s = .next u ∧ t.PacketTo u k (p.ends 1 0x01 0)
     (p.word 4 % 256 = 6 →
       (∀ e, s.readWords p.ctx (p.word 6) 4 .r = (s1, .error e) → refused (.poolreg k) s1) ∧
       (∀ base size opt z, s.readWords p.ctx (p.word 6) 4 .r = (s1, .ok [base, size, opt, z]) →
         let pages := (List.range size).map fun i => base / 65536 + i
         let good (q : Nat) : Prop :=
           let a := pteAttr (s1.leaf c q)
           s1.leaf c q % 2 = 1 ∧ attrR a = true ∧ attrW a = true ∧ attrWatch a = false ∧ attrPool a = false ∧ attrTier a ≤ 1
         let legal : Prop := base < 2 ^ 57 ∧ base ≠ 0 ∧ base % 65536 = 0 ∧ 1 ≤ size ∧ size ≤ 2 ^ 20 ∧ opt / 64 = 0 ∧ opt / 16 % 2 = 0 ∧ opt % 16 ≤ 8 ∧
           z = 0 ∧ index ≤ 15 ∧ tFind c.pools index = none ∧ (∀ q ∈ pages, good q) ∧
           ∀ i j, i < size → j < size → ptePpn (s1.leaf c (base / 65536 + i)) = ptePpn (s1.leaf c (base / 65536 + j)) → i = j
         (¬ legal → refused (.poolreg k) s1) ∧
         (legal → (∀ q ∈ pages, s1.editWaits p.ctx q = false) → (∀ q ∈ pages, s1.mem.owes (ptePpn (s1.leaf c q)) = false) →
           ∃ (u : State) (d e : Ctx), exec (.poolreg k) s = .next u ∧ u.packet k = some (p.ends 0 0 0) ∧
             (s1.remark p.ctx (setPool · true) pages).ctx p.ctx = some d ∧ u.ctx p.ctx = some e ∧ e = { d with pools := e.pools } ∧
             u.mem = (s1.remark p.ctx (setPool · true) pages).mem ∧
             let pool : Pool := { base := base, pages := size, wfull := decide (opt / 32 % 2 = 1), usz := 2 ^ (opt % 16 + 8), used := [], retired := [] }
             (∀ j, tFind e.pools j = if j = index then some pool else tFind d.pools j))) ∧
     (p.word 4 % 256 = 7 →
       (tFind c.pools index = none → refused (.pooldereg k) s) ∧
       (∀ x, tFind c.pools index = some x →
         let busy : Prop := ∃ e ∈ s.work.ops, e.2.ctx = p.ctx ∧ ((∃ a b, e.2.kind = .nstore index a b) ∨ (∃ a b, e.2.kind = .relq index a b))
         (busy → ∃ u : State, exec (.pooldereg k) s = .next u ∧ s.PacketTo u k { p with stage := .started }) ∧
         (¬ busy → (∀ i, i < x.pages → s.editWaits p.ctx (x.base / 65536 + i) = false) →
           ∃ (u : State) (d : Ctx), exec (.pooldereg k) s = .next u ∧ u.packet k = some (p.ends 0 0 0) ∧ u.ctx p.ctx = some d ∧
             tFind d.pools index = none ∧ ∀ j, j ≠ index → tFind d.pools j = tFind c.pools j)))))

/-- R151 to R153, R145. A unit takes the oldest entry of the stale queue: one already rebuilt is dropped, one whose tile is BUSY is held, and otherwise the tile's
version is noted, QUEUED cleared, BUSY set and the master read and converted, or the tile becomes POISONED with FT unchanged. Publication writes the bytes and
sets FT to the version noted with BUSY and POISONED clear; where a destination page may not take them, the tile becomes POISONED and nothing is written.
The snapshot reads the 64 rows of 64 elements of the tile from the master, page by page, and fails where one read fails; each row is
converted: a scaled target by the block rule, with its two scale bytes, a BF16 target by rounding or, from a BF16 master, by copying. That the
whole snapshot is read in one event, and the whole tile published in another, is the model's reading (log 51, DEDUCED). -/
def Obligations.Rebuilds : Prop :=
  ∀ (s : State) (unit slot view tile : Nat) (c : Ctx) (v : View) (t : VTile), s.mgmt.run = .run → unit < 4 →
    s.ctx slot = some c → tFind c.views view = some v → tFind v.tiles tile = some t →
    let i := 256 * slot + view
    let tileIs (u : State) (x : VTile) : Prop := u.tile slot view tile = some x
    (∀ q, tFind s.units unit = none → s.stale = (slot, view, tile) :: q →
      (t.busy = false → t.queued = false → exec (.rebuildSnapshot unit) s = .next { s with stale := q }) ∧
      (t.busy = true → ∃ (u : State) (r : Rebuild), exec (.rebuildSnapshot unit) s = .next u ∧ u = { s with stale := q, units := u.units } ∧
        tFind u.units unit = some r ∧ r.held = true ∧ r.ctx = slot ∧ r.view = view ∧ r.tile = tile) ∧
      (t.busy = false → t.queued = true →
        let s2 := ({ s with stale := q } : State).modTile slot view tile fun t => { t with queued := false, busy := true }
        (∀ s3 out n l, s2.snapshot slot v tile = (s3, some (out, n, l)) → ∃ u : State, exec (.rebuildSnapshot unit) s = .next u ∧
          tFind u.units unit = some { ctx := slot, view := view, tile := tile, m := t.mv, out := out, lab := l, held := false } ∧
          tileIs u { t with queued := false, busy := true } ∧ u.stale = q ∧ u.mem.bytes = s.mem.bytes ∧ u.ctrs = (s3.count 0x32 i n).ctrs) ∧
        (∀ s3, s2.snapshot slot v tile = (s3, none) → ∃ u : State, exec (.rebuildSnapshot unit) s = .next u ∧ tFind u.units unit = none ∧
          tileIs u { t with queued := false, busy := false, poisoned := true } ∧ u.ctrs = (s3.count 0x34 i 1).ctrs ∧ u.mem.bytes = s.mem.bytes))) ∧
    (∀ r, tFind s.units unit = some r → r.held = false → r.ctx = slot → r.view = view → r.tile = tile →
      let pages := r.out.map fun e => e.1 / 65536
      ((∃ q ∈ pages, s.destBad slot v r.lab q = true) → ∃ u : State, exec (.rebuildPublish unit) s = .next u ∧ tFind u.units unit = none ∧
        tileIs u { t with busy := false, poisoned := true } ∧ u.mem = s.mem ∧ u.ctrs = (s.count 0x34 i 1).ctrs) ∧
      ((∀ q ∈ pages, s.destBad slot v r.lab q = false) → ∃ u : State, exec (.rebuildPublish unit) s = .next u ∧ tFind u.units unit = none ∧
        tileIs u { t with ft := r.m, busy := false, poisoned := false } ∧
        let z := r.out.foldl (fun (s : State) e => s.publishByte slot e.1 e.2) (s.serviceAccess slot .w pages.eraseDups)
        u.mem = z.mem ∧ u.ctrs = (z.count 0x33 i 1).ctrs)) ∧
    (∀ va b (s1 : State) (tr : Trans), s.translate 0 slot none va .w = (s1, .ok tr) →
      let pa := tr.ppn * 65536 + va % 65536
      s1.touchLine 0 (pa / 64) = (s1, false) → s1.steady (attrKey tr.attr) pa → (s.publishByte slot va b).peek (attrKey tr.attr) pa = b ∧
        SameSlotOutside s1 (s.publishByte slot va b) (attrKey tr.attr) pa 1) ∧
    (let esz := if v.mbf16 then 2 else 4
     let ti := tile / v.ct
     let tj := tile % v.ct
     let reads (a b : State) (va n : Nat) (bs : List Byte) (l : Label) : Prop := memb v.revoked (va / 65536) = false ∧
       ∃ (c : State) (tr : Trans), a.translate 0 slot none va .r = (c, .ok tr) ∧ c.meetLines 3 slot va n tr = (b, false) ∧
         bs = b.peekN (attrKey tr.attr) (tr.ppn * 65536 + va % 65536) n ∧ l = attrLbl tr.attr
     let row (a b : State) (i : Nat) (bs : List Byte) (l : Label) : Prop :=
       let va := v.mva + ((64 * ti + i) * v.mld + 64 * tj) * esz
       let room := 65536 - va % 65536
       if 64 * esz ≤ room then reads a b va (64 * esz) bs l
       else ∃ (c : State) (b1 b2 : List Byte) (l1 l2 : Label), reads a c va room b1 l1 ∧ reads c b (va + room) (64 * esz - room) b2 l2 ∧
         bs = b1 ++ b2 ∧ l = Label.join l1 l2
     (∀ (s3 : State) (out : List (Nat × Byte)) (n : Nat) (l : Label), s.snapshot slot v tile = (s3, some (out, n, l)) ↔
       ∃ (st : Nat → State) (bs : Nat → List Byte) (lab : Nat → Label), st 0 = s ∧ st 64 = s3 ∧
         (∀ i, i < 64 → row (st i) (st (i + 1)) i (bs i) (lab i)) ∧
         out = (List.range 64).flatMap (fun i => (v.convertRow tile i (bs i)).1) ∧
         n = ((List.range 64).map fun i => (v.convertRow tile i (bs i)).2).sum ∧ l = Label.joinAll ((List.range 64).map lab)) ∧
     (∀ (i : Nat) (bs : List Byte) (w : Nat), bs.length = 64 * esz →
       (v.tfmt.toNat, w) ∈ [(6, 16), (7, 8), (8, 8), (9, 6), (10, 6), (11, 4), (12, 8)] → 0 < v.ct → 0 < v.shards.length →
       let band := (v.rt + v.shards.length - 1) / v.shards.length
       let sh := (v.shards[ti / band]?).getD (0, 0)
       let rho := 64 * (ti - ti / band * band) + i
       let tau := (ti - ti / band * band) * v.ct + tj
       let base := if v.tiled then sh.1 + tau * 512 * w + 8 * w * i else sh.1 + rho * v.dld * w / 8 + 64 * tj * w / 8
       let scaleAt (b : Nat) : Nat := if v.tiled then sh.2 + 128 * tau + 2 * i + b else sh.2 + rho * v.dld / 32 + 2 * tj + b
       let code (j : Nat) : Nat := ofBytes ((bs.drop (esz * j)).take esz)
       let x (j : Nat) : Machine.Num := (if v.mbf16 then fmtBf16 else fmtF32).value (code j)
       let block (b : Nat) : Nat × List Nat × Flags :=
         quantBlock v.tfmt.toNat (if v.clip then some (v.clipp, v.clipf) else none) ((List.range 32).map fun j => x (32 * b + j))
       let want (j : Nat) : Nat := if v.tfmt.toNat = 6 then (if v.mbf16 then code j else (fmtBf16.round .rne false (x j)).1)
         else ((block (j / 32)).2.1[j % 32]?).getD 0
       ∃ el : List Byte, el.length = 8 * w ∧ (∀ j, j < 64 → ofBytes el / 2 ^ (w * j) % 2 ^ w = want j % 2 ^ w) ∧
         (v.convertRow tile i bs).1 = ((List.range (8 * w)).zip el).map (fun e => (base + e.1, e.2)) ++
           (if v.tfmt.toNat = 6 then [] else [(scaleAt 0, BitVec.ofNat 8 (block 0).1), (scaleAt 1, BitVec.ofNat 8 (block 1).1)]) ∧
         (v.convertRow tile i bs).2 = if v.tfmt.toNat = 6 then 0
           else ((List.range 2).filter fun b => (List.range 32).any fun j => (x (32 * b + j)).isNan || (x (32 * b + j)).isInf).length))

/-! ### Memory services -/

/-- R89 to R93, R97. Hotness halves at each decay tick. A claim of a page sets the entry IN_MOTION(src, dst) on all four dies and opens its record, or is
withdrawn and counted where a die's set is full of FIX entries; policy claims only while no page of a `PLACE.req` waits; a page of a `PLACE.req` counts as done on its tier, is skipped under R97, or is claimed (that a PIN_HBM
page on the tier asked for is skipped is the model's choice, log 52).
Copying a line makes dst hold what src holds, sets C and clears D; a quiet page is cut over on every die at once; the last acknowledgement writes
the PTE and frees src, once every access that the tombstone forwards has arrived. -/
def Obligations.PagesMigrate : Prop :=
  ∀ (s : State) (slot vpn dst : Nat) (c : Ctx), s.mgmt.run = .run → s.ctx slot = some c →
    let tide (hi lo : Nat) : Nat := s.mgmt.tide.toNat / 2 ^ lo % 2 ^ (hi + 1 - lo)
    let pte := s.leaf c vpn
    let a := pteAttr pte
    let z := s.settlePress
    let claimed (op : Option Nat) (u : State) : Prop :=
      let room : Prop := ∀ d, d < 4 → ∃ w, w < 8 ∧ ∀ e, tFind s.xlat.exc (excKey d (excSet slot vpn) w) = some e → e.fix = false ∨ (e.ctx = slot ∧ e.vpn = vpn)
      (room → (∀ d, d < 4 → u.excHit d slot vpn =
          some { fix := true, state := .inMotion, vpn := vpn, ctx := slot, ppn := ptePpn pte, attr := a, dppn := dst }) ∧
        tFind u.mem.migs s.nextId =
          some { ctx := slot, vpn := vpn, src := ptePpn pte, dst := dst, c := 0, d := 0, pass := 0, pos := 0, ue := false, cut := false, tomb := [], op := op } ∧
        tGet u.mem.refs 0 dst = tGet s.mem.refs 0 dst + 1) ∧
      (¬ room → u.xlat = s.xlat ∧ u.mem = z.mem ∧ u.ctrs = (s.count 0x13 0 1).ctrs)
    (s.mgmt.decayNs < max 1 (tide 31 24) * 1000000 → exec .hotnessDecay s = .next s) ∧
    (c.invalid = true → exec (.migrationClaim slot vpn dst) s = .next s) ∧
    (max 1 (tide 31 24) * 1000000 ≤ s.mgmt.decayNs → tWf 0 s.mem.hot = true → ∃ u : State, exec .hotnessDecay s = .next u ∧
      u = { s with mgmt := { s.mgmt with decayNs := 0 }, mem := { s.mem with hot := u.mem.hot } } ∧ ∀ f, tGet u.mem.hot 0 f = tGet s.mem.hot 0 f / 2) ∧
    (∀ o x ps tier st n k ab, c.invalid = false → z.placeOp slot vpn = some (o, x) → s.op o = some x → x.kind = .place ps tier st n k ab →
      let skips : Prop := pte % 2 = 0 ∨ attrPool a = true ∨ attrTier a = 3 ∨ s.isPoison slot vpn pte = true ∨ (attrPlace a = 2 ∧ tier ≠ 0) ∨
        (c.sys = false ∧ ∀ g, s.grid x.grid = some g → vpn ∈ g.revoked ∨ ∀ l ∈ g.leases, vpn ∉ pagesOf l.base l.len ∨ (l.r = false ∧ l.w = false ∧ l.x = false))
      let counted (n k : Nat) : Prop := ∃ u : State, exec (.migrationClaim slot vpn dst) s = .next u ∧
        u.op o = some { x with kind := .place (ps.filter (· != vpn)) tier st n k ab } ∧ u = { z with work := { s.work with ops := u.work.ops } }
      ((s.grid x.grid).isSome = true → skips → counted n (k + 1)) ∧
      ((s.grid x.grid).isSome = true → ¬ skips → attrTier a = tier → counted (n + 1) k) ∧
      ((s.grid x.grid).isSome = true → ¬ skips → attrTier a ≠ tier → s.migOf slot vpn = none → tide 0 0 = 1 → s.mem.migs.length < 64 →
        tierOf (dst * 65536) = some tier → s.frameFree dst = true → s.tierFree tier = true →
        ∃ u : State, exec (.migrationClaim slot vpn dst) s = .next u ∧ claimed (some o) u)) ∧
    (c.invalid = false → z.placeOp slot vpn = none →
      (tide 0 0 = 1 → s.mem.migs.length < 64 → s.placeWaits = false → s.movable slot vpn pte = true → s.frameFree dst = true → z.policy slot vpn pte dst = true →
        ∃ u : State, exec (.migrationClaim slot vpn dst) s = .next u ∧ claimed none u) ∧
      (tide 0 0 = 0 ∨ 64 ≤ s.mem.migs.length ∨ s.placeWaits = true ∨ s.movable slot vpn pte = false ∨ s.frameFree dst = false ∨ z.policy slot vpn pte dst = false →
        exec (.migrationClaim slot vpn dst) s = .next z)) ∧
    ∀ (id : Nat) (m : Mig), tFind s.mem.migs id = some m → m.ctx = slot → m.vpn = vpn →
      let hit (u : State) (x : Exc) : Prop := ∀ d, d < 4 → u.excHit d slot vpn = some x
      (∀ e i, s.settleMigs = s → m.cut = false → m.pass < 4 → ¬ (m.c = BitVec.allOnes 256 ∧ m.d = 0) → m.next = some i → s.excHit 0 slot vpn = some e →
        m.src ≠ m.dst → (∀ k, tFind s.mem.keys (attrKey e.attr) = some k → k.next = none) →
        (∀ j, j < 4 → ∀ f ∈ [m.src, m.dst], let l := f * 1024 + 4 * i + j
          memb s.mem.poison l = false ∧ tFind s.mem.latent l = none ∧ ∀ q, s.portOf (64 * l) = some q → memb s.mem.down q = false) →
        ∃ u : State, exec (.migrationCopyLine id) s = .next u ∧
          (∀ b, b < 256 → u.peek (attrKey e.attr) (m.dst * 65536 + 256 * i + b) = s.peek (attrKey e.attr) (m.src * 65536 + 256 * i + b)) ∧
          SameSlotOutside s u (attrKey e.attr) (m.dst * 65536 + 256 * i) 256 ∧
          tFind u.mem.migs id = some { m with c := m.c ||| (1#256 <<< i), d := m.d &&& ~~~(1#256 <<< i), pos := i + 1 }) ∧
      (s.settleMigs = s → m.cut = false → m.pass < 4 → ¬ (m.c = BitVec.allOnes 256 ∧ m.d = 0) → m.next = none →
        ∃ u : State, exec (.migrationCopyLine id) s = .next u ∧ tFind u.mem.migs id = some { m with pass := m.pass + 1, pos := 0 } ∧
          u = { s with mem := { s.mem with migs := u.mem.migs } }) ∧
      (∀ e, s.settleMigs = s → m.cut = false → m.c = BitVec.allOnes 256 → m.d = 0 → m.src ≠ m.dst → (∀ d, d < 4 → s.excHit d slot vpn = some e) →
        ∃ (u : State) (attr : BitVec 19) (tomb : List Nat), exec (.cutOver id) s = .next u ∧
          tFind u.mem.migs id = some { m with cut := true, tomb := tomb } ∧
          (∀ o, o ∈ tomb ↔ ∃ x t, (o, x) ∈ s.work.ops ∧ x.ctx = slot ∧ x.done = false ∧ tFind x.trans vpn = some t ∧ t.ppn = m.src) ∧
          hit u { fix := true, state := if m.ue then .poison else .mapped, vpn := vpn, ctx := slot, ppn := m.dst, attr := attr, dppn := 0 } ∧
          attrTier attr = (tierOf (m.dst * 65536)).getD 0 ∧ (∀ b, b < 19 → b ≠ 6 → b ≠ 7 → attr.getLsbD b = e.attr.getLsbD b) ∧
          tGet u.mem.hot 0 m.dst = tGet s.mem.hot 0 m.src ∧ tFind u.mem.sampled m.dst = tFind s.mem.sampled m.src ∧ u.mem.bytes = s.mem.bytes ∧
          ∀ o x t, s.op o = some x → x.ctx = slot → tFind x.trans vpn = some t → t.ppn = m.src →
            ∃ y : Op, u.op o = some y ∧ tFind y.trans vpn = some { t with ppn := m.dst }) ∧
      (m.cut = true → (∃ o ∈ m.tomb, ∃ x, s.op o = some x ∧ x.done = false) → exec (.cutoverAck id) s = .next s) ∧
      (m.cut = true → m.op = none → (∀ o ∈ m.tomb, ∀ x, s.op o = some x → x.done = true) →
        ∃ (u : State) (d : Ctx), exec (.cutoverAck id) s = .next u ∧ tFind u.mem.migs id = none ∧
        (∀ w, s.leafAddr 3 c.root vpn = some w → u.peek64 w = movePte (s.leaf c vpn) m.dst ((tierOf (m.dst * 65536)).getD 0) % 2 ^ 64) ∧
        tGet u.mem.refs 0 m.src = tGet s.mem.refs 0 m.src - 1 ∧ u.ctx slot = some d ∧
        d = { c with refitQ := c.refitQ ++ [(vpn, c.tickets + 1)], toFold := c.toFold ++ [(vpn, c.tickets + 1)], tickets := c.tickets + 1 } ∧ u.ctrs = (s.count 0x10 0 1).ctrs)

/-- R136 to R138, R132. A refit rebuilds the window of the oldest queued page: every segment that meets the window is retired, every new one covers two or more
pages of it with exactly the leaves' frames and attributes, absorbed FIX entries are gone and every other exception entry stays, only that
page's own entry leaves the queue, and every completed edit of the window is folded in for REFITF. That a page with a line on its path which
cannot be read gets no segment is the model's choice (log 106).
R85, R86, R125. A walk that finds an uncorrectable error in the line of the top node's entry gives the line a poison code and lists its
frame, and changes no byte that reads; that its access then has POISON status is the model's choice (log 106). -/
def Obligations.RefitKeepsTranslations : Prop :=
  ∀ (s : State) (slot : Nat) (c : Ctx), s.mgmt.run = .run → s.ctx slot = some c →
    (c.refitQ = [] → exec (.refit slot) s = .next s) ∧
    (∀ vpn ticket rest, c.refitQ = (vpn, ticket) :: rest →
      let b := vpn / 512 * 512
      let hit (g : Seg) : Prop := g.valid = true ∧ g.vstart < b + 512 ∧ b < g.vstart + g.count
      ∃ (u : State) (d : Ctx) (lo hi : Nat), exec (.refit slot) s = .next u ∧ u.ctx slot = some d ∧ lo ≤ b ∧ b + 512 ≤ hi ∧
        (∀ g ∈ c.segs, hit g → lo ≤ g.vstart ∧ g.vstart + g.count ≤ hi) ∧
        (lo = b ∨ ∃ g ∈ c.segs, hit g ∧ g.vstart = lo) ∧ (hi = b + 512 ∨ ∃ g ∈ c.segs, hit g ∧ g.vstart + g.count = hi) ∧
        d = { c with segs := d.segs, refitCtr := c.refitCtr + 1, refitQ := d.refitQ, toFold := d.toFold, folded := d.folded } ∧
        d.refitQ = rest ∧ d.toFold = c.toFold.filter (fun e => decide (e.1 < lo) || decide (hi ≤ e.1)) ∧
        d.folded = (match d.toFold with
          | [] => c.tickets
          | (_, t) :: _ => t - 1) ∧
        (∀ g ∈ c.segs, ¬ hit g → g ∈ d.segs) ∧ (c.segs.length ≤ 2048 → d.segs.length ≤ 2048) ∧
        (∀ g ∈ d.segs, (g ∈ c.segs ∧ ¬ hit g) ∨ (g.valid = true ∧ g.susp = false ∧ g.seq = c.refitCtr + 1 ∧ 2 ≤ g.count ∧ g.slope.toNat < 6 ∧
          lo ≤ g.vstart ∧ g.vstart + g.count ≤ hi ∧ ∀ i, i < g.count →
            let pte := s.leaf c (g.vstart + i)
            pte % 2 = 1 ∧ ptePpn pte = g.pbase + i * 2 ^ g.slope.toNat ∧ pteAttr pte = g.attr ∧ s.refuses (ptePpn pte) (attrTier g.attr) = false ∧
            (s.readPath 3 c.root (g.vstart + i)).2 = false)) ∧
        (∀ e, e ∈ u.xlat.exc ↔ e ∈ s.xlat.exc ∧ ¬ (e.2.fix = true ∧ e.2.ctx = slot ∧ lo ≤ e.2.vpn ∧ e.2.vpn < hi ∧
          (e.2.state = .mapped ∨ e.2.state = .unmapped) ∧ s.migOf slot e.2.vpn = none)) ∧
        u.mem.bytes = s.mem.bytes ∧ (s.mem.latent = [] → u.mem = s.mem ∧ u.ctrs = (s.count 0x05 slot 1).ctrs)) ∧
    ∀ die va k, va < 2 ^ 57 → c.invalid = false → s.excHit die slot (va / 65536) = none →
      (∀ g ∈ c.segs, g.covers (va / 65536) = true → g.susp = true) →
      memb s.mem.poison (1024 * c.root) = false → s.lineDown (1024 * c.root) = false → tFind s.mem.latent (1024 * c.root) = some true →
      ∃ u : State, s.translate die slot none va k = (u, .poison) ∧ memb u.mem.poison (1024 * c.root) = true ∧
        (s.mem.listed.length < 4096 → memb u.mem.listed c.root = true) ∧ SameMain s u

/-- R82 to R86. A scrubber reads the line at the position of its pass, counts and logs what it finds there (MEMCE, MEMUE; a full log loses the
corrected error found or, to an uncorrectable one, its oldest corrected error, and counts that; a full list of poisoned frames counts), and goes on. A
poisoned line counts and logs nothing again (the model's choice, log 92: R86 has every later read uncorrectable). (That an entry takes any free one of the log's 64 places is the
model's choice, log 91.) Writing 1 to VALID clears the place written and no other (R6); the last line of 2^28 ends the pass in step 0 and counts.
The escalator sets the step by the lag: up at 1/32, 1/16, 1/8 and 1/4 or at the deadline, down by one below half the step's own value (past the deadline with a lag
below 1/8, from step 4 to 3: the model's choice, log 76).
R80, R81, R240. A rotation gives the slot a fresh key and sweeps over every range recorded for it, from their bases, and changes no byte that reads;
a frame that comes into a slot lies in a recorded range of it, and in a sweep's while it rotates (the shape of the recorded ranges is the model's choice, log 73); a sweep step reseals the line at its pointer under the new key and advances, or waits where that line lies behind a CXL port
that is down (the model's choice, log 93), and every byte of the slot reads as before; when every range is done the slot is
STEADY under the new key. A protected context's save key is renewed once when SAVECTR has reached a multiple of 2^40. -/
def Obligations.ScrubbersAndKeyRotation : Prop :=
  (∀ (s : State) (unit : Nat), s.mgmt.run = .run → unit < 96 →
     let x := s.scrubber unit
     let line := if unit < 32 then (unit / 4 * 2 ^ 36 + unit % 4 * 2 ^ 34) / 64 + x.pos
       else (0x10000000000 + x.pos / 4 * 16384 + (unit - 32) * 256) / 64 + x.pos % 4
     let after : Scrub := if x.pos + 1 = 2 ^ 28 then { pos := 0, step := 0, start := s.time } else { x with pos := x.pos + 1 }
     let dl := s.mgmt.scrub.toNat / 2 ^ 20 % 2 ^ 16 * 60000000000
     let log := (tFind s.mem.logs unit).getD []
     let full : Prop := ∀ p, p < 64 → ∃ e ∈ log, e.1 = p
     let ended (t : State) : State := if x.pos + 1 = 2 ^ 28 then t.count 0x26 unit 1 else t
     let poisoned : State := (if memb s.mem.listed (line / 1024) = true ∨ s.mem.listed.length < 4096 then s else s.count 0x25 0 1).count 0x23 unit 1
     let free (p : Nat) : Prop := p < 64 ∧ ∀ e ∈ log, e.1 ≠ p
     (s.mgmt.scrub.getLsbD 0 = false → exec (.scrubRead unit) s = .next s) ∧
     (s.mgmt.scrub.getLsbD 0 = true → x.pos < 2 ^ 28 → s.mem.migs = [] → ∃ u : State, exec (.scrubRead unit) s = .next u ∧
       u.scrubber unit = after ∧ (∀ v, v ≠ unit → u.scrubber v = s.scrubber v) ∧ u.mem.bytes = s.mem.bytes ∧ u.xlat = s.xlat ∧
       (memb s.mem.poison line = true ∨ tFind s.mem.latent line = none → u.mem = { s.mem with scrubs := u.mem.scrubs } ∧
         u.ctrs = (ended s).ctrs) ∧
       (memb s.mem.poison line = false → tFind s.mem.latent line = some false →
         u.mem.poison = s.mem.poison ∧ tFind u.mem.latent line = none ∧
         ((∃ p, free p) → ∃ p, free p ∧ tFind u.mem.logs unit =
           some (log ++ [(p, { ue := false, src := 1, line := line, ts := s.time, sym := Config.symbolOf line })])) ∧
         (full → u.mem.logs = s.mem.logs) ∧
         (¬ full → u.ctrs = (ended (s.count 0x22 unit 1)).ctrs) ∧
         (full → u.ctrs = (ended ((s.count 0x22 unit 1).count 0x24 unit 1)).ctrs)) ∧
       (memb s.mem.poison line = false → tFind s.mem.latent line = some true →
         memb u.mem.poison line = true ∧ (s.mem.listed.length < 4096 → memb u.mem.listed (line / 1024) = true) ∧
         ((∃ p, free p) → ∃ p, free p ∧ tFind u.mem.logs unit =
           some (log ++ [(p, { ue := true, src := 1, line := line, ts := s.time, sym := 0x3FF })])) ∧
         (full → (∀ e ∈ log, e.2.ue = true) → u.mem.logs = s.mem.logs) ∧
         (∀ pre old post, full → log = pre ++ old :: post → (∀ e ∈ pre, e.2.ue = true) → old.2.ue = false →
           tFind u.mem.logs unit = some ((log.filter fun e => e.1 != old.1) ++
             [(old.1, { ue := true, src := 1, line := line, ts := s.time, sym := 0x3FF })])) ∧
         (¬ full → u.ctrs = (ended poisoned).ctrs) ∧ (full → u.ctrs = (ended (poisoned.count 0x24 unit 1)).ctrs))) ∧
     (∀ i j w, (s.envTurn (.logFree unit i)).logWord unit i w = 0 ∧
       (j ≠ i → (s.envTurn (.logFree unit i)).logWord unit j w = s.logWord unit j w)) ∧
     (dl = 0 → exec (.scrubStepChange unit) s = .next s) ∧
     (dl ≠ 0 → ∃ u : State, exec (.scrubStepChange unit) s = .next u ∧ u = { s with mem := { s.mem with scrubs := u.mem.scrubs } } ∧
       let el := (s.time - x.start).toNat
       let lag : Int := ((el * 2 ^ 28 : Nat) : Int) - ((x.pos * dl : Nat) : Int)
       let whole : Int := ((dl * 2 ^ 28 : Nat) : Int)
       let up := if dl ≤ el ∨ whole < 4 * lag then 4 else if whole < 8 * lag then 3 else if whole < 16 * lag then 2 else if whole < 32 * lag then 1 else 0
       u.scrubber unit = { x with step := if x.step < up then up
         else if (x.step = 1 ∧ 64 * lag < whole) ∨ (x.step = 2 ∧ 32 * lag < whole) ∨ (x.step = 3 ∧ 16 * lag < whole) ∨ (4 ≤ x.step ∧ 8 * lag < whole) then x.step - 1
         else x.step })) ∧
  (∀ (s : State) (slot : Nat) (k : KeySlot), s.mgmt.run = .run → tFind s.mem.keys slot = some k →
     (k.next = none → ∃ (u : State) (j : KeySlot), exec (.keyRotationStart slot) s = .next u ∧
       tFind u.mem.keys slot = some j ∧ j = { k with next := some s.mem.nextKey, sweeps := k.ranges.map fun r => { base := r.1, limit := r.2, ptr := r.1 } } ∧ u.mem.nextKey = s.mem.nextKey + 1 ∧
       SameMain s u) ∧
     (∀ f, sealedTier (f * 65536) = true → (∀ r ∈ k.ranges, r.1 < r.2 ∧ r.1 % 65536 = 0 ∧ r.2 % 65536 = 0) →
       ∃ j : KeySlot, tFind (s.joinSlot slot f).mem.keys slot = some j ∧ (∃ r ∈ j.ranges, r.1 ≤ f * 65536 ∧ (f + 1) * 65536 ≤ r.2) ∧
         (k.next ≠ none → ∃ w ∈ j.sweeps, w.base ≤ f * 65536 ∧ (f + 1) * 65536 ≤ w.limit)) ∧
     (k.next ≠ none → exec (.keyRotationStart slot) s = .next s) ∧ (k.next = none → ∀ r, exec (.keySweepStep slot r) s = .next s) ∧
     (∀ n r w, k.next = some n → k.sweeps[r]? = some w → w.ptr < w.limit → s.lineDown (w.ptr / 64) = true → exec (.keySweepStep slot r) s = .next s) ∧
     (∀ n r w, k.next = some n → k.sweeps[r]? = some w → w.ptr < w.limit → w.base ≤ w.ptr → w.ptr % 64 = 0 → tFind s.mem.latent (w.ptr / 64) = none →
       s.lineDown (w.ptr / 64) = false →
       let moved := setAt k.sweeps r { w with ptr := w.ptr + 64 }
       ∃ u : State, exec (.keySweepStep slot r) s = .next u ∧
         ((∃ y ∈ moved, y.ptr < y.limit) → tFind u.mem.keys slot = some { k with sweeps := moved }) ∧
         ((∀ i y, i ≠ r → k.sweeps[i]? = some y → ¬ (y.base ≤ w.ptr ∧ w.ptr < y.limit)) →
           ∀ pa, (∃ y ∈ moved, y.ptr < y.limit) ∨ (∃ y ∈ moved, y.base ≤ pa / 64 * 64 ∧ pa / 64 * 64 < y.limit) →
             (pa / 64 = w.ptr / 64 → tFind s.mem.sealed (pa / 64) = none ∨ tFind s.mem.sealed (pa / 64) = some k.xts) →
             u.peek slot pa = s.peek slot pa) ∧
         ((∀ y ∈ moved, y.limit ≤ y.ptr) → tFind u.mem.keys slot = some { k with xts := n, next := none, sweeps := [] }) ∧
         (tFind s.mem.sealed (w.ptr / 64) = some k.xts → tFind u.mem.sealed (w.ptr / 64) = some n) ∧
         (tFind s.mem.sealed (w.ptr / 64) ≠ some k.xts → u.mem.sealed = s.mem.sealed)) ∧
     ∀ ctx c, s.ctx ctx = some c → c.keySlot = slot →
       (c.prot = false ∨ c.savectr.toNat / 2 ^ 40 ≤ k.epoch → exec (.saveKeyRenew ctx) s = .next s) ∧
       (c.prot = true → k.epoch < c.savectr.toNat / 2 ^ 40 → ∃ u : State, exec (.saveKeyRenew ctx) s = .next u ∧
         u = { s with mem := { s.mem with keys := u.mem.keys, nextKey := s.mem.nextKey + 1 } } ∧
         ∀ j, tFind u.mem.keys j = if j = slot then some { k with save := s.mem.nextKey, epoch := c.savectr.toNat / 2 ^ 40 } else tFind s.mem.keys j))

/-- R74, R78, R79, R213. While a CXL root port's link is down every access to its part of the window meets POISON status, until the port is enumerated again.
A new key pair sets both nonce counters of a link to 0; a tag failure shuts the link, removes every context and holds the device with HALT posted; a peer's
COLL_ABORT, or its route going down, ends each unfinished collective that names it as ABORTED. -/
def Obligations.LinksAndPeers : Prop :=
  ∀ (s : State), s.mgmt.run = .run →
    (∀ port, s.mem.migs = [] → ∃ u : State, exec (.cxlLinkDown port) s = .next u ∧ u = { s with mem := { s.mem with down := u.mem.down } } ∧
      (∀ p, memb u.mem.down p = (decide (p = port) || memb s.mem.down p)) ∧
      ∀ src line, tierOf (64 * line) = some 2 → s.portOf (64 * line) = some port → u.touchLine src line = (u, true)) ∧
    (∀ port, ∃ u : State, exec (.cxlPortReenumeration port) s = .next u ∧ u = { s with mem := { s.mem with down := u.mem.down } } ∧
      (∀ p, memb u.mem.down p = (decide (p ≠ port) && memb s.mem.down p)) ∧
      ∀ src line, s.portOf (64 * line) = some port → memb s.mem.poison line = false → tFind s.mem.latent line = none → u.touchLine src line = (u, false)) ∧
    (∀ link, tFind s.belv.links (2 * link) ≠ none → ∃ u : State, exec (.linkRekey link) s = .next u ∧
      u = { s with mem := { s.mem with nextKey := s.mem.nextKey + 2 }, belv := { s.belv with links := u.belv.links } } ∧
      ∀ j, tFind u.belv.links j = if j = 2 * link then some (s.mem.nextKey, 0) else if j = 2 * link + 1 then some (s.mem.nextKey + 1, 0)
        else tFind s.belv.links j) ∧
    (∀ link, ∃ (u t : State), exec (.integrityFault link) s = .next u ∧ u = t.postEvent 5 0 0 0 0 0 0 ∧ t.mgmt.run = .halt ∧
      (∀ l, memb u.belv.down l = (decide (l = link) || memb s.belv.down l)) ∧
      (∀ k c, s.ctx k = some c → u.ctx k = none)) ∧
    (∀ ident : W64, ∃ u : State, exec (.collAbort ident) s = .next u ∧ u = { s with work := { s.work with ops := u.work.ops } } ∧
      ∀ o x, s.op o = some x → u.op o = some (match x.kind with
        | .coll d got bad _ => if d.ident = ident ∧ x.done = false then { x with kind := .coll d got bad true } else x
        | _ => x)) ∧
    (∀ route x, tFind s.routes route = some x → ∃ u : State, exec (.peerRouteDown route) s = .next u ∧
      tFind u.routes route = some { x with up := false } ∧ (∀ r, r ≠ route → tFind u.routes r = tFind s.routes r) ∧
      ∀ o y d got bad, s.op o = some y → y.kind = .coll d got bad false → y.done = false → (∀ e ∈ s.work.ops, e.1 = o → e.2 = y) →
        (route ∈ d.routes → u.op o = some { y with kind := .coll d got bad true } ∧ ∀ r ∈ d.routes, Out.collAbort r d.ident ∈ u.outbox) ∧
        (route ∉ d.routes → u.op o = some y))

/-! ### Boot, resets, life cycle, attestation -/

/-- R228 steps 1 to 3, R229. The image of MSL0, MSL14 or MSL15 is signed under VROOT and not below FWSVN; the die of MSL1 to MSL13 presents a chain that
ends at VROOT and the manifest's measurement of its type. -/
def PassesBoot (b : Belv) (n : Nat) : Prop :=
  if 1 ≤ n ∧ n ≤ 13 then (b.presents n).root = b.vroot ∧
    (b.presents n).digest = Config.manifest (b.image 0).digest (if n = 1 then 1 else if n < 10 then 2 else 10)
  else (b.image n).root = b.vroot ∧ ((List.range 64).filter (fun i => b.fwsvn.getLsbD i)).length ≤ (b.image n).version

/-- R228, R230. What boot extends into MSL0 to MSL16: images, the measurements of the dies, and the repair data. -/
def bootPart (b : Belv) (n : Nat) : BitVec 512 :=
  if n = 16 then Config.configDigest b.spares else if 1 ≤ n ∧ n ≤ 13 then (b.presents n).digest else (b.image n).digest

/-- R228 to R231, R233. From power-on the boot sequence verifies images and dies and extends MSL0 to MSL16 once each, derives DeviceID and Alias with Alias's
certificate, keys both directions of every link with their counters at 0, loads key slot 0 and lets the dies run. The first image or die that does not pass, or a step
that fails from outside, is reported with its die and the device stays in reset: the measurements made before it stay, and FAILDIE 0xFF stands for an image
(the model's choices, log 57). A DECOMMISSIONED device releases no die.
R234, R235, R86, R48, R79. A cold reset empties the device, zeroes HBM, LPDDR and CXL, and boots; a warm reset keeps the contents of HBM, the poisoned frames
and lines, and the unique GRIDIDs, and owes each frame not known to be zero a zeroing (that CXL memory reads 0 after either is the model's choice, log 4; that a warm
reset in HALT does nothing at all, log 55). A function-level reset resets the function's queues, drops
its packets and mailbox and removes its contexts, and touches no other function's. That
all that R234 does not name takes its reset value, and that a function-level reset drops the mailbox, is the model's reading (log 58, DEDUCED); images and
certificates stand as root, version and digest by the model's choice (log 79, DESIGN CHOICE).
R233, R230, R193. LCCHANGE with an authorisation that names an allowed next state burns it and proceeds as a cold reset with MSL17 extended, UDS erased for
DECOMMISSIONED, which releases no die; any other is refused with FORMAT and changes nothing.
That the contexts without a resident warp which a function-level reset removes are gone at once is the model's reading too (log 33, DEDUCED). -/
def Obligations.BootResetsAndLifeCycle : Prop :=
  (∀ (s : State),
     let ready : Prop := s.mgmt.run = .boot ∧ s.mgmt.bootFail = false ∧ s.belv.lc ≠ .decommissioned
     let passes (n : Nat) : Prop := PassesBoot s.belv n
     let measured (n : Nat) : BitVec 512 := Config.shake256 (toBytes 64 (tGet s.belv.msl 0 n).toNat ++ toBytes 64 (bootPart s.belv n).toNat)
     let base := toBytes 32 s.belv.uds.toNat ++ toBytes 2 (Config.lcFuses s.belv.lc).toNat
     let device := (Config.shake256 (1 :: base)).setWidth 256
     let alias_ := (Config.shake256 (2 :: base ++ toBytes 64 (measured 0).toNat ++ toBytes 64 (measured 14).toNat)).setWidth 256
     let dies : List Nat := [2, 3, 4, 5, 6, 7, 8, 9, 1, 10, 11, 12, 13]
     let number (n : Nat) : Nat := if n = 1 then 8 else if n < 10 then n - 2 else n + 6
     let stopped (u : State) (step die : Nat) (upTo : List Nat) : Prop :=
       u.mgmt = { s.mgmt with bootFail := true, failStep := BitVec.ofNat 8 step, failDie := BitVec.ofNat 8 die } ∧ u.belv.fault = none ∧
       u.mem.keys = s.mem.keys ∧ ∀ n, tGet u.belv.msl 0 n = if n ∈ upTo then measured n else tGet s.belv.msl 0 n
     (¬ ready → exec .powerOn s = .next s) ∧
     (ready → s.belv.fault = none → (∀ n, n ≤ 15 → passes n) → ∃ u : State, exec .powerOn s = .next u ∧
       u = { s with mgmt := { s.mgmt with run := .run }, mem := { s.mem with keys := u.mem.keys, nextKey := u.mem.nextKey },
                    belv := { s.belv with msl := u.belv.msl, ids := some (device, alias_), links := u.belv.links,
                                          devCert := ⟨Config.publicKey device, s.belv.vroot⟩, aliasCert := some ⟨Config.publicKey alias_, Config.publicKey device⟩ } } ∧
       (∀ n, tGet u.belv.msl 0 n = if n ≤ 16 then measured n else tGet s.belv.msl 0 n) ∧
       (∀ i, i < 106 → tFind u.belv.links i = some (s.mem.nextKey + i, 0)) ∧
       ∀ k, tFind u.mem.keys k = if k = 0 then
           some { xts := s.mem.nextKey + 106, next := none, save := s.mem.nextKey + 107, ranges := [], sweeps := [], epoch := 0 }
         else tFind s.mem.keys k) ∧
     (∀ pre n post, ready → s.belv.fault = none → 0 :: dies ++ [14, 15] = pre ++ n :: post → (∀ m ∈ pre, passes m) → ¬ passes n →
       ∃ u : State, exec .powerOn s = .next u ∧ u.belv.links = s.belv.links ∧
         if n = 0 then stopped u 1 0xFF pre else if n ≤ 13 then stopped u 2 (number n) pre else stopped u 3 0xFF pre) ∧
     (∀ step die, ready → s.belv.fault = some (step, die) → 1 ≤ step → step ≤ 7 → (∀ n, n ≤ 15 → passes n) →
       ∃ u : State, exec .powerOn s = .next u ∧ (step ≤ 6 → u.belv.links = s.belv.links) ∧
         stopped u step die (if step = 1 then [] else if step = 2 then 0 :: dies.takeWhile (fun n => number n != die) else if step = 3 then 0 :: dies
           else if step = 4 then 0 :: dies ++ [14, 15] else List.range 17))) ∧
  (∀ (s : State),
     let booted (u : State) : Prop := u.mgmt = { Mgmt.reset with run := .run } ∧ u.belv.ids ≠ none ∧
       ∀ f, tierOf (f * 65536) = some 1 ∨ tierOf (f * 65536) = some 2 → u.mem.owes f = true
     let emptied (u : State) : Prop := u.ctxs = [] ∧ u.deques = [] ∧ u.units = [] ∧ u.stale = [] ∧ u.front = State.reset.front ∧ u.xlat.exc = [] ∧
       u.power = [] ∧ u.ctrs = [] ∧ (∀ n, n < 17 → tGet u.belv.msl 0 n = Config.shake256 (toBytes 64 0 ++ toBytes 64 (bootPart s.belv n).toNat)) ∧
       u.belv.uds = s.belv.uds ∧ u.belv.lc = s.belv.lc ∧ (∀ k, k ≠ 0 → tFind u.mem.keys k = none)
     (s.belv.lc ≠ .decommissioned → s.belv.fault = none → (∀ n, n ≤ 15 → PassesBoot s.belv n) → ∃ u : State, exec .coldReset s = .next u ∧ booted u ∧ emptied u ∧
       u.work = { Work.reset with nextGrid := 1 } ∧ (∀ slot pa, u.peek slot pa = if tierOf pa = some 3 then s.peek slot pa else 0) ∧
       u.mem.listed = [] ∧ u.mem.poison = []) ∧
     (s.mgmt.run = .halt → exec .warmReset s = .next s) ∧
     (s.mgmt.run ≠ .halt → s.belv.lc ≠ .decommissioned → s.belv.fault = none → (∀ n, n ≤ 15 → PassesBoot s.belv n) → ∃ u : State, exec .warmReset s = .next u ∧ booted u ∧ emptied u ∧
       u.work = { Work.reset with nextGrid := s.work.nextGrid } ∧
       (∀ slot pa, tierOf pa ≠ some 1 → u.peek slot pa = if tierOf pa = some 2 then 0 else s.peek slot pa) ∧ u.mem.listed = s.mem.listed ∧
       u.mem.poison = s.mem.poison ∧
       ∀ pa, tierOf pa = some 0 ∨ tierOf pa = some 1 → tGet s.mem.bytes 0 pa ≠ 0 → memb s.mem.listed (pa / 65536) = false →
         memb u.mem.owed (pa / 65536) = true) ∧
     (∀ slot f, s.mem.owes f = true → memb s.mem.listed f = false → (s.firstUse slot f).mem.owes f = false ∧
       ∀ i, i < 65536 → (s.firstUse slot f).peek slot (f * 65536 + i) = 0) ∧
     ∀ fn, s.mgmt.run = .run → (16 ≤ fn → exec (.flr fn) s = .next s) ∧
       (fn < 16 → ∃ u : State, exec (.flr fn) s = .next u ∧ (∀ q, q < 16 → u.queue fn q = Queue.reset) ∧
         (∀ f q, f ≠ fn → q < 16 → u.queue f q = s.queue f q) ∧ (∀ e ∈ u.front.packets, e.2.fn ≠ fn) ∧ tFind u.front.mail fn = none ∧
         (∀ k c, s.ctx k = some c → (∀ e ∈ s.ctxs, e.1 = k → e.2 = c) →
           (c.fn ≠ fn → u.ctx k = some c) ∧
           (c.fn = fn → (∀ a t f, c.pre ≠ .removing a t f) → (s.warpsOfCtx k = [] → u.ctx k = none) ∧
             (s.warpsOfCtx k ≠ [] → ∃ d : Ctx, u.ctx k = some d ∧ d.pre = .removing 0x44 0 true ∧ d.invalid = true))))) ∧
  (∀ (s : State), CommandAt s 10 → NamesOnly s [2 ^ 64 - 1, 0x3FFF] →
     let w (i : Nat) : Nat := (tGet s.mgmt.cmd 0 i).toNat
     let proof := (List.range (w 2)).map fun i => s.peek 0 (0x8000000000000 + w 1 % 2 ^ 51 + i)
     let seed := (s.belv.ids.map (·.1)).getD 0
     let allowed (n : LifeCycle) : Prop := (s.belv.lc, n) ∈ [(LifeCycle.manufacture, .development), (.manufacture, .production), (.development, .production),
       (.production, .rma), (.rma, .decommissioned)]
     ((∀ n, Config.authorises seed proof = some n → ¬ allowed n) → ∃ u : State, exec .lcchange s = .next u ∧ Answered s s u 1 0x01 []) ∧
     (∀ n, Config.authorises seed proof = some n → allowed n → ∃ u : State, exec .lcchange s = .next u ∧ u.belv.lc = n ∧
       u.belv.uds = (if n = .decommissioned then 0 else s.belv.uds) ∧
       tGet u.belv.msl 0 17 = Config.shake256 (toBytes 64 0 ++ toBytes 64 (Config.stateDigest n).toNat) ∧
       u.ctxs = [] ∧ u.work = { Work.reset with nextGrid := 1 } ∧ u.mgmt.cmdBusy = false ∧ u.mem.listed = [] ∧
       (∀ slot pa, u.peek slot pa = if tierOf pa = some 3 then s.peek slot pa else 0) ∧
       (n = .decommissioned → u.mgmt.run = .boot) ∧ (n ≠ .decommissioned → s.belv.fault = none → (∀ m, m ≤ 15 → PassesBoot s.belv m) → u.mgmt.run = .run)))

/-- R231, R232. Belvedere answers each SPDM request of a function under Alias (the order of a session and the codes are the model's choice, log 29); GET_CERTIFICATE returns the chain of DeviceID's and Alias's certificates and GET_DIGESTS its digest; GET_MEASUREMENTS returns the measurement
register of index 0x01 to 0x20, or CODE and words 8 and 9 of a context for the physical function and the context's own; another function
gets no record of it. That the record is two 512-bit words, CODE first, is the model's reading (log 59, DEDUCED); that a certificate stands as two public
keys is its choice (log 79, DESIGN CHOICE). -/
def Obligations.SpdmAnswers : Prop :=
  ∀ (s : State) (fn : Nat) (dev seed : BitVec 256), s.mgmt.run = .run → s.belv.ids = some (dev, seed) → fn ≤ 16 →
    let cert (c : Cert) : List (BitVec 512) := [c.key, c.signer]
    let chain := cert s.belv.devCert ++ (match s.belv.aliasCert with | some c => cert c | none => [])
    let level := tGet s.belv.spdm 0 fn
    let answers (i : Instr) (code : Nat) (records : List (BitVec 512)) : Prop :=
      exec i s = .next { s with outbox := s.outbox ++ [.spdm fn code (records ++ Config.spdmBody seed code records)] }
    let error (i : Instr) : Prop := exec i s = .next { s with outbox := s.outbox ++ [.spdm fn 0x7F []] }
    let opens (i : Instr) (code to_ : Nat) : Prop := ∃ u : State, exec i s = .next u ∧
      u = { s with outbox := s.outbox ++ [.spdm fn code (Config.spdmBody seed code [])], belv := { s.belv with spdm := u.belv.spdm } } ∧
      ∀ f, tGet u.belv.spdm 0 f = if f = fn then to_ else tGet s.belv.spdm 0 f
    opens (.getVersion fn) 0x84 1 ∧ (1 ≤ level → opens (.getCapabilities fn) 0xE1 2) ∧ (level < 1 → error (.getCapabilities fn)) ∧
    (2 ≤ level → opens (.negotiateAlgorithms fn) 0xE3 3) ∧ (level < 2 → error (.negotiateAlgorithms fn)) ∧
    (3 ≤ level → answers (.getDigests fn) 0x81 [Config.shake256 (chain.flatMap fun k => toBytes 64 k.toNat)] ∧ answers (.getCertificate fn) 0x82 chain ∧ answers (.challenge fn) 0x83 []) ∧
    (level < 3 → error (.getDigests fn) ∧ error (.getCertificate fn) ∧ error (.challenge fn) ∧ ∀ i, error (.getMeasurements fn i)) ∧
    (3 ≤ level → ∀ i : BitVec 8,
      (1 ≤ i.toNat → i.toNat ≤ 0x20 → answers (.getMeasurements fn i) 0xE0 [tGet s.belv.msl 0 (i.toNat - 1)]) ∧
      (∀ c, 0x40 ≤ i.toNat → i.toNat < 0x80 → s.ctx (i.toNat - 0x40) = some c →
        (fn = 16 ∨ c.fn = fn → answers (.getMeasurements fn i) 0xE0 [c.code, BitVec.ofNat 512
          (c.savectr.toNat * 2 ^ 64 + c.label.toNat * 2 ^ 8 + (if c.mutableC = true then 2 else 0) + (if c.prot = true then 1 else 0))]) ∧
        (fn ≠ 16 → c.fn ≠ fn → answers (.getMeasurements fn i) 0xE0 [])) ∧
      (0x20 < i.toNat ∧ i.toNat < 0x40 ∨ 0x80 ≤ i.toNat ∧ i ≠ 0xFF → answers (.getMeasurements fn i) 0xE0 []))

end
end

