-- ==== Sys2Proof/Laws/Table.lean ====
section
/-!
SUPPORT. The laws of sparse tables: a key reads as what was last put under it, every other key as before, and every operation
keeps the canonical form.
-/
namespace Sys2Proof.Machine

variable {α β : Type}

/-! ### Lookups -/

theorem tFind_tPut_self (t : Table α) (k : Nat) (x : α) : tFind (tPut t k x) k = some x := by
  induction t with
  | nil => simp [tPut, tFind]
  | cons e r ih =>
    obtain ⟨j, y⟩ := e
    by_cases h : j = k
    · simp [tPut, tFind, h]
    · by_cases h2 : k < j <;> simp [tPut, tFind, h, h2, ih]

theorem tFind_tPut_ne (t : Table α) {k j : Nat} (x : α) (hk : j ≠ k) : tFind (tPut t k x) j = tFind t j := by
  induction t with
  | nil => simp [tPut, tFind, Ne.symm hk]
  | cons e r ih =>
    obtain ⟨i, y⟩ := e
    by_cases h : i = k
    · subst h; simp [tPut, tFind, Ne.symm hk]
    · by_cases h2 : k < i
      · simp [tPut, tFind, h, h2, Ne.symm hk]
      · simp [tPut, tFind, h, h2, ih]

theorem tFind_tPut (t : Table α) (k j : Nat) (x : α) : tFind (tPut t k x) j = if j = k then some x else tFind t j := by
  by_cases h : j = k
  · subst h; simp [tFind_tPut_self]
  · simp [h, tFind_tPut_ne t x h]

theorem tFind_filter (t : Table α) (p : Nat → Bool) (j : Nat) :
    tFind (t.filter fun e => p e.1) j = if p j then tFind t j else none := by
  induction t with
  | nil => simp [tFind]
  | cons e r ih =>
    obtain ⟨i, y⟩ := e
    by_cases hp : p i <;> by_cases h : i = j
    · subst h; simp [List.filter, hp, tFind]
    · simp [List.filter, hp, tFind, h, ih]
    · subst h; simp [List.filter, hp, ih]
    · simp [List.filter, hp, tFind, h, ih]

theorem tFind_tDel (t : Table α) (k j : Nat) : tFind (tDel t k) j = if j = k then none else tFind t j := by
  have := tFind_filter t (fun i => i != k) j
  simp only [tDel, this]
  by_cases h : j = k <;> simp [h]

theorem tFind_tMod (t : Table α) (k j : Nat) (f : α → α) :
    tFind (tMod t k f) j = if j = k then (tFind t k).map f else tFind t j := by
  induction t with
  | nil => simp [tMod, tFind]
  | cons e r ih =>
    obtain ⟨i, y⟩ := e
    by_cases h : i = k
    · subst h
      by_cases hj : j = i
      · subst hj; simp [tMod, tFind]
      · simp [tMod, tFind, hj, Ne.symm hj]
    · by_cases hj : j = k
      · subst hj; simp [tMod, tFind, h, ih]
      · simp [tMod, tFind, h, ih, hj]

theorem tFind_tMap (t : Table α) (f : Nat → α → β) (j : Nat) : tFind (tMap t f) j = (tFind t j).map (f j) := by
  induction t with
  | nil => simp [tMap, tFind]
  | cons e r ih =>
    obtain ⟨i, y⟩ := e
    by_cases h : i = j
    · subst h; simp [tMap, tFind]
    · simpa [tMap, tFind, h] using ih

theorem tGet_tSet [DecidableEq α] (t : Table α) (d : α) (k j : Nat) (x : α) :
    tGet (tSet t d k x) d j = if j = k then x else tGet t d j := by
  by_cases hx : x = d
  · subst hx
    by_cases h : j = k <;> simp [tGet, tSet, tFind_tDel, h]
  · by_cases h : j = k <;> simp [tGet, tSet, hx, tFind_tPut, h]

theorem tGet_tSet_self [DecidableEq α] (t : Table α) (d : α) (k : Nat) (x : α) : tGet (tSet t d k x) d k = x := by
  simp [tGet_tSet]

theorem tGet_tSet_ne [DecidableEq α] (t : Table α) (d : α) {k j : Nat} (x : α) (h : j ≠ k) :
    tGet (tSet t d k x) d j = tGet t d j := by simp [tGet_tSet, h]

/-! ### The canonical form -/

/-- The canonical form as a list property: keys pairwise rising and no value the default. -/
theorem tWf_iff [DecidableEq α] (d : α) (t : Table α) :
    tWf d t = true ↔ t.Pairwise (fun a b => a.1 < b.1) ∧ ∀ e ∈ t, e.2 ≠ d := by
  match t with
  | [] => simp [tWf]
  | [(j, x)] => simp [tWf]
  | (j, x) :: (k, y) :: r =>
    have ih := tWf_iff d ((k, y) :: r)
    have hd : tWf d ((j, x) :: (k, y) :: r) = (decide (j < k) && x != d && tWf d ((k, y) :: r)) := by simp [tWf]
    rw [hd, Bool.and_eq_true, Bool.and_eq_true, ih]
    constructor
    · rintro ⟨⟨h1, h2⟩, h3, h4⟩
      have h1' : j < k := by simpa using h1
      refine ⟨List.pairwise_cons.2 ⟨?_, h3⟩, ?_⟩
      · intro e he
        rcases List.mem_cons.1 he with rfl | he
        · exact h1'
        · exact Nat.lt_trans h1' ((List.pairwise_cons.1 h3).1 e he)
      · intro e he
        rcases List.mem_cons.1 he with rfl | he
        · simpa using h2
        · exact h4 e he
    · rintro ⟨h1, h2⟩
      have h1' := List.pairwise_cons.1 h1
      refine ⟨⟨?_, ?_⟩, h1'.2, fun e he => h2 e (List.mem_cons_of_mem _ he)⟩
      · simpa using h1'.1 (k, y) (by simp)
      · simpa using h2 (j, x) (by simp)

theorem tWf_filter [DecidableEq α] {d : α} {t : Table α} (p : Nat × α → Bool) (h : tWf d t = true) :
    tWf d (t.filter p) = true := by
  rw [tWf_iff] at *
  exact ⟨h.1.sublist (List.filter_sublist), fun e he => h.2 e (List.mem_filter.1 he).1⟩

theorem tWf_tDel [DecidableEq α] {d : α} {t : Table α} (k : Nat) (h : tWf d t = true) : tWf d (tDel t k) = true :=
  tWf_filter _ h

theorem tWf_tDelRange [DecidableEq α] {d : α} {t : Table α} (lo n : Nat) (h : tWf d t = true) :
    tWf d (tDelRange t lo n) = true := tWf_filter _ h

theorem mem_tPut {t : Table α} {k : Nat} {x : α} {e : Nat × α} (he : e ∈ tPut t k x) : e = (k, x) ∨ e ∈ t := by
  induction t with
  | nil => simpa [tPut] using he
  | cons a r ih =>
    obtain ⟨j, y⟩ := a
    simp only [tPut] at he
    split at he
    · rcases List.mem_cons.1 he with h | h
      · exact .inl h
      · exact .inr (List.mem_cons_of_mem _ h)
    · split at he
      · rcases List.mem_cons.1 he with h | h
        · exact .inl h
        · exact .inr h
      · rcases List.mem_cons.1 he with h | h
        · exact .inr (by simp [h])
        · rcases ih h with h | h
          · exact .inl h
          · exact .inr (List.mem_cons_of_mem _ h)

theorem tWf_tPut [DecidableEq α] {d : α} {t : Table α} (k : Nat) {x : α} (hx : x ≠ d) (h : tWf d t = true) :
    tWf d (tPut t k x) = true := by
  rw [tWf_iff] at *
  refine ⟨?_, fun e he => ?_⟩
  · have hp := h.1
    clear h
    induction t with
    | nil => simp [tPut]
    | cons a r ih =>
      obtain ⟨j, y⟩ := a
      have hp' := List.pairwise_cons.1 hp
      simp only [tPut]
      split
      · next hj => subst hj; exact List.pairwise_cons.2 ⟨hp'.1, hp'.2⟩
      · split
        · next hk =>
          refine List.pairwise_cons.2 ⟨fun e he => ?_, hp⟩
          rcases List.mem_cons.1 he with rfl | he
          · exact hk
          · exact Nat.lt_trans hk (hp'.1 e he)
        · next hj hk =>
          refine List.pairwise_cons.2 ⟨fun e he => ?_, ih hp'.2⟩
          rcases mem_tPut he with rfl | he
          · simp only; omega
          · exact hp'.1 e he
  · rcases mem_tPut he with rfl | he
    · exact hx
    · exact h.2 e he

theorem tWf_tSet [DecidableEq α] {d : α} {t : Table α} (k : Nat) (x : α) (h : tWf d t = true) :
    tWf d (tSet t d k x) = true := by
  unfold tSet
  split
  · exact tWf_tDel k h
  · next hx => exact tWf_tPut k hx h

/-! ### Lists of due traps -/

/-- What every element of a list satisfies, `argMin` answers. -/
theorem argMin_mem {α : Type} (key : α → Nat) : ∀ (l : List α) (d : α), argMin key l = some d → d ∈ l := by
  intro l
  induction l with
  | nil => intro d h; simp [argMin] at h
  | cons a r ih =>
    intro d h
    unfold argMin at h
    split at h
    · simp at h; simp [h]
    · next y hy =>
      split at h
      · simp at h; exact List.mem_cons_of_mem _ (h ▸ ih y hy)
      · simp at h; simp [h]

/-- The first element of the lowest key. -/
theorem argMin_split {α : Type} (key : α → Nat) {d : α} {post : List α} (hpost : ∀ e ∈ post, key d ≤ key e) :
    ∀ pre : List α, (∀ e ∈ pre, key d < key e) → argMin key (pre ++ d :: post) = some d := by
  intro pre
  induction pre with
  | nil =>
    intro _
    show argMin key (d :: post) = some d
    unfold argMin
    split
    · rfl
    · next y hy => rw [if_neg (Nat.not_lt.2 (hpost y (argMin_mem key post y hy)))]
  | cons a r ih =>
    intro h
    have := ih fun e he => h e (List.mem_cons_of_mem _ he)
    show argMin key (a :: (r ++ d :: post)) = some d
    rw [argMin, this]
    exact if_pos (h a (by simp))

/-- `dropFirst` takes out the first element that satisfies the test, and no other. -/
theorem dropFirst_split {α : Type} (p : α → Bool) {d : α} (post : List α) (hd : p d = true) :
    ∀ pre : List α, (∀ e ∈ pre, p e = false) → dropFirst p (pre ++ d :: post) = pre ++ post := by
  intro pre
  induction pre with
  | nil => intro _; simp [dropFirst, hd]
  | cons a r ih =>
    intro h
    simp [dropFirst, h a (by simp), ih fun e he => h e (List.mem_cons_of_mem _ he)]

end Sys2Proof.Machine
end

