-- ==== Sys2Proof/Laws/Frame.lean ====
section
/-!
SUPPORT. What the frames of the three streams do once for all: an instruction that reaches its own effect has exactly the effect
of its meaning, and each check that fails has the outcome that its rule names.
-/
namespace Sys2Proof.Machine

/-! ### The scalar frame -/

theorem runScalar_runs {s : State} {w x t g c i} {srcs : List (BitVec 6)} {dst : Option (BitVec 6)} {dl : List (BitVec 6)}
    {ill : SCtx → Bool} {f : SCtx → State} (h : ScalarRuns s w x t g c i srcs dl) (hd : ∀ d, dst = some d → d ∈ dl)
    (hi : ill (scalarCtx i w x t g c) = false) :
    runScalar i ill srcs dst s f = .next (f (scalarCtx i w x t g c)) := by
  obtain ⟨⟨h1, h2, h3⟩, h4, h5, h6, h7⟩ := h
  have hs : (srcs.any fun r => memb x.sPend r.toNat) = false := by
    simpa [List.any_eq_false] using h5
  have hf : (dst.filter fun d => memb x.sPend d.toNat) = none := by
    cases dst with
    | none => rfl
    | some d => simp [Option.filter, h6 d (hd d rfl)]
  simp only [scalarCtx] at hi
  simp [runScalar, h1, h2, h3, h4, hs, hf, h7, hi, scalarCtx]

/-- An illegal scalar instruction raises ILLEGAL (R292). -/
theorem runScalar_illegal {s : State} {w x t g c i} {srcs : List (BitVec 6)} {dst : Option (BitVec 6)}
    {ill : SCtx → Bool} {f : SCtx → State} (h : ScalarAt s w x t g c)
    (hi : legalStatic i = false ∨ ill (scalarCtx i w x t g c) = true) :
    runScalar i ill srcs dst s f = .next ((scalarCtx i w x t g c).illegal s i) := by
  obtain ⟨h1, h2, h3⟩ := h
  simp only [scalarCtx] at hi
  simp [runScalar, h1, h2, h3, hi, scalarCtx]

/-- A pending source makes the instruction wait (R31, R304). -/
theorem runScalar_waits {s : State} {w x t g c i} {srcs : List (BitVec 6)} {dst : Option (BitVec 6)}
    {ill : SCtx → Bool} {f : SCtx → State} (h : ScalarAt s w x t g c) (hl : legalStatic i = true)
    (hi : ill (scalarCtx i w x t g c) = false) (hs : ∃ r ∈ srcs, memb x.sPend r.toNat = true) :
    runScalar i ill srcs dst s f = .next ((scalarCtx i w x t g c).wait s true) := by
  obtain ⟨h1, h2, h3⟩ := h
  simp only [scalarCtx] at hi
  have : (srcs.any fun r => memb x.sPend r.toNat) = true := by simpa using hs
  simp [runScalar, h1, h2, h3, hi, hl, this, scalarCtx]

/-- A pending destination raises INFLIGHT (R31, R304); a `BAR.SYNC` that has arrived keeps its token (log 19). -/
theorem runScalar_inflight {s : State} {w x t g c i} {srcs : List (BitVec 6)} {d : BitVec 6}
    {ill : SCtx → Bool} {f : SCtx → State} (h : ScalarAt s w x t g c) (hl : legalStatic i = true)
    (hi : ill (scalarCtx i w x t g c) = false) (hs : ∀ r ∈ srcs, memb x.sPend r.toNat = false)
    (hd : memb x.sPend d.toNat = true) :
    runScalar i ill srcs (some d) s f = .next (
      let v := BitVec.ofNat 64 (0x400 + d.toNat)
      if (scalarCtx i w x t g c).arrived then s.faultS w 0x03 v else (scalarCtx i w x t g c).fault s 0x03 v) := by
  obtain ⟨h1, h2, h3⟩ := h
  simp only [scalarCtx] at hi
  have : (srcs.any fun r => memb x.sPend r.toNat) = false := by simpa [List.any_eq_false] using hs
  simp [runScalar, h1, h2, h3, hi, hl, this, hd, Option.filter, scalarCtx]
  rfl

/-- Nobody executes: nothing happens. -/
theorem runScalar_nobody {s : State} {i} {srcs : List (BitVec 6)} {dst : Option (BitVec 6)}
    {ill : SCtx → Bool} {f : SCtx → State} (h : ∀ w, s.cur ≠ .scalar w) : runScalar i ill srcs dst s f = .next s := by
  unfold runScalar
  split
  · next w hw => exact absurd hw (h w)
  · rfl

/-! ### The lane frame -/

/-- The context of a lane instruction is the one that `LaneAt` describes. -/
theorem laneCtx_at {s : State} {k : LCtx} (h : LaneAt s k) : s.laneCtx k.q.w k.e k.q.i = some k := by
  obtain ⟨h1, h2, h3, ⟨b, r, h4, h5⟩, h6, h7, h8, h9⟩ := h
  obtain ⟨⟨qi, qw, qx, qt, qg, qc⟩, e, en, ks, f, p, act, part⟩ := k
  simp only at *
  subst h5 h8
  have hp : part = (lanesOf en.mask qx.width).filter
      fun l => (qx.predMask f.pred.toNat).getLsbD l != f.neg := h9
  subst hp
  simp only [State.laneCtx, h2, h3, h4, h6, h7]

/-- A lane instruction that passes its checks does what its body says (R343). -/
theorem runLane_runs {s : State} {k : LCtx} {i} {ill : LCtx → State → Bool} {body : LCtx → State} (h : LaneRuns s k)
    (hk : k.q.i = i) (hi : ill k s = false) : runLane i ill s body = .next (body k) := by
  obtain ⟨h0, ⟨l1, l2, l3, l4, l5⟩, h10, h11, h12, h13⟩ := h
  subst hk
  have hb : (!k.f.i && k.p.b.beyond k.q.x.c k.f.b) = false := by
    rcases l3 with l3 | l3 <;> simp [l3]
  have n1 := List.find?_eq_none.2 (fun n hn => show ¬ (!(k.en.latch n).valid) = true by simpa using h10 n hn)
  have n2 := List.find?_eq_none.2 (fun r hr => Bool.eq_false_iff.1 (h12 r hr))
  simp [runLane, h0.1, laneCtx_at h0, LCtx.badFields, l1, l2, hb, l4, l5, hi, n1, h11, n2, h13]

/-! ### The sequencer frame -/

theorem runSeq_runs {s : State} {k : QCtx} {i} {body : QCtx → State} (h : SeqRuns s k i) : runSeq i s body = .next (body k) := by
  obtain ⟨⟨h1, h2, h3, h4, h5, h6⟩, h7⟩ := h
  obtain ⟨t, y, q, g, c⟩ := k
  simp only at *
  simp [runSeq, h1, h2, h3, h4, h5, h6, h7]

/-- An illegal sequencer instruction stops the sequencer with ILLEGAL (R292, R385). -/
theorem runSeq_illegal {s : State} {k : QCtx} {i} {body : QCtx → State} (h : SeqAt s k) (hl : legalStatic i = false) :
    runSeq i s body = .next (k.stop s 0x01) := by
  obtain ⟨h1, h2, h3, h4, h5, h6⟩ := h
  obtain ⟨t, y, q, g, c⟩ := k
  simp only at *
  simp [runSeq, h1, h2, h3, h4, h5, h6, hl]

end Sys2Proof.Machine
end

