-- ==== Sys2Proof/Laws/State.lean ====
section
/-!
SUPPORT. What each update of the state, of a warp and of a team leaves in each field, so that no later proof unfolds a record
update; and what each object reads as after an update.
-/
namespace Sys2Proof.Machine

/-! ### Updates of the device -/

@[simp] theorem putWarp_agenda (s : State) (w : Nat) (x : Warp) : (s.putWarp w x).agenda = s.agenda := rfl
@[simp] theorem putWarp_cur (s : State) (w : Nat) (x : Warp) : (s.putWarp w x).cur = s.cur := rfl
@[simp] theorem putWarp_cands (s : State) (w : Nat) (x : Warp) : (s.putWarp w x).cands = s.cands := rfl
@[simp] theorem putWarp_freeCtr (s : State) (w : Nat) (x : Warp) : (s.putWarp w x).freeCtr = s.freeCtr := rfl
@[simp] theorem putWarp_nextId (s : State) (w : Nat) (x : Warp) : (s.putWarp w x).nextId = s.nextId := rfl
@[simp] theorem putWarp_outbox (s : State) (w : Nat) (x : Warp) : (s.putWarp w x).outbox = s.outbox := rfl
@[simp] theorem putWarp_time (s : State) (w : Nat) (x : Warp) : (s.putWarp w x).time = s.time := rfl
@[simp] theorem putWarp_cycles (s : State) (w : Nat) (x : Warp) : (s.putWarp w x).cycles = s.cycles := rfl
@[simp] theorem putWarp_mem (s : State) (w : Nat) (x : Warp) : (s.putWarp w x).mem = s.mem := rfl
@[simp] theorem putWarp_xlat (s : State) (w : Nat) (x : Warp) : (s.putWarp w x).xlat = s.xlat := rfl
@[simp] theorem putWarp_ctxs (s : State) (w : Nat) (x : Warp) : (s.putWarp w x).ctxs = s.ctxs := rfl
@[simp] theorem putWarp_deques (s : State) (w : Nat) (x : Warp) : (s.putWarp w x).deques = s.deques := rfl
@[simp] theorem putWarp_units (s : State) (w : Nat) (x : Warp) : (s.putWarp w x).units = s.units := rfl
@[simp] theorem putWarp_stale (s : State) (w : Nat) (x : Warp) : (s.putWarp w x).stale = s.stale := rfl
@[simp] theorem putWarp_front (s : State) (w : Nat) (x : Warp) : (s.putWarp w x).front = s.front := rfl
@[simp] theorem putWarp_mgmt (s : State) (w : Nat) (x : Warp) : (s.putWarp w x).mgmt = s.mgmt := rfl
@[simp] theorem putWarp_belv (s : State) (w : Nat) (x : Warp) : (s.putWarp w x).belv = s.belv := rfl
@[simp] theorem putWarp_power (s : State) (w : Nat) (x : Warp) : (s.putWarp w x).power = s.power := rfl
@[simp] theorem putWarp_overPow (s : State) (w : Nat) (x : Warp) : (s.putWarp w x).overPow = s.overPow := rfl
@[simp] theorem putWarp_routes (s : State) (w : Nat) (x : Warp) : (s.putWarp w x).routes = s.routes := rfl
@[simp] theorem putWarp_ctrs (s : State) (w : Nat) (x : Warp) : (s.putWarp w x).ctrs = s.ctrs := rfl
@[simp] theorem putWarp_residue (s : State) (w : Nat) (x : Warp) : (s.putWarp w x).residue = s.residue := rfl
@[simp] theorem putWarp_work_teams (s : State) (w : Nat) (x : Warp) : (s.putWarp w x).work.teams = s.work.teams := rfl
@[simp] theorem putWarp_work_gangs (s : State) (w : Nat) (x : Warp) : (s.putWarp w x).work.gangs = s.work.gangs := rfl
@[simp] theorem putWarp_work_grids (s : State) (w : Nat) (x : Warp) : (s.putWarp w x).work.grids = s.work.grids := rfl
@[simp] theorem putWarp_work_ops (s : State) (w : Nat) (x : Warp) : (s.putWarp w x).work.ops = s.work.ops := rfl
@[simp] theorem putWarp_work_order (s : State) (w : Nat) (x : Warp) : (s.putWarp w x).work.order = s.work.order := rfl
@[simp] theorem putWarp_work_nextGrid (s : State) (w : Nat) (x : Warp) : (s.putWarp w x).work.nextGrid = s.work.nextGrid := rfl
@[simp] theorem modWarp_agenda (s : State) (w : Nat) (f : Warp → Warp) : (s.modWarp w f).agenda = s.agenda := rfl
@[simp] theorem modWarp_cur (s : State) (w : Nat) (f : Warp → Warp) : (s.modWarp w f).cur = s.cur := rfl
@[simp] theorem modWarp_cands (s : State) (w : Nat) (f : Warp → Warp) : (s.modWarp w f).cands = s.cands := rfl
@[simp] theorem modWarp_freeCtr (s : State) (w : Nat) (f : Warp → Warp) : (s.modWarp w f).freeCtr = s.freeCtr := rfl
@[simp] theorem modWarp_nextId (s : State) (w : Nat) (f : Warp → Warp) : (s.modWarp w f).nextId = s.nextId := rfl
@[simp] theorem modWarp_outbox (s : State) (w : Nat) (f : Warp → Warp) : (s.modWarp w f).outbox = s.outbox := rfl
@[simp] theorem modWarp_time (s : State) (w : Nat) (f : Warp → Warp) : (s.modWarp w f).time = s.time := rfl
@[simp] theorem modWarp_cycles (s : State) (w : Nat) (f : Warp → Warp) : (s.modWarp w f).cycles = s.cycles := rfl
@[simp] theorem modWarp_mem (s : State) (w : Nat) (f : Warp → Warp) : (s.modWarp w f).mem = s.mem := rfl
@[simp] theorem modWarp_xlat (s : State) (w : Nat) (f : Warp → Warp) : (s.modWarp w f).xlat = s.xlat := rfl
@[simp] theorem modWarp_ctxs (s : State) (w : Nat) (f : Warp → Warp) : (s.modWarp w f).ctxs = s.ctxs := rfl
@[simp] theorem modWarp_deques (s : State) (w : Nat) (f : Warp → Warp) : (s.modWarp w f).deques = s.deques := rfl
@[simp] theorem modWarp_units (s : State) (w : Nat) (f : Warp → Warp) : (s.modWarp w f).units = s.units := rfl
@[simp] theorem modWarp_stale (s : State) (w : Nat) (f : Warp → Warp) : (s.modWarp w f).stale = s.stale := rfl
@[simp] theorem modWarp_front (s : State) (w : Nat) (f : Warp → Warp) : (s.modWarp w f).front = s.front := rfl
@[simp] theorem modWarp_mgmt (s : State) (w : Nat) (f : Warp → Warp) : (s.modWarp w f).mgmt = s.mgmt := rfl
@[simp] theorem modWarp_belv (s : State) (w : Nat) (f : Warp → Warp) : (s.modWarp w f).belv = s.belv := rfl
@[simp] theorem modWarp_power (s : State) (w : Nat) (f : Warp → Warp) : (s.modWarp w f).power = s.power := rfl
@[simp] theorem modWarp_overPow (s : State) (w : Nat) (f : Warp → Warp) : (s.modWarp w f).overPow = s.overPow := rfl
@[simp] theorem modWarp_routes (s : State) (w : Nat) (f : Warp → Warp) : (s.modWarp w f).routes = s.routes := rfl
@[simp] theorem modWarp_ctrs (s : State) (w : Nat) (f : Warp → Warp) : (s.modWarp w f).ctrs = s.ctrs := rfl
@[simp] theorem modWarp_residue (s : State) (w : Nat) (f : Warp → Warp) : (s.modWarp w f).residue = s.residue := rfl
@[simp] theorem modWarp_work_teams (s : State) (w : Nat) (f : Warp → Warp) : (s.modWarp w f).work.teams = s.work.teams := rfl
@[simp] theorem modWarp_work_gangs (s : State) (w : Nat) (f : Warp → Warp) : (s.modWarp w f).work.gangs = s.work.gangs := rfl
@[simp] theorem modWarp_work_grids (s : State) (w : Nat) (f : Warp → Warp) : (s.modWarp w f).work.grids = s.work.grids := rfl
@[simp] theorem modWarp_work_ops (s : State) (w : Nat) (f : Warp → Warp) : (s.modWarp w f).work.ops = s.work.ops := rfl
@[simp] theorem modWarp_work_order (s : State) (w : Nat) (f : Warp → Warp) : (s.modWarp w f).work.order = s.work.order := rfl
@[simp] theorem modWarp_work_nextGrid (s : State) (w : Nat) (f : Warp → Warp) : (s.modWarp w f).work.nextGrid = s.work.nextGrid := rfl
@[simp] theorem putTeam_agenda (s : State) (t : Nat) (x : Team) : (s.putTeam t x).agenda = s.agenda := rfl
@[simp] theorem putTeam_cur (s : State) (t : Nat) (x : Team) : (s.putTeam t x).cur = s.cur := rfl
@[simp] theorem putTeam_cands (s : State) (t : Nat) (x : Team) : (s.putTeam t x).cands = s.cands := rfl
@[simp] theorem putTeam_freeCtr (s : State) (t : Nat) (x : Team) : (s.putTeam t x).freeCtr = s.freeCtr := rfl
@[simp] theorem putTeam_nextId (s : State) (t : Nat) (x : Team) : (s.putTeam t x).nextId = s.nextId := rfl
@[simp] theorem putTeam_outbox (s : State) (t : Nat) (x : Team) : (s.putTeam t x).outbox = s.outbox := rfl
@[simp] theorem putTeam_time (s : State) (t : Nat) (x : Team) : (s.putTeam t x).time = s.time := rfl
@[simp] theorem putTeam_cycles (s : State) (t : Nat) (x : Team) : (s.putTeam t x).cycles = s.cycles := rfl
@[simp] theorem putTeam_mem (s : State) (t : Nat) (x : Team) : (s.putTeam t x).mem = s.mem := rfl
@[simp] theorem putTeam_xlat (s : State) (t : Nat) (x : Team) : (s.putTeam t x).xlat = s.xlat := rfl
@[simp] theorem putTeam_ctxs (s : State) (t : Nat) (x : Team) : (s.putTeam t x).ctxs = s.ctxs := rfl
@[simp] theorem putTeam_deques (s : State) (t : Nat) (x : Team) : (s.putTeam t x).deques = s.deques := rfl
@[simp] theorem putTeam_units (s : State) (t : Nat) (x : Team) : (s.putTeam t x).units = s.units := rfl
@[simp] theorem putTeam_stale (s : State) (t : Nat) (x : Team) : (s.putTeam t x).stale = s.stale := rfl
@[simp] theorem putTeam_front (s : State) (t : Nat) (x : Team) : (s.putTeam t x).front = s.front := rfl
@[simp] theorem putTeam_mgmt (s : State) (t : Nat) (x : Team) : (s.putTeam t x).mgmt = s.mgmt := rfl
@[simp] theorem putTeam_belv (s : State) (t : Nat) (x : Team) : (s.putTeam t x).belv = s.belv := rfl
@[simp] theorem putTeam_power (s : State) (t : Nat) (x : Team) : (s.putTeam t x).power = s.power := rfl
@[simp] theorem putTeam_overPow (s : State) (t : Nat) (x : Team) : (s.putTeam t x).overPow = s.overPow := rfl
@[simp] theorem putTeam_routes (s : State) (t : Nat) (x : Team) : (s.putTeam t x).routes = s.routes := rfl
@[simp] theorem putTeam_ctrs (s : State) (t : Nat) (x : Team) : (s.putTeam t x).ctrs = s.ctrs := rfl
@[simp] theorem putTeam_residue (s : State) (t : Nat) (x : Team) : (s.putTeam t x).residue = s.residue := rfl
@[simp] theorem putTeam_work_warps (s : State) (t : Nat) (x : Team) : (s.putTeam t x).work.warps = s.work.warps := rfl
@[simp] theorem putTeam_work_gangs (s : State) (t : Nat) (x : Team) : (s.putTeam t x).work.gangs = s.work.gangs := rfl
@[simp] theorem putTeam_work_grids (s : State) (t : Nat) (x : Team) : (s.putTeam t x).work.grids = s.work.grids := rfl
@[simp] theorem putTeam_work_ops (s : State) (t : Nat) (x : Team) : (s.putTeam t x).work.ops = s.work.ops := rfl
@[simp] theorem putTeam_work_order (s : State) (t : Nat) (x : Team) : (s.putTeam t x).work.order = s.work.order := rfl
@[simp] theorem putTeam_work_nextGrid (s : State) (t : Nat) (x : Team) : (s.putTeam t x).work.nextGrid = s.work.nextGrid := rfl
@[simp] theorem modTeam_agenda (s : State) (t : Nat) (f : Team → Team) : (s.modTeam t f).agenda = s.agenda := rfl
@[simp] theorem modTeam_cur (s : State) (t : Nat) (f : Team → Team) : (s.modTeam t f).cur = s.cur := rfl
@[simp] theorem modTeam_cands (s : State) (t : Nat) (f : Team → Team) : (s.modTeam t f).cands = s.cands := rfl
@[simp] theorem modTeam_freeCtr (s : State) (t : Nat) (f : Team → Team) : (s.modTeam t f).freeCtr = s.freeCtr := rfl
@[simp] theorem modTeam_nextId (s : State) (t : Nat) (f : Team → Team) : (s.modTeam t f).nextId = s.nextId := rfl
@[simp] theorem modTeam_outbox (s : State) (t : Nat) (f : Team → Team) : (s.modTeam t f).outbox = s.outbox := rfl
@[simp] theorem modTeam_time (s : State) (t : Nat) (f : Team → Team) : (s.modTeam t f).time = s.time := rfl
@[simp] theorem modTeam_cycles (s : State) (t : Nat) (f : Team → Team) : (s.modTeam t f).cycles = s.cycles := rfl
@[simp] theorem modTeam_mem (s : State) (t : Nat) (f : Team → Team) : (s.modTeam t f).mem = s.mem := rfl
@[simp] theorem modTeam_xlat (s : State) (t : Nat) (f : Team → Team) : (s.modTeam t f).xlat = s.xlat := rfl
@[simp] theorem modTeam_ctxs (s : State) (t : Nat) (f : Team → Team) : (s.modTeam t f).ctxs = s.ctxs := rfl
@[simp] theorem modTeam_deques (s : State) (t : Nat) (f : Team → Team) : (s.modTeam t f).deques = s.deques := rfl
@[simp] theorem modTeam_units (s : State) (t : Nat) (f : Team → Team) : (s.modTeam t f).units = s.units := rfl
@[simp] theorem modTeam_stale (s : State) (t : Nat) (f : Team → Team) : (s.modTeam t f).stale = s.stale := rfl
@[simp] theorem modTeam_front (s : State) (t : Nat) (f : Team → Team) : (s.modTeam t f).front = s.front := rfl
@[simp] theorem modTeam_mgmt (s : State) (t : Nat) (f : Team → Team) : (s.modTeam t f).mgmt = s.mgmt := rfl
@[simp] theorem modTeam_belv (s : State) (t : Nat) (f : Team → Team) : (s.modTeam t f).belv = s.belv := rfl
@[simp] theorem modTeam_power (s : State) (t : Nat) (f : Team → Team) : (s.modTeam t f).power = s.power := rfl
@[simp] theorem modTeam_overPow (s : State) (t : Nat) (f : Team → Team) : (s.modTeam t f).overPow = s.overPow := rfl
@[simp] theorem modTeam_routes (s : State) (t : Nat) (f : Team → Team) : (s.modTeam t f).routes = s.routes := rfl
@[simp] theorem modTeam_ctrs (s : State) (t : Nat) (f : Team → Team) : (s.modTeam t f).ctrs = s.ctrs := rfl
@[simp] theorem modTeam_residue (s : State) (t : Nat) (f : Team → Team) : (s.modTeam t f).residue = s.residue := rfl
@[simp] theorem modTeam_work_warps (s : State) (t : Nat) (f : Team → Team) : (s.modTeam t f).work.warps = s.work.warps := rfl
@[simp] theorem modTeam_work_gangs (s : State) (t : Nat) (f : Team → Team) : (s.modTeam t f).work.gangs = s.work.gangs := rfl
@[simp] theorem modTeam_work_grids (s : State) (t : Nat) (f : Team → Team) : (s.modTeam t f).work.grids = s.work.grids := rfl
@[simp] theorem modTeam_work_ops (s : State) (t : Nat) (f : Team → Team) : (s.modTeam t f).work.ops = s.work.ops := rfl
@[simp] theorem modTeam_work_order (s : State) (t : Nat) (f : Team → Team) : (s.modTeam t f).work.order = s.work.order := rfl
@[simp] theorem modTeam_work_nextGrid (s : State) (t : Nat) (f : Team → Team) : (s.modTeam t f).work.nextGrid = s.work.nextGrid := rfl
@[simp] theorem putGang_agenda (s : State) (g : Nat) (x : Gang) : (s.putGang g x).agenda = s.agenda := rfl
@[simp] theorem putGang_cur (s : State) (g : Nat) (x : Gang) : (s.putGang g x).cur = s.cur := rfl
@[simp] theorem putGang_cands (s : State) (g : Nat) (x : Gang) : (s.putGang g x).cands = s.cands := rfl
@[simp] theorem putGang_freeCtr (s : State) (g : Nat) (x : Gang) : (s.putGang g x).freeCtr = s.freeCtr := rfl
@[simp] theorem putGang_nextId (s : State) (g : Nat) (x : Gang) : (s.putGang g x).nextId = s.nextId := rfl
@[simp] theorem putGang_outbox (s : State) (g : Nat) (x : Gang) : (s.putGang g x).outbox = s.outbox := rfl
@[simp] theorem putGang_time (s : State) (g : Nat) (x : Gang) : (s.putGang g x).time = s.time := rfl
@[simp] theorem putGang_cycles (s : State) (g : Nat) (x : Gang) : (s.putGang g x).cycles = s.cycles := rfl
@[simp] theorem putGang_mem (s : State) (g : Nat) (x : Gang) : (s.putGang g x).mem = s.mem := rfl
@[simp] theorem putGang_xlat (s : State) (g : Nat) (x : Gang) : (s.putGang g x).xlat = s.xlat := rfl
@[simp] theorem putGang_ctxs (s : State) (g : Nat) (x : Gang) : (s.putGang g x).ctxs = s.ctxs := rfl
@[simp] theorem putGang_deques (s : State) (g : Nat) (x : Gang) : (s.putGang g x).deques = s.deques := rfl
@[simp] theorem putGang_units (s : State) (g : Nat) (x : Gang) : (s.putGang g x).units = s.units := rfl
@[simp] theorem putGang_stale (s : State) (g : Nat) (x : Gang) : (s.putGang g x).stale = s.stale := rfl
@[simp] theorem putGang_front (s : State) (g : Nat) (x : Gang) : (s.putGang g x).front = s.front := rfl
@[simp] theorem putGang_mgmt (s : State) (g : Nat) (x : Gang) : (s.putGang g x).mgmt = s.mgmt := rfl
@[simp] theorem putGang_belv (s : State) (g : Nat) (x : Gang) : (s.putGang g x).belv = s.belv := rfl
@[simp] theorem putGang_power (s : State) (g : Nat) (x : Gang) : (s.putGang g x).power = s.power := rfl
@[simp] theorem putGang_overPow (s : State) (g : Nat) (x : Gang) : (s.putGang g x).overPow = s.overPow := rfl
@[simp] theorem putGang_routes (s : State) (g : Nat) (x : Gang) : (s.putGang g x).routes = s.routes := rfl
@[simp] theorem putGang_ctrs (s : State) (g : Nat) (x : Gang) : (s.putGang g x).ctrs = s.ctrs := rfl
@[simp] theorem putGang_residue (s : State) (g : Nat) (x : Gang) : (s.putGang g x).residue = s.residue := rfl
@[simp] theorem putGang_work_warps (s : State) (g : Nat) (x : Gang) : (s.putGang g x).work.warps = s.work.warps := rfl
@[simp] theorem putGang_work_teams (s : State) (g : Nat) (x : Gang) : (s.putGang g x).work.teams = s.work.teams := rfl
@[simp] theorem putGang_work_grids (s : State) (g : Nat) (x : Gang) : (s.putGang g x).work.grids = s.work.grids := rfl
@[simp] theorem putGang_work_ops (s : State) (g : Nat) (x : Gang) : (s.putGang g x).work.ops = s.work.ops := rfl
@[simp] theorem putGang_work_order (s : State) (g : Nat) (x : Gang) : (s.putGang g x).work.order = s.work.order := rfl
@[simp] theorem putGang_work_nextGrid (s : State) (g : Nat) (x : Gang) : (s.putGang g x).work.nextGrid = s.work.nextGrid := rfl
@[simp] theorem modGang_agenda (s : State) (g : Nat) (f : Gang → Gang) : (s.modGang g f).agenda = s.agenda := rfl
@[simp] theorem modGang_cur (s : State) (g : Nat) (f : Gang → Gang) : (s.modGang g f).cur = s.cur := rfl
@[simp] theorem modGang_cands (s : State) (g : Nat) (f : Gang → Gang) : (s.modGang g f).cands = s.cands := rfl
@[simp] theorem modGang_freeCtr (s : State) (g : Nat) (f : Gang → Gang) : (s.modGang g f).freeCtr = s.freeCtr := rfl
@[simp] theorem modGang_nextId (s : State) (g : Nat) (f : Gang → Gang) : (s.modGang g f).nextId = s.nextId := rfl
@[simp] theorem modGang_outbox (s : State) (g : Nat) (f : Gang → Gang) : (s.modGang g f).outbox = s.outbox := rfl
@[simp] theorem modGang_time (s : State) (g : Nat) (f : Gang → Gang) : (s.modGang g f).time = s.time := rfl
@[simp] theorem modGang_cycles (s : State) (g : Nat) (f : Gang → Gang) : (s.modGang g f).cycles = s.cycles := rfl
@[simp] theorem modGang_mem (s : State) (g : Nat) (f : Gang → Gang) : (s.modGang g f).mem = s.mem := rfl
@[simp] theorem modGang_xlat (s : State) (g : Nat) (f : Gang → Gang) : (s.modGang g f).xlat = s.xlat := rfl
@[simp] theorem modGang_ctxs (s : State) (g : Nat) (f : Gang → Gang) : (s.modGang g f).ctxs = s.ctxs := rfl
@[simp] theorem modGang_deques (s : State) (g : Nat) (f : Gang → Gang) : (s.modGang g f).deques = s.deques := rfl
@[simp] theorem modGang_units (s : State) (g : Nat) (f : Gang → Gang) : (s.modGang g f).units = s.units := rfl
@[simp] theorem modGang_stale (s : State) (g : Nat) (f : Gang → Gang) : (s.modGang g f).stale = s.stale := rfl
@[simp] theorem modGang_front (s : State) (g : Nat) (f : Gang → Gang) : (s.modGang g f).front = s.front := rfl
@[simp] theorem modGang_mgmt (s : State) (g : Nat) (f : Gang → Gang) : (s.modGang g f).mgmt = s.mgmt := rfl
@[simp] theorem modGang_belv (s : State) (g : Nat) (f : Gang → Gang) : (s.modGang g f).belv = s.belv := rfl
@[simp] theorem modGang_power (s : State) (g : Nat) (f : Gang → Gang) : (s.modGang g f).power = s.power := rfl
@[simp] theorem modGang_overPow (s : State) (g : Nat) (f : Gang → Gang) : (s.modGang g f).overPow = s.overPow := rfl
@[simp] theorem modGang_routes (s : State) (g : Nat) (f : Gang → Gang) : (s.modGang g f).routes = s.routes := rfl
@[simp] theorem modGang_ctrs (s : State) (g : Nat) (f : Gang → Gang) : (s.modGang g f).ctrs = s.ctrs := rfl
@[simp] theorem modGang_residue (s : State) (g : Nat) (f : Gang → Gang) : (s.modGang g f).residue = s.residue := rfl
@[simp] theorem modGang_work_warps (s : State) (g : Nat) (f : Gang → Gang) : (s.modGang g f).work.warps = s.work.warps := rfl
@[simp] theorem modGang_work_teams (s : State) (g : Nat) (f : Gang → Gang) : (s.modGang g f).work.teams = s.work.teams := rfl
@[simp] theorem modGang_work_grids (s : State) (g : Nat) (f : Gang → Gang) : (s.modGang g f).work.grids = s.work.grids := rfl
@[simp] theorem modGang_work_ops (s : State) (g : Nat) (f : Gang → Gang) : (s.modGang g f).work.ops = s.work.ops := rfl
@[simp] theorem modGang_work_order (s : State) (g : Nat) (f : Gang → Gang) : (s.modGang g f).work.order = s.work.order := rfl
@[simp] theorem modGang_work_nextGrid (s : State) (g : Nat) (f : Gang → Gang) : (s.modGang g f).work.nextGrid = s.work.nextGrid := rfl
@[simp] theorem putGrid_agenda (s : State) (g : Nat) (x : Grid) : (s.putGrid g x).agenda = s.agenda := rfl
@[simp] theorem putGrid_cur (s : State) (g : Nat) (x : Grid) : (s.putGrid g x).cur = s.cur := rfl
@[simp] theorem putGrid_cands (s : State) (g : Nat) (x : Grid) : (s.putGrid g x).cands = s.cands := rfl
@[simp] theorem putGrid_freeCtr (s : State) (g : Nat) (x : Grid) : (s.putGrid g x).freeCtr = s.freeCtr := rfl
@[simp] theorem putGrid_nextId (s : State) (g : Nat) (x : Grid) : (s.putGrid g x).nextId = s.nextId := rfl
@[simp] theorem putGrid_outbox (s : State) (g : Nat) (x : Grid) : (s.putGrid g x).outbox = s.outbox := rfl
@[simp] theorem putGrid_time (s : State) (g : Nat) (x : Grid) : (s.putGrid g x).time = s.time := rfl
@[simp] theorem putGrid_cycles (s : State) (g : Nat) (x : Grid) : (s.putGrid g x).cycles = s.cycles := rfl
@[simp] theorem putGrid_mem (s : State) (g : Nat) (x : Grid) : (s.putGrid g x).mem = s.mem := rfl
@[simp] theorem putGrid_xlat (s : State) (g : Nat) (x : Grid) : (s.putGrid g x).xlat = s.xlat := rfl
@[simp] theorem putGrid_ctxs (s : State) (g : Nat) (x : Grid) : (s.putGrid g x).ctxs = s.ctxs := rfl
@[simp] theorem putGrid_deques (s : State) (g : Nat) (x : Grid) : (s.putGrid g x).deques = s.deques := rfl
@[simp] theorem putGrid_units (s : State) (g : Nat) (x : Grid) : (s.putGrid g x).units = s.units := rfl
@[simp] theorem putGrid_stale (s : State) (g : Nat) (x : Grid) : (s.putGrid g x).stale = s.stale := rfl
@[simp] theorem putGrid_front (s : State) (g : Nat) (x : Grid) : (s.putGrid g x).front = s.front := rfl
@[simp] theorem putGrid_mgmt (s : State) (g : Nat) (x : Grid) : (s.putGrid g x).mgmt = s.mgmt := rfl
@[simp] theorem putGrid_belv (s : State) (g : Nat) (x : Grid) : (s.putGrid g x).belv = s.belv := rfl
@[simp] theorem putGrid_power (s : State) (g : Nat) (x : Grid) : (s.putGrid g x).power = s.power := rfl
@[simp] theorem putGrid_overPow (s : State) (g : Nat) (x : Grid) : (s.putGrid g x).overPow = s.overPow := rfl
@[simp] theorem putGrid_routes (s : State) (g : Nat) (x : Grid) : (s.putGrid g x).routes = s.routes := rfl
@[simp] theorem putGrid_ctrs (s : State) (g : Nat) (x : Grid) : (s.putGrid g x).ctrs = s.ctrs := rfl
@[simp] theorem putGrid_residue (s : State) (g : Nat) (x : Grid) : (s.putGrid g x).residue = s.residue := rfl
@[simp] theorem putGrid_work_warps (s : State) (g : Nat) (x : Grid) : (s.putGrid g x).work.warps = s.work.warps := rfl
@[simp] theorem putGrid_work_teams (s : State) (g : Nat) (x : Grid) : (s.putGrid g x).work.teams = s.work.teams := rfl
@[simp] theorem putGrid_work_gangs (s : State) (g : Nat) (x : Grid) : (s.putGrid g x).work.gangs = s.work.gangs := rfl
@[simp] theorem putGrid_work_ops (s : State) (g : Nat) (x : Grid) : (s.putGrid g x).work.ops = s.work.ops := rfl
@[simp] theorem putGrid_work_order (s : State) (g : Nat) (x : Grid) : (s.putGrid g x).work.order = s.work.order := rfl
@[simp] theorem putGrid_work_nextGrid (s : State) (g : Nat) (x : Grid) : (s.putGrid g x).work.nextGrid = s.work.nextGrid := rfl
@[simp] theorem modGrid_agenda (s : State) (g : Nat) (f : Grid → Grid) : (s.modGrid g f).agenda = s.agenda := rfl
@[simp] theorem modGrid_cur (s : State) (g : Nat) (f : Grid → Grid) : (s.modGrid g f).cur = s.cur := rfl
@[simp] theorem modGrid_cands (s : State) (g : Nat) (f : Grid → Grid) : (s.modGrid g f).cands = s.cands := rfl
@[simp] theorem modGrid_freeCtr (s : State) (g : Nat) (f : Grid → Grid) : (s.modGrid g f).freeCtr = s.freeCtr := rfl
@[simp] theorem modGrid_nextId (s : State) (g : Nat) (f : Grid → Grid) : (s.modGrid g f).nextId = s.nextId := rfl
@[simp] theorem modGrid_outbox (s : State) (g : Nat) (f : Grid → Grid) : (s.modGrid g f).outbox = s.outbox := rfl
@[simp] theorem modGrid_time (s : State) (g : Nat) (f : Grid → Grid) : (s.modGrid g f).time = s.time := rfl
@[simp] theorem modGrid_cycles (s : State) (g : Nat) (f : Grid → Grid) : (s.modGrid g f).cycles = s.cycles := rfl
@[simp] theorem modGrid_mem (s : State) (g : Nat) (f : Grid → Grid) : (s.modGrid g f).mem = s.mem := rfl
@[simp] theorem modGrid_xlat (s : State) (g : Nat) (f : Grid → Grid) : (s.modGrid g f).xlat = s.xlat := rfl
@[simp] theorem modGrid_ctxs (s : State) (g : Nat) (f : Grid → Grid) : (s.modGrid g f).ctxs = s.ctxs := rfl
@[simp] theorem modGrid_deques (s : State) (g : Nat) (f : Grid → Grid) : (s.modGrid g f).deques = s.deques := rfl
@[simp] theorem modGrid_units (s : State) (g : Nat) (f : Grid → Grid) : (s.modGrid g f).units = s.units := rfl
@[simp] theorem modGrid_stale (s : State) (g : Nat) (f : Grid → Grid) : (s.modGrid g f).stale = s.stale := rfl
@[simp] theorem modGrid_front (s : State) (g : Nat) (f : Grid → Grid) : (s.modGrid g f).front = s.front := rfl
@[simp] theorem modGrid_mgmt (s : State) (g : Nat) (f : Grid → Grid) : (s.modGrid g f).mgmt = s.mgmt := rfl
@[simp] theorem modGrid_belv (s : State) (g : Nat) (f : Grid → Grid) : (s.modGrid g f).belv = s.belv := rfl
@[simp] theorem modGrid_power (s : State) (g : Nat) (f : Grid → Grid) : (s.modGrid g f).power = s.power := rfl
@[simp] theorem modGrid_overPow (s : State) (g : Nat) (f : Grid → Grid) : (s.modGrid g f).overPow = s.overPow := rfl
@[simp] theorem modGrid_routes (s : State) (g : Nat) (f : Grid → Grid) : (s.modGrid g f).routes = s.routes := rfl
@[simp] theorem modGrid_ctrs (s : State) (g : Nat) (f : Grid → Grid) : (s.modGrid g f).ctrs = s.ctrs := rfl
@[simp] theorem modGrid_residue (s : State) (g : Nat) (f : Grid → Grid) : (s.modGrid g f).residue = s.residue := rfl
@[simp] theorem modGrid_work_warps (s : State) (g : Nat) (f : Grid → Grid) : (s.modGrid g f).work.warps = s.work.warps := rfl
@[simp] theorem modGrid_work_teams (s : State) (g : Nat) (f : Grid → Grid) : (s.modGrid g f).work.teams = s.work.teams := rfl
@[simp] theorem modGrid_work_gangs (s : State) (g : Nat) (f : Grid → Grid) : (s.modGrid g f).work.gangs = s.work.gangs := rfl
@[simp] theorem modGrid_work_ops (s : State) (g : Nat) (f : Grid → Grid) : (s.modGrid g f).work.ops = s.work.ops := rfl
@[simp] theorem modGrid_work_order (s : State) (g : Nat) (f : Grid → Grid) : (s.modGrid g f).work.order = s.work.order := rfl
@[simp] theorem modGrid_work_nextGrid (s : State) (g : Nat) (f : Grid → Grid) : (s.modGrid g f).work.nextGrid = s.work.nextGrid := rfl
@[simp] theorem putOp_agenda (s : State) (o : Nat) (x : Op) : (s.putOp o x).agenda = s.agenda := rfl
@[simp] theorem putOp_cur (s : State) (o : Nat) (x : Op) : (s.putOp o x).cur = s.cur := rfl
@[simp] theorem putOp_cands (s : State) (o : Nat) (x : Op) : (s.putOp o x).cands = s.cands := rfl
@[simp] theorem putOp_freeCtr (s : State) (o : Nat) (x : Op) : (s.putOp o x).freeCtr = s.freeCtr := rfl
@[simp] theorem putOp_nextId (s : State) (o : Nat) (x : Op) : (s.putOp o x).nextId = s.nextId := rfl
@[simp] theorem putOp_outbox (s : State) (o : Nat) (x : Op) : (s.putOp o x).outbox = s.outbox := rfl
@[simp] theorem putOp_time (s : State) (o : Nat) (x : Op) : (s.putOp o x).time = s.time := rfl
@[simp] theorem putOp_cycles (s : State) (o : Nat) (x : Op) : (s.putOp o x).cycles = s.cycles := rfl
@[simp] theorem putOp_mem (s : State) (o : Nat) (x : Op) : (s.putOp o x).mem = s.mem := rfl
@[simp] theorem putOp_xlat (s : State) (o : Nat) (x : Op) : (s.putOp o x).xlat = s.xlat := rfl
@[simp] theorem putOp_ctxs (s : State) (o : Nat) (x : Op) : (s.putOp o x).ctxs = s.ctxs := rfl
@[simp] theorem putOp_deques (s : State) (o : Nat) (x : Op) : (s.putOp o x).deques = s.deques := rfl
@[simp] theorem putOp_units (s : State) (o : Nat) (x : Op) : (s.putOp o x).units = s.units := rfl
@[simp] theorem putOp_stale (s : State) (o : Nat) (x : Op) : (s.putOp o x).stale = s.stale := rfl
@[simp] theorem putOp_front (s : State) (o : Nat) (x : Op) : (s.putOp o x).front = s.front := rfl
@[simp] theorem putOp_mgmt (s : State) (o : Nat) (x : Op) : (s.putOp o x).mgmt = s.mgmt := rfl
@[simp] theorem putOp_belv (s : State) (o : Nat) (x : Op) : (s.putOp o x).belv = s.belv := rfl
@[simp] theorem putOp_power (s : State) (o : Nat) (x : Op) : (s.putOp o x).power = s.power := rfl
@[simp] theorem putOp_overPow (s : State) (o : Nat) (x : Op) : (s.putOp o x).overPow = s.overPow := rfl
@[simp] theorem putOp_routes (s : State) (o : Nat) (x : Op) : (s.putOp o x).routes = s.routes := rfl
@[simp] theorem putOp_ctrs (s : State) (o : Nat) (x : Op) : (s.putOp o x).ctrs = s.ctrs := rfl
@[simp] theorem putOp_residue (s : State) (o : Nat) (x : Op) : (s.putOp o x).residue = s.residue := rfl
@[simp] theorem putOp_work_warps (s : State) (o : Nat) (x : Op) : (s.putOp o x).work.warps = s.work.warps := rfl
@[simp] theorem putOp_work_teams (s : State) (o : Nat) (x : Op) : (s.putOp o x).work.teams = s.work.teams := rfl
@[simp] theorem putOp_work_gangs (s : State) (o : Nat) (x : Op) : (s.putOp o x).work.gangs = s.work.gangs := rfl
@[simp] theorem putOp_work_grids (s : State) (o : Nat) (x : Op) : (s.putOp o x).work.grids = s.work.grids := rfl
@[simp] theorem putOp_work_order (s : State) (o : Nat) (x : Op) : (s.putOp o x).work.order = s.work.order := rfl
@[simp] theorem putOp_work_nextGrid (s : State) (o : Nat) (x : Op) : (s.putOp o x).work.nextGrid = s.work.nextGrid := rfl
@[simp] theorem modOp_agenda (s : State) (o : Nat) (f : Op → Op) : (s.modOp o f).agenda = s.agenda := rfl
@[simp] theorem modOp_cur (s : State) (o : Nat) (f : Op → Op) : (s.modOp o f).cur = s.cur := rfl
@[simp] theorem modOp_cands (s : State) (o : Nat) (f : Op → Op) : (s.modOp o f).cands = s.cands := rfl
@[simp] theorem modOp_freeCtr (s : State) (o : Nat) (f : Op → Op) : (s.modOp o f).freeCtr = s.freeCtr := rfl
@[simp] theorem modOp_nextId (s : State) (o : Nat) (f : Op → Op) : (s.modOp o f).nextId = s.nextId := rfl
@[simp] theorem modOp_outbox (s : State) (o : Nat) (f : Op → Op) : (s.modOp o f).outbox = s.outbox := rfl
@[simp] theorem modOp_time (s : State) (o : Nat) (f : Op → Op) : (s.modOp o f).time = s.time := rfl
@[simp] theorem modOp_cycles (s : State) (o : Nat) (f : Op → Op) : (s.modOp o f).cycles = s.cycles := rfl
@[simp] theorem modOp_mem (s : State) (o : Nat) (f : Op → Op) : (s.modOp o f).mem = s.mem := rfl
@[simp] theorem modOp_xlat (s : State) (o : Nat) (f : Op → Op) : (s.modOp o f).xlat = s.xlat := rfl
@[simp] theorem modOp_ctxs (s : State) (o : Nat) (f : Op → Op) : (s.modOp o f).ctxs = s.ctxs := rfl
@[simp] theorem modOp_deques (s : State) (o : Nat) (f : Op → Op) : (s.modOp o f).deques = s.deques := rfl
@[simp] theorem modOp_units (s : State) (o : Nat) (f : Op → Op) : (s.modOp o f).units = s.units := rfl
@[simp] theorem modOp_stale (s : State) (o : Nat) (f : Op → Op) : (s.modOp o f).stale = s.stale := rfl
@[simp] theorem modOp_front (s : State) (o : Nat) (f : Op → Op) : (s.modOp o f).front = s.front := rfl
@[simp] theorem modOp_mgmt (s : State) (o : Nat) (f : Op → Op) : (s.modOp o f).mgmt = s.mgmt := rfl
@[simp] theorem modOp_belv (s : State) (o : Nat) (f : Op → Op) : (s.modOp o f).belv = s.belv := rfl
@[simp] theorem modOp_power (s : State) (o : Nat) (f : Op → Op) : (s.modOp o f).power = s.power := rfl
@[simp] theorem modOp_overPow (s : State) (o : Nat) (f : Op → Op) : (s.modOp o f).overPow = s.overPow := rfl
@[simp] theorem modOp_routes (s : State) (o : Nat) (f : Op → Op) : (s.modOp o f).routes = s.routes := rfl
@[simp] theorem modOp_ctrs (s : State) (o : Nat) (f : Op → Op) : (s.modOp o f).ctrs = s.ctrs := rfl
@[simp] theorem modOp_residue (s : State) (o : Nat) (f : Op → Op) : (s.modOp o f).residue = s.residue := rfl
@[simp] theorem modOp_work_warps (s : State) (o : Nat) (f : Op → Op) : (s.modOp o f).work.warps = s.work.warps := rfl
@[simp] theorem modOp_work_teams (s : State) (o : Nat) (f : Op → Op) : (s.modOp o f).work.teams = s.work.teams := rfl
@[simp] theorem modOp_work_gangs (s : State) (o : Nat) (f : Op → Op) : (s.modOp o f).work.gangs = s.work.gangs := rfl
@[simp] theorem modOp_work_grids (s : State) (o : Nat) (f : Op → Op) : (s.modOp o f).work.grids = s.work.grids := rfl
@[simp] theorem modOp_work_order (s : State) (o : Nat) (f : Op → Op) : (s.modOp o f).work.order = s.work.order := rfl
@[simp] theorem modOp_work_nextGrid (s : State) (o : Nat) (f : Op → Op) : (s.modOp o f).work.nextGrid = s.work.nextGrid := rfl
@[simp] theorem putCtx_agenda (s : State) (c : Nat) (x : Ctx) : (s.putCtx c x).agenda = s.agenda := rfl
@[simp] theorem putCtx_cur (s : State) (c : Nat) (x : Ctx) : (s.putCtx c x).cur = s.cur := rfl
@[simp] theorem putCtx_cands (s : State) (c : Nat) (x : Ctx) : (s.putCtx c x).cands = s.cands := rfl
@[simp] theorem putCtx_freeCtr (s : State) (c : Nat) (x : Ctx) : (s.putCtx c x).freeCtr = s.freeCtr := rfl
@[simp] theorem putCtx_nextId (s : State) (c : Nat) (x : Ctx) : (s.putCtx c x).nextId = s.nextId := rfl
@[simp] theorem putCtx_outbox (s : State) (c : Nat) (x : Ctx) : (s.putCtx c x).outbox = s.outbox := rfl
@[simp] theorem putCtx_time (s : State) (c : Nat) (x : Ctx) : (s.putCtx c x).time = s.time := rfl
@[simp] theorem putCtx_cycles (s : State) (c : Nat) (x : Ctx) : (s.putCtx c x).cycles = s.cycles := rfl
@[simp] theorem putCtx_mem (s : State) (c : Nat) (x : Ctx) : (s.putCtx c x).mem = s.mem := rfl
@[simp] theorem putCtx_xlat (s : State) (c : Nat) (x : Ctx) : (s.putCtx c x).xlat = s.xlat := rfl
@[simp] theorem putCtx_work (s : State) (c : Nat) (x : Ctx) : (s.putCtx c x).work = s.work := rfl
@[simp] theorem putCtx_deques (s : State) (c : Nat) (x : Ctx) : (s.putCtx c x).deques = s.deques := rfl
@[simp] theorem putCtx_units (s : State) (c : Nat) (x : Ctx) : (s.putCtx c x).units = s.units := rfl
@[simp] theorem putCtx_stale (s : State) (c : Nat) (x : Ctx) : (s.putCtx c x).stale = s.stale := rfl
@[simp] theorem putCtx_front (s : State) (c : Nat) (x : Ctx) : (s.putCtx c x).front = s.front := rfl
@[simp] theorem putCtx_mgmt (s : State) (c : Nat) (x : Ctx) : (s.putCtx c x).mgmt = s.mgmt := rfl
@[simp] theorem putCtx_belv (s : State) (c : Nat) (x : Ctx) : (s.putCtx c x).belv = s.belv := rfl
@[simp] theorem putCtx_power (s : State) (c : Nat) (x : Ctx) : (s.putCtx c x).power = s.power := rfl
@[simp] theorem putCtx_overPow (s : State) (c : Nat) (x : Ctx) : (s.putCtx c x).overPow = s.overPow := rfl
@[simp] theorem putCtx_routes (s : State) (c : Nat) (x : Ctx) : (s.putCtx c x).routes = s.routes := rfl
@[simp] theorem putCtx_ctrs (s : State) (c : Nat) (x : Ctx) : (s.putCtx c x).ctrs = s.ctrs := rfl
@[simp] theorem putCtx_residue (s : State) (c : Nat) (x : Ctx) : (s.putCtx c x).residue = s.residue := rfl
@[simp] theorem modCtx_agenda (s : State) (c : Nat) (f : Ctx → Ctx) : (s.modCtx c f).agenda = s.agenda := rfl
@[simp] theorem modCtx_cur (s : State) (c : Nat) (f : Ctx → Ctx) : (s.modCtx c f).cur = s.cur := rfl
@[simp] theorem modCtx_cands (s : State) (c : Nat) (f : Ctx → Ctx) : (s.modCtx c f).cands = s.cands := rfl
@[simp] theorem modCtx_freeCtr (s : State) (c : Nat) (f : Ctx → Ctx) : (s.modCtx c f).freeCtr = s.freeCtr := rfl
@[simp] theorem modCtx_nextId (s : State) (c : Nat) (f : Ctx → Ctx) : (s.modCtx c f).nextId = s.nextId := rfl
@[simp] theorem modCtx_outbox (s : State) (c : Nat) (f : Ctx → Ctx) : (s.modCtx c f).outbox = s.outbox := rfl
@[simp] theorem modCtx_time (s : State) (c : Nat) (f : Ctx → Ctx) : (s.modCtx c f).time = s.time := rfl
@[simp] theorem modCtx_cycles (s : State) (c : Nat) (f : Ctx → Ctx) : (s.modCtx c f).cycles = s.cycles := rfl
@[simp] theorem modCtx_mem (s : State) (c : Nat) (f : Ctx → Ctx) : (s.modCtx c f).mem = s.mem := rfl
@[simp] theorem modCtx_xlat (s : State) (c : Nat) (f : Ctx → Ctx) : (s.modCtx c f).xlat = s.xlat := rfl
@[simp] theorem modCtx_work (s : State) (c : Nat) (f : Ctx → Ctx) : (s.modCtx c f).work = s.work := rfl
@[simp] theorem modCtx_deques (s : State) (c : Nat) (f : Ctx → Ctx) : (s.modCtx c f).deques = s.deques := rfl
@[simp] theorem modCtx_units (s : State) (c : Nat) (f : Ctx → Ctx) : (s.modCtx c f).units = s.units := rfl
@[simp] theorem modCtx_stale (s : State) (c : Nat) (f : Ctx → Ctx) : (s.modCtx c f).stale = s.stale := rfl
@[simp] theorem modCtx_front (s : State) (c : Nat) (f : Ctx → Ctx) : (s.modCtx c f).front = s.front := rfl
@[simp] theorem modCtx_mgmt (s : State) (c : Nat) (f : Ctx → Ctx) : (s.modCtx c f).mgmt = s.mgmt := rfl
@[simp] theorem modCtx_belv (s : State) (c : Nat) (f : Ctx → Ctx) : (s.modCtx c f).belv = s.belv := rfl
@[simp] theorem modCtx_power (s : State) (c : Nat) (f : Ctx → Ctx) : (s.modCtx c f).power = s.power := rfl
@[simp] theorem modCtx_overPow (s : State) (c : Nat) (f : Ctx → Ctx) : (s.modCtx c f).overPow = s.overPow := rfl
@[simp] theorem modCtx_routes (s : State) (c : Nat) (f : Ctx → Ctx) : (s.modCtx c f).routes = s.routes := rfl
@[simp] theorem modCtx_ctrs (s : State) (c : Nat) (f : Ctx → Ctx) : (s.modCtx c f).ctrs = s.ctrs := rfl
@[simp] theorem modCtx_residue (s : State) (c : Nat) (f : Ctx → Ctx) : (s.modCtx c f).residue = s.residue := rfl
@[simp] theorem putPacket_agenda (s : State) (p : Nat) (x : Packet) : (s.putPacket p x).agenda = s.agenda := rfl
@[simp] theorem putPacket_cur (s : State) (p : Nat) (x : Packet) : (s.putPacket p x).cur = s.cur := rfl
@[simp] theorem putPacket_cands (s : State) (p : Nat) (x : Packet) : (s.putPacket p x).cands = s.cands := rfl
@[simp] theorem putPacket_freeCtr (s : State) (p : Nat) (x : Packet) : (s.putPacket p x).freeCtr = s.freeCtr := rfl
@[simp] theorem putPacket_nextId (s : State) (p : Nat) (x : Packet) : (s.putPacket p x).nextId = s.nextId := rfl
@[simp] theorem putPacket_outbox (s : State) (p : Nat) (x : Packet) : (s.putPacket p x).outbox = s.outbox := rfl
@[simp] theorem putPacket_time (s : State) (p : Nat) (x : Packet) : (s.putPacket p x).time = s.time := rfl
@[simp] theorem putPacket_cycles (s : State) (p : Nat) (x : Packet) : (s.putPacket p x).cycles = s.cycles := rfl
@[simp] theorem putPacket_mem (s : State) (p : Nat) (x : Packet) : (s.putPacket p x).mem = s.mem := rfl
@[simp] theorem putPacket_xlat (s : State) (p : Nat) (x : Packet) : (s.putPacket p x).xlat = s.xlat := rfl
@[simp] theorem putPacket_work (s : State) (p : Nat) (x : Packet) : (s.putPacket p x).work = s.work := rfl
@[simp] theorem putPacket_ctxs (s : State) (p : Nat) (x : Packet) : (s.putPacket p x).ctxs = s.ctxs := rfl
@[simp] theorem putPacket_deques (s : State) (p : Nat) (x : Packet) : (s.putPacket p x).deques = s.deques := rfl
@[simp] theorem putPacket_units (s : State) (p : Nat) (x : Packet) : (s.putPacket p x).units = s.units := rfl
@[simp] theorem putPacket_stale (s : State) (p : Nat) (x : Packet) : (s.putPacket p x).stale = s.stale := rfl
@[simp] theorem putPacket_mgmt (s : State) (p : Nat) (x : Packet) : (s.putPacket p x).mgmt = s.mgmt := rfl
@[simp] theorem putPacket_belv (s : State) (p : Nat) (x : Packet) : (s.putPacket p x).belv = s.belv := rfl
@[simp] theorem putPacket_power (s : State) (p : Nat) (x : Packet) : (s.putPacket p x).power = s.power := rfl
@[simp] theorem putPacket_overPow (s : State) (p : Nat) (x : Packet) : (s.putPacket p x).overPow = s.overPow := rfl
@[simp] theorem putPacket_routes (s : State) (p : Nat) (x : Packet) : (s.putPacket p x).routes = s.routes := rfl
@[simp] theorem putPacket_ctrs (s : State) (p : Nat) (x : Packet) : (s.putPacket p x).ctrs = s.ctrs := rfl
@[simp] theorem putPacket_residue (s : State) (p : Nat) (x : Packet) : (s.putPacket p x).residue = s.residue := rfl
@[simp] theorem putPacket_front_queues (s : State) (p : Nat) (x : Packet) : (s.putPacket p x).front.queues = s.front.queues := rfl
@[simp] theorem putPacket_front_mail (s : State) (p : Nat) (x : Packet) : (s.putPacket p x).front.mail = s.front.mail := rfl
@[simp] theorem modPacket_agenda (s : State) (p : Nat) (f : Packet → Packet) : (s.modPacket p f).agenda = s.agenda := rfl
@[simp] theorem modPacket_cur (s : State) (p : Nat) (f : Packet → Packet) : (s.modPacket p f).cur = s.cur := rfl
@[simp] theorem modPacket_cands (s : State) (p : Nat) (f : Packet → Packet) : (s.modPacket p f).cands = s.cands := rfl
@[simp] theorem modPacket_freeCtr (s : State) (p : Nat) (f : Packet → Packet) : (s.modPacket p f).freeCtr = s.freeCtr := rfl
@[simp] theorem modPacket_nextId (s : State) (p : Nat) (f : Packet → Packet) : (s.modPacket p f).nextId = s.nextId := rfl
@[simp] theorem modPacket_outbox (s : State) (p : Nat) (f : Packet → Packet) : (s.modPacket p f).outbox = s.outbox := rfl
@[simp] theorem modPacket_time (s : State) (p : Nat) (f : Packet → Packet) : (s.modPacket p f).time = s.time := rfl
@[simp] theorem modPacket_cycles (s : State) (p : Nat) (f : Packet → Packet) : (s.modPacket p f).cycles = s.cycles := rfl
@[simp] theorem modPacket_mem (s : State) (p : Nat) (f : Packet → Packet) : (s.modPacket p f).mem = s.mem := rfl
@[simp] theorem modPacket_xlat (s : State) (p : Nat) (f : Packet → Packet) : (s.modPacket p f).xlat = s.xlat := rfl
@[simp] theorem modPacket_work (s : State) (p : Nat) (f : Packet → Packet) : (s.modPacket p f).work = s.work := rfl
@[simp] theorem modPacket_ctxs (s : State) (p : Nat) (f : Packet → Packet) : (s.modPacket p f).ctxs = s.ctxs := rfl
@[simp] theorem modPacket_deques (s : State) (p : Nat) (f : Packet → Packet) : (s.modPacket p f).deques = s.deques := rfl
@[simp] theorem modPacket_units (s : State) (p : Nat) (f : Packet → Packet) : (s.modPacket p f).units = s.units := rfl
@[simp] theorem modPacket_stale (s : State) (p : Nat) (f : Packet → Packet) : (s.modPacket p f).stale = s.stale := rfl
@[simp] theorem modPacket_mgmt (s : State) (p : Nat) (f : Packet → Packet) : (s.modPacket p f).mgmt = s.mgmt := rfl
@[simp] theorem modPacket_belv (s : State) (p : Nat) (f : Packet → Packet) : (s.modPacket p f).belv = s.belv := rfl
@[simp] theorem modPacket_power (s : State) (p : Nat) (f : Packet → Packet) : (s.modPacket p f).power = s.power := rfl
@[simp] theorem modPacket_overPow (s : State) (p : Nat) (f : Packet → Packet) : (s.modPacket p f).overPow = s.overPow := rfl
@[simp] theorem modPacket_routes (s : State) (p : Nat) (f : Packet → Packet) : (s.modPacket p f).routes = s.routes := rfl
@[simp] theorem modPacket_ctrs (s : State) (p : Nat) (f : Packet → Packet) : (s.modPacket p f).ctrs = s.ctrs := rfl
@[simp] theorem modPacket_residue (s : State) (p : Nat) (f : Packet → Packet) : (s.modPacket p f).residue = s.residue := rfl
@[simp] theorem modPacket_front_queues (s : State) (p : Nat) (f : Packet → Packet) : (s.modPacket p f).front.queues = s.front.queues := rfl
@[simp] theorem modPacket_front_mail (s : State) (p : Nat) (f : Packet → Packet) : (s.modPacket p f).front.mail = s.front.mail := rfl
@[simp] theorem modMem_agenda (s : State) (f : Mem → Mem) : (s.modMem f).agenda = s.agenda := rfl
@[simp] theorem modMem_cur (s : State) (f : Mem → Mem) : (s.modMem f).cur = s.cur := rfl
@[simp] theorem modMem_cands (s : State) (f : Mem → Mem) : (s.modMem f).cands = s.cands := rfl
@[simp] theorem modMem_freeCtr (s : State) (f : Mem → Mem) : (s.modMem f).freeCtr = s.freeCtr := rfl
@[simp] theorem modMem_nextId (s : State) (f : Mem → Mem) : (s.modMem f).nextId = s.nextId := rfl
@[simp] theorem modMem_outbox (s : State) (f : Mem → Mem) : (s.modMem f).outbox = s.outbox := rfl
@[simp] theorem modMem_time (s : State) (f : Mem → Mem) : (s.modMem f).time = s.time := rfl
@[simp] theorem modMem_cycles (s : State) (f : Mem → Mem) : (s.modMem f).cycles = s.cycles := rfl
@[simp] theorem modMem_xlat (s : State) (f : Mem → Mem) : (s.modMem f).xlat = s.xlat := rfl
@[simp] theorem modMem_work (s : State) (f : Mem → Mem) : (s.modMem f).work = s.work := rfl
@[simp] theorem modMem_ctxs (s : State) (f : Mem → Mem) : (s.modMem f).ctxs = s.ctxs := rfl
@[simp] theorem modMem_deques (s : State) (f : Mem → Mem) : (s.modMem f).deques = s.deques := rfl
@[simp] theorem modMem_units (s : State) (f : Mem → Mem) : (s.modMem f).units = s.units := rfl
@[simp] theorem modMem_stale (s : State) (f : Mem → Mem) : (s.modMem f).stale = s.stale := rfl
@[simp] theorem modMem_front (s : State) (f : Mem → Mem) : (s.modMem f).front = s.front := rfl
@[simp] theorem modMem_mgmt (s : State) (f : Mem → Mem) : (s.modMem f).mgmt = s.mgmt := rfl
@[simp] theorem modMem_belv (s : State) (f : Mem → Mem) : (s.modMem f).belv = s.belv := rfl
@[simp] theorem modMem_power (s : State) (f : Mem → Mem) : (s.modMem f).power = s.power := rfl
@[simp] theorem modMem_overPow (s : State) (f : Mem → Mem) : (s.modMem f).overPow = s.overPow := rfl
@[simp] theorem modMem_routes (s : State) (f : Mem → Mem) : (s.modMem f).routes = s.routes := rfl
@[simp] theorem modMem_ctrs (s : State) (f : Mem → Mem) : (s.modMem f).ctrs = s.ctrs := rfl
@[simp] theorem modMem_residue (s : State) (f : Mem → Mem) : (s.modMem f).residue = s.residue := rfl
@[simp] theorem modMgmt_agenda (s : State) (f : Mgmt → Mgmt) : (s.modMgmt f).agenda = s.agenda := rfl
@[simp] theorem modMgmt_cur (s : State) (f : Mgmt → Mgmt) : (s.modMgmt f).cur = s.cur := rfl
@[simp] theorem modMgmt_cands (s : State) (f : Mgmt → Mgmt) : (s.modMgmt f).cands = s.cands := rfl
@[simp] theorem modMgmt_freeCtr (s : State) (f : Mgmt → Mgmt) : (s.modMgmt f).freeCtr = s.freeCtr := rfl
@[simp] theorem modMgmt_nextId (s : State) (f : Mgmt → Mgmt) : (s.modMgmt f).nextId = s.nextId := rfl
@[simp] theorem modMgmt_outbox (s : State) (f : Mgmt → Mgmt) : (s.modMgmt f).outbox = s.outbox := rfl
@[simp] theorem modMgmt_time (s : State) (f : Mgmt → Mgmt) : (s.modMgmt f).time = s.time := rfl
@[simp] theorem modMgmt_cycles (s : State) (f : Mgmt → Mgmt) : (s.modMgmt f).cycles = s.cycles := rfl
@[simp] theorem modMgmt_mem (s : State) (f : Mgmt → Mgmt) : (s.modMgmt f).mem = s.mem := rfl
@[simp] theorem modMgmt_xlat (s : State) (f : Mgmt → Mgmt) : (s.modMgmt f).xlat = s.xlat := rfl
@[simp] theorem modMgmt_work (s : State) (f : Mgmt → Mgmt) : (s.modMgmt f).work = s.work := rfl
@[simp] theorem modMgmt_ctxs (s : State) (f : Mgmt → Mgmt) : (s.modMgmt f).ctxs = s.ctxs := rfl
@[simp] theorem modMgmt_deques (s : State) (f : Mgmt → Mgmt) : (s.modMgmt f).deques = s.deques := rfl
@[simp] theorem modMgmt_units (s : State) (f : Mgmt → Mgmt) : (s.modMgmt f).units = s.units := rfl
@[simp] theorem modMgmt_stale (s : State) (f : Mgmt → Mgmt) : (s.modMgmt f).stale = s.stale := rfl
@[simp] theorem modMgmt_front (s : State) (f : Mgmt → Mgmt) : (s.modMgmt f).front = s.front := rfl
@[simp] theorem modMgmt_belv (s : State) (f : Mgmt → Mgmt) : (s.modMgmt f).belv = s.belv := rfl
@[simp] theorem modMgmt_power (s : State) (f : Mgmt → Mgmt) : (s.modMgmt f).power = s.power := rfl
@[simp] theorem modMgmt_overPow (s : State) (f : Mgmt → Mgmt) : (s.modMgmt f).overPow = s.overPow := rfl
@[simp] theorem modMgmt_routes (s : State) (f : Mgmt → Mgmt) : (s.modMgmt f).routes = s.routes := rfl
@[simp] theorem modMgmt_ctrs (s : State) (f : Mgmt → Mgmt) : (s.modMgmt f).ctrs = s.ctrs := rfl
@[simp] theorem modMgmt_residue (s : State) (f : Mgmt → Mgmt) : (s.modMgmt f).residue = s.residue := rfl
@[simp] theorem emit_agenda (s : State) (o : Out) : (s.emit o).agenda = s.agenda := rfl
@[simp] theorem emit_cur (s : State) (o : Out) : (s.emit o).cur = s.cur := rfl
@[simp] theorem emit_cands (s : State) (o : Out) : (s.emit o).cands = s.cands := rfl
@[simp] theorem emit_freeCtr (s : State) (o : Out) : (s.emit o).freeCtr = s.freeCtr := rfl
@[simp] theorem emit_nextId (s : State) (o : Out) : (s.emit o).nextId = s.nextId := rfl
@[simp] theorem emit_time (s : State) (o : Out) : (s.emit o).time = s.time := rfl
@[simp] theorem emit_cycles (s : State) (o : Out) : (s.emit o).cycles = s.cycles := rfl
@[simp] theorem emit_mem (s : State) (o : Out) : (s.emit o).mem = s.mem := rfl
@[simp] theorem emit_xlat (s : State) (o : Out) : (s.emit o).xlat = s.xlat := rfl
@[simp] theorem emit_work (s : State) (o : Out) : (s.emit o).work = s.work := rfl
@[simp] theorem emit_ctxs (s : State) (o : Out) : (s.emit o).ctxs = s.ctxs := rfl
@[simp] theorem emit_deques (s : State) (o : Out) : (s.emit o).deques = s.deques := rfl
@[simp] theorem emit_units (s : State) (o : Out) : (s.emit o).units = s.units := rfl
@[simp] theorem emit_stale (s : State) (o : Out) : (s.emit o).stale = s.stale := rfl
@[simp] theorem emit_front (s : State) (o : Out) : (s.emit o).front = s.front := rfl
@[simp] theorem emit_mgmt (s : State) (o : Out) : (s.emit o).mgmt = s.mgmt := rfl
@[simp] theorem emit_belv (s : State) (o : Out) : (s.emit o).belv = s.belv := rfl
@[simp] theorem emit_power (s : State) (o : Out) : (s.emit o).power = s.power := rfl
@[simp] theorem emit_overPow (s : State) (o : Out) : (s.emit o).overPow = s.overPow := rfl
@[simp] theorem emit_routes (s : State) (o : Out) : (s.emit o).routes = s.routes := rfl
@[simp] theorem emit_ctrs (s : State) (o : Out) : (s.emit o).ctrs = s.ctrs := rfl
@[simp] theorem emit_residue (s : State) (o : Out) : (s.emit o).residue = s.residue := rfl
@[simp] theorem modMem_mem (s : State) (f : Mem → Mem) : (s.modMem f).mem = f s.mem := rfl
@[simp] theorem modMgmt_mgmt (s : State) (f : Mgmt → Mgmt) : (s.modMgmt f).mgmt = f s.mgmt := rfl
@[simp] theorem emit_outbox (s : State) (o : Out) : (s.emit o).outbox = s.outbox ++ [o] := rfl

/-! ### Objects after an update -/

@[simp] theorem warp_putWarp (s : State) (k j : Nat) (x : Warp) : (s.putWarp k x).warp j = if j = k then some x else s.warp j := tFind_tPut _ _ _ _
@[simp] theorem warp_modWarp (s : State) (k j : Nat) (f : Warp → Warp) : (s.modWarp k f).warp j = if j = k then (s.warp k).map f else s.warp j := tFind_tMod _ _ _ _
@[simp] theorem warp_putTeam (s : State) (k j : Nat) (x : Team) : (s.putTeam k x).warp j = s.warp j := rfl
@[simp] theorem warp_modTeam (s : State) (k j : Nat) (f : Team → Team) : (s.modTeam k f).warp j = s.warp j := rfl
@[simp] theorem warp_putGang (s : State) (k j : Nat) (x : Gang) : (s.putGang k x).warp j = s.warp j := rfl
@[simp] theorem warp_modGang (s : State) (k j : Nat) (f : Gang → Gang) : (s.modGang k f).warp j = s.warp j := rfl
@[simp] theorem warp_putGrid (s : State) (k j : Nat) (x : Grid) : (s.putGrid k x).warp j = s.warp j := rfl
@[simp] theorem warp_modGrid (s : State) (k j : Nat) (f : Grid → Grid) : (s.modGrid k f).warp j = s.warp j := rfl
@[simp] theorem warp_putOp (s : State) (k j : Nat) (x : Op) : (s.putOp k x).warp j = s.warp j := rfl
@[simp] theorem warp_modOp (s : State) (k j : Nat) (f : Op → Op) : (s.modOp k f).warp j = s.warp j := rfl
@[simp] theorem warp_putCtx (s : State) (k j : Nat) (x : Ctx) : (s.putCtx k x).warp j = s.warp j := rfl
@[simp] theorem warp_modCtx (s : State) (k j : Nat) (f : Ctx → Ctx) : (s.modCtx k f).warp j = s.warp j := rfl
@[simp] theorem warp_putPacket (s : State) (k j : Nat) (x : Packet) : (s.putPacket k x).warp j = s.warp j := rfl
@[simp] theorem warp_modPacket (s : State) (k j : Nat) (f : Packet → Packet) : (s.modPacket k f).warp j = s.warp j := rfl
@[simp] theorem warp_modMem (s : State) (j : Nat) (f : Mem → Mem) : (s.modMem f).warp j = s.warp j := rfl
@[simp] theorem warp_modMgmt (s : State) (j : Nat) (f : Mgmt → Mgmt) : (s.modMgmt f).warp j = s.warp j := rfl
@[simp] theorem warp_emit (s : State) (j : Nat) (x : Out) : (s.emit x).warp j = s.warp j := rfl
@[simp] theorem team_putTeam (s : State) (k j : Nat) (x : Team) : (s.putTeam k x).team j = if j = k then some x else s.team j := tFind_tPut _ _ _ _
@[simp] theorem team_modTeam (s : State) (k j : Nat) (f : Team → Team) : (s.modTeam k f).team j = if j = k then (s.team k).map f else s.team j := tFind_tMod _ _ _ _
@[simp] theorem team_putWarp (s : State) (k j : Nat) (x : Warp) : (s.putWarp k x).team j = s.team j := rfl
@[simp] theorem team_modWarp (s : State) (k j : Nat) (f : Warp → Warp) : (s.modWarp k f).team j = s.team j := rfl
@[simp] theorem team_putGang (s : State) (k j : Nat) (x : Gang) : (s.putGang k x).team j = s.team j := rfl
@[simp] theorem team_modGang (s : State) (k j : Nat) (f : Gang → Gang) : (s.modGang k f).team j = s.team j := rfl
@[simp] theorem team_putGrid (s : State) (k j : Nat) (x : Grid) : (s.putGrid k x).team j = s.team j := rfl
@[simp] theorem team_modGrid (s : State) (k j : Nat) (f : Grid → Grid) : (s.modGrid k f).team j = s.team j := rfl
@[simp] theorem team_putOp (s : State) (k j : Nat) (x : Op) : (s.putOp k x).team j = s.team j := rfl
@[simp] theorem team_modOp (s : State) (k j : Nat) (f : Op → Op) : (s.modOp k f).team j = s.team j := rfl
@[simp] theorem team_putCtx (s : State) (k j : Nat) (x : Ctx) : (s.putCtx k x).team j = s.team j := rfl
@[simp] theorem team_modCtx (s : State) (k j : Nat) (f : Ctx → Ctx) : (s.modCtx k f).team j = s.team j := rfl
@[simp] theorem team_putPacket (s : State) (k j : Nat) (x : Packet) : (s.putPacket k x).team j = s.team j := rfl
@[simp] theorem team_modPacket (s : State) (k j : Nat) (f : Packet → Packet) : (s.modPacket k f).team j = s.team j := rfl
@[simp] theorem team_modMem (s : State) (j : Nat) (f : Mem → Mem) : (s.modMem f).team j = s.team j := rfl
@[simp] theorem team_modMgmt (s : State) (j : Nat) (f : Mgmt → Mgmt) : (s.modMgmt f).team j = s.team j := rfl
@[simp] theorem team_emit (s : State) (j : Nat) (x : Out) : (s.emit x).team j = s.team j := rfl
@[simp] theorem gang_putGang (s : State) (k j : Nat) (x : Gang) : (s.putGang k x).gang j = if j = k then some x else s.gang j := tFind_tPut _ _ _ _
@[simp] theorem gang_modGang (s : State) (k j : Nat) (f : Gang → Gang) : (s.modGang k f).gang j = if j = k then (s.gang k).map f else s.gang j := tFind_tMod _ _ _ _
@[simp] theorem gang_putWarp (s : State) (k j : Nat) (x : Warp) : (s.putWarp k x).gang j = s.gang j := rfl
@[simp] theorem gang_modWarp (s : State) (k j : Nat) (f : Warp → Warp) : (s.modWarp k f).gang j = s.gang j := rfl
@[simp] theorem gang_putTeam (s : State) (k j : Nat) (x : Team) : (s.putTeam k x).gang j = s.gang j := rfl
@[simp] theorem gang_modTeam (s : State) (k j : Nat) (f : Team → Team) : (s.modTeam k f).gang j = s.gang j := rfl
@[simp] theorem gang_putGrid (s : State) (k j : Nat) (x : Grid) : (s.putGrid k x).gang j = s.gang j := rfl
@[simp] theorem gang_modGrid (s : State) (k j : Nat) (f : Grid → Grid) : (s.modGrid k f).gang j = s.gang j := rfl
@[simp] theorem gang_putOp (s : State) (k j : Nat) (x : Op) : (s.putOp k x).gang j = s.gang j := rfl
@[simp] theorem gang_modOp (s : State) (k j : Nat) (f : Op → Op) : (s.modOp k f).gang j = s.gang j := rfl
@[simp] theorem gang_putCtx (s : State) (k j : Nat) (x : Ctx) : (s.putCtx k x).gang j = s.gang j := rfl
@[simp] theorem gang_modCtx (s : State) (k j : Nat) (f : Ctx → Ctx) : (s.modCtx k f).gang j = s.gang j := rfl
@[simp] theorem gang_putPacket (s : State) (k j : Nat) (x : Packet) : (s.putPacket k x).gang j = s.gang j := rfl
@[simp] theorem gang_modPacket (s : State) (k j : Nat) (f : Packet → Packet) : (s.modPacket k f).gang j = s.gang j := rfl
@[simp] theorem gang_modMem (s : State) (j : Nat) (f : Mem → Mem) : (s.modMem f).gang j = s.gang j := rfl
@[simp] theorem gang_modMgmt (s : State) (j : Nat) (f : Mgmt → Mgmt) : (s.modMgmt f).gang j = s.gang j := rfl
@[simp] theorem gang_emit (s : State) (j : Nat) (x : Out) : (s.emit x).gang j = s.gang j := rfl
@[simp] theorem grid_putGrid (s : State) (k j : Nat) (x : Grid) : (s.putGrid k x).grid j = if j = k then some x else s.grid j := tFind_tPut _ _ _ _
@[simp] theorem grid_modGrid (s : State) (k j : Nat) (f : Grid → Grid) : (s.modGrid k f).grid j = if j = k then (s.grid k).map f else s.grid j := tFind_tMod _ _ _ _
@[simp] theorem grid_putWarp (s : State) (k j : Nat) (x : Warp) : (s.putWarp k x).grid j = s.grid j := rfl
@[simp] theorem grid_modWarp (s : State) (k j : Nat) (f : Warp → Warp) : (s.modWarp k f).grid j = s.grid j := rfl
@[simp] theorem grid_putTeam (s : State) (k j : Nat) (x : Team) : (s.putTeam k x).grid j = s.grid j := rfl
@[simp] theorem grid_modTeam (s : State) (k j : Nat) (f : Team → Team) : (s.modTeam k f).grid j = s.grid j := rfl
@[simp] theorem grid_putGang (s : State) (k j : Nat) (x : Gang) : (s.putGang k x).grid j = s.grid j := rfl
@[simp] theorem grid_modGang (s : State) (k j : Nat) (f : Gang → Gang) : (s.modGang k f).grid j = s.grid j := rfl
@[simp] theorem grid_putOp (s : State) (k j : Nat) (x : Op) : (s.putOp k x).grid j = s.grid j := rfl
@[simp] theorem grid_modOp (s : State) (k j : Nat) (f : Op → Op) : (s.modOp k f).grid j = s.grid j := rfl
@[simp] theorem grid_putCtx (s : State) (k j : Nat) (x : Ctx) : (s.putCtx k x).grid j = s.grid j := rfl
@[simp] theorem grid_modCtx (s : State) (k j : Nat) (f : Ctx → Ctx) : (s.modCtx k f).grid j = s.grid j := rfl
@[simp] theorem grid_putPacket (s : State) (k j : Nat) (x : Packet) : (s.putPacket k x).grid j = s.grid j := rfl
@[simp] theorem grid_modPacket (s : State) (k j : Nat) (f : Packet → Packet) : (s.modPacket k f).grid j = s.grid j := rfl
@[simp] theorem grid_modMem (s : State) (j : Nat) (f : Mem → Mem) : (s.modMem f).grid j = s.grid j := rfl
@[simp] theorem grid_modMgmt (s : State) (j : Nat) (f : Mgmt → Mgmt) : (s.modMgmt f).grid j = s.grid j := rfl
@[simp] theorem grid_emit (s : State) (j : Nat) (x : Out) : (s.emit x).grid j = s.grid j := rfl
@[simp] theorem op_putOp (s : State) (k j : Nat) (x : Op) : (s.putOp k x).op j = if j = k then some x else s.op j := tFind_tPut _ _ _ _
@[simp] theorem op_modOp (s : State) (k j : Nat) (f : Op → Op) : (s.modOp k f).op j = if j = k then (s.op k).map f else s.op j := tFind_tMod _ _ _ _
@[simp] theorem op_putWarp (s : State) (k j : Nat) (x : Warp) : (s.putWarp k x).op j = s.op j := rfl
@[simp] theorem op_modWarp (s : State) (k j : Nat) (f : Warp → Warp) : (s.modWarp k f).op j = s.op j := rfl
@[simp] theorem op_putTeam (s : State) (k j : Nat) (x : Team) : (s.putTeam k x).op j = s.op j := rfl
@[simp] theorem op_modTeam (s : State) (k j : Nat) (f : Team → Team) : (s.modTeam k f).op j = s.op j := rfl
@[simp] theorem op_putGang (s : State) (k j : Nat) (x : Gang) : (s.putGang k x).op j = s.op j := rfl
@[simp] theorem op_modGang (s : State) (k j : Nat) (f : Gang → Gang) : (s.modGang k f).op j = s.op j := rfl
@[simp] theorem op_putGrid (s : State) (k j : Nat) (x : Grid) : (s.putGrid k x).op j = s.op j := rfl
@[simp] theorem op_modGrid (s : State) (k j : Nat) (f : Grid → Grid) : (s.modGrid k f).op j = s.op j := rfl
@[simp] theorem op_putCtx (s : State) (k j : Nat) (x : Ctx) : (s.putCtx k x).op j = s.op j := rfl
@[simp] theorem op_modCtx (s : State) (k j : Nat) (f : Ctx → Ctx) : (s.modCtx k f).op j = s.op j := rfl
@[simp] theorem op_putPacket (s : State) (k j : Nat) (x : Packet) : (s.putPacket k x).op j = s.op j := rfl
@[simp] theorem op_modPacket (s : State) (k j : Nat) (f : Packet → Packet) : (s.modPacket k f).op j = s.op j := rfl
@[simp] theorem op_modMem (s : State) (j : Nat) (f : Mem → Mem) : (s.modMem f).op j = s.op j := rfl
@[simp] theorem op_modMgmt (s : State) (j : Nat) (f : Mgmt → Mgmt) : (s.modMgmt f).op j = s.op j := rfl
@[simp] theorem op_emit (s : State) (j : Nat) (x : Out) : (s.emit x).op j = s.op j := rfl
@[simp] theorem ctx_putCtx (s : State) (k j : Nat) (x : Ctx) : (s.putCtx k x).ctx j = if j = k then some x else s.ctx j := tFind_tPut _ _ _ _
@[simp] theorem ctx_modCtx (s : State) (k j : Nat) (f : Ctx → Ctx) : (s.modCtx k f).ctx j = if j = k then (s.ctx k).map f else s.ctx j := tFind_tMod _ _ _ _
@[simp] theorem ctx_putWarp (s : State) (k j : Nat) (x : Warp) : (s.putWarp k x).ctx j = s.ctx j := rfl
@[simp] theorem ctx_modWarp (s : State) (k j : Nat) (f : Warp → Warp) : (s.modWarp k f).ctx j = s.ctx j := rfl
@[simp] theorem ctx_putTeam (s : State) (k j : Nat) (x : Team) : (s.putTeam k x).ctx j = s.ctx j := rfl
@[simp] theorem ctx_modTeam (s : State) (k j : Nat) (f : Team → Team) : (s.modTeam k f).ctx j = s.ctx j := rfl
@[simp] theorem ctx_putGang (s : State) (k j : Nat) (x : Gang) : (s.putGang k x).ctx j = s.ctx j := rfl
@[simp] theorem ctx_modGang (s : State) (k j : Nat) (f : Gang → Gang) : (s.modGang k f).ctx j = s.ctx j := rfl
@[simp] theorem ctx_putGrid (s : State) (k j : Nat) (x : Grid) : (s.putGrid k x).ctx j = s.ctx j := rfl
@[simp] theorem ctx_modGrid (s : State) (k j : Nat) (f : Grid → Grid) : (s.modGrid k f).ctx j = s.ctx j := rfl
@[simp] theorem ctx_putOp (s : State) (k j : Nat) (x : Op) : (s.putOp k x).ctx j = s.ctx j := rfl
@[simp] theorem ctx_modOp (s : State) (k j : Nat) (f : Op → Op) : (s.modOp k f).ctx j = s.ctx j := rfl
@[simp] theorem ctx_putPacket (s : State) (k j : Nat) (x : Packet) : (s.putPacket k x).ctx j = s.ctx j := rfl
@[simp] theorem ctx_modPacket (s : State) (k j : Nat) (f : Packet → Packet) : (s.modPacket k f).ctx j = s.ctx j := rfl
@[simp] theorem ctx_modMem (s : State) (j : Nat) (f : Mem → Mem) : (s.modMem f).ctx j = s.ctx j := rfl
@[simp] theorem ctx_modMgmt (s : State) (j : Nat) (f : Mgmt → Mgmt) : (s.modMgmt f).ctx j = s.ctx j := rfl
@[simp] theorem ctx_emit (s : State) (j : Nat) (x : Out) : (s.emit x).ctx j = s.ctx j := rfl
@[simp] theorem packet_putPacket (s : State) (k j : Nat) (x : Packet) : (s.putPacket k x).packet j = if j = k then some x else s.packet j := tFind_tPut _ _ _ _
@[simp] theorem packet_modPacket (s : State) (k j : Nat) (f : Packet → Packet) : (s.modPacket k f).packet j = if j = k then (s.packet k).map f else s.packet j := tFind_tMod _ _ _ _
@[simp] theorem packet_putWarp (s : State) (k j : Nat) (x : Warp) : (s.putWarp k x).packet j = s.packet j := rfl
@[simp] theorem packet_modWarp (s : State) (k j : Nat) (f : Warp → Warp) : (s.modWarp k f).packet j = s.packet j := rfl
@[simp] theorem packet_putTeam (s : State) (k j : Nat) (x : Team) : (s.putTeam k x).packet j = s.packet j := rfl
@[simp] theorem packet_modTeam (s : State) (k j : Nat) (f : Team → Team) : (s.modTeam k f).packet j = s.packet j := rfl
@[simp] theorem packet_putGang (s : State) (k j : Nat) (x : Gang) : (s.putGang k x).packet j = s.packet j := rfl
@[simp] theorem packet_modGang (s : State) (k j : Nat) (f : Gang → Gang) : (s.modGang k f).packet j = s.packet j := rfl
@[simp] theorem packet_putGrid (s : State) (k j : Nat) (x : Grid) : (s.putGrid k x).packet j = s.packet j := rfl
@[simp] theorem packet_modGrid (s : State) (k j : Nat) (f : Grid → Grid) : (s.modGrid k f).packet j = s.packet j := rfl
@[simp] theorem packet_putOp (s : State) (k j : Nat) (x : Op) : (s.putOp k x).packet j = s.packet j := rfl
@[simp] theorem packet_modOp (s : State) (k j : Nat) (f : Op → Op) : (s.modOp k f).packet j = s.packet j := rfl
@[simp] theorem packet_putCtx (s : State) (k j : Nat) (x : Ctx) : (s.putCtx k x).packet j = s.packet j := rfl
@[simp] theorem packet_modCtx (s : State) (k j : Nat) (f : Ctx → Ctx) : (s.modCtx k f).packet j = s.packet j := rfl
@[simp] theorem packet_modMem (s : State) (j : Nat) (f : Mem → Mem) : (s.modMem f).packet j = s.packet j := rfl
@[simp] theorem packet_modMgmt (s : State) (j : Nat) (f : Mgmt → Mgmt) : (s.modMgmt f).packet j = s.packet j := rfl
@[simp] theorem packet_emit (s : State) (j : Nat) (x : Out) : (s.emit x).packet j = s.packet j := rfl

/-! ### Registers of a warp -/

@[simp] theorem writeS_team (w : Warp) (r : Nat) (x : LVal) : (w.writeS r x).team = w.team := by unfold Warp.writeS; split <;> rfl
@[simp] theorem writeS_num (w : Warp) (r : Nat) (x : LVal) : (w.writeS r x).num = w.num := by unfold Warp.writeS; split <;> rfl
@[simp] theorem writeS_core (w : Warp) (r : Nat) (x : LVal) : (w.writeS r x).core = w.core := by unfold Warp.writeS; split <;> rfl
@[simp] theorem writeS_quad (w : Warp) (r : Nat) (x : LVal) : (w.writeS r x).quad = w.quad := by unfold Warp.writeS; split <;> rfl
@[simp] theorem writeS_slot (w : Warp) (r : Nat) (x : LVal) : (w.writeS r x).slot = w.slot := by unfold Warp.writeS; split <;> rfl
@[simp] theorem writeS_width (w : Warp) (r : Nat) (x : LVal) : (w.writeS r x).width = w.width := by unfold Warp.writeS; split <;> rfl
@[simp] theorem writeS_regs (w : Warp) (r : Nat) (x : LVal) : (w.writeS r x).regs = w.regs := by unfold Warp.writeS; split <;> rfl
@[simp] theorem writeS_lab0 (w : Warp) (r : Nat) (x : LVal) : (w.writeS r x).lab0 = w.lab0 := by unfold Warp.writeS; split <;> rfl
@[simp] theorem writeS_pc (w : Warp) (r : Nat) (x : LVal) : (w.writeS r x).pc = w.pc := by unfold Warp.writeS; split <;> rfl
@[simp] theorem writeS_sPend (w : Warp) (r : Nat) (x : LVal) : (w.writeS r x).sPend = w.sPend := by unfold Warp.writeS; split <;> rfl
@[simp] theorem writeS_k (w : Warp) (r : Nat) (x : LVal) : (w.writeS r x).k = w.k := by unfold Warp.writeS; split <;> rfl
@[simp] theorem writeS_kPend (w : Warp) (r : Nat) (x : LVal) : (w.writeS r x).kPend = w.kPend := by unfold Warp.writeS; split <;> rfl
@[simp] theorem writeS_v (w : Warp) (r : Nat) (x : LVal) : (w.writeS r x).v = w.v := by unfold Warp.writeS; split <;> rfl
@[simp] theorem writeS_vLab (w : Warp) (r : Nat) (x : LVal) : (w.writeS r x).vLab = w.vLab := by unfold Warp.writeS; split <;> rfl
@[simp] theorem writeS_vPend (w : Warp) (r : Nat) (x : LVal) : (w.writeS r x).vPend = w.vPend := by unfold Warp.writeS; split <;> rfl
@[simp] theorem writeS_p (w : Warp) (r : Nat) (x : LVal) : (w.writeS r x).p = w.p := by unfold Warp.writeS; split <;> rfl
@[simp] theorem writeS_pLab (w : Warp) (r : Nat) (x : LVal) : (w.writeS r x).pLab = w.pLab := by unfold Warp.writeS; split <;> rfl
@[simp] theorem writeS_spill (w : Warp) (r : Nat) (x : LVal) : (w.writeS r x).spill = w.spill := by unfold Warp.writeS; split <;> rfl
@[simp] theorem writeS_entries (w : Warp) (r : Nat) (x : LVal) : (w.writeS r x).entries = w.entries := by unfold Warp.writeS; split <;> rfl
@[simp] theorem writeS_rcv (w : Warp) (r : Nat) (x : LVal) : (w.writeS r x).rcv = w.rcv := by unfold Warp.writeS; split <;> rfl
@[simp] theorem writeS_rr (w : Warp) (r : Nat) (x : LVal) : (w.writeS r x).rr = w.rr := by unfold Warp.writeS; split <;> rfl
@[simp] theorem writeS_queue (w : Warp) (r : Nat) (x : LVal) : (w.writeS r x).queue = w.queue := by unfold Warp.writeS; split <;> rfl
@[simp] theorem writeS_running (w : Warp) (r : Nat) (x : LVal) : (w.writeS r x).running = w.running := by unfold Warp.writeS; split <;> rfl
@[simp] theorem writeS_names (w : Warp) (r : Nat) (x : LVal) : (w.writeS r x).names = w.names := by unfold Warp.writeS; split <;> rfl
@[simp] theorem writeS_pend (w : Warp) (r : Nat) (x : LVal) : (w.writeS r x).pend = w.pend := by unfold Warp.writeS; split <;> rfl
@[simp] theorem writeS_fstat (w : Warp) (r : Nat) (x : LVal) : (w.writeS r x).fstat = w.fstat := by unfold Warp.writeS; split <;> rfl
@[simp] theorem writeS_cause (w : Warp) (r : Nat) (x : LVal) : (w.writeS r x).cause = w.cause := by unfold Warp.writeS; split <;> rfl
@[simp] theorem writeS_tval (w : Warp) (r : Nat) (x : LVal) : (w.writeS r x).tval = w.tval := by unfold Warp.writeS; split <;> rfl
@[simp] theorem writeS_pcS (w : Warp) (r : Nat) (x : LVal) : (w.writeS r x).pcS = w.pcS := by unfold Warp.writeS; split <;> rfl
@[simp] theorem writeS_pcL (w : Warp) (r : Nat) (x : LVal) : (w.writeS r x).pcL = w.pcL := by unfold Warp.writeS; split <;> rfl
@[simp] theorem writeS_flmask (w : Warp) (r : Nat) (x : LVal) : (w.writeS r x).flmask = w.flmask := by unfold Warp.writeS; split <;> rfl
@[simp] theorem writeS_handler (w : Warp) (r : Nat) (x : LVal) : (w.writeS r x).handler = w.handler := by unfold Warp.writeS; split <;> rfl
@[simp] theorem writeS_frame (w : Warp) (r : Nat) (x : LVal) : (w.writeS r x).frame = w.frame := by unfold Warp.writeS; split <;> rfl
@[simp] theorem writeS_due (w : Warp) (r : Nat) (x : LVal) : (w.writeS r x).due = w.due := by unfold Warp.writeS; split <;> rfl
@[simp] theorem writeS_wait (w : Warp) (r : Nat) (x : LVal) : (w.writeS r x).wait = w.wait := by unfold Warp.writeS; split <;> rfl
@[simp] theorem writeS_sAge (w : Warp) (r : Nat) (x : LVal) : (w.writeS r x).sAge = w.sAge := by unfold Warp.writeS; split <;> rfl
@[simp] theorem writeS_sRaised (w : Warp) (r : Nat) (x : LVal) : (w.writeS r x).sRaised = w.sRaised := by unfold Warp.writeS; split <;> rfl
@[simp] theorem writeS_lWait (w : Warp) (r : Nat) (x : LVal) : (w.writeS r x).lWait = w.lWait := by unfold Warp.writeS; split <;> rfl
@[simp] theorem writeS_lAge (w : Warp) (r : Nat) (x : LVal) : (w.writeS r x).lAge = w.lAge := by unfold Warp.writeS; split <;> rfl
@[simp] theorem writeS_lRaised (w : Warp) (r : Nat) (x : LVal) : (w.writeS r x).lRaised = w.lRaised := by unfold Warp.writeS; split <;> rfl
@[simp] theorem writeS_debug (w : Warp) (r : Nat) (x : LVal) : (w.writeS r x).debug = w.debug := by unfold Warp.writeS; split <;> rfl
@[simp] theorem writeS_passed (w : Warp) (r : Nat) (x : LVal) : (w.writeS r x).passed = w.passed := by unfold Warp.writeS; split <;> rfl
@[simp] theorem writeS_mwOps (w : Warp) (r : Nat) (x : LVal) : (w.writeS r x).mwOps = w.mwOps := by unfold Warp.writeS; split <;> rfl
@[simp] theorem writeS_mwTiles (w : Warp) (r : Nat) (x : LVal) : (w.writeS r x).mwTiles = w.mwTiles := by unfold Warp.writeS; split <;> rfl
@[simp] theorem writeS_sigWaits (w : Warp) (r : Nat) (x : LVal) : (w.writeS r x).sigWaits = w.sigWaits := by unfold Warp.writeS; split <;> rfl
@[simp] theorem writeS_lateNext (w : Warp) (r : Nat) (x : LVal) : (w.writeS r x).lateNext = w.lateNext := by unfold Warp.writeS; split <;> rfl
@[simp] theorem writeS_late (w : Warp) (r : Nat) (x : LVal) : (w.writeS r x).late = w.late := by unfold Warp.writeS; split <;> rfl
@[simp] theorem writeS_lateLd (w : Warp) (r : Nat) (x : LVal) : (w.writeS r x).lateLd = w.lateLd := by unfold Warp.writeS; split <;> rfl
@[simp] theorem writeS_early (w : Warp) (r : Nat) (x : LVal) : (w.writeS r x).early = w.early := by unfold Warp.writeS; split <;> rfl
@[simp] theorem writeK_team (w : Warp) (r : Nat) (x : LVal) : (w.writeK r x).team = w.team := rfl
@[simp] theorem writeK_num (w : Warp) (r : Nat) (x : LVal) : (w.writeK r x).num = w.num := rfl
@[simp] theorem writeK_core (w : Warp) (r : Nat) (x : LVal) : (w.writeK r x).core = w.core := rfl
@[simp] theorem writeK_quad (w : Warp) (r : Nat) (x : LVal) : (w.writeK r x).quad = w.quad := rfl
@[simp] theorem writeK_slot (w : Warp) (r : Nat) (x : LVal) : (w.writeK r x).slot = w.slot := rfl
@[simp] theorem writeK_width (w : Warp) (r : Nat) (x : LVal) : (w.writeK r x).width = w.width := rfl
@[simp] theorem writeK_regs (w : Warp) (r : Nat) (x : LVal) : (w.writeK r x).regs = w.regs := rfl
@[simp] theorem writeK_lab0 (w : Warp) (r : Nat) (x : LVal) : (w.writeK r x).lab0 = w.lab0 := rfl
@[simp] theorem writeK_pc (w : Warp) (r : Nat) (x : LVal) : (w.writeK r x).pc = w.pc := rfl
@[simp] theorem writeK_s (w : Warp) (r : Nat) (x : LVal) : (w.writeK r x).s = w.s := rfl
@[simp] theorem writeK_sPend (w : Warp) (r : Nat) (x : LVal) : (w.writeK r x).sPend = w.sPend := rfl
@[simp] theorem writeK_kPend (w : Warp) (r : Nat) (x : LVal) : (w.writeK r x).kPend = w.kPend := rfl
@[simp] theorem writeK_v (w : Warp) (r : Nat) (x : LVal) : (w.writeK r x).v = w.v := rfl
@[simp] theorem writeK_vLab (w : Warp) (r : Nat) (x : LVal) : (w.writeK r x).vLab = w.vLab := rfl
@[simp] theorem writeK_vPend (w : Warp) (r : Nat) (x : LVal) : (w.writeK r x).vPend = w.vPend := rfl
@[simp] theorem writeK_p (w : Warp) (r : Nat) (x : LVal) : (w.writeK r x).p = w.p := rfl
@[simp] theorem writeK_pLab (w : Warp) (r : Nat) (x : LVal) : (w.writeK r x).pLab = w.pLab := rfl
@[simp] theorem writeK_spill (w : Warp) (r : Nat) (x : LVal) : (w.writeK r x).spill = w.spill := rfl
@[simp] theorem writeK_entries (w : Warp) (r : Nat) (x : LVal) : (w.writeK r x).entries = w.entries := rfl
@[simp] theorem writeK_rcv (w : Warp) (r : Nat) (x : LVal) : (w.writeK r x).rcv = w.rcv := rfl
@[simp] theorem writeK_rr (w : Warp) (r : Nat) (x : LVal) : (w.writeK r x).rr = w.rr := rfl
@[simp] theorem writeK_queue (w : Warp) (r : Nat) (x : LVal) : (w.writeK r x).queue = w.queue := rfl
@[simp] theorem writeK_running (w : Warp) (r : Nat) (x : LVal) : (w.writeK r x).running = w.running := rfl
@[simp] theorem writeK_names (w : Warp) (r : Nat) (x : LVal) : (w.writeK r x).names = w.names := rfl
@[simp] theorem writeK_pend (w : Warp) (r : Nat) (x : LVal) : (w.writeK r x).pend = w.pend := rfl
@[simp] theorem writeK_fstat (w : Warp) (r : Nat) (x : LVal) : (w.writeK r x).fstat = w.fstat := rfl
@[simp] theorem writeK_cause (w : Warp) (r : Nat) (x : LVal) : (w.writeK r x).cause = w.cause := rfl
@[simp] theorem writeK_tval (w : Warp) (r : Nat) (x : LVal) : (w.writeK r x).tval = w.tval := rfl
@[simp] theorem writeK_pcS (w : Warp) (r : Nat) (x : LVal) : (w.writeK r x).pcS = w.pcS := rfl
@[simp] theorem writeK_pcL (w : Warp) (r : Nat) (x : LVal) : (w.writeK r x).pcL = w.pcL := rfl
@[simp] theorem writeK_flmask (w : Warp) (r : Nat) (x : LVal) : (w.writeK r x).flmask = w.flmask := rfl
@[simp] theorem writeK_handler (w : Warp) (r : Nat) (x : LVal) : (w.writeK r x).handler = w.handler := rfl
@[simp] theorem writeK_frame (w : Warp) (r : Nat) (x : LVal) : (w.writeK r x).frame = w.frame := rfl
@[simp] theorem writeK_due (w : Warp) (r : Nat) (x : LVal) : (w.writeK r x).due = w.due := rfl
@[simp] theorem writeK_wait (w : Warp) (r : Nat) (x : LVal) : (w.writeK r x).wait = w.wait := rfl
@[simp] theorem writeK_sAge (w : Warp) (r : Nat) (x : LVal) : (w.writeK r x).sAge = w.sAge := rfl
@[simp] theorem writeK_sRaised (w : Warp) (r : Nat) (x : LVal) : (w.writeK r x).sRaised = w.sRaised := rfl
@[simp] theorem writeK_lWait (w : Warp) (r : Nat) (x : LVal) : (w.writeK r x).lWait = w.lWait := rfl
@[simp] theorem writeK_lAge (w : Warp) (r : Nat) (x : LVal) : (w.writeK r x).lAge = w.lAge := rfl
@[simp] theorem writeK_lRaised (w : Warp) (r : Nat) (x : LVal) : (w.writeK r x).lRaised = w.lRaised := rfl
@[simp] theorem writeK_debug (w : Warp) (r : Nat) (x : LVal) : (w.writeK r x).debug = w.debug := rfl
@[simp] theorem writeK_passed (w : Warp) (r : Nat) (x : LVal) : (w.writeK r x).passed = w.passed := rfl
@[simp] theorem writeK_mwOps (w : Warp) (r : Nat) (x : LVal) : (w.writeK r x).mwOps = w.mwOps := rfl
@[simp] theorem writeK_mwTiles (w : Warp) (r : Nat) (x : LVal) : (w.writeK r x).mwTiles = w.mwTiles := rfl
@[simp] theorem writeK_sigWaits (w : Warp) (r : Nat) (x : LVal) : (w.writeK r x).sigWaits = w.sigWaits := rfl
@[simp] theorem writeK_lateNext (w : Warp) (r : Nat) (x : LVal) : (w.writeK r x).lateNext = w.lateNext := rfl
@[simp] theorem writeK_late (w : Warp) (r : Nat) (x : LVal) : (w.writeK r x).late = w.late := rfl
@[simp] theorem writeK_lateLd (w : Warp) (r : Nat) (x : LVal) : (w.writeK r x).lateLd = w.lateLd := rfl
@[simp] theorem writeK_early (w : Warp) (r : Nat) (x : LVal) : (w.writeK r x).early = w.early := rfl
@[simp] theorem writeV_team (w : Warp) (r l : Nat) (x : W32) : (w.writeV r l x).team = w.team := rfl
@[simp] theorem writeV_num (w : Warp) (r l : Nat) (x : W32) : (w.writeV r l x).num = w.num := rfl
@[simp] theorem writeV_core (w : Warp) (r l : Nat) (x : W32) : (w.writeV r l x).core = w.core := rfl
@[simp] theorem writeV_quad (w : Warp) (r l : Nat) (x : W32) : (w.writeV r l x).quad = w.quad := rfl
@[simp] theorem writeV_slot (w : Warp) (r l : Nat) (x : W32) : (w.writeV r l x).slot = w.slot := rfl
@[simp] theorem writeV_width (w : Warp) (r l : Nat) (x : W32) : (w.writeV r l x).width = w.width := rfl
@[simp] theorem writeV_regs (w : Warp) (r l : Nat) (x : W32) : (w.writeV r l x).regs = w.regs := rfl
@[simp] theorem writeV_lab0 (w : Warp) (r l : Nat) (x : W32) : (w.writeV r l x).lab0 = w.lab0 := rfl
@[simp] theorem writeV_pc (w : Warp) (r l : Nat) (x : W32) : (w.writeV r l x).pc = w.pc := rfl
@[simp] theorem writeV_s (w : Warp) (r l : Nat) (x : W32) : (w.writeV r l x).s = w.s := rfl
@[simp] theorem writeV_sPend (w : Warp) (r l : Nat) (x : W32) : (w.writeV r l x).sPend = w.sPend := rfl
@[simp] theorem writeV_k (w : Warp) (r l : Nat) (x : W32) : (w.writeV r l x).k = w.k := rfl
@[simp] theorem writeV_kPend (w : Warp) (r l : Nat) (x : W32) : (w.writeV r l x).kPend = w.kPend := rfl
@[simp] theorem writeV_vLab (w : Warp) (r l : Nat) (x : W32) : (w.writeV r l x).vLab = w.vLab := rfl
@[simp] theorem writeV_vPend (w : Warp) (r l : Nat) (x : W32) : (w.writeV r l x).vPend = w.vPend := rfl
@[simp] theorem writeV_p (w : Warp) (r l : Nat) (x : W32) : (w.writeV r l x).p = w.p := rfl
@[simp] theorem writeV_pLab (w : Warp) (r l : Nat) (x : W32) : (w.writeV r l x).pLab = w.pLab := rfl
@[simp] theorem writeV_spill (w : Warp) (r l : Nat) (x : W32) : (w.writeV r l x).spill = w.spill := rfl
@[simp] theorem writeV_entries (w : Warp) (r l : Nat) (x : W32) : (w.writeV r l x).entries = w.entries := rfl
@[simp] theorem writeV_rcv (w : Warp) (r l : Nat) (x : W32) : (w.writeV r l x).rcv = w.rcv := rfl
@[simp] theorem writeV_rr (w : Warp) (r l : Nat) (x : W32) : (w.writeV r l x).rr = w.rr := rfl
@[simp] theorem writeV_queue (w : Warp) (r l : Nat) (x : W32) : (w.writeV r l x).queue = w.queue := rfl
@[simp] theorem writeV_running (w : Warp) (r l : Nat) (x : W32) : (w.writeV r l x).running = w.running := rfl
@[simp] theorem writeV_names (w : Warp) (r l : Nat) (x : W32) : (w.writeV r l x).names = w.names := rfl
@[simp] theorem writeV_pend (w : Warp) (r l : Nat) (x : W32) : (w.writeV r l x).pend = w.pend := rfl
@[simp] theorem writeV_fstat (w : Warp) (r l : Nat) (x : W32) : (w.writeV r l x).fstat = w.fstat := rfl
@[simp] theorem writeV_cause (w : Warp) (r l : Nat) (x : W32) : (w.writeV r l x).cause = w.cause := rfl
@[simp] theorem writeV_tval (w : Warp) (r l : Nat) (x : W32) : (w.writeV r l x).tval = w.tval := rfl
@[simp] theorem writeV_pcS (w : Warp) (r l : Nat) (x : W32) : (w.writeV r l x).pcS = w.pcS := rfl
@[simp] theorem writeV_pcL (w : Warp) (r l : Nat) (x : W32) : (w.writeV r l x).pcL = w.pcL := rfl
@[simp] theorem writeV_flmask (w : Warp) (r l : Nat) (x : W32) : (w.writeV r l x).flmask = w.flmask := rfl
@[simp] theorem writeV_handler (w : Warp) (r l : Nat) (x : W32) : (w.writeV r l x).handler = w.handler := rfl
@[simp] theorem writeV_frame (w : Warp) (r l : Nat) (x : W32) : (w.writeV r l x).frame = w.frame := rfl
@[simp] theorem writeV_due (w : Warp) (r l : Nat) (x : W32) : (w.writeV r l x).due = w.due := rfl
@[simp] theorem writeV_wait (w : Warp) (r l : Nat) (x : W32) : (w.writeV r l x).wait = w.wait := rfl
@[simp] theorem writeV_sAge (w : Warp) (r l : Nat) (x : W32) : (w.writeV r l x).sAge = w.sAge := rfl
@[simp] theorem writeV_sRaised (w : Warp) (r l : Nat) (x : W32) : (w.writeV r l x).sRaised = w.sRaised := rfl
@[simp] theorem writeV_lWait (w : Warp) (r l : Nat) (x : W32) : (w.writeV r l x).lWait = w.lWait := rfl
@[simp] theorem writeV_lAge (w : Warp) (r l : Nat) (x : W32) : (w.writeV r l x).lAge = w.lAge := rfl
@[simp] theorem writeV_lRaised (w : Warp) (r l : Nat) (x : W32) : (w.writeV r l x).lRaised = w.lRaised := rfl
@[simp] theorem writeV_debug (w : Warp) (r l : Nat) (x : W32) : (w.writeV r l x).debug = w.debug := rfl
@[simp] theorem writeV_passed (w : Warp) (r l : Nat) (x : W32) : (w.writeV r l x).passed = w.passed := rfl
@[simp] theorem writeV_mwOps (w : Warp) (r l : Nat) (x : W32) : (w.writeV r l x).mwOps = w.mwOps := rfl
@[simp] theorem writeV_mwTiles (w : Warp) (r l : Nat) (x : W32) : (w.writeV r l x).mwTiles = w.mwTiles := rfl
@[simp] theorem writeV_sigWaits (w : Warp) (r l : Nat) (x : W32) : (w.writeV r l x).sigWaits = w.sigWaits := rfl
@[simp] theorem writeV_lateNext (w : Warp) (r l : Nat) (x : W32) : (w.writeV r l x).lateNext = w.lateNext := rfl
@[simp] theorem writeV_late (w : Warp) (r l : Nat) (x : W32) : (w.writeV r l x).late = w.late := rfl
@[simp] theorem writeV_lateLd (w : Warp) (r l : Nat) (x : W32) : (w.writeV r l x).lateLd = w.lateLd := rfl
@[simp] theorem writeV_early (w : Warp) (r l : Nat) (x : W32) : (w.writeV r l x).early = w.early := rfl
@[simp] theorem setLabV_team (w : Warp) (r : Nat) (l : Label) : (w.setLabV r l).team = w.team := rfl
@[simp] theorem setLabV_num (w : Warp) (r : Nat) (l : Label) : (w.setLabV r l).num = w.num := rfl
@[simp] theorem setLabV_core (w : Warp) (r : Nat) (l : Label) : (w.setLabV r l).core = w.core := rfl
@[simp] theorem setLabV_quad (w : Warp) (r : Nat) (l : Label) : (w.setLabV r l).quad = w.quad := rfl
@[simp] theorem setLabV_slot (w : Warp) (r : Nat) (l : Label) : (w.setLabV r l).slot = w.slot := rfl
@[simp] theorem setLabV_width (w : Warp) (r : Nat) (l : Label) : (w.setLabV r l).width = w.width := rfl
@[simp] theorem setLabV_regs (w : Warp) (r : Nat) (l : Label) : (w.setLabV r l).regs = w.regs := rfl
@[simp] theorem setLabV_lab0 (w : Warp) (r : Nat) (l : Label) : (w.setLabV r l).lab0 = w.lab0 := rfl
@[simp] theorem setLabV_pc (w : Warp) (r : Nat) (l : Label) : (w.setLabV r l).pc = w.pc := rfl
@[simp] theorem setLabV_s (w : Warp) (r : Nat) (l : Label) : (w.setLabV r l).s = w.s := rfl
@[simp] theorem setLabV_sPend (w : Warp) (r : Nat) (l : Label) : (w.setLabV r l).sPend = w.sPend := rfl
@[simp] theorem setLabV_k (w : Warp) (r : Nat) (l : Label) : (w.setLabV r l).k = w.k := rfl
@[simp] theorem setLabV_kPend (w : Warp) (r : Nat) (l : Label) : (w.setLabV r l).kPend = w.kPend := rfl
@[simp] theorem setLabV_v (w : Warp) (r : Nat) (l : Label) : (w.setLabV r l).v = w.v := rfl
@[simp] theorem setLabV_vPend (w : Warp) (r : Nat) (l : Label) : (w.setLabV r l).vPend = w.vPend := rfl
@[simp] theorem setLabV_p (w : Warp) (r : Nat) (l : Label) : (w.setLabV r l).p = w.p := rfl
@[simp] theorem setLabV_pLab (w : Warp) (r : Nat) (l : Label) : (w.setLabV r l).pLab = w.pLab := rfl
@[simp] theorem setLabV_spill (w : Warp) (r : Nat) (l : Label) : (w.setLabV r l).spill = w.spill := rfl
@[simp] theorem setLabV_entries (w : Warp) (r : Nat) (l : Label) : (w.setLabV r l).entries = w.entries := rfl
@[simp] theorem setLabV_rcv (w : Warp) (r : Nat) (l : Label) : (w.setLabV r l).rcv = w.rcv := rfl
@[simp] theorem setLabV_rr (w : Warp) (r : Nat) (l : Label) : (w.setLabV r l).rr = w.rr := rfl
@[simp] theorem setLabV_queue (w : Warp) (r : Nat) (l : Label) : (w.setLabV r l).queue = w.queue := rfl
@[simp] theorem setLabV_running (w : Warp) (r : Nat) (l : Label) : (w.setLabV r l).running = w.running := rfl
@[simp] theorem setLabV_names (w : Warp) (r : Nat) (l : Label) : (w.setLabV r l).names = w.names := rfl
@[simp] theorem setLabV_pend (w : Warp) (r : Nat) (l : Label) : (w.setLabV r l).pend = w.pend := rfl
@[simp] theorem setLabV_fstat (w : Warp) (r : Nat) (l : Label) : (w.setLabV r l).fstat = w.fstat := rfl
@[simp] theorem setLabV_cause (w : Warp) (r : Nat) (l : Label) : (w.setLabV r l).cause = w.cause := rfl
@[simp] theorem setLabV_tval (w : Warp) (r : Nat) (l : Label) : (w.setLabV r l).tval = w.tval := rfl
@[simp] theorem setLabV_pcS (w : Warp) (r : Nat) (l : Label) : (w.setLabV r l).pcS = w.pcS := rfl
@[simp] theorem setLabV_pcL (w : Warp) (r : Nat) (l : Label) : (w.setLabV r l).pcL = w.pcL := rfl
@[simp] theorem setLabV_flmask (w : Warp) (r : Nat) (l : Label) : (w.setLabV r l).flmask = w.flmask := rfl
@[simp] theorem setLabV_handler (w : Warp) (r : Nat) (l : Label) : (w.setLabV r l).handler = w.handler := rfl
@[simp] theorem setLabV_frame (w : Warp) (r : Nat) (l : Label) : (w.setLabV r l).frame = w.frame := rfl
@[simp] theorem setLabV_due (w : Warp) (r : Nat) (l : Label) : (w.setLabV r l).due = w.due := rfl
@[simp] theorem setLabV_wait (w : Warp) (r : Nat) (l : Label) : (w.setLabV r l).wait = w.wait := rfl
@[simp] theorem setLabV_sAge (w : Warp) (r : Nat) (l : Label) : (w.setLabV r l).sAge = w.sAge := rfl
@[simp] theorem setLabV_sRaised (w : Warp) (r : Nat) (l : Label) : (w.setLabV r l).sRaised = w.sRaised := rfl
@[simp] theorem setLabV_lWait (w : Warp) (r : Nat) (l : Label) : (w.setLabV r l).lWait = w.lWait := rfl
@[simp] theorem setLabV_lAge (w : Warp) (r : Nat) (l : Label) : (w.setLabV r l).lAge = w.lAge := rfl
@[simp] theorem setLabV_lRaised (w : Warp) (r : Nat) (l : Label) : (w.setLabV r l).lRaised = w.lRaised := rfl
@[simp] theorem setLabV_debug (w : Warp) (r : Nat) (l : Label) : (w.setLabV r l).debug = w.debug := rfl
@[simp] theorem setLabV_passed (w : Warp) (r : Nat) (l : Label) : (w.setLabV r l).passed = w.passed := rfl
@[simp] theorem setLabV_mwOps (w : Warp) (r : Nat) (l : Label) : (w.setLabV r l).mwOps = w.mwOps := rfl
@[simp] theorem setLabV_mwTiles (w : Warp) (r : Nat) (l : Label) : (w.setLabV r l).mwTiles = w.mwTiles := rfl
@[simp] theorem setLabV_sigWaits (w : Warp) (r : Nat) (l : Label) : (w.setLabV r l).sigWaits = w.sigWaits := rfl
@[simp] theorem setLabV_lateNext (w : Warp) (r : Nat) (l : Label) : (w.setLabV r l).lateNext = w.lateNext := rfl
@[simp] theorem setLabV_late (w : Warp) (r : Nat) (l : Label) : (w.setLabV r l).late = w.late := rfl
@[simp] theorem setLabV_lateLd (w : Warp) (r : Nat) (l : Label) : (w.setLabV r l).lateLd = w.lateLd := rfl
@[simp] theorem setLabV_early (w : Warp) (r : Nat) (l : Label) : (w.setLabV r l).early = w.early := rfl
@[simp] theorem setPred_team (w : Warp) (p : Nat) (m : W64) : (w.setPred p m).team = w.team := by unfold Warp.setPred; split <;> rfl
@[simp] theorem setPred_num (w : Warp) (p : Nat) (m : W64) : (w.setPred p m).num = w.num := by unfold Warp.setPred; split <;> rfl
@[simp] theorem setPred_core (w : Warp) (p : Nat) (m : W64) : (w.setPred p m).core = w.core := by unfold Warp.setPred; split <;> rfl
@[simp] theorem setPred_quad (w : Warp) (p : Nat) (m : W64) : (w.setPred p m).quad = w.quad := by unfold Warp.setPred; split <;> rfl
@[simp] theorem setPred_slot (w : Warp) (p : Nat) (m : W64) : (w.setPred p m).slot = w.slot := by unfold Warp.setPred; split <;> rfl
@[simp] theorem setPred_width (w : Warp) (p : Nat) (m : W64) : (w.setPred p m).width = w.width := by unfold Warp.setPred; split <;> rfl
@[simp] theorem setPred_regs (w : Warp) (p : Nat) (m : W64) : (w.setPred p m).regs = w.regs := by unfold Warp.setPred; split <;> rfl
@[simp] theorem setPred_lab0 (w : Warp) (p : Nat) (m : W64) : (w.setPred p m).lab0 = w.lab0 := by unfold Warp.setPred; split <;> rfl
@[simp] theorem setPred_pc (w : Warp) (p : Nat) (m : W64) : (w.setPred p m).pc = w.pc := by unfold Warp.setPred; split <;> rfl
@[simp] theorem setPred_s (w : Warp) (p : Nat) (m : W64) : (w.setPred p m).s = w.s := by unfold Warp.setPred; split <;> rfl
@[simp] theorem setPred_sPend (w : Warp) (p : Nat) (m : W64) : (w.setPred p m).sPend = w.sPend := by unfold Warp.setPred; split <;> rfl
@[simp] theorem setPred_k (w : Warp) (p : Nat) (m : W64) : (w.setPred p m).k = w.k := by unfold Warp.setPred; split <;> rfl
@[simp] theorem setPred_kPend (w : Warp) (p : Nat) (m : W64) : (w.setPred p m).kPend = w.kPend := by unfold Warp.setPred; split <;> rfl
@[simp] theorem setPred_v (w : Warp) (p : Nat) (m : W64) : (w.setPred p m).v = w.v := by unfold Warp.setPred; split <;> rfl
@[simp] theorem setPred_vLab (w : Warp) (p : Nat) (m : W64) : (w.setPred p m).vLab = w.vLab := by unfold Warp.setPred; split <;> rfl
@[simp] theorem setPred_vPend (w : Warp) (p : Nat) (m : W64) : (w.setPred p m).vPend = w.vPend := by unfold Warp.setPred; split <;> rfl
@[simp] theorem setPred_pLab (w : Warp) (p : Nat) (m : W64) : (w.setPred p m).pLab = w.pLab := by unfold Warp.setPred; split <;> rfl
@[simp] theorem setPred_spill (w : Warp) (p : Nat) (m : W64) : (w.setPred p m).spill = w.spill := by unfold Warp.setPred; split <;> rfl
@[simp] theorem setPred_entries (w : Warp) (p : Nat) (m : W64) : (w.setPred p m).entries = w.entries := by unfold Warp.setPred; split <;> rfl
@[simp] theorem setPred_rcv (w : Warp) (p : Nat) (m : W64) : (w.setPred p m).rcv = w.rcv := by unfold Warp.setPred; split <;> rfl
@[simp] theorem setPred_rr (w : Warp) (p : Nat) (m : W64) : (w.setPred p m).rr = w.rr := by unfold Warp.setPred; split <;> rfl
@[simp] theorem setPred_queue (w : Warp) (p : Nat) (m : W64) : (w.setPred p m).queue = w.queue := by unfold Warp.setPred; split <;> rfl
@[simp] theorem setPred_running (w : Warp) (p : Nat) (m : W64) : (w.setPred p m).running = w.running := by unfold Warp.setPred; split <;> rfl
@[simp] theorem setPred_names (w : Warp) (p : Nat) (m : W64) : (w.setPred p m).names = w.names := by unfold Warp.setPred; split <;> rfl
@[simp] theorem setPred_pend (w : Warp) (p : Nat) (m : W64) : (w.setPred p m).pend = w.pend := by unfold Warp.setPred; split <;> rfl
@[simp] theorem setPred_fstat (w : Warp) (p : Nat) (m : W64) : (w.setPred p m).fstat = w.fstat := by unfold Warp.setPred; split <;> rfl
@[simp] theorem setPred_cause (w : Warp) (p : Nat) (m : W64) : (w.setPred p m).cause = w.cause := by unfold Warp.setPred; split <;> rfl
@[simp] theorem setPred_tval (w : Warp) (p : Nat) (m : W64) : (w.setPred p m).tval = w.tval := by unfold Warp.setPred; split <;> rfl
@[simp] theorem setPred_pcS (w : Warp) (p : Nat) (m : W64) : (w.setPred p m).pcS = w.pcS := by unfold Warp.setPred; split <;> rfl
@[simp] theorem setPred_pcL (w : Warp) (p : Nat) (m : W64) : (w.setPred p m).pcL = w.pcL := by unfold Warp.setPred; split <;> rfl
@[simp] theorem setPred_flmask (w : Warp) (p : Nat) (m : W64) : (w.setPred p m).flmask = w.flmask := by unfold Warp.setPred; split <;> rfl
@[simp] theorem setPred_handler (w : Warp) (p : Nat) (m : W64) : (w.setPred p m).handler = w.handler := by unfold Warp.setPred; split <;> rfl
@[simp] theorem setPred_frame (w : Warp) (p : Nat) (m : W64) : (w.setPred p m).frame = w.frame := by unfold Warp.setPred; split <;> rfl
@[simp] theorem setPred_due (w : Warp) (p : Nat) (m : W64) : (w.setPred p m).due = w.due := by unfold Warp.setPred; split <;> rfl
@[simp] theorem setPred_wait (w : Warp) (p : Nat) (m : W64) : (w.setPred p m).wait = w.wait := by unfold Warp.setPred; split <;> rfl
@[simp] theorem setPred_sAge (w : Warp) (p : Nat) (m : W64) : (w.setPred p m).sAge = w.sAge := by unfold Warp.setPred; split <;> rfl
@[simp] theorem setPred_sRaised (w : Warp) (p : Nat) (m : W64) : (w.setPred p m).sRaised = w.sRaised := by unfold Warp.setPred; split <;> rfl
@[simp] theorem setPred_lWait (w : Warp) (p : Nat) (m : W64) : (w.setPred p m).lWait = w.lWait := by unfold Warp.setPred; split <;> rfl
@[simp] theorem setPred_lAge (w : Warp) (p : Nat) (m : W64) : (w.setPred p m).lAge = w.lAge := by unfold Warp.setPred; split <;> rfl
@[simp] theorem setPred_lRaised (w : Warp) (p : Nat) (m : W64) : (w.setPred p m).lRaised = w.lRaised := by unfold Warp.setPred; split <;> rfl
@[simp] theorem setPred_debug (w : Warp) (p : Nat) (m : W64) : (w.setPred p m).debug = w.debug := by unfold Warp.setPred; split <;> rfl
@[simp] theorem setPred_passed (w : Warp) (p : Nat) (m : W64) : (w.setPred p m).passed = w.passed := by unfold Warp.setPred; split <;> rfl
@[simp] theorem setPred_mwOps (w : Warp) (p : Nat) (m : W64) : (w.setPred p m).mwOps = w.mwOps := by unfold Warp.setPred; split <;> rfl
@[simp] theorem setPred_mwTiles (w : Warp) (p : Nat) (m : W64) : (w.setPred p m).mwTiles = w.mwTiles := by unfold Warp.setPred; split <;> rfl
@[simp] theorem setPred_sigWaits (w : Warp) (p : Nat) (m : W64) : (w.setPred p m).sigWaits = w.sigWaits := by unfold Warp.setPred; split <;> rfl
@[simp] theorem setPred_lateNext (w : Warp) (p : Nat) (m : W64) : (w.setPred p m).lateNext = w.lateNext := by unfold Warp.setPred; split <;> rfl
@[simp] theorem setPred_late (w : Warp) (p : Nat) (m : W64) : (w.setPred p m).late = w.late := by unfold Warp.setPred; split <;> rfl
@[simp] theorem setPred_lateLd (w : Warp) (p : Nat) (m : W64) : (w.setPred p m).lateLd = w.lateLd := by unfold Warp.setPred; split <;> rfl
@[simp] theorem setPred_early (w : Warp) (p : Nat) (m : W64) : (w.setPred p m).early = w.early := by unfold Warp.setPred; split <;> rfl
@[simp] theorem setLabP_team (w : Warp) (p : Nat) (l : Label) : (w.setLabP p l).team = w.team := rfl
@[simp] theorem setLabP_num (w : Warp) (p : Nat) (l : Label) : (w.setLabP p l).num = w.num := rfl
@[simp] theorem setLabP_core (w : Warp) (p : Nat) (l : Label) : (w.setLabP p l).core = w.core := rfl
@[simp] theorem setLabP_quad (w : Warp) (p : Nat) (l : Label) : (w.setLabP p l).quad = w.quad := rfl
@[simp] theorem setLabP_slot (w : Warp) (p : Nat) (l : Label) : (w.setLabP p l).slot = w.slot := rfl
@[simp] theorem setLabP_width (w : Warp) (p : Nat) (l : Label) : (w.setLabP p l).width = w.width := rfl
@[simp] theorem setLabP_regs (w : Warp) (p : Nat) (l : Label) : (w.setLabP p l).regs = w.regs := rfl
@[simp] theorem setLabP_lab0 (w : Warp) (p : Nat) (l : Label) : (w.setLabP p l).lab0 = w.lab0 := rfl
@[simp] theorem setLabP_pc (w : Warp) (p : Nat) (l : Label) : (w.setLabP p l).pc = w.pc := rfl
@[simp] theorem setLabP_s (w : Warp) (p : Nat) (l : Label) : (w.setLabP p l).s = w.s := rfl
@[simp] theorem setLabP_sPend (w : Warp) (p : Nat) (l : Label) : (w.setLabP p l).sPend = w.sPend := rfl
@[simp] theorem setLabP_k (w : Warp) (p : Nat) (l : Label) : (w.setLabP p l).k = w.k := rfl
@[simp] theorem setLabP_kPend (w : Warp) (p : Nat) (l : Label) : (w.setLabP p l).kPend = w.kPend := rfl
@[simp] theorem setLabP_v (w : Warp) (p : Nat) (l : Label) : (w.setLabP p l).v = w.v := rfl
@[simp] theorem setLabP_vLab (w : Warp) (p : Nat) (l : Label) : (w.setLabP p l).vLab = w.vLab := rfl
@[simp] theorem setLabP_vPend (w : Warp) (p : Nat) (l : Label) : (w.setLabP p l).vPend = w.vPend := rfl
@[simp] theorem setLabP_p (w : Warp) (p : Nat) (l : Label) : (w.setLabP p l).p = w.p := rfl
@[simp] theorem setLabP_spill (w : Warp) (p : Nat) (l : Label) : (w.setLabP p l).spill = w.spill := rfl
@[simp] theorem setLabP_entries (w : Warp) (p : Nat) (l : Label) : (w.setLabP p l).entries = w.entries := rfl
@[simp] theorem setLabP_rcv (w : Warp) (p : Nat) (l : Label) : (w.setLabP p l).rcv = w.rcv := rfl
@[simp] theorem setLabP_rr (w : Warp) (p : Nat) (l : Label) : (w.setLabP p l).rr = w.rr := rfl
@[simp] theorem setLabP_queue (w : Warp) (p : Nat) (l : Label) : (w.setLabP p l).queue = w.queue := rfl
@[simp] theorem setLabP_running (w : Warp) (p : Nat) (l : Label) : (w.setLabP p l).running = w.running := rfl
@[simp] theorem setLabP_names (w : Warp) (p : Nat) (l : Label) : (w.setLabP p l).names = w.names := rfl
@[simp] theorem setLabP_pend (w : Warp) (p : Nat) (l : Label) : (w.setLabP p l).pend = w.pend := rfl
@[simp] theorem setLabP_fstat (w : Warp) (p : Nat) (l : Label) : (w.setLabP p l).fstat = w.fstat := rfl
@[simp] theorem setLabP_cause (w : Warp) (p : Nat) (l : Label) : (w.setLabP p l).cause = w.cause := rfl
@[simp] theorem setLabP_tval (w : Warp) (p : Nat) (l : Label) : (w.setLabP p l).tval = w.tval := rfl
@[simp] theorem setLabP_pcS (w : Warp) (p : Nat) (l : Label) : (w.setLabP p l).pcS = w.pcS := rfl
@[simp] theorem setLabP_pcL (w : Warp) (p : Nat) (l : Label) : (w.setLabP p l).pcL = w.pcL := rfl
@[simp] theorem setLabP_flmask (w : Warp) (p : Nat) (l : Label) : (w.setLabP p l).flmask = w.flmask := rfl
@[simp] theorem setLabP_handler (w : Warp) (p : Nat) (l : Label) : (w.setLabP p l).handler = w.handler := rfl
@[simp] theorem setLabP_frame (w : Warp) (p : Nat) (l : Label) : (w.setLabP p l).frame = w.frame := rfl
@[simp] theorem setLabP_due (w : Warp) (p : Nat) (l : Label) : (w.setLabP p l).due = w.due := rfl
@[simp] theorem setLabP_wait (w : Warp) (p : Nat) (l : Label) : (w.setLabP p l).wait = w.wait := rfl
@[simp] theorem setLabP_sAge (w : Warp) (p : Nat) (l : Label) : (w.setLabP p l).sAge = w.sAge := rfl
@[simp] theorem setLabP_sRaised (w : Warp) (p : Nat) (l : Label) : (w.setLabP p l).sRaised = w.sRaised := rfl
@[simp] theorem setLabP_lWait (w : Warp) (p : Nat) (l : Label) : (w.setLabP p l).lWait = w.lWait := rfl
@[simp] theorem setLabP_lAge (w : Warp) (p : Nat) (l : Label) : (w.setLabP p l).lAge = w.lAge := rfl
@[simp] theorem setLabP_lRaised (w : Warp) (p : Nat) (l : Label) : (w.setLabP p l).lRaised = w.lRaised := rfl
@[simp] theorem setLabP_debug (w : Warp) (p : Nat) (l : Label) : (w.setLabP p l).debug = w.debug := rfl
@[simp] theorem setLabP_passed (w : Warp) (p : Nat) (l : Label) : (w.setLabP p l).passed = w.passed := rfl
@[simp] theorem setLabP_mwOps (w : Warp) (p : Nat) (l : Label) : (w.setLabP p l).mwOps = w.mwOps := rfl
@[simp] theorem setLabP_mwTiles (w : Warp) (p : Nat) (l : Label) : (w.setLabP p l).mwTiles = w.mwTiles := rfl
@[simp] theorem setLabP_sigWaits (w : Warp) (p : Nat) (l : Label) : (w.setLabP p l).sigWaits = w.sigWaits := rfl
@[simp] theorem setLabP_lateNext (w : Warp) (p : Nat) (l : Label) : (w.setLabP p l).lateNext = w.lateNext := rfl
@[simp] theorem setLabP_late (w : Warp) (p : Nat) (l : Label) : (w.setLabP p l).late = w.late := rfl
@[simp] theorem setLabP_lateLd (w : Warp) (p : Nat) (l : Label) : (w.setLabP p l).lateLd = w.lateLd := rfl
@[simp] theorem setLabP_early (w : Warp) (p : Nat) (l : Label) : (w.setLabP p l).early = w.early := rfl
@[simp] theorem flag_team (w : Warp) (f : Flags) : (w.flag f).team = w.team := rfl
@[simp] theorem flag_num (w : Warp) (f : Flags) : (w.flag f).num = w.num := rfl
@[simp] theorem flag_core (w : Warp) (f : Flags) : (w.flag f).core = w.core := rfl
@[simp] theorem flag_quad (w : Warp) (f : Flags) : (w.flag f).quad = w.quad := rfl
@[simp] theorem flag_slot (w : Warp) (f : Flags) : (w.flag f).slot = w.slot := rfl
@[simp] theorem flag_width (w : Warp) (f : Flags) : (w.flag f).width = w.width := rfl
@[simp] theorem flag_regs (w : Warp) (f : Flags) : (w.flag f).regs = w.regs := rfl
@[simp] theorem flag_lab0 (w : Warp) (f : Flags) : (w.flag f).lab0 = w.lab0 := rfl
@[simp] theorem flag_pc (w : Warp) (f : Flags) : (w.flag f).pc = w.pc := rfl
@[simp] theorem flag_s (w : Warp) (f : Flags) : (w.flag f).s = w.s := rfl
@[simp] theorem flag_sPend (w : Warp) (f : Flags) : (w.flag f).sPend = w.sPend := rfl
@[simp] theorem flag_k (w : Warp) (f : Flags) : (w.flag f).k = w.k := rfl
@[simp] theorem flag_kPend (w : Warp) (f : Flags) : (w.flag f).kPend = w.kPend := rfl
@[simp] theorem flag_v (w : Warp) (f : Flags) : (w.flag f).v = w.v := rfl
@[simp] theorem flag_vLab (w : Warp) (f : Flags) : (w.flag f).vLab = w.vLab := rfl
@[simp] theorem flag_vPend (w : Warp) (f : Flags) : (w.flag f).vPend = w.vPend := rfl
@[simp] theorem flag_p (w : Warp) (f : Flags) : (w.flag f).p = w.p := rfl
@[simp] theorem flag_pLab (w : Warp) (f : Flags) : (w.flag f).pLab = w.pLab := rfl
@[simp] theorem flag_spill (w : Warp) (f : Flags) : (w.flag f).spill = w.spill := rfl
@[simp] theorem flag_entries (w : Warp) (f : Flags) : (w.flag f).entries = w.entries := rfl
@[simp] theorem flag_rcv (w : Warp) (f : Flags) : (w.flag f).rcv = w.rcv := rfl
@[simp] theorem flag_rr (w : Warp) (f : Flags) : (w.flag f).rr = w.rr := rfl
@[simp] theorem flag_queue (w : Warp) (f : Flags) : (w.flag f).queue = w.queue := rfl
@[simp] theorem flag_running (w : Warp) (f : Flags) : (w.flag f).running = w.running := rfl
@[simp] theorem flag_names (w : Warp) (f : Flags) : (w.flag f).names = w.names := rfl
@[simp] theorem flag_pend (w : Warp) (f : Flags) : (w.flag f).pend = w.pend := rfl
@[simp] theorem flag_cause (w : Warp) (f : Flags) : (w.flag f).cause = w.cause := rfl
@[simp] theorem flag_tval (w : Warp) (f : Flags) : (w.flag f).tval = w.tval := rfl
@[simp] theorem flag_pcS (w : Warp) (f : Flags) : (w.flag f).pcS = w.pcS := rfl
@[simp] theorem flag_pcL (w : Warp) (f : Flags) : (w.flag f).pcL = w.pcL := rfl
@[simp] theorem flag_flmask (w : Warp) (f : Flags) : (w.flag f).flmask = w.flmask := rfl
@[simp] theorem flag_handler (w : Warp) (f : Flags) : (w.flag f).handler = w.handler := rfl
@[simp] theorem flag_frame (w : Warp) (f : Flags) : (w.flag f).frame = w.frame := rfl
@[simp] theorem flag_due (w : Warp) (f : Flags) : (w.flag f).due = w.due := rfl
@[simp] theorem flag_wait (w : Warp) (f : Flags) : (w.flag f).wait = w.wait := rfl
@[simp] theorem flag_sAge (w : Warp) (f : Flags) : (w.flag f).sAge = w.sAge := rfl
@[simp] theorem flag_sRaised (w : Warp) (f : Flags) : (w.flag f).sRaised = w.sRaised := rfl
@[simp] theorem flag_lWait (w : Warp) (f : Flags) : (w.flag f).lWait = w.lWait := rfl
@[simp] theorem flag_lAge (w : Warp) (f : Flags) : (w.flag f).lAge = w.lAge := rfl
@[simp] theorem flag_lRaised (w : Warp) (f : Flags) : (w.flag f).lRaised = w.lRaised := rfl
@[simp] theorem flag_debug (w : Warp) (f : Flags) : (w.flag f).debug = w.debug := rfl
@[simp] theorem flag_passed (w : Warp) (f : Flags) : (w.flag f).passed = w.passed := rfl
@[simp] theorem flag_mwOps (w : Warp) (f : Flags) : (w.flag f).mwOps = w.mwOps := rfl
@[simp] theorem flag_mwTiles (w : Warp) (f : Flags) : (w.flag f).mwTiles = w.mwTiles := rfl
@[simp] theorem flag_sigWaits (w : Warp) (f : Flags) : (w.flag f).sigWaits = w.sigWaits := rfl
@[simp] theorem flag_lateNext (w : Warp) (f : Flags) : (w.flag f).lateNext = w.lateNext := rfl
@[simp] theorem flag_late (w : Warp) (f : Flags) : (w.flag f).late = w.late := rfl
@[simp] theorem flag_lateLd (w : Warp) (f : Flags) : (w.flag f).lateLd = w.lateLd := rfl
@[simp] theorem flag_early (w : Warp) (f : Flags) : (w.flag f).early = w.early := rfl
@[simp] theorem modEntry_team (w : Warp) (e : Nat) (f : Entry → Entry) : (w.modEntry e f).team = w.team := rfl
@[simp] theorem modEntry_num (w : Warp) (e : Nat) (f : Entry → Entry) : (w.modEntry e f).num = w.num := rfl
@[simp] theorem modEntry_core (w : Warp) (e : Nat) (f : Entry → Entry) : (w.modEntry e f).core = w.core := rfl
@[simp] theorem modEntry_quad (w : Warp) (e : Nat) (f : Entry → Entry) : (w.modEntry e f).quad = w.quad := rfl
@[simp] theorem modEntry_slot (w : Warp) (e : Nat) (f : Entry → Entry) : (w.modEntry e f).slot = w.slot := rfl
@[simp] theorem modEntry_width (w : Warp) (e : Nat) (f : Entry → Entry) : (w.modEntry e f).width = w.width := rfl
@[simp] theorem modEntry_regs (w : Warp) (e : Nat) (f : Entry → Entry) : (w.modEntry e f).regs = w.regs := rfl
@[simp] theorem modEntry_lab0 (w : Warp) (e : Nat) (f : Entry → Entry) : (w.modEntry e f).lab0 = w.lab0 := rfl
@[simp] theorem modEntry_pc (w : Warp) (e : Nat) (f : Entry → Entry) : (w.modEntry e f).pc = w.pc := rfl
@[simp] theorem modEntry_s (w : Warp) (e : Nat) (f : Entry → Entry) : (w.modEntry e f).s = w.s := rfl
@[simp] theorem modEntry_sPend (w : Warp) (e : Nat) (f : Entry → Entry) : (w.modEntry e f).sPend = w.sPend := rfl
@[simp] theorem modEntry_k (w : Warp) (e : Nat) (f : Entry → Entry) : (w.modEntry e f).k = w.k := rfl
@[simp] theorem modEntry_kPend (w : Warp) (e : Nat) (f : Entry → Entry) : (w.modEntry e f).kPend = w.kPend := rfl
@[simp] theorem modEntry_v (w : Warp) (e : Nat) (f : Entry → Entry) : (w.modEntry e f).v = w.v := rfl
@[simp] theorem modEntry_vLab (w : Warp) (e : Nat) (f : Entry → Entry) : (w.modEntry e f).vLab = w.vLab := rfl
@[simp] theorem modEntry_vPend (w : Warp) (e : Nat) (f : Entry → Entry) : (w.modEntry e f).vPend = w.vPend := rfl
@[simp] theorem modEntry_p (w : Warp) (e : Nat) (f : Entry → Entry) : (w.modEntry e f).p = w.p := rfl
@[simp] theorem modEntry_pLab (w : Warp) (e : Nat) (f : Entry → Entry) : (w.modEntry e f).pLab = w.pLab := rfl
@[simp] theorem modEntry_spill (w : Warp) (e : Nat) (f : Entry → Entry) : (w.modEntry e f).spill = w.spill := rfl
@[simp] theorem modEntry_rcv (w : Warp) (e : Nat) (f : Entry → Entry) : (w.modEntry e f).rcv = w.rcv := rfl
@[simp] theorem modEntry_rr (w : Warp) (e : Nat) (f : Entry → Entry) : (w.modEntry e f).rr = w.rr := rfl
@[simp] theorem modEntry_queue (w : Warp) (e : Nat) (f : Entry → Entry) : (w.modEntry e f).queue = w.queue := rfl
@[simp] theorem modEntry_running (w : Warp) (e : Nat) (f : Entry → Entry) : (w.modEntry e f).running = w.running := rfl
@[simp] theorem modEntry_names (w : Warp) (e : Nat) (f : Entry → Entry) : (w.modEntry e f).names = w.names := rfl
@[simp] theorem modEntry_pend (w : Warp) (e : Nat) (f : Entry → Entry) : (w.modEntry e f).pend = w.pend := rfl
@[simp] theorem modEntry_fstat (w : Warp) (e : Nat) (f : Entry → Entry) : (w.modEntry e f).fstat = w.fstat := rfl
@[simp] theorem modEntry_cause (w : Warp) (e : Nat) (f : Entry → Entry) : (w.modEntry e f).cause = w.cause := rfl
@[simp] theorem modEntry_tval (w : Warp) (e : Nat) (f : Entry → Entry) : (w.modEntry e f).tval = w.tval := rfl
@[simp] theorem modEntry_pcS (w : Warp) (e : Nat) (f : Entry → Entry) : (w.modEntry e f).pcS = w.pcS := rfl
@[simp] theorem modEntry_pcL (w : Warp) (e : Nat) (f : Entry → Entry) : (w.modEntry e f).pcL = w.pcL := rfl
@[simp] theorem modEntry_flmask (w : Warp) (e : Nat) (f : Entry → Entry) : (w.modEntry e f).flmask = w.flmask := rfl
@[simp] theorem modEntry_handler (w : Warp) (e : Nat) (f : Entry → Entry) : (w.modEntry e f).handler = w.handler := rfl
@[simp] theorem modEntry_frame (w : Warp) (e : Nat) (f : Entry → Entry) : (w.modEntry e f).frame = w.frame := rfl
@[simp] theorem modEntry_due (w : Warp) (e : Nat) (f : Entry → Entry) : (w.modEntry e f).due = w.due := rfl
@[simp] theorem modEntry_wait (w : Warp) (e : Nat) (f : Entry → Entry) : (w.modEntry e f).wait = w.wait := rfl
@[simp] theorem modEntry_sAge (w : Warp) (e : Nat) (f : Entry → Entry) : (w.modEntry e f).sAge = w.sAge := rfl
@[simp] theorem modEntry_sRaised (w : Warp) (e : Nat) (f : Entry → Entry) : (w.modEntry e f).sRaised = w.sRaised := rfl
@[simp] theorem modEntry_lWait (w : Warp) (e : Nat) (f : Entry → Entry) : (w.modEntry e f).lWait = w.lWait := rfl
@[simp] theorem modEntry_lAge (w : Warp) (e : Nat) (f : Entry → Entry) : (w.modEntry e f).lAge = w.lAge := rfl
@[simp] theorem modEntry_lRaised (w : Warp) (e : Nat) (f : Entry → Entry) : (w.modEntry e f).lRaised = w.lRaised := rfl
@[simp] theorem modEntry_debug (w : Warp) (e : Nat) (f : Entry → Entry) : (w.modEntry e f).debug = w.debug := rfl
@[simp] theorem modEntry_passed (w : Warp) (e : Nat) (f : Entry → Entry) : (w.modEntry e f).passed = w.passed := rfl
@[simp] theorem modEntry_mwOps (w : Warp) (e : Nat) (f : Entry → Entry) : (w.modEntry e f).mwOps = w.mwOps := rfl
@[simp] theorem modEntry_mwTiles (w : Warp) (e : Nat) (f : Entry → Entry) : (w.modEntry e f).mwTiles = w.mwTiles := rfl
@[simp] theorem modEntry_sigWaits (w : Warp) (e : Nat) (f : Entry → Entry) : (w.modEntry e f).sigWaits = w.sigWaits := rfl
@[simp] theorem modEntry_lateNext (w : Warp) (e : Nat) (f : Entry → Entry) : (w.modEntry e f).lateNext = w.lateNext := rfl
@[simp] theorem modEntry_late (w : Warp) (e : Nat) (f : Entry → Entry) : (w.modEntry e f).late = w.late := rfl
@[simp] theorem modEntry_lateLd (w : Warp) (e : Nat) (f : Entry → Entry) : (w.modEntry e f).lateLd = w.lateLd := rfl
@[simp] theorem modEntry_early (w : Warp) (e : Nat) (f : Entry → Entry) : (w.modEntry e f).early = w.early := rfl
@[simp] theorem next_team (w : Warp) : w.next.team = w.team := rfl
@[simp] theorem goes_team (w : Warp) (pc : W32) : (w.goes pc).team = w.team := rfl
@[simp] theorem next_num (w : Warp) : w.next.num = w.num := rfl
@[simp] theorem goes_num (w : Warp) (pc : W32) : (w.goes pc).num = w.num := rfl
@[simp] theorem next_core (w : Warp) : w.next.core = w.core := rfl
@[simp] theorem goes_core (w : Warp) (pc : W32) : (w.goes pc).core = w.core := rfl
@[simp] theorem next_quad (w : Warp) : w.next.quad = w.quad := rfl
@[simp] theorem goes_quad (w : Warp) (pc : W32) : (w.goes pc).quad = w.quad := rfl
@[simp] theorem next_slot (w : Warp) : w.next.slot = w.slot := rfl
@[simp] theorem goes_slot (w : Warp) (pc : W32) : (w.goes pc).slot = w.slot := rfl
@[simp] theorem next_width (w : Warp) : w.next.width = w.width := rfl
@[simp] theorem goes_width (w : Warp) (pc : W32) : (w.goes pc).width = w.width := rfl
@[simp] theorem next_regs (w : Warp) : w.next.regs = w.regs := rfl
@[simp] theorem goes_regs (w : Warp) (pc : W32) : (w.goes pc).regs = w.regs := rfl
@[simp] theorem next_lab0 (w : Warp) : w.next.lab0 = w.lab0 := rfl
@[simp] theorem goes_lab0 (w : Warp) (pc : W32) : (w.goes pc).lab0 = w.lab0 := rfl
@[simp] theorem next_s (w : Warp) : w.next.s = w.s := rfl
@[simp] theorem goes_s (w : Warp) (pc : W32) : (w.goes pc).s = w.s := rfl
@[simp] theorem next_sPend (w : Warp) : w.next.sPend = w.sPend := rfl
@[simp] theorem goes_sPend (w : Warp) (pc : W32) : (w.goes pc).sPend = w.sPend := rfl
@[simp] theorem next_k (w : Warp) : w.next.k = w.k := rfl
@[simp] theorem goes_k (w : Warp) (pc : W32) : (w.goes pc).k = w.k := rfl
@[simp] theorem next_kPend (w : Warp) : w.next.kPend = w.kPend := rfl
@[simp] theorem goes_kPend (w : Warp) (pc : W32) : (w.goes pc).kPend = w.kPend := rfl
@[simp] theorem next_v (w : Warp) : w.next.v = w.v := rfl
@[simp] theorem goes_v (w : Warp) (pc : W32) : (w.goes pc).v = w.v := rfl
@[simp] theorem next_vLab (w : Warp) : w.next.vLab = w.vLab := rfl
@[simp] theorem goes_vLab (w : Warp) (pc : W32) : (w.goes pc).vLab = w.vLab := rfl
@[simp] theorem next_vPend (w : Warp) : w.next.vPend = w.vPend := rfl
@[simp] theorem goes_vPend (w : Warp) (pc : W32) : (w.goes pc).vPend = w.vPend := rfl
@[simp] theorem next_p (w : Warp) : w.next.p = w.p := rfl
@[simp] theorem goes_p (w : Warp) (pc : W32) : (w.goes pc).p = w.p := rfl
@[simp] theorem next_pLab (w : Warp) : w.next.pLab = w.pLab := rfl
@[simp] theorem goes_pLab (w : Warp) (pc : W32) : (w.goes pc).pLab = w.pLab := rfl
@[simp] theorem next_spill (w : Warp) : w.next.spill = w.spill := rfl
@[simp] theorem goes_spill (w : Warp) (pc : W32) : (w.goes pc).spill = w.spill := rfl
@[simp] theorem next_entries (w : Warp) : w.next.entries = w.entries := rfl
@[simp] theorem goes_entries (w : Warp) (pc : W32) : (w.goes pc).entries = w.entries := rfl
@[simp] theorem next_rcv (w : Warp) : w.next.rcv = w.rcv := rfl
@[simp] theorem goes_rcv (w : Warp) (pc : W32) : (w.goes pc).rcv = w.rcv := rfl
@[simp] theorem next_rr (w : Warp) : w.next.rr = w.rr := rfl
@[simp] theorem goes_rr (w : Warp) (pc : W32) : (w.goes pc).rr = w.rr := rfl
@[simp] theorem next_queue (w : Warp) : w.next.queue = w.queue := rfl
@[simp] theorem goes_queue (w : Warp) (pc : W32) : (w.goes pc).queue = w.queue := rfl
@[simp] theorem next_running (w : Warp) : w.next.running = w.running := rfl
@[simp] theorem goes_running (w : Warp) (pc : W32) : (w.goes pc).running = w.running := rfl
@[simp] theorem next_names (w : Warp) : w.next.names = w.names := rfl
@[simp] theorem goes_names (w : Warp) (pc : W32) : (w.goes pc).names = w.names := rfl
@[simp] theorem next_pend (w : Warp) : w.next.pend = w.pend := rfl
@[simp] theorem goes_pend (w : Warp) (pc : W32) : (w.goes pc).pend = w.pend := rfl
@[simp] theorem next_fstat (w : Warp) : w.next.fstat = w.fstat := rfl
@[simp] theorem goes_fstat (w : Warp) (pc : W32) : (w.goes pc).fstat = w.fstat := rfl
@[simp] theorem next_cause (w : Warp) : w.next.cause = w.cause := rfl
@[simp] theorem goes_cause (w : Warp) (pc : W32) : (w.goes pc).cause = w.cause := rfl
@[simp] theorem next_tval (w : Warp) : w.next.tval = w.tval := rfl
@[simp] theorem goes_tval (w : Warp) (pc : W32) : (w.goes pc).tval = w.tval := rfl
@[simp] theorem next_pcS (w : Warp) : w.next.pcS = w.pcS := rfl
@[simp] theorem goes_pcS (w : Warp) (pc : W32) : (w.goes pc).pcS = w.pcS := rfl
@[simp] theorem next_pcL (w : Warp) : w.next.pcL = w.pcL := rfl
@[simp] theorem goes_pcL (w : Warp) (pc : W32) : (w.goes pc).pcL = w.pcL := rfl
@[simp] theorem next_flmask (w : Warp) : w.next.flmask = w.flmask := rfl
@[simp] theorem goes_flmask (w : Warp) (pc : W32) : (w.goes pc).flmask = w.flmask := rfl
@[simp] theorem next_handler (w : Warp) : w.next.handler = w.handler := rfl
@[simp] theorem goes_handler (w : Warp) (pc : W32) : (w.goes pc).handler = w.handler := rfl
@[simp] theorem next_frame (w : Warp) : w.next.frame = w.frame := rfl
@[simp] theorem goes_frame (w : Warp) (pc : W32) : (w.goes pc).frame = w.frame := rfl
@[simp] theorem next_due (w : Warp) : w.next.due = w.due := rfl
@[simp] theorem goes_due (w : Warp) (pc : W32) : (w.goes pc).due = w.due := rfl
@[simp] theorem next_sAge (w : Warp) : w.next.sAge = w.sAge := rfl
@[simp] theorem goes_sAge (w : Warp) (pc : W32) : (w.goes pc).sAge = w.sAge := rfl
@[simp] theorem next_sRaised (w : Warp) : w.next.sRaised = w.sRaised := rfl
@[simp] theorem goes_sRaised (w : Warp) (pc : W32) : (w.goes pc).sRaised = w.sRaised := rfl
@[simp] theorem next_lWait (w : Warp) : w.next.lWait = w.lWait := rfl
@[simp] theorem goes_lWait (w : Warp) (pc : W32) : (w.goes pc).lWait = w.lWait := rfl
@[simp] theorem next_lAge (w : Warp) : w.next.lAge = w.lAge := rfl
@[simp] theorem goes_lAge (w : Warp) (pc : W32) : (w.goes pc).lAge = w.lAge := rfl
@[simp] theorem next_lRaised (w : Warp) : w.next.lRaised = w.lRaised := rfl
@[simp] theorem goes_lRaised (w : Warp) (pc : W32) : (w.goes pc).lRaised = w.lRaised := rfl
@[simp] theorem next_debug (w : Warp) : w.next.debug = w.debug := rfl
@[simp] theorem goes_debug (w : Warp) (pc : W32) : (w.goes pc).debug = w.debug := rfl
@[simp] theorem next_passed (w : Warp) : w.next.passed = w.passed := rfl
@[simp] theorem goes_passed (w : Warp) (pc : W32) : (w.goes pc).passed = w.passed := rfl
@[simp] theorem next_mwOps (w : Warp) : w.next.mwOps = w.mwOps := rfl
@[simp] theorem goes_mwOps (w : Warp) (pc : W32) : (w.goes pc).mwOps = w.mwOps := rfl
@[simp] theorem next_mwTiles (w : Warp) : w.next.mwTiles = w.mwTiles := rfl
@[simp] theorem goes_mwTiles (w : Warp) (pc : W32) : (w.goes pc).mwTiles = w.mwTiles := rfl
@[simp] theorem next_sigWaits (w : Warp) : w.next.sigWaits = w.sigWaits := rfl
@[simp] theorem goes_sigWaits (w : Warp) (pc : W32) : (w.goes pc).sigWaits = w.sigWaits := rfl
@[simp] theorem next_lateNext (w : Warp) : w.next.lateNext = w.lateNext := rfl
@[simp] theorem goes_lateNext (w : Warp) (pc : W32) : (w.goes pc).lateNext = w.lateNext := rfl
@[simp] theorem next_late (w : Warp) : w.next.late = w.late := rfl
@[simp] theorem goes_late (w : Warp) (pc : W32) : (w.goes pc).late = w.late := rfl
@[simp] theorem next_lateLd (w : Warp) : w.next.lateLd = w.lateLd := rfl
@[simp] theorem goes_lateLd (w : Warp) (pc : W32) : (w.goes pc).lateLd = w.lateLd := rfl
@[simp] theorem next_early (w : Warp) : w.next.early = w.early := rfl
@[simp] theorem goes_early (w : Warp) (pc : W32) : (w.goes pc).early = w.early := rfl
@[simp] theorem next_pc (w : Warp) : w.next.pc = w.pc + 4 := rfl
@[simp] theorem goes_pc (w : Warp) (pc : W32) : (w.goes pc).pc = pc := rfl

@[simp] theorem readS_zero (w : Warp) : w.readS 0 = ⟨0, 0⟩ := rfl

/-- A scalar register reads what was last written to it; s0 reads zero (R33). -/
theorem readS_writeS (w : Warp) (r q : Nat) (x : LVal) :
    (w.writeS r x).readS q = if q = 0 then ⟨0, 0⟩ else if q = r then x else w.readS q := by
  by_cases hq : q = 0
  · subst hq; simp [Warp.readS]
  · by_cases hr : r = 0
    · subst hr; simp [Warp.readS, Warp.writeS, hq]
    · simp only [Warp.readS, Warp.writeS, hq, hr, if_false]
      exact tGet_tSet _ _ _ _ _

theorem readK_writeK (w : Warp) (r q : Nat) (x : LVal) : (w.writeK r x).readK q = if q = r then x else w.readK q :=
  tGet_tSet _ _ _ _ _

@[simp] theorem readS_next (w : Warp) (r : Nat) : w.next.readS r = w.readS r := rfl
@[simp] theorem readS_goes (w : Warp) (r : Nat) (pc : W32) : (w.goes pc).readS r = w.readS r := rfl
@[simp] theorem readK_next (w : Warp) (r : Nat) : w.next.readK r = w.readK r := rfl
@[simp] theorem readK_goes (w : Warp) (r : Nat) (pc : W32) : (w.goes pc).readK r = w.readK r := rfl
@[simp] theorem readK_writeS (w : Warp) (r q : Nat) (x : LVal) : (w.writeS r x).readK q = w.readK q := by
  simp [Warp.readK]
@[simp] theorem readS_writeK (w : Warp) (r q : Nat) (x : LVal) : (w.writeK r x).readS q = w.readS q := rfl

/-- A lane register reads what was last written to it, lanes being below 64 (R28). -/
theorem readV_writeV (w : Warp) (r l q m : Nat) (x : W32) (hl : l < 64) (hm : m < 64) :
    (w.writeV r l x).readV q m = if q = r ∧ m = l then x else w.readV q m := by
  have : (64 * q + m = 64 * r + l) ↔ (q = r ∧ m = l) := by omega
  simp only [Warp.readV, Warp.writeV, tGet_tSet, this]

theorem labV_setLabV (w : Warp) (r q : Nat) (l : Label) : (w.setLabV r l).labV q = if q = r then l else w.labV q :=
  tGet_tSet _ _ _ _ _

/-- Predicate p0 is always true; another reads the lanes last set (R36). -/
theorem predMask_setPred (w : Warp) (p q : Nat) (m : W64) :
    (w.setPred p m).predMask q = if q = 0 then BitVec.allOnes 64 else if q = p then m else w.predMask q := by
  by_cases hq : q = 0
  · subst hq; simp [Warp.predMask]
  · by_cases hp : p = 0
    · subst hp; simp [Warp.predMask, Warp.setPred, hq]
    · simp only [Warp.predMask, Warp.setPred, hq, hp, if_false]
      exact tGet_tSet _ _ _ _ _

/-! ### Main memory -/

theorem peek_of_mem {s t : State} (h : t.mem = s.mem) (slot pa : Nat) : t.peek slot pa = s.peek slot pa := by
  simp [State.peek, h]

theorem SameMain.of_mem {s t : State} (h : t.mem = s.mem) : SameMain s t := fun slot pa => peek_of_mem h slot pa

end Sys2Proof.Machine
end

