-- ==== Sys2Proof/Laws/Becomes.lean ====
section
/-!
SUPPORT. How single updates compose into `State.Becomes`, and what taking a trap does to the device: the spec lemmas of the shared
operations of `Machine/Ops.lean`.
-/
namespace Sys2Proof.Machine

/-! ### Composition -/

theorem becomes_refl (s : State) : s.Becomes s [] [] := ⟨rfl, by simp, by simp, by simp, by simp⟩

theorem becomes_putWarp (s : State) (w : Nat) (y : Warp) : s.Becomes (s.putWarp w y) [(w, y)] [] := by
  refine ⟨rfl, ?_, by simp, ?_, by simp⟩
  · simp
  · intro v hv
    simp at hv
    simp [hv]

theorem becomes_modWarp {s : State} {w : Nat} {x : Warp} (f : Warp → Warp) (h : s.warp w = some x) :
    s.Becomes (s.modWarp w f) [(w, f x)] [] := by
  refine ⟨rfl, ?_, by simp, ?_, by simp⟩
  · simp [h]
  · intro v hv
    simp at hv
    simp [hv]

theorem becomes_modTeam {s : State} {t : Nat} {y : Team} (f : Team → Team) (h : s.team t = some y) :
    s.Becomes (s.modTeam t f) [] [(t, f y)] := by
  refine ⟨rfl, by simp, ?_, by simp, ?_⟩
  · simp [h]
  · intro v hv
    simp at hv
    simp [hv]

theorem becomes_same {s : State} {w : Nat} {x : Warp} (h : s.warp w = some x) : s.Becomes s [(w, x)] [] :=
  ⟨rfl, by simpa using h, by simp, fun _ _ => rfl, fun _ _ => rfl⟩

/-- Two changes of one warp are the second. -/
theorem becomes_warp_trans {s u v : State} {w : Nat} {x y : Warp} {ts : List (Nat × Team)} (h1 : s.Becomes u [(w, x)] ts)
    (h2 : u.Becomes v [(w, y)] []) : s.Becomes v [(w, y)] ts := by
  obtain ⟨a1, a2, a3, a4, a5⟩ := h1
  obtain ⟨b1, b2, b3, b4, b5⟩ := h2
  refine ⟨?_, b2, ?_, ?_, ?_⟩
  · rw [b1, a1]
  · intro p hp; rw [b5 _ (by simp)]; exact a3 p hp
  · intro q hq; rw [b4 q hq]; exact a4 q hq
  · intro q hq; rw [b5 q (by simp)]; exact a5 q hq

/-- A change of a team and then of a warp. -/
theorem becomes_team_warp {s u v : State} {w t : Nat} {x : Warp} {y : Team} (h1 : s.Becomes u [] [(t, y)])
    (h2 : u.Becomes v [(w, x)] []) : s.Becomes v [(w, x)] [(t, y)] := by
  obtain ⟨a1, a2, a3, a4, a5⟩ := h1
  obtain ⟨b1, b2, b3, b4, b5⟩ := h2
  refine ⟨?_, b2, ?_, ?_, ?_⟩
  · rw [b1, a1]
  · intro p hp; rw [b5 _ (by simp)]; exact a3 p hp
  · intro q hq; rw [b4 q hq]; exact a4 q (by simp)
  · intro q hq; rw [b5 q (by simp)]; exact a5 q hq

/-! ### What a change of a warp leaves -/

theorem becomes_warp {s u : State} {w : Nat} {x : Warp} {ts : List (Nat × Team)} (h : s.Becomes u [(w, x)] ts) : u.warp w = some x := by
  simpa using h.2.1

theorem becomes_mem {s u : State} {ws : List (Nat × Warp)} {ts : List (Nat × Team)} (h : s.Becomes u ws ts) : u.mem = s.mem := by
  rw [h.1]

theorem becomes_main {s u : State} {ws : List (Nat × Warp)} {ts : List (Nat × Team)} (h : s.Becomes u ws ts) : SameMain s u :=
  SameMain.of_mem (becomes_mem h)

theorem becomes_home {s u : State} {ws : List (Nat × Warp)} (h : s.Becomes u ws []) {x y : Warp} (ht : y.team = x.team) :
    u.home y = s.home x := by
  have h5 := h.2.2.2.2 x.team (by simp)
  have hg : u.grid = s.grid := by rw [h.1]; rfl
  have hc : u.ctx = s.ctx := by rw [h.1]; rfl
  simp only [State.home, ht, h5, hg, hc]

theorem becomes_refilling {s u : State} {ws : List (Nat × Warp)} {ts : List (Nat × Team)} (h : s.Becomes u ws ts) (w : Nat) :
    u.refilling w = s.refilling w := by
  have : u.work.ops = s.work.ops := by rw [h.1]
  simp only [State.refilling, this]

/-! ### Taking a trap -/

/-- Late loads that are no atomics change nothing before a trap. -/
theorem performRmws_none (s : State) (w : Nat) (l : List LateLoad) (h : l.all (·.rmw.isNone) = true) : s.performRmws w l = s := by
  induction l with
  | nil => rfl
  | cons y r ih =>
    simp only [List.all_cons, Bool.and_eq_true, Option.isNone_iff_eq_none] at h
    simpa [State.performRmws, h.1] using ih h.2

/-- A warp without late atomics has none to settle. -/
theorem settleRmws_none {s : State} {w : Nat} {x : Warp} (hw : s.warp w = some x) (h : x.lateLd.all (·.rmw.isNone) = true) :
    s.settleRmws w = s := by
  simp only [State.settleRmws, hw, performRmws_none s w _ h]

/-- The trap of the lowest rank, first of its rank, of those that may be taken, with nothing in flight and a handler: the warp enters
it, and the other traps stay due (R245 to R249). -/
theorem serveTrap_handler {s : State} {w : Nat} {x : Warp} {t : Team} {g : Grid} {c : Ctx} {pre post : List DueTrap} {d : DueTrap}
    (hw : s.warp w = some x) (hh : s.home x = some (t, g, c)) (hdue : x.due = pre ++ d :: post)
    (hd : d.rank ≠ 3 ∨ x.wait.holds = false) (hpre : ∀ e ∈ pre, d.rank < e.rank ∨ (e.rank = 3 ∧ d.rank ≠ 3 ∧ x.wait.holds = true))
    (hpost : ∀ e ∈ post, d.rank ≤ e.rank ∨ (e.rank = 3 ∧ x.wait.holds = true))
    (hhand : x.handler = false) (hdbg : x.debug = false) (hfl : x.inFlight = false) (hrf : s.refilling w = false)
    (hrm : x.lateLd.all (·.rmw.isNone) = true) (hen : g.trapvec.getLsbD 0 = true)
    (h32 : d.code.toNat ≠ 0x32) (hmem : ¬ (0x10 ≤ d.code.toNat ∧ d.code.toNat ≤ 0x17)) (h20 : d.code.toNat ≠ 0x20)
    (h21 : d.code.toNat ≠ 0x21) (h30 : d.code.toNat ≠ 0x30) :
    s.Becomes (s.serveTrap w) [(w, { { x with due := pre ++ post }.saveFrame d with
      handler := true, pc := BitVec.ofNat 32 (4 * (g.trapvec.toNat / 4)) })] [] := by
  have hneq : ∀ e ∈ pre, (e.rank == d.rank) = false := by
    intro e he
    rcases hpre e he with h | ⟨h, h', -⟩ <;> simp <;> omega
  have htk : argMin (fun d => d.rank) x.takeable = some d := by
    have hdt : ((!x.handler || decide (d.rank ≤ 2)) && (d.rank != 3 || !x.wait.holds)) = true := by
      rcases hd with h | h <;> simp [hhand, h]
    rw [Warp.takeable, hdue, List.filter_append, List.filter_cons, if_pos hdt]
    refine argMin_split _ ?_ _ ?_
    · intro e he
      obtain ⟨he, ht⟩ := List.mem_filter.1 he
      rcases hpost e he with h | ⟨h, h'⟩
      · exact h
      · simp [h, h'] at ht
    · intro e he
      obtain ⟨he, ht⟩ := List.mem_filter.1 he
      rcases hpre e he with h | ⟨h, -, h'⟩
      · exact h
      · simp [h, h'] at ht
  have hdrop : dropFirst (fun e => e.rank == d.rank) x.due = pre ++ post := by
    rw [hdue]; exact dropFirst_split _ post (by simp) pre hneq
  have hput : (s.putWarp w { x with due := pre ++ post }).warp w = some { x with due := pre ++ post } := by simp
  have hhome : (s.putWarp w { x with due := pre ++ post }).home { x with due := pre ++ post } = some (t, g, c) :=
    (becomes_home (becomes_putWarp s w { x with due := pre ++ post }) (x := x) (y := { x with due := pre ++ post }) rfl).trans hh
  have hst : s.serveTrap w = (s.putWarp w { x with due := pre ++ post }).takeTrap w d := by
    simp only [State.serveTrap, hw, htk, hdrop, settleRmws_none hput hrm]
    simp [hfl, hdbg, hrf]
  rw [hst]
  have htt : (s.putWarp w { x with due := pre ++ post }).takeTrap w d =
      (s.putWarp w { x with due := pre ++ post }).putWarp w
        { { x with due := pre ++ post }.saveFrame d with handler := true, pc := BitVec.ofNat 32 (4 * (g.trapvec.toNat / 4)) } := by
    simp only [State.takeTrap, hput, hhome]
    rw [if_neg h32, if_neg (by simp [hhand]; omega), if_neg (by simp [h20, h21]), if_pos hen, if_neg h30]
  rw [htt]
  exact becomes_warp_trans (becomes_putWarp _ _ _) (becomes_putWarp _ _ _)

/-- A scalar fault outside the memory and team-kill groups enters the handler. -/
theorem fault_handler {s : State} {i : Instr} {w : Nat} {x : Warp} {t : Team} {g : Grid} {c : Ctx} {code : BitVec 8} {val : W64}
    (ha : ScalarAt s w x t g c) (hr : TrapReady s w x g) (h32 : code.toNat ≠ 0x32) (hmem : ¬ (0x10 ≤ code.toNat ∧ code.toNat ≤ 0x17))
    (h20 : code.toNat ≠ 0x20) (h21 : code.toNat ≠ 0x21) (h30 : code.toNat ≠ 0x30) :
    s.Becomes ((scalarCtx i w x t g c).fault s code val) [(w, { x with wait := .none }.inHandler g (BitVec.ofNat 64 code.toNat) val 0 0
      (if code = 0x31 then .softScalar else .scalarFault))] [] := by
  obtain ⟨h1, h2, h3⟩ := ha
  obtain ⟨r1, r2, r3, r4, r4b, r5, r6⟩ := hr
  let d : DueTrap := { rank := 1, code := code, val := val, lanes := 0, entry := none, pcL := 0 }
  have b1 : s.Becomes ((s.modWarp w fun x => { x with wait := .none }).modWarp w fun x => { x with due := x.due ++ [d] })
      [(w, { x with wait := .none, due := [d] })] [] := by
    have e1 := becomes_modWarp (fun x => { x with wait := .none }) h2
    have e2 := becomes_modWarp (fun x => { x with due := x.due ++ [d] }) (becomes_warp e1)
    simpa [r3] using becomes_warp_trans e1 e2
  have b2 := serveTrap_handler (d := d) (pre := []) (post := []) (becomes_warp b1) ((becomes_home b1 (x := x) rfl).trans h3) rfl
    (.inl (by simp [d])) (by simp) (by simp) r1 r2 (by simpa [Warp.inFlight] using r4)
    ((becomes_refilling b1 w).trans r4b) r6 r5 h32 hmem h20 h21 h30
  have := becomes_warp_trans b1 b2
  simp only [SCtx.fault, State.faultS, State.raise, scalarCtx]
  rw [if_pos (by decide)]
  by_cases hc : code = 0x31
  · simpa [Warp.saveFrame, Warp.inHandler, d, hc, r3] using this
  · simpa [Warp.saveFrame, Warp.inHandler, d, hc, r3] using this

end Sys2Proof.Machine
end

