-- ==== Sys2Proof/Laws/Dispatch.lean ====
section
/-!
SUPPORT. One equation per constructor: `exec` calls its meaning. Later proofs rewrite with these and never unfold `exec`.
-/
namespace Sys2Proof.Machine

@[simp] theorem exec_add (d a b : BitVec 6) (st : State) : exec (.add d a b) st = execAdd d a b st := rfl
@[simp] theorem exec_sub (d a b : BitVec 6) (st : State) : exec (.sub d a b) st = execSub d a b st := rfl
@[simp] theorem exec_and (d a b : BitVec 6) (st : State) : exec (.and d a b) st = execAnd d a b st := rfl
@[simp] theorem exec_or (d a b : BitVec 6) (st : State) : exec (.or d a b) st = execOr d a b st := rfl
@[simp] theorem exec_xor (d a b : BitVec 6) (st : State) : exec (.xor d a b) st = execXor d a b st := rfl
@[simp] theorem exec_shl (d a b : BitVec 6) (st : State) : exec (.shl d a b) st = execShl d a b st := rfl
@[simp] theorem exec_shr (d a b : BitVec 6) (st : State) : exec (.shr d a b) st = execShr d a b st := rfl
@[simp] theorem exec_sar (d a b : BitVec 6) (st : State) : exec (.sar d a b) st = execSar d a b st := rfl
@[simp] theorem exec_mul (d a b : BitVec 6) (st : State) : exec (.mul d a b) st = execMul d a b st := rfl
@[simp] theorem exec_mulhn (d a b : BitVec 6) (st : State) : exec (.mulhn d a b) st = execMulhn d a b st := rfl
@[simp] theorem exec_mulh (d a b : BitVec 6) (st : State) : exec (.mulh d a b) st = execMulh d a b st := rfl
@[simp] theorem exec_divn (d a b : BitVec 6) (st : State) : exec (.divn d a b) st = execDivn d a b st := rfl
@[simp] theorem exec_remn (d a b : BitVec 6) (st : State) : exec (.remn d a b) st = execRemn d a b st := rfl
@[simp] theorem exec_min (d a b : BitVec 6) (st : State) : exec (.min d a b) st = execMin d a b st := rfl
@[simp] theorem exec_max (d a b : BitVec 6) (st : State) : exec (.max d a b) st = execMax d a b st := rfl
@[simp] theorem exec_minn (d a b : BitVec 6) (st : State) : exec (.minn d a b) st = execMinn d a b st := rfl
@[simp] theorem exec_maxn (d a b : BitVec 6) (st : State) : exec (.maxn d a b) st = execMaxn d a b st := rfl
@[simp] theorem exec_seq (d a b : BitVec 6) (st : State) : exec (.seq d a b) st = execSeq d a b st := rfl
@[simp] theorem exec_sne (d a b : BitVec 6) (st : State) : exec (.sne d a b) st = execSne d a b st := rfl
@[simp] theorem exec_slt (d a b : BitVec 6) (st : State) : exec (.slt d a b) st = execSlt d a b st := rfl
@[simp] theorem exec_sltn (d a b : BitVec 6) (st : State) : exec (.sltn d a b) st = execSltn d a b st := rfl
@[simp] theorem exec_addi (d a : BitVec 6) (imm : BitVec 14) (st : State) : exec (.addi d a imm) st = execAddi d a imm st := rfl
@[simp] theorem exec_andi (d a : BitVec 6) (imm : BitVec 14) (st : State) : exec (.andi d a imm) st = execAndi d a imm st := rfl
@[simp] theorem exec_ori (d a : BitVec 6) (imm : BitVec 14) (st : State) : exec (.ori d a imm) st = execOri d a imm st := rfl
@[simp] theorem exec_xori (d a : BitVec 6) (imm : BitVec 14) (st : State) : exec (.xori d a imm) st = execXori d a imm st := rfl
@[simp] theorem exec_shli (d a sh : BitVec 6) (st : State) : exec (.shli d a sh) st = execShli d a sh st := rfl
@[simp] theorem exec_shri (d a sh : BitVec 6) (st : State) : exec (.shri d a sh) st = execShri d a sh st := rfl
@[simp] theorem exec_sari (d a sh : BitVec 6) (st : State) : exec (.sari d a sh) st = execSari d a sh st := rfl
@[simp] theorem exec_slti (d a : BitVec 6) (imm : BitVec 14) (st : State) : exec (.slti d a imm) st = execSlti d a imm st := rfl
@[simp] theorem exec_sltni (d a : BitVec 6) (imm : BitVec 14) (st : State) : exec (.sltni d a imm) st = execSltni d a imm st := rfl
@[simp] theorem exec_lui (d : BitVec 6) (imm : BitVec 20) (st : State) : exec (.lui d imm) st = execLui d imm st := rfl
@[simp] theorem exec_bz (a : BitVec 6) (disp : BitVec 20) (st : State) : exec (.bz a disp) st = execBz a disp st := rfl
@[simp] theorem exec_bnz (a : BitVec 6) (disp : BitVec 20) (st : State) : exec (.bnz a disp) st = execBnz a disp st := rfl
@[simp] theorem exec_bltz (a : BitVec 6) (disp : BitVec 20) (st : State) : exec (.bltz a disp) st = execBltz a disp st := rfl
@[simp] theorem exec_bgez (a : BitVec 6) (disp : BitVec 20) (st : State) : exec (.bgez a disp) st = execBgez a disp st := rfl
@[simp] theorem exec_jmp (disp : BitVec 26) (st : State) : exec (.jmp disp) st = execJmp disp st := rfl
@[simp] theorem exec_call (d : BitVec 6) (disp : BitVec 20) (st : State) : exec (.call d disp) st = execCall d disp st := rfl
@[simp] theorem exec_jr (a : BitVec 6) (st : State) : exec (.jr a) st = execJr a st := rfl
@[simp] theorem exec_sld (d a b : BitVec 6) (sz : BitVec 2) (sx sp : Bool) (st : State) : exec (.sld d a b sz sx sp) st = execSld d a b sz sx sp st := rfl
@[simp] theorem exec_sst (a b c : BitVec 6) (sz : BitVec 2) (sp : Bool) (st : State) : exec (.sst a b c sz sp) st = execSst a b c sz sp st := rfl
@[simp] theorem exec_argld (d a : BitVec 6) (imm : BitVec 14) (st : State) : exec (.argld d a imm) st = execArgld d a imm st := rfl
@[simp] theorem exec_kmov (d a : BitVec 6) (st : State) : exec (.kmov d a) st = execKmov d a st := rfl
@[simp] theorem exec_lrun (entry : BitVec 20) (st : State) : exec (.lrun entry) st = execLrun entry st := rfl
@[simp] theorem exec_lsync (st : State) : exec (.lsync) st = execLsync st := rfl
@[simp] theorem exec_yield (st : State) : exec (.yield) st = execYield st := rfl
@[simp] theorem exec_yieldc (cls : BitVec 3) (n : BitVec 8) (disp : BitVec 12) (st : State) : exec (.yieldc cls n disp) st = execYieldc cls n disp st := rfl
@[simp] theorem exec_waitc (cls : BitVec 3) (n : BitVec 8) (st : State) : exec (.waitc cls n) st = execWaitc cls n st := rfl
@[simp] theorem exec_exit (st : State) : exec (.exit) st = execExit st := rfl
@[simp] theorem exec_barArrive (d : BitVec 6) (n : BitVec 4) (e : BitVec 6) (st : State) : exec (.barArrive d n e) st = execBarArrive d n e st := rfl
@[simp] theorem exec_barWait (a : BitVec 6) (n : BitVec 4) (st : State) : exec (.barWait a n) st = execBarWait a n st := rfl
@[simp] theorem exec_barSync (d : BitVec 6) (n : BitVec 4) (e : BitVec 6) (st : State) : exec (.barSync d n e) st = execBarSync d n e st := rfl
@[simp] theorem exec_fence (ord : BitVec 2) (scope : BitVec 3) (st : State) : exec (.fence ord scope) st = execFence ord scope st := rfl
@[simp] theorem exec_tokacq (t : BitVec 3) (st : State) : exec (.tokacq t) st = execTokacq t st := rfl
@[simp] theorem exec_tokrel (t : BitVec 3) (st : State) : exec (.tokrel t) st = execTokrel t st := rfl
@[simp] theorem exec_copy (a b c : BitVec 6) (dir : BitVec 3) (stat : Bool) (st : State) : exec (.copy a b c dir stat) st = execCopy a b c dir stat st := rfl
@[simp] theorem exec_copy2d (a b c : BitVec 6) (dir : BitVec 3) (stat : Bool) (st : State) : exec (.copy2d a b c dir stat) st = execCopy2d a b c dir stat st := rfl
@[simp] theorem exec_nstore (a b role : BitVec 6) (st : State) : exec (.nstore a b role) st = execNstore a b role st := rfl
@[simp] theorem exec_namepop (d : BitVec 6) (st : State) : exec (.namepop d) st = execNamepop d st := rfl
@[simp] theorem exec_relq (a b role : BitVec 6) (st : State) : exec (.relq a b role) st = execRelq a b role st := rfl
@[simp] theorem exec_vfence (st : State) : exec (.vfence) st = execVfence st := rfl
@[simp] theorem exec_coll (a : BitVec 6) (st : State) : exec (.coll a) st = execColl a st := rfl
@[simp] theorem exec_launch (a b : BitVec 6) (st : State) : exec (.launch a b) st = execLaunch a b st := rfl
@[simp] theorem exec_signalSetInsn (b c : BitVec 6) (scope : BitVec 3) (st : State) : exec (.signalSetInsn b c scope) st = execSignalSetInsn b c scope st := rfl
@[simp] theorem exec_signalAdd (b c : BitVec 6) (scope : BitVec 3) (st : State) : exec (.signalAdd b c scope) st = execSignalAdd b c scope st := rfl
@[simp] theorem exec_signalWaitInsn (b c : BitVec 6) (cmp : BitVec 2) (ext : Bool) (scope : BitVec 3) (st : State) : exec (.signalWaitInsn b c cmp ext scope) st = execSignalWaitInsn b c cmp ext scope st := rfl
@[simp] theorem exec_satom (a b c : BitVec 6) (aop : BitVec 3) (w32 : Bool) (ordsc : BitVec 4) (st : State) : exec (.satom a b c aop w32 ordsc) st = execSatom a b c aop w32 ordsc st := rfl
@[simp] theorem exec_dqpush (a : BitVec 6) (dsc : BitVec 2) (role : BitVec 6) (st : State) : exec (.dqpush a dsc role) st = execDqpush a dsc role st := rfl
@[simp] theorem exec_dqpop (d : BitVec 6) (dsc : BitVec 2) (role : BitVec 6) (st : State) : exec (.dqpop d dsc role) st = execDqpop d dsc role st := rfl
@[simp] theorem exec_dqsteal (d : BitVec 6) (dsc : BitVec 2) (role : BitVec 6) (st : State) : exec (.dqsteal d dsc role) st = execDqsteal d dsc role st := rfl
@[simp] theorem exec_bndmin (a : BitVec 6) (st : State) : exec (.bndmin a) st = execBndmin a st := rfl
@[simp] theorem exec_bndrd (d : BitVec 6) (st : State) : exec (.bndrd d) st = execBndrd d st := rfl
@[simp] theorem exec_role (d role : BitVec 6) (st : State) : exec (.role d role) st = execRole d role st := rfl
@[simp] theorem exec_csrr (d : BitVec 6) (csr : BitVec 12) (st : State) : exec (.csrr d csr) st = execCsrr d csr st := rfl
@[simp] theorem exec_csrw (a : BitVec 6) (csr : BitVec 12) (st : State) : exec (.csrw a csr) st = execCsrw a csr st := rfl
@[simp] theorem exec_trap (imm : BitVec 20) (st : State) : exec (.trap imm) st = execTrap imm st := rfl
@[simp] theorem exec_placeHint (a b : BitVec 6) (tier : BitVec 2) (st : State) : exec (.placeHint a b tier) st = execPlaceHint a b tier st := rfl
@[simp] theorem exec_placeReq (a b c : BitVec 6) (tier : BitVec 2) (st : State) : exec (.placeReq a b c tier) st = execPlaceReq a b c tier st := rfl
@[simp] theorem exec_savev (a b : BitVec 6) (st : State) : exec (.savev a b) st = execSavev a b st := rfl
@[simp] theorem exec_restv (a b : BitVec 6) (st : State) : exec (.restv a b) st = execRestv a b st := rfl
@[simp] theorem exec_savet (a b c : BitVec 6) (st : State) : exec (.savet a b c) st = execSavet a b c st := rfl
@[simp] theorem exec_restt (a b c : BitVec 6) (st : State) : exec (.restt a b c) st = execRestt a b c st := rfl
@[simp] theorem exec_tret (st : State) : exec (.tret) st = execTret st := rfl
@[simp] theorem exec_tretSkip (st : State) : exec (.tretSkip) st = execTretSkip st := rfl
@[simp] theorem exec_mapedit (a b c : BitVec 6) (st : State) : exec (.mapedit a b c) st = execMapedit a b c st := rfl
@[simp] theorem exec_mapsync (a b c : BitVec 6) (st : State) : exec (.mapsync a b c) st = execMapsync a b c st := rfl
@[simp] theorem exec_refitf (d c : BitVec 6) (st : State) : exec (.refitf d c) st = execRefitf d c st := rfl
@[simp] theorem exec_lbldn (index : BitVec 12) (level : BitVec 3) (kind : BitVec 2) (st : State) : exec (.lbldn index level kind) st = execLbldn index level kind st := rfl
@[simp] theorem exec_mov (f : LaneFields) (st : State) : exec (.mov f) st = execMov f st := rfl
@[simp] theorem exec_laneid (f : LaneFields) (st : State) : exec (.laneid f) st = execLaneid f st := rfl
@[simp] theorem exec_sel (f : LaneFields) (st : State) : exec (.sel f) st = execSel f st := rfl
@[simp] theorem exec_pset (f : LaneFields) (st : State) : exec (.pset f) st = execPset f st := rfl
@[simp] theorem exec_iadd (f : LaneFields) (st : State) : exec (.iadd f) st = execIadd f st := rfl
@[simp] theorem exec_isub (f : LaneFields) (st : State) : exec (.isub f) st = execIsub f st := rfl
@[simp] theorem exec_imul (f : LaneFields) (st : State) : exec (.imul f) st = execImul f st := rfl
@[simp] theorem exec_imulh (f : LaneFields) (st : State) : exec (.imulh f) st = execImulh f st := rfl
@[simp] theorem exec_imad (f : LaneFields) (st : State) : exec (.imad f) st = execImad f st := rfl
@[simp] theorem exec_imin (f : LaneFields) (st : State) : exec (.imin f) st = execImin f st := rfl
@[simp] theorem exec_imax (f : LaneFields) (st : State) : exec (.imax f) st = execImax f st := rfl
@[simp] theorem exec_iabs (f : LaneFields) (st : State) : exec (.iabs f) st = execIabs f st := rfl
@[simp] theorem exec_iand (f : LaneFields) (st : State) : exec (.iand f) st = execIand f st := rfl
@[simp] theorem exec_ior (f : LaneFields) (st : State) : exec (.ior f) st = execIor f st := rfl
@[simp] theorem exec_ixor (f : LaneFields) (st : State) : exec (.ixor f) st = execIxor f st := rfl
@[simp] theorem exec_inot (f : LaneFields) (st : State) : exec (.inot f) st = execInot f st := rfl
@[simp] theorem exec_ishl (f : LaneFields) (st : State) : exec (.ishl f) st = execIshl f st := rfl
@[simp] theorem exec_ishr (f : LaneFields) (st : State) : exec (.ishr f) st = execIshr f st := rfl
@[simp] theorem exec_isar (f : LaneFields) (st : State) : exec (.isar f) st = execIsar f st := rfl
@[simp] theorem exec_icmp (f : LaneFields) (st : State) : exec (.icmp f) st = execIcmp f st := rfl
@[simp] theorem exec_popc (f : LaneFields) (st : State) : exec (.popc f) st = execPopc f st := rfl
@[simp] theorem exec_clz (f : LaneFields) (st : State) : exec (.clz f) st = execClz f st := rfl
@[simp] theorem exec_brev (f : LaneFields) (st : State) : exec (.brev f) st = execBrev f st := rfl
@[simp] theorem exec_bfe (f : LaneFields) (st : State) : exec (.bfe f) st = execBfe f st := rfl
@[simp] theorem exec_bfi (f : LaneFields) (st : State) : exec (.bfi f) st = execBfi f st := rfl
@[simp] theorem exec_idiv (f : LaneFields) (st : State) : exec (.idiv f) st = execIdiv f st := rfl
@[simp] theorem exec_irem (f : LaneFields) (st : State) : exec (.irem f) st = execIrem f st := rfl
@[simp] theorem exec_fadd (f : LaneFields) (st : State) : exec (.fadd f) st = execFadd f st := rfl
@[simp] theorem exec_fsub (f : LaneFields) (st : State) : exec (.fsub f) st = execFsub f st := rfl
@[simp] theorem exec_fmul (f : LaneFields) (st : State) : exec (.fmul f) st = execFmul f st := rfl
@[simp] theorem exec_ffma (f : LaneFields) (st : State) : exec (.ffma f) st = execFfma f st := rfl
@[simp] theorem exec_fmin (f : LaneFields) (st : State) : exec (.fmin f) st = execFmin f st := rfl
@[simp] theorem exec_fmax (f : LaneFields) (st : State) : exec (.fmax f) st = execFmax f st := rfl
@[simp] theorem exec_fcmp (f : LaneFields) (st : State) : exec (.fcmp f) st = execFcmp f st := rfl
@[simp] theorem exec_fclass (f : LaneFields) (st : State) : exec (.fclass f) st = execFclass f st := rfl
@[simp] theorem exec_frcp (f : LaneFields) (st : State) : exec (.frcp f) st = execFrcp f st := rfl
@[simp] theorem exec_frsq (f : LaneFields) (st : State) : exec (.frsq f) st = execFrsq f st := rfl
@[simp] theorem exec_fsqrt (f : LaneFields) (st : State) : exec (.fsqrt f) st = execFsqrt f st := rfl
@[simp] theorem exec_fex2 (f : LaneFields) (st : State) : exec (.fex2 f) st = execFex2 f st := rfl
@[simp] theorem exec_flg2 (f : LaneFields) (st : State) : exec (.flg2 f) st = execFlg2 f st := rfl
@[simp] theorem exec_fdiv (f : LaneFields) (st : State) : exec (.fdiv f) st = execFdiv f st := rfl
@[simp] theorem exec_cvt (f : LaneFields) (st : State) : exec (.cvt f) st = execCvt f st := rfl
@[simp] theorem exec_pack (f : LaneFields) (st : State) : exec (.pack f) st = execPack f st := rfl
@[simp] theorem exec_unpk (f : LaneFields) (st : State) : exec (.unpk f) st = execUnpk f st := rfl
@[simp] theorem exec_dp4i (f : LaneFields) (st : State) : exec (.dp4i f) st = execDp4i f st := rfl
@[simp] theorem exec_dp8i (f : LaneFields) (st : State) : exec (.dp8i f) st = execDp8i f st := rfl
@[simp] theorem exec_dp4f (f : LaneFields) (st : State) : exec (.dp4f f) st = execDp4f f st := rfl
@[simp] theorem exec_dp8f (f : LaneFields) (st : State) : exec (.dp8f f) st = execDp8f f st := rfl
@[simp] theorem exec_mxscale (f : LaneFields) (st : State) : exec (.mxscale f) st = execMxscale f st := rfl
@[simp] theorem exec_qcvt (f : LaneFields) (st : State) : exec (.qcvt f) st = execQcvt f st := rfl
@[simp] theorem exec_dqcvt (f : LaneFields) (st : State) : exec (.dqcvt f) st = execDqcvt f st := rfl
@[simp] theorem exec_shfl (f : LaneFields) (st : State) : exec (.shfl f) st = execShfl f st := rfl
@[simp] theorem exec_shflx (f : LaneFields) (st : State) : exec (.shflx f) st = execShflx f st := rfl
@[simp] theorem exec_vred (f : LaneFields) (st : State) : exec (.vred f) st = execVred f st := rfl
@[simp] theorem exec_vscan (f : LaneFields) (st : State) : exec (.vscan f) st = execVscan f st := rfl
@[simp] theorem exec_vvote (f : LaneFields) (st : State) : exec (.vvote f) st = execVvote f st := rfl
@[simp] theorem exec_vfirst (f : LaneFields) (st : State) : exec (.vfirst f) st = execVfirst f st := rfl
@[simp] theorem exec_ldt (f : LaneFields) (st : State) : exec (.ldt f) st = execLdt f st := rfl
@[simp] theorem exec_stt (f : LaneFields) (st : State) : exec (.stt f) st = execStt f st := rfl
@[simp] theorem exec_ldc (f : LaneFields) (st : State) : exec (.ldc f) st = execLdc f st := rfl
@[simp] theorem exec_stc (f : LaneFields) (st : State) : exec (.stc f) st = execStc f st := rfl
@[simp] theorem exec_lds (f : LaneFields) (st : State) : exec (.lds f) st = execLds f st := rfl
@[simp] theorem exec_sts (f : LaneFields) (st : State) : exec (.sts f) st = execSts f st := rfl
@[simp] theorem exec_att (f : LaneFields) (st : State) : exec (.att f) st = execAtt f st := rfl
@[simp] theorem exec_atc (f : LaneFields) (st : State) : exec (.atc f) st = execAtc f st := rfl
@[simp] theorem exec_accrd (f : LaneFields) (st : State) : exec (.accrd f) st = execAccrd f st := rfl
@[simp] theorem exec_accwr (f : LaneFields) (st : State) : exec (.accwr f) st = execAccwr f st := rfl
@[simp] theorem exec_gath (f : LaneFields) (st : State) : exec (.gath f) st = execGath f st := rfl
@[simp] theorem exec_scat (f : LaneFields) (st : State) : exec (.scat f) st = execScat f st := rfl
@[simp] theorem exec_scatAdd (f : LaneFields) (st : State) : exec (.scatAdd f) st = execScatAdd f st := rfl
@[simp] theorem exec_matom (f : LaneFields) (st : State) : exec (.matom f) st = execMatom f st := rfl
@[simp] theorem exec_bra (f : LaneFields) (st : State) : exec (.bra f) st = execBra f st := rfl
@[simp] theorem exec_lcall (f : LaneFields) (st : State) : exec (.lcall f) st = execLcall f st := rfl
@[simp] theorem exec_lret (f : LaneFields) (st : State) : exec (.lret f) st = execLret f st := rfl
@[simp] theorem exec_rcvMark (f : LaneFields) (st : State) : exec (.rcvMark f) st = execRcvMark f st := rfl
@[simp] theorem exec_rcvWait (f : LaneFields) (st : State) : exec (.rcvWait f) st = execRcvWait f st := rfl
@[simp] theorem exec_lend (f : LaneFields) (st : State) : exec (.lend f) st = execLend f st := rfl
@[simp] theorem exec_refill (f : LaneFields) (st : State) : exec (.refill f) st = execRefill f st := rfl
@[simp] theorem exec_idle (f : LaneFields) (st : State) : exec (.idle f) st = execIdle f st := rfl
@[simp] theorem exec_ltrap (f : LaneFields) (st : State) : exec (.ltrap f) st = execLtrap f st := rfl
@[simp] theorem exec_mma (shape : BitVec 5) (acc : BitVec 3) (ra rb rf : BitVec 4) (zero reuse : Bool) (st : State) : exec (.mma shape acc ra rb rf zero reuse) st = execMma shape acc ra rb rf zero reuse st := rfl
@[simp] theorem exec_mmas (shape : BitVec 5) (acc : BitVec 3) (ra rb rf : BitVec 4) (spm : BitVec 2) (zero reuse : Bool) (st : State) : exec (.mmas shape acc ra rb rf spm zero reuse) st = execMmas shape acc ra rb rf spm zero reuse st := rfl
@[simp] theorem exec_mzero (shape : BitVec 5) (acc : BitVec 3) (st : State) : exec (.mzero shape acc) st = execMzero shape acc st := rfl
@[simp] theorem exec_mload (shape : BitVec 5) (acc : BitVec 3) (ra : BitVec 4) (pitch : BitVec 20) (st : State) : exec (.mload shape acc ra pitch) st = execMload shape acc ra pitch st := rfl
@[simp] theorem exec_mstore (shape : BitVec 5) (acc : BitVec 3) (ra : BitVec 4) (pitch : BitVec 20) (st : State) : exec (.mstore shape acc ra pitch) st = execMstore shape acc ra pitch st := rfl
@[simp] theorem exec_mquant (shape : BitVec 5) (acc : BitVec 3) (ra rb : BitVec 4) (fmt : BitVec 4) (clip : Bool) (p : BitVec 7) (f : BitVec 6) (src : Bool) (pitch : BitVec 13) (st : State) : exec (.mquant shape acc ra rb fmt clip p f src pitch) st = execMquant shape acc ra rb fmt clip p f src pitch st := rfl
@[simp] theorem exec_mscale (shape : BitVec 5) (acc : BitVec 3) (ra rb : BitVec 4) (src col row : Bool) (st : State) : exec (.mscale shape acc ra rb src col row) st = execMscale shape acc ra rb src col row st := rfl
@[simp] theorem exec_mset (ra : BitVec 4) (imm : BitVec 32) (st : State) : exec (.mset ra imm) st = execMset ra imm st := rfl
@[simp] theorem exec_madd (ra rb rf : BitVec 4) (reg : Bool) (imm : BitVec 32) (st : State) : exec (.madd ra rb rf reg imm) st = execMadd ra rb rf reg imm st := rfl
@[simp] theorem exec_mloop (ra : BitVec 4) (disp : BitVec 32) (st : State) : exec (.mloop ra disp) st = execMloop ra disp st := rfl
@[simp] theorem exec_mjmp (disp : BitVec 32) (st : State) : exec (.mjmp disp) st = execMjmp disp st := rfl
@[simp] theorem exec_mhalt (st : State) : exec (.mhalt) st = execMhalt st := rfl
@[simp] theorem exec_mwait (n ra : BitVec 4) (st : State) : exec (.mwait n ra) st = execMwait n ra st := rfl
@[simp] theorem exec_marrive (n ra : BitVec 4) (tok : Bool) (e : BitVec 6) (st : State) : exec (.marrive n ra tok e) st = execMarrive n ra tok e st := rfl
@[simp] theorem exec_mtrel (acc : BitVec 3) (st : State) : exec (.mtrel acc) st = execMtrel acc st := rfl
@[simp] theorem exec_mtacq (acc : BitVec 3) (st : State) : exec (.mtacq acc) st = execMtacq acc st := rfl
@[simp] theorem exec_mfence (st : State) : exec (.mfence) st = execMfence st := rfl
@[simp] theorem exec_entryFuse (w : Nat) (st : State) : exec (.entryFuse w) st = execEntryFuse w st := rfl
@[simp] theorem exec_splitRetry (w e : Nat) (st : State) : exec (.splitRetry w e) st = execSplitRetry w e st := rfl
@[simp] theorem exec_candidateRaise (core quad : Nat) (st : State) : exec (.candidateRaise core quad) st = execCandidateRaise core quad st := rfl
@[simp] theorem exec_yieldTimeout (w : Nat) (st : State) : exec (.yieldTimeout w) st = execYieldTimeout w st := rfl
@[simp] theorem exec_yieldcResume (w : Nat) (st : State) : exec (.yieldcResume w) st = execYieldcResume w st := rfl
@[simp] theorem exec_counterRetire (op : Nat) (st : State) : exec (.counterRetire op) st = execCounterRetire op st := rfl
@[simp] theorem exec_nstorePlace (op unit : Nat) (st : State) : exec (.nstorePlace op unit) st = execNstorePlace op unit st := rfl
@[simp] theorem exec_trapEntry (w : Nat) (st : State) : exec (.trapEntry w) st = execTrapEntry w st := rfl
@[simp] theorem exec_preemptNotice (w : Nat) (st : State) : exec (.preemptNotice w) st = execPreemptNotice w st := rfl
@[simp] theorem exec_distributorWalk (st : State) : exec (.distributorWalk) st = execDistributorWalk st := rfl
@[simp] theorem exec_backfillLimit (launch : Nat) (st : State) : exec (.backfillLimit launch) st = execBackfillLimit launch st := rfl
@[simp] theorem exec_copyDescriptor (launch slot : Nat) (st : State) : exec (.copyDescriptor launch slot) st = execCopyDescriptor launch slot st := rfl
@[simp] theorem exec_packetRetire (p : Nat) (st : State) : exec (.packetRetire p) st = execPacketRetire p st := rfl
@[simp] theorem exec_coalesceTimer (fn q : Nat) (st : State) : exec (.coalesceTimer fn q) st = execCoalesceTimer fn q st := rfl
@[simp] theorem exec_doorbell (fn q : Nat) (tail : BitVec 16) (st : State) : exec (.doorbell fn q tail) st = execDoorbell fn q tail st := rfl
@[simp] theorem exec_queueEnable (fn q : Nat) (st : State) : exec (.queueEnable fn q) st = execQueueEnable fn q st := rfl
@[simp] theorem exec_queueDisable (fn q : Nat) (st : State) : exec (.queueDisable fn q) st = execQueueDisable fn q st := rfl
@[simp] theorem exec_registerWrite (fn off : Nat) (val : BitVec 64) (st : State) : exec (.registerWrite fn off val) st = execRegisterWrite fn off val st := rfl
@[simp] theorem exec_bundle (p : Nat) (st : State) : exec (.bundle p) st = execBundle p st := rfl
@[simp] theorem exec_signalSet (p : Nat) (st : State) : exec (.signalSet p) st = execSignalSet p st := rfl
@[simp] theorem exec_signalWait (p : Nat) (st : State) : exec (.signalWait p) st = execSignalWait p st := rfl
@[simp] theorem exec_mapEdit (p : Nat) (st : State) : exec (.mapEdit p) st = execMapEdit p st := rfl
@[simp] theorem exec_mapSync (p : Nat) (st : State) : exec (.mapSync p) st = execMapSync p st := rfl
@[simp] theorem exec_mapRefit (p : Nat) (st : State) : exec (.mapRefit p) st = execMapRefit p st := rfl
@[simp] theorem exec_viewreg (p : Nat) (st : State) : exec (.viewreg p) st = execViewreg p st := rfl
@[simp] theorem exec_viewdereg (p : Nat) (st : State) : exec (.viewdereg p) st = execViewdereg p st := rfl
@[simp] theorem exec_poolreg (p : Nat) (st : State) : exec (.poolreg p) st = execPoolreg p st := rfl
@[simp] theorem exec_pooldereg (p : Nat) (st : State) : exec (.pooldereg p) st = execPooldereg p st := rfl
@[simp] theorem exec_timestamp (p : Nat) (st : State) : exec (.timestamp p) st = execTimestamp p st := rfl
@[simp] theorem exec_nop (p : Nat) (st : State) : exec (.nop p) st = execNop p st := rfl
@[simp] theorem exec_mailboxRequest (fn : Nat) (st : State) : exec (.mailboxRequest fn) st = execMailboxRequest fn st := rfl
@[simp] theorem exec_mailboxTimeout (fn : Nat) (st : State) : exec (.mailboxTimeout fn) st = execMailboxTimeout fn st := rfl
@[simp] theorem exec_setslice (st : State) : exec (.setslice) st = execSetslice st := rfl
@[simp] theorem exec_setweight (st : State) : exec (.setweight) st = execSetweight st := rfl
@[simp] theorem exec_ctxcreate (st : State) : exec (.ctxcreate) st = execCtxcreate st := rfl
@[simp] theorem exec_ctxremove (st : State) : exec (.ctxremove) st = execCtxremove st := rfl
@[simp] theorem exec_removalForceStop (slot : Nat) (st : State) : exec (.removalForceStop slot) st = execRemovalForceStop slot st := rfl
@[simp] theorem exec_preempt (st : State) : exec (.preempt) st = execPreempt st := rfl
@[simp] theorem exec_resume (st : State) : exec (.resume) st = execResume st := rfl
@[simp] theorem exec_mslextend (st : State) : exec (.mslextend) st = execMslextend st := rfl
@[simp] theorem exec_regwrite (st : State) : exec (.regwrite) st = execRegwrite st := rfl
@[simp] theorem exec_regread (st : State) : exec (.regread) st = execRegread st := rfl
@[simp] theorem exec_lcchange (st : State) : exec (.lcchange) st = execLcchange st := rfl
@[simp] theorem exec_dbgattach (st : State) : exec (.dbgattach) st = execDbgattach st := rfl
@[simp] theorem exec_dbgdetach (st : State) : exec (.dbgdetach) st = execDbgdetach st := rfl
@[simp] theorem exec_dbgbreak (st : State) : exec (.dbgbreak) st = execDbgbreak st := rfl
@[simp] theorem exec_dbghalt (st : State) : exec (.dbghalt) st = execDbghalt st := rfl
@[simp] theorem exec_dbgframe (st : State) : exec (.dbgframe) st = execDbgframe st := rfl
@[simp] theorem exec_dbgresume (st : State) : exec (.dbgresume) st = execDbgresume st := rfl
@[simp] theorem exec_eventRingEnable (st : State) : exec (.eventRingEnable) st = execEventRingEnable st := rfl
@[simp] theorem exec_sliceEnd (st : State) : exec (.sliceEnd) st = execSliceEnd st := rfl
@[simp] theorem exec_drainComplete (slot : Nat) (st : State) : exec (.drainComplete slot) st = execDrainComplete slot st := rfl
@[simp] theorem exec_preemptDeadline (slot : Nat) (st : State) : exec (.preemptDeadline slot) st = execPreemptDeadline slot st := rfl
@[simp] theorem exec_watchdogExpiry (slot : Nat) (st : State) : exec (.watchdogExpiry slot) st = execWatchdogExpiry slot st := rfl
@[simp] theorem exec_holdTimeout (launch : Nat) (st : State) : exec (.holdTimeout launch) st = execHoldTimeout launch st := rfl
@[simp] theorem exec_operatingPointReached (die : Nat) (st : State) : exec (.operatingPointReached die) st = execOperatingPointReached die st := rfl
@[simp] theorem exec_hotnessDecay (st : State) : exec (.hotnessDecay) st = execHotnessDecay st := rfl
@[simp] theorem exec_migrationClaim (slot vpn dst : Nat) (st : State) : exec (.migrationClaim slot vpn dst) st = execMigrationClaim slot vpn dst st := rfl
@[simp] theorem exec_migrationCopyLine (mig : Nat) (st : State) : exec (.migrationCopyLine mig) st = execMigrationCopyLine mig st := rfl
@[simp] theorem exec_cutOver (mig : Nat) (st : State) : exec (.cutOver mig) st = execCutOver mig st := rfl
@[simp] theorem exec_cutoverAck (mig : Nat) (st : State) : exec (.cutoverAck mig) st = execCutoverAck mig st := rfl
@[simp] theorem exec_refit (slot : Nat) (st : State) : exec (.refit slot) st = execRefit slot st := rfl
@[simp] theorem exec_rebuildSnapshot (unit : Nat) (st : State) : exec (.rebuildSnapshot unit) st = execRebuildSnapshot unit st := rfl
@[simp] theorem exec_rebuildPublish (unit : Nat) (st : State) : exec (.rebuildPublish unit) st = execRebuildPublish unit st := rfl
@[simp] theorem exec_scrubRead (unit : Nat) (st : State) : exec (.scrubRead unit) st = execScrubRead unit st := rfl
@[simp] theorem exec_scrubStepChange (unit : Nat) (st : State) : exec (.scrubStepChange unit) st = execScrubStepChange unit st := rfl
@[simp] theorem exec_keyRotationStart (slot : Nat) (st : State) : exec (.keyRotationStart slot) st = execKeyRotationStart slot st := rfl
@[simp] theorem exec_keySweepStep (slot range : Nat) (st : State) : exec (.keySweepStep slot range) st = execKeySweepStep slot range st := rfl
@[simp] theorem exec_saveKeyRenew (slot : Nat) (st : State) : exec (.saveKeyRenew slot) st = execSaveKeyRenew slot st := rfl
@[simp] theorem exec_linkRekey (link : Nat) (st : State) : exec (.linkRekey link) st = execLinkRekey link st := rfl
@[simp] theorem exec_integrityFault (link : Nat) (st : State) : exec (.integrityFault link) st = execIntegrityFault link st := rfl
@[simp] theorem exec_cxlLinkDown (port : Nat) (st : State) : exec (.cxlLinkDown port) st = execCxlLinkDown port st := rfl
@[simp] theorem exec_peerRouteDown (route : Nat) (st : State) : exec (.peerRouteDown route) st = execPeerRouteDown route st := rfl
@[simp] theorem exec_collAbort (ident : BitVec 64) (st : State) : exec (.collAbort ident) st = execCollAbort ident st := rfl
@[simp] theorem exec_prgResponse (fn group : Nat) (code : BitVec 4) (st : State) : exec (.prgResponse fn group code) st = execPrgResponse fn group code st := rfl
@[simp] theorem exec_atsInvalidation (fn page : Nat) (st : State) : exec (.atsInvalidation fn page) st = execAtsInvalidation fn page st := rfl
@[simp] theorem exec_getVersion (fn : Nat) (st : State) : exec (.getVersion fn) st = execGetVersion fn st := rfl
@[simp] theorem exec_getCapabilities (fn : Nat) (st : State) : exec (.getCapabilities fn) st = execGetCapabilities fn st := rfl
@[simp] theorem exec_negotiateAlgorithms (fn : Nat) (st : State) : exec (.negotiateAlgorithms fn) st = execNegotiateAlgorithms fn st := rfl
@[simp] theorem exec_getDigests (fn : Nat) (st : State) : exec (.getDigests fn) st = execGetDigests fn st := rfl
@[simp] theorem exec_getCertificate (fn : Nat) (st : State) : exec (.getCertificate fn) st = execGetCertificate fn st := rfl
@[simp] theorem exec_challenge (fn : Nat) (st : State) : exec (.challenge fn) st = execChallenge fn st := rfl
@[simp] theorem exec_getMeasurements (fn : Nat) (index : BitVec 8) (st : State) : exec (.getMeasurements fn index) st = execGetMeasurements fn index st := rfl
@[simp] theorem exec_powerOn (st : State) : exec (.powerOn) st = execPowerOn st := rfl
@[simp] theorem exec_coldReset (st : State) : exec (.coldReset) st = execColdReset st := rfl
@[simp] theorem exec_warmReset (st : State) : exec (.warmReset) st = execWarmReset st := rfl
@[simp] theorem exec_flr (fn : Nat) (st : State) : exec (.flr fn) st = execFlr fn st := rfl
@[simp] theorem exec_signalWordPoll (p : Nat) (warp : Bool) (st : State) : exec (.signalWordPoll p warp) st = execSignalWordPoll p warp st := rfl
@[simp] theorem exec_cxlPortReenumeration (port : Nat) (st : State) : exec (.cxlPortReenumeration port) st = execCxlPortReenumeration port st := rfl
@[simp] theorem exec_modulePowerOverLimit (above : Bool) (st : State) : exec (.modulePowerOverLimit above) st = execModulePowerOverLimit above st := rfl
@[simp] theorem exec_thermalProtection (die mhz : Nat) (st : State) : exec (.thermalProtection die mhz) st = execThermalProtection die mhz st := rfl
@[simp] theorem exec_atsTranslationCompletion (fn page : Nat) (present : Bool) (st : State) : exec (.atsTranslationCompletion fn page present) st = execAtsTranslationCompletion fn page present st := rfl
@[simp] theorem exec_priReenable (fn : Nat) (st : State) : exec (.priReenable fn) st = execPriReenable fn st := rfl

end Sys2Proof.Machine
end

