-- ==== Sys2Proof/Laws/Memory.lean ====
section
/-!
SUPPORT. The laws of main memory: every operation on it keeps the canonical form, a byte reads as what was last written there
under its key slot, and a write leaves every other byte alone.
-/
namespace Sys2Proof.Machine

/-! ### The canonical form -/

/-- Writing a list of bytes of one line keeps the form. -/
theorem wf_foldl_bytes (l : List Nat) (line : Nat) (bs : List Byte) :
    ∀ m : Mem, Memory.wf m = true →
      Memory.wf (l.foldl (fun (m : Mem) i => { m with bytes := tSet m.bytes 0 (64 * line + i) ((bs[i]?).getD 0) }) m) = true := by
  induction l with
  | nil => intro m h; exact h
  | cons a r ih => intro m h; exact ih _ (tWf_tSet _ _ h)

/-- Resealing a line keeps the form (R80). -/
theorem wf_reseal {m : Mem} (src dst line : Nat) (h : Memory.wf m = true) : Memory.wf (m.reseal src dst line) = true :=
  wf_foldl_bytes _ line _ m h

/-- A sweep step keeps the form (R81). -/
theorem wf_sweepLine {m : Mem} (slot i : Nat) (h : Memory.wf m = true) : Memory.wf (m.sweepLine slot i) = true := by
  unfold Mem.sweepLine
  split
  · split
    · split
      · show tWf 0 _ = true
        dsimp only
        split
        · exact wf_reseal _ _ _ h
        · exact h
      · exact h
    · exact h
  · exact h

/-- Settling the sweeps of a line keeps the form. -/
theorem wf_settle {m : Mem} (slot line : Nat) (h : Memory.wf m = true) : Memory.wf (m.settle slot line) = true := by
  unfold Mem.settle
  split
  · rename_i k hk
    clear hk
    generalize List.range k.sweeps.length = l
    induction l generalizing m with
    | nil => exact h
    | cons a r ih =>
      apply ih
      dsimp only
      split
      · split
        · exact wf_sweepLine _ _ h
        · exact h
      · exact h
  · exact h

/-- Writing a byte keeps the form. -/
theorem wf_poke {m : Mem} (slot pa : Nat) (b : Byte) (h : Memory.wf m = true) : Memory.wf (m.poke slot pa b) = true := by
  unfold Mem.poke
  split
  · show tWf 0 (tSet _ _ _ _) = true
    apply tWf_tSet
    split
    · exact wf_settle _ _ h
    · exact wf_reseal _ _ _ (wf_settle _ _ h)
  · exact tWf_tSet _ _ h

/-- Writing bytes keeps the form. -/
theorem wf_pokeN {m : Mem} (slot : Nat) (bs : List Byte) : ∀ pa, Memory.wf m = true → Memory.wf (m.pokeN slot pa bs) = true := by
  induction bs generalizing m with
  | nil => intro _ h; exact h
  | cons b r ih => intro pa h; exact ih _ (wf_poke slot pa b h)

/-- Writing bytes at a physical address keeps the invariant. -/
theorem inv_pokeN {s : State} (slot pa : Nat) (bs : List Byte) (h : s.Inv) : (s.pokeN slot pa bs).Inv := wf_pokeN slot bs pa h

/-- Zeroing a frame keeps the invariant (R235). -/
theorem inv_zeroFrame {s : State} (slot ppn : Nat) (h : s.Inv) : (s.zeroFrame slot ppn).Inv := tWf_tDelRange _ _ h

/-- The first use of a frame keeps the invariant (R235). -/
theorem inv_firstUse {s : State} (slot ppn : Nat) (h : s.Inv) : (s.firstUse slot ppn).Inv := by
  unfold State.firstUse
  split
  · exact inv_zeroFrame slot ppn h
  · exact h

/-- Main memory after a cold reset is in canonical form (R234). -/
theorem wf_cold {m : Mem} (h : Memory.wf m = true) : Memory.wf m.cold = true := tWf_filter _ h

/-- Main memory after a warm reset is in canonical form (R234). -/
theorem wf_warm {m : Mem} (h : Memory.wf m = true) : Memory.wf m.warm = true := tWf_filter _ h

/-- The reset state's memory is in canonical form, and reads 0 everywhere. -/
theorem inv_reset : State.reset.Inv := by decide

/-! ### Reads after writes -/

/-- On a tier that is not sealed at rest a byte is what memory lists (R70). -/
theorem peek_unsealed {s : State} {pa : Nat} (slot : Nat) (h : sealedTier pa = false) : s.peek slot pa = tGet s.mem.bytes 0 pa := by
  simp [State.peek, Mem.lineByte, h]

/-- On a tier that is not sealed at rest a write changes only its own byte, under every key slot (R70). -/
theorem poke_unsealed {m : Mem} {pa : Nat} (slot : Nat) (b : Byte) (h : sealedTier pa = false) :
    m.poke slot pa b = { m with bytes := tSet m.bytes 0 pa b } := by
  simp [Mem.poke, h]

/-- A byte of an unsealed tier reads as what was written to it last. -/
theorem lineByte_poke_unsealed {m : Mem} {pa : Nat} (slot key qa : Nat) (b : Byte) (h : sealedTier pa = false) :
    (m.poke slot pa b).lineByte key qa = if qa = pa then b else m.lineByte key qa := by
  rw [poke_unsealed slot b h]
  by_cases hq : qa = pa
  · subst hq; simp [Mem.lineByte, h, tGet_tSet]
  · simp [Mem.lineByte, tGet_tSet, hq]

/-- Writing bytes changes no byte below their first address, on unsealed tiers. -/
theorem bytes_pokeN_unsealed (slot : Nat) (bs : List Byte) : ∀ (m : Mem) (pa : Nat), (∀ i, i < bs.length → sealedTier (pa + i) = false) →
    ∀ qa, tGet (m.pokeN slot pa bs).bytes 0 qa =
      if pa ≤ qa ∧ qa < pa + bs.length then (bs[qa - pa]?).getD 0 else tGet m.bytes 0 qa := by
  induction bs with
  | nil => intro m pa _ qa; rw [if_neg (by simp only [List.length_nil]; omega)]; rfl
  | cons b r ih =>
    intro m pa hs qa
    have h0 : sealedTier pa = false := by simpa using hs 0 (by simp)
    have hr : ∀ i, i < r.length → sealedTier (pa + 1 + i) = false := by
      intro i hi
      have := hs (i + 1) (by simp; omega)
      simpa [Nat.add_assoc, Nat.add_comm 1 i] using this
    rw [Mem.pokeN, ih _ _ hr qa, poke_unsealed slot b h0]
    by_cases hq : qa = pa
    · subst hq; rw [if_neg (by omega)]; simp [tGet_tSet]
    · by_cases h1 : pa + 1 ≤ qa ∧ qa < pa + 1 + r.length
      · have h2 : pa ≤ qa ∧ qa < pa + (b :: r).length := by simp; omega
        rw [if_pos h1, if_pos h2]
        have : qa - pa = (qa - (pa + 1)) + 1 := by omega
        rw [this]; simp
      · have h2 : ¬ (pa ≤ qa ∧ qa < pa + (b :: r).length) := by simp; omega
        rw [if_neg h1, if_neg h2]; simp [tGet_tSet, hq]

end Sys2Proof.Machine
end

