-- ==== Sys2Proof/Laws/Weak.lean ====
section
/-!
SUPPORT. What `State.execWeak` does where no scratchpad access of the warp stands apart: it is `exec`; and what picking and performing
late stores does to the list of those that stay; what a late load of a warp can come to.
-/
namespace Sys2Proof.Machine

/-- An agent of no warp executes as `exec` says. -/
theorem execWeak_other (s : State) (i : Instr) (a : Agent) (h : a.warp = none) : s.execWeak i a = execIn i a s := by
  simp [State.execWeak, h]

/-- An agent of a warp none of whose scratchpad accesses stands apart executes as `exec` says. -/
theorem execWeak_plain (s : State) (i : Instr) (a : Agent) (w : Nat) (x : Warp) (ha : a.warp = some w) (hx : s.warp w = some x)
    (hl : x.late = []) (hn : x.lateNext = false) (hd : x.lateLd = []) (he : x.early = none) : s.execWeak i a = execIn i a s := by
  simp [State.execWeak, ha, hx, hl, hn, hd, he]

/-- A late store is either performed or stays, and nothing else is. -/
theorem mem_pickLate (p : LateStore → Bool) (l : List LateStore) (x : LateStore) :
    (x ∈ (pickLate p l).1 ∨ x ∈ (pickLate p l).2) ↔ x ∈ l := by
  induction l with
  | nil => simp [pickLate]
  | cons y r ih =>
    simp only [pickLate]
    split <;> simp [← ih, or_assoc, or_left_comm]

/-- What is chosen is performed. -/
theorem pickLate_stays (p : LateStore → Bool) (l : List LateStore) (x : LateStore) (h : x ∈ (pickLate p l).2) : p x = false := by
  induction l with
  | nil => simp [pickLate] at h
  | cons y r ih =>
    simp only [pickLate] at h
    split at h
    · exact ih h
    · rename_i hc
      rcases List.mem_cons.mp h with rfl | h
      · simp only [Bool.or_eq_true, not_or, Bool.not_eq_true] at hc
        exact hc.1
      · exact ih h

/-- Nothing is chosen: nothing happens. -/
theorem flushLate_nil (s : State) (w : Nat) (x : Warp) (p : LateStore → Bool) (hx : s.warp w = some x) (hl : x.late = []) :
    s.flushLate w p = s := by
  simp [State.flushLate, hx, hl, pickLate]

/-- An instruction leaves open only loads that were open. -/
theorem openLoads_sub (s : State) (a : Agent) (i : Instr) (ns : List Nat) (acc : Option LateStore) (x : Warp) (y : LateLoad)
    (h : y ∈ s.openLoads a i ns acc x) : y ∈ x.lateLd := (List.mem_filter.mp h).1

/-- A load that an instruction leaves open is not named by it. -/
theorem openLoads_names (s : State) (a : Agent) (i : Instr) (ns : List Nat) (acc : Option LateStore) (x : Warp) (y : LateLoad)
    (h : y ∈ s.openLoads a i ns acc x) : s.namesLoad a i y = false := by
  have := (List.mem_filter.mp h).2
  simp only [Bool.not_eq_true', Bool.or_eq_false_iff] at this
  exact this.1.1.1

/-- A latch that is not valid takes nothing. -/
theorem retake_invalid (l : Latch) (lab : Label) (vs : List (Nat × W64)) (h : l.valid = false) : l.retake lab vs = l := by
  simp [Latch.retake, h]

/-- Turns of late loads do nothing where none is open. -/
theorem reloadTurn_nil (s : State) (w i : Nat) (x : Warp) (hx : s.warp w = some x) (h : x.lateLd = []) : s.reloadTurn w i = s := by
  unfold State.reloadTurn
  cases s.isRunning <;> simp [hx, h]

end Sys2Proof.Machine
end

