-- ==== Sys2Proof/Tests/Slice0.lean ====
section
/-!
SUPPORT. Tests. Expected values come from the spec's tables and worked examples, or are counted by hand from its rules. For every
statement of Certificates/Slice0 a theorem `witness_…` shows a concrete state and operands that meet its hypotheses together.
-/
namespace Sys2Proof.Tests
open Sys2Proof Sys2Proof.Machine

set_option Elab.async false
set_option synthInstance.maxSize 4096
set_option synthInstance.maxHeartbeats 400000

/-! ### Small states -/

/-- The state after an instruction. -/
def after (i : Instr) (s : State) : State := match exec i s with
  | .next u => u
  | .fault _ => s
  | .refused _ => s

/-- The state after a step. -/
def stepped (s : State) : State := match step s with
  | .next u => u
  | .fault _ => s
  | .refused _ => s

/-- One warp of a team of a system context: warp 4 of team 3, gang 2, grid 1, context 0; its scalar stream executes. -/
def base : State := { State.reset.placed [] false with cur := .scalar 4 }

/-- The warp of a small state. -/
def warpOf (s : State) : Warp := (s.warp 4).getD default
/-- The team of a small state. -/
def teamOf (s : State) : Team := (s.team 3).getD default
/-- The grid of a small state. -/
def gridOf (s : State) : Grid := (s.grid 1).getD default
/-- The context of a small state. -/
def ctxOf (s : State) : Ctx := (s.ctx 0).getD default

/-- The base with scalar registers set. -/
def regs (l : List (Nat × W64)) : State := base.modWarp 4 fun x => l.foldl (fun x e => x.writeS e.1 ⟨e.2, 0⟩) x

/-- A register of the warp of a small state. -/
def sreg (s : State) (r : Nat) : W64 := ((warpOf s).readS r).val

/-- The premises of a scalar statement on a small state. -/
def Runs (s : State) (i : Instr) (srcs dst : List (BitVec 6)) : Prop := ScalarRuns s 4 (warpOf s) (teamOf s) (gridOf s) (ctxOf s) i srcs dst

/-! ### Witnesses: encoding, the step, traps -/

theorem witness_DecodeOfEncode : (Instr.add 63 63 63).wf = true ∧ (encodeScalar (.add 63 63 63)).isSome = true ∧
    (encodeSeq (.mset 15 0xFFFFFFFF)).isSome = true ∧ (Instr.mset 15 0xFFFFFFFF).wf = true := by decide +kernel

theorem witness_EncodeOfDecode : (decode .scalar [0x00, 0x05, 0x31, 0x04, 0xFF]).toOption = some (.add 3 4 5, [0xFF]) := by decide +kernel

/-- A scalar turn: the agenda, one warp of the quadrant stopped by nothing, and its four bytes at the PC. -/
theorem witness_StepRunsDecoded_scalar :
    let s := State.reset.withFetchWord 32 0x04310500
    let s0 : State := { s with agenda := [] }
    let ready := if s0.scalarReady 4 then [4] else []
    let s1 : State := { ({ s0 with cands := ready } : State).ageScalars 0 0 ready with cur := .scalar 4 }
    s.agenda = [.scalar 0 0] ∧ s.isRunning = true ∧ s.quadWarps 0 0 = [4] ∧ s.warp 4 = some (warpOf s) ∧
    s.home (warpOf s) = some (teamOf s, gridOf s, ctxOf s) ∧ (warpOf s).due = [] ∧ (warpOf s).debug = false ∧
    (warpOf s).wait.examined = true ∧ (ctxOf s).dbg = none ∧ (warpOf s).late = [] ∧ (warpOf s).lateNext = false ∧ (warpOf s).lateLd = [] ∧ (warpOf s).early = none ∧
    (warpOf s).pc.toNat + 4 ≤ (gridOf s).kernel.slen ∧
    (s1.fetchLines 0 0 3 0 4).2.toOption = some [0x00, 0x05, 0x31, 0x04] := by decide +kernel

theorem witness_StepRunsDecoded_lane :
    let s := State.reset.withFetchWord 96 0x83000000_00000000_00000009
    s.agenda = [.lane 0 0] ∧ s.isRunning = true ∧ s.quadWarps 0 0 = [4] ∧ (warpOf s).due = [] ∧ (warpOf s).debug = false ∧
    (warpOf s).handler = false ∧ (warpOf s).running = true ∧ (warpOf s).entries.map (fun e => (e.1, e.2.state)) = [(0, EState.ready)] ∧
    s.entryBusy 4 0 = false ∧ (ctxOf s).dbg = none ∧ (warpOf s).late = [] ∧ (warpOf s).lateNext = false ∧ (warpOf s).lateLd = [] ∧ (warpOf s).early = none ∧
    12 ≤ (gridOf s).kernel.llen ∧ (s.fetchLines 0 0 3 0 12).2.toOption = some [9, 0, 0, 0, 0, 0, 0, 0, 0, 0, 0, 0x83] := by decide +kernel

theorem witness_StepRunsDecoded_seq :
    let s := State.reset.withFetchWord 64 0x1000600000000008
    s.agenda = [.seq 3] ∧ s.isRunning = true ∧ (teamOf s).seqr.map (·.run) = some .running ∧ 8 ≤ (gridOf s).kernel.mlen ∧
    (({ s with agenda := [] } : State).fetchLines 0 0 3 0 8).2.toOption = some [0x08, 0, 0, 0, 0, 0x60, 0, 0x10] := by decide +kernel

/-- A fetch: the PC translates for execution, and its line is sound. -/
theorem witness_StepRunsDecoded_fetch :
    let s := State.reset.withFetchWord 32 0x04310500
    (match s.translate 0 0 none 0 .x with
      | (u, .ok tr) => !(u.touchLine 0 (tr.ppn * 65536 / 64)).2
      | _ => false) = true := by decide +kernel

theorem witness_StepKeepsMemoryCanonical : State.reset.Inv ∧ base.Inv := by decide +kernel

/-- The base without the rights of a system context. -/
def user : State := base.modCtx 0 fun c => { c with sys := false }

theorem witness_IllegalInstructionsTrap :
    ScalarAt user 4 (warpOf user) (teamOf user) (gridOf user) (ctxOf user) ∧ TrapReady user 4 (warpOf user) (gridOf user) ∧
    (ctxOf user).sys = false ∧ (encodeScalar (.csrr 4 0x800)).isSome = true ∧ (0x800 : BitVec 12).getLsbD 11 = true ∧
    legalStatic (.kmov 16 0) = false ∧ (encodeScalar (.kmov 16 0)).isSome = true := by
  unfold ScalarAt TrapReady; decide +kernel

/-- A trap of a rank and code, as an instruction's fault leaves it. -/
def owes (rank : Nat) (code : BitVec 8) (val : W64) : DueTrap := { rank := rank, code := code, val := val, lanes := 0, entry := none, pcL := 0 }

/-- The base with traps due. -/
def owing (l : List DueTrap) : State := base.modWarp 4 fun x => { x with due := l }

theorem witness_TrapEntry :
    let s := owing [owes 3 0x0A 0, owes 1 0x01 7, owes 4 0x14 9]
    s.home (warpOf s) = some (teamOf s, gridOf s, ctxOf s) ∧ (warpOf s).debug = false ∧ (warpOf s).handler = false ∧
    (warpOf s).inFlight = false ∧ s.refilling 4 = false ∧ (warpOf s).due = [owes 3 0x0A 0] ++ owes 1 0x01 7 :: [owes 4 0x14 9] ∧
    (gridOf s).trapvec.getLsbD 0 = true ∧
    (warpOf (after (.trapEntry 4) s)).tval = 7 ∧ (warpOf (after (.trapEntry 4) s)).due.map (·.rank) = [3, 4] := by decide +kernel

/-- Traps that are held back: a return in flight, a REFILL, handler mode, a waiting warp. -/
theorem witness_TrapEntry_held :
    (warpOf ((owing [owes 1 0x01 7]).modWarp 4 fun x => { x with sPend := [5] })).inFlight = true ∧
    (warpOf ((owing [owes 3 0x05 0]).modWarp 4 fun x => { x with wait := .hold false })).wait.holds = true ∧
    (warpOf (after (.trapEntry 4) ((owing [owes 5 0x30 0]).modWarp 4 fun x => { x with handler := true }))).due.length = 1 := by decide +kernel

/-- The outcomes of the memory group: a removal under MFCTX and in DRAIN, and a grid that fails. -/
theorem witness_TrapEntry_memory :
    let s := (owing [owes 1 0x10 0x9000]).modCtx 0 fun c => { c with mfctx := true }
    let d := (owing [owes 1 0x10 0x9000]).modCtx 0 fun c => { c with pre := .drain 0 }
    (ctxOf s).removing = false ∧ (ctxOf d).draining = true ∧ (ctxOf d).removing = false ∧ (ctxOf (owing [])).draining = false ∧
    (after (.trapEntry 4) s).ctxs.map (fun e => e.2.pre) = [.removing 0x10 0 false] ∧
    (after (.trapEntry 4) d).ctxs.map (fun e => e.2.pre) = [.removing 0x10 0 false] ∧
    (after (.trapEntry 4) (owing [owes 1 0x10 0x9000])).warp 4 = none := by decide +kernel

/-- The base with TRAPVEC.EN at 0. -/
def noHandler : State := base.modGrid 1 fun g => { g with trapvec := 0 }

theorem witness_TrapEntry_fatal : Runs noHandler (.trap 0xFFFFF) [] [] ∧ (gridOf noHandler).trapvec.getLsbD 0 = false ∧
    (warpOf noHandler).inFlight = false ∧ noHandler.refilling 4 = false ∧ (warpOf noHandler).due = [] ∧ (ctxOf noHandler).draining = false ∧
    (ctxOf noHandler).removing = false ∧ (after (.trap 0xFFFFF) noHandler).warp 4 = none := by
  unfold Runs ScalarRuns ScalarAt; decide +kernel

/-- The base in its handler after a `trap`. -/
def handling : State := { after (.trap 5) base with cur := .scalar 4 }

theorem witness_SoftTrapAndReturn : Runs base (.trap 5) [] [] ∧ TrapReady base 4 (warpOf base) (gridOf base) ∧ Runs handling .tret [] [] ∧
    Runs handling .tretSkip [] [] ∧ (warpOf handling).handler = true ∧ (warpOf handling).frame.isSome = true := by
  unfold Runs ScalarRuns ScalarAt TrapReady; decide +kernel

/-- R335: TRAPVAL holds the immediate; R250: the return goes to the next instruction. -/
theorem test_trap_and_tret : (warpOf handling).tval = 5 ∧ (warpOf handling).cause = 0x31 ∧ (warpOf handling).pcS = 0 ∧
    (warpOf (after .tret handling)).pc = 4 ∧ (warpOf (after .tret handling)).handler = false := by decide +kernel

/-- The base with s5 pending. -/
def pending5 : State := base.modWarp 4 fun x => { x with sPend := [5] }

theorem witness_PendingAndZeroRegisters :
    ScalarAt pending5 4 (warpOf pending5) (teamOf pending5) (gridOf pending5) (ctxOf pending5) ∧ memb (warpOf pending5).sPend 5 = true ∧
    Runs base (.add 0 1 2) [1, 2] [0] := by unfold Runs ScalarRuns ScalarAt; decide +kernel

/-- R31: a pending source waits, a pending destination raises INFLIGHT, which is due and not taken. -/
theorem test_pending : (warpOf (after (.add 6 5 7) pending5)).wait = .hold true ∧ (warpOf (after (.add 5 6 7) pending5)).due.map (fun d => (d.code, d.val)) =
    [(0x03, 0x405)] ∧ (warpOf (after (.add 5 6 7) pending5)).handler = false := by decide +kernel

/-- The base whose sequencer has ended. -/
def halted : State := base.modTeam 3 fun t => { t with seqr := some { Seqr.start with run := .halted } }

theorem witness_WarpsAndTeamsEnd : Runs halted .exit [] [] ∧ (warpOf halted).handler = false ∧ (warpOf halted).queue = [] ∧
    (warpOf halted).quiet = true ∧ (warpOf halted).inFlight = false ∧ (teamOf halted).seqEnded = true ∧ (ctxOf halted).pre = .run ∧
    Runs base .exit [] [] ∧ (teamOf base).warps.length = 1 ∧ (teamOf base).seqEnded = false := by
  unfold Runs ScalarRuns ScalarAt; decide +kernel

/-- The premises of a team kill: relaunches left, exhausted, and a context in DRAIN. -/
theorem witness_WarpsAndTeamsEnd_killed :
    let s := base.modGrid 1 fun g => { g with kernel := { g.kernel with idem := true } }
    let e := s.modGrid 1 fun g => { g with nRelaunch := s.rlim }
    let d := base.modCtx 0 fun c => { c with pre := .drain 0 }
    (gridOf s).nRelaunch < s.rlim ∧ ((s.killTeam 3 0x20).grid 1).map (fun g => (g.relaunch, g.nRelaunch)) = some ([((teamOf s).num, (teamOf s).gang)], 1) ∧
    e.rlim ≤ (gridOf e).nRelaunch ∧ (gridOf base).kernel.idem = false ∧ (ctxOf d).draining = true ∧
    ((d.killTeam 3 0x20).ctx 0).isNone = true := by decide +kernel

/-- R316: the last warp waits for its sequencer, and then ends. -/
theorem test_exit : (warpOf (after .exit base)).wait.examined = true ∧ (after .exit halted).warp 4 = none := by decide +kernel

theorem witness_ScalarArithmetic : Runs base (.divn 5 6 7) [6, 7] [5] ∧ Runs base (.addi 63 0 (-8192)) [0] [63] ∧ Runs base (.lui 63 0xFFFFF) [] [63] := by
  unfold Runs ScalarRuns ScalarAt; decide +kernel

/-- R306, R307, R308: corners of the tables. -/
theorem test_alu : sreg (after (.divn 5 6 0) (regs [(6, 9)])) 5 = 0xFFFFFFFFFFFFFFFF ∧ sreg (after (.remn 5 6 0) (regs [(6, 9)])) 5 = 9 ∧
    sreg (after (.sar 5 6 7) (regs [(6, 0x8000000000000000), (7, 127)])) 5 = 0xFFFFFFFFFFFFFFFF ∧
    sreg (after (.mulh 5 6 7) (regs [(6, 0xFFFFFFFFFFFFFFFF), (7, 2)])) 5 = 0xFFFFFFFFFFFFFFFF ∧
    sreg (after (.slt 5 6 7) (regs [(6, 0x8000000000000000), (7, 0)])) 5 = 1 ∧ sreg (after (.sltn 5 6 7) (regs [(6, 0x8000000000000000), (7, 0)])) 5 = 0 := by decide +kernel

/-- R308's worked example: `lui s4, #5` and `addi s4, s4, #-7355`. -/
theorem test_lui_addi : sreg (after (.lui 4 5) base) 4 = 0x14000 ∧ sreg (after (.addi 4 4 (-7355)) (regs [(4, 0x14000)])) 4 = 0x12345 := by decide +kernel

theorem witness_BranchesAndJumps : Runs (regs [(5, 1)]) (.bnz 5 (-5)) [5] [] ∧ Runs base (.jmp 0x2000000) [] [] ∧ Runs base (.call 63 0x7FFFF) [] [63] ∧
    Runs (regs [(5, 0xFFFFFFFC)]) (.jr 5) [5] [] ∧ (0xFFFFFFFC : Nat) % 4 = 0 ∧ Runs (regs [(5, 2)]) (.jr 5) [5] [] ∧
    TrapReady (regs [(5, 2)]) 4 (warpOf (regs [(5, 2)])) (gridOf (regs [(5, 2)])) := by unfold Runs ScalarRuns ScalarAt TrapReady; decide +kernel

/-- R309: targets are relative to the branch itself, and `jr` traps on a misaligned target. -/
theorem test_branches : (warpOf (after (.bz 5 3) base)).pc = 12 ∧ (warpOf (after (.bnz 5 3) base)).pc = 4 ∧ (warpOf (after (.jr 5) (regs [(5, 64)]))).pc = 64 ∧
    (warpOf (after (.jr 5) (regs [(5, 2)]))).tval = 2 ∧ (warpOf (after (.jr 5) (regs [(5, 2)]))).cause = 6 ∧ sreg (after (.call 9 4) base) 9 = 4 := by decide +kernel

theorem witness_ScalarLoadsAndStores : Runs (regs [(6, 65528)]) (.sld 5 6 0 3 false false) [6, 0] [5] ∧ (65528 : Nat) + 8 ≤ base.spaceSize (.team 3) ∧
    Sound base (.team 3) 65528 8 ∧ Runs (regs [(6, 65529)]) (.sld 5 6 0 3 false false) [6, 0] [5] ∧
    Runs (regs [(6, 65536)]) (.sst 5 6 0 3 false) [5, 6, 0] [] ∧ base.spaceSize (.team 3) < 65536 + 8 ∧
    TrapReady base 4 (warpOf base) (gridOf base) := by unfold Runs ScalarRuns ScalarAt TrapReady Sound; decide +kernel

/-- R310, R311: lowest address least significant, sign extension, ALIGN before BOUNDS. -/
theorem test_sst_sld :
    let s := { after (.sst 5 6 0 1 false) (regs [(5, 0x12ABCD), (6, 8)]) with cur := .scalar 4 }
    s.chipByte (.team 3) 8 = 0xCD ∧ s.chipByte (.team 3) 9 = 0xAB ∧ s.chipByte (.team 3) 10 = 0 ∧
    sreg (after (.sld 7 6 0 1 true false) s) 7 = 0xFFFFFFFFFFFFABCD ∧ (warpOf (after (.sld 5 6 0 3 false false) (regs [(6, 65537)]))).cause = 6 := by decide +kernel

/-! ### Witnesses: block constants, waits, barriers, tokens -/

/-- What `TrapReady` says of a small state. -/
def Ready (s : State) : Prop := TrapReady s 4 (warpOf s) (gridOf s)

theorem witness_BlockConstantsQueueAndWaits :
    Runs (regs [(6, 0)]) (.argld 5 6 0) [6] [5] ∧ (gridOf base).args[0]? = some 0 ∧ (0 : Nat) < 8 * (gridOf base).kernel.nargs ∧
    Runs (regs [(6, 4)]) (.argld 5 6 0) [6] [5] ∧ Runs (regs [(6, 8)]) (.argld 5 6 0) [6] [5] ∧ Ready (regs [(6, 8)]) ∧
    Runs base (.kmov 15 6) [6] [] ∧ (warpOf base).kPend = [] ∧ Runs base (.lrun 0xFFFFF) [] [] ∧ (warpOf base).handler = false ∧
    (warpOf base).queue.length < 4 ∧ Runs base .lsync [] [] ∧ Runs base (.waitc 0 0) [] [] ∧ (warpOf base).count 0 ≤ 0 ∧
    Runs base (.yieldc 5 0xFF (-0x800)) [] [] ∧ Runs base .yield [] [] ∧ base.cands.filter (· != 4) = [] ∧
    ({ base with cands := [4, 9] } : State).cands.filter (· != 4) = [9] := by
  unfold Ready Runs ScalarRuns ScalarAt TrapReady; decide +kernel

/-- The base with four blocks queued and one operation counted on `.st`. -/
def busy : State := base.modWarp 4 fun x => { x with queue := List.replicate 4 { entry := 0, k := [] }, pend := [(1, [9])] }

theorem witness_BlockConstantsQueueAndWaits_waiting : Runs busy (.lrun 1) [] [] ∧ 4 ≤ (warpOf busy).queue.length ∧ Runs busy .lsync [] [] ∧
    Runs busy (.waitc 1 0) [] [] ∧ 0 < (warpOf busy).count 1 ∧ Runs busy (.yieldc 1 0 7) [] [] ∧
    (warpOf (after (.waitc 1 0) busy)).wait.examined = true ∧ (warpOf (after (.waitc 1 1) busy)).pc = 4 := by
  unfold Runs ScalarRuns ScalarAt; decide +kernel

/-- R313: `kmov` writes the live constants and not the snapshot of a block queued before. -/
theorem test_kmov_lrun : let s := { after (.lrun 7) (regs [(5, 9)]) with cur := .scalar 4 }
    ((warpOf (after (.kmov 3 5) s)).readK 3).val = 9 ∧ (warpOf (after (.kmov 3 5) s)).queue.map (fun b => (b.entry, b.k)) = [(7, [])] ∧
    (warpOf (after .lsync s)).wait.examined = true ∧ (warpOf (after .lsync base)).pc = 4 ∧
    (warpOf (after (.yieldc 0 0 7) base)).pc = 28 ∧ sreg (after (.argld 5 6 0) base) 5 = 0 := by decide +kernel

theorem witness_BarriersTokensAndFences : Sound base (.bar 3) 0 8 ∧ Runs base (.barArrive 5 0 2) [] [5] ∧ Runs base (.barArrive 5 0 1) [] [5] ∧
    ((teamOf base).bar 0).exp = 0 ∧ Runs base (.barWait 5 0) [5] [] ∧ Runs base (.barSync 5 0 2) [] [5] ∧ Runs base (.barSync 5 0 1) [] [5] ∧
    Runs base (.tokacq 7) [] [] ∧ (teamOf base).seqr.isSome = true ∧ (teamOf base).tok 7 = .seq ∧ Runs base (.tokrel 7) [] [] ∧
    Runs base (.fence 3 4) [] [] ∧ Ready base := by
  unfold Ready Runs ScalarRuns ScalarAt TrapReady Sound; decide +kernel

/-- A word set up for two arrivals, one of which has happened, and token 0 with the warps, token 1 offered. -/
def arrived : State := base.modTeam 3 fun t => { t with bars := [(2, { phase := 6, exp := 2, count := 1 })], tokens := [(0, .warps), (1, .offered)] }

theorem witness_BarriersTokensAndFences_words : Sound arrived (.bar 3) 16 8 ∧ Runs arrived (.barArrive 5 2 2) [] [5] ∧
    ((teamOf arrived).bar 2).count + 1 = 2 ∧ Runs arrived (.barArrive 5 2 3) [] [5] ∧ ((teamOf arrived).bar 2).exp ≠ 3 ∧
    Runs arrived (.tokacq 0) [] [] ∧ Runs arrived (.tokacq 1) [] [] ∧ Runs arrived (.tokrel 0) [] [] ∧ Ready arrived := by
  unfold Ready Runs ScalarRuns ScalarAt TrapReady Sound; decide +kernel

/-- R320: the arrival that fills the count flips the phase; the token is the phase before; a different expected count traps. -/
theorem test_barriers : let s := after (.barArrive 5 2 2) arrived
    sreg s 5 = 6 ∧ (teamOf s).bar 2 = { phase := 7, exp := 0, count := 0 } ∧ (warpOf (after (.barArrive 5 2 3) arrived)).tval = 0x20203 ∧
    (warpOf (after (.barArrive 5 2 3) arrived)).cause = 4 ∧ (warpOf (after (.barWait 6 2) (arrived.modWarp 4 fun x => x.writeS 6 ⟨6, 0⟩))).pc = 0 ∧
    (warpOf (after (.barWait 6 2) (arrived.modWarp 4 fun x => x.writeS 6 ⟨7, 0⟩))).pc = 4 ∧ (warpOf (after (.barSync 5 3 2) arrived)).wait = .barSync 0 := by
  decide +kernel

/-- R41: an offered token goes to the warps, a token of the warps is returned, and any other release traps. -/
theorem test_tokens : (teamOf (after (.tokacq 1) arrived)).tok 1 = .warps ∧ (teamOf (after (.tokrel 0) arrived)).tok 0 = .returned ∧
    (warpOf (after (.tokrel 1) arrived)).cause = 5 ∧ (warpOf (after (.tokrel 1) arrived)).tval = 1 ∧
    (warpOf (after (.tokacq 2) arrived)).wait.examined = true ∧ (warpOf (after (.fence 1 0) base)).pc = 4 := by decide +kernel

/-! ### Witnesses: engine commands of the scalar stream -/

/-- A state with a data page at VA 0x10000 in frame 0x105 with rights R and W, one unit of scratchpad, and three roles whose targets
resolve: deque 0, pool 0 of one page with units of 64 bytes at VA 0x10000, and route 0. -/
def enrich (s : State) : State :=
  let s : State := { s with
    mem := s.mem.pokeN 0 (0x103 * 65536 + 8) (toBytes 8 (0x105 * 2 ^ 20 + 7)),
    routes := [(0, { up := true, lab := 7, node := 0, tag := 0 })] }
  let s := s.modCtx 0 fun c => { c with pools := [(0, { base := 0x10000, pages := 1, wfull := false, usz := 64, used := [], retired := [] })] }
  let s := s.modGrid 1 fun g => { g with scrUnits := 1, roles := [0x8400000000000000, 0x8600000000000000, 0x8200000000000000] }
  s.modGang 2 fun y => { y with ptgt := [(0, 0), (1, 0), (2, 0)] }

/-- The base enriched. -/
def rich : State := enrich base

/-- `rich` with scalar registers set. -/
def richly (l : List (Nat × W64)) : State := rich.modWarp 4 fun x => l.foldl (fun x e => x.writeS e.1 ⟨e.2, 0⟩) x

/-- A range of a small state translates. -/
def translates (s : State) (acc : AccKind) (lab : Option Label) (va n : Nat) : Bool :=
  (s.rangeFor (warpOf s) (teamOf s) (gridOf s) (ctxOf s) acc lab va n).2.toOption.isSome

/-- A `bar.sync` that has arrived in the phase and in one that is over, one held back by an acquire in flight, one whose sd is pending. -/
theorem witness_BarriersTokensAndFences_again :
    let s := arrived.modWarp 4 fun x => { x with wait := .barSync 6 }
    let p := arrived.modWarp 4 fun x => { x with wait := .barSync 5 }
    let h := s.modWarp 4 fun x => { x with sPend := [5] }
    let o := (after (.satom 7 6 0 0 false 1) ((richly [(6, 0x10000)]).modWarp 4 fun x => { x with pc := 0 })).modWarp 4 fun x => { x with wait := .barSync 6 }
    Runs s (.barSync 5 2 2) [] [5] ∧ Runs p (.barSync 5 2 2) [] [5] ∧ memb (warpOf h).sPend 5 = true ∧
    (warpOf (after (.barSync 5 2 2) s)).wait = .barSync 6 ∧ (warpOf (after (.barSync 5 2 2) p)).pc = 4 ∧
    (warpOf (after (.barSync 5 2 2) h)).wait = .barSync 6 ∧ (warpOf (after (.barSync 5 2 2) h)).due.map (·.code) = [3] ∧
    o.ordered (warpOf o) [] (.barSync 5 2 2) = true ∧ (warpOf (after (.barSync 5 2 2) { o with cur := .scalar 4 })).wait = .barSync 6 := by
  unfold Runs ScalarRuns ScalarAt; decide +kernel

/-- Words stored to the team memory of a state. -/
def filled (s : State) (l : List (Nat × Nat)) : State :=
  s.modTeam 3 fun t => { t with mem := { t.mem with bytes := l.foldl (fun b e => (List.range 8).foldl (fun b i =>
    tSet b 0 (e.1 + i) (BitVec.ofNat 8 (e.2 / 2 ^ (8 * i)))) b) t.mem.bytes } }

/-- The kind of the one operation of a state. -/
def opKind (s : State) : Option OpKind := (s.op 5).map (·.kind)

/-- A piece of a move of the scalar stream. -/
def piece (src dst : Loc) (len : Nat) : Piece := { src := src, dst := dst, len := len, lanes := [] }

theorem witness_CopiesIssue :
    let s := richly [(5, 8), (6, 0x10000), (7, 0x10000000000064)]
    let t := richly [(5, 0x10004), (6, 65528), (7, 8)]
    let v := richly [(5, 0x10000), (6, 0x1F000), (7, 256)]
    Runs s (.copy 5 6 7 0 false) [5, 6, 7] [] ∧ Runs s (.copy 5 6 7 0 true) [5, 6, 7] [] ∧ (0x100000 : Nat) % 8 = 0 ∧
    (warpOf s).count 0 < 255 ∧ translates s .r none 0x10000 100 = true ∧ 8 + 100 ≤ s.spaceSize (.team 3) ∧
    Runs t (.copy 5 6 7 1 true) [5, 6, 7] [] ∧ 65528 + 8 ≤ t.spaceSize (.team 3) ∧ Sound t (.team 3) 65528 8 ∧
    translates t .w (some 0) 0x10004 8 = true ∧ t.spaceSize (.scr 1 0) = 65536 ∧ Runs v (.copy 5 6 7 2 false) [5, 6, 7] [] ∧
    translates v .r none 0x1F000 256 = true ∧ translates v .w (some 0) 0x10000 256 = true ∧ Ready s := by
  unfold Ready Runs ScalarRuns ScalarAt TrapReady Sound; decide +kernel

/-- R323, R76: pieces end at aligned 8 bytes of both sides; the misaligned status offset and the range beyond the allocation trap. -/
theorem test_copy : let s := richly [(5, 6), (6, 0x10000), (7, 12)]
    opKind (after (.copy 5 6 7 0 false) s) = some (.move [piece (.main 0x10000) (.buf 0) 8, piece (.main 0x10008) (.buf 8) 4,
      piece (.buf 0) (.team 6) 2, piece (.buf 2) (.team 8) 8, piece (.buf 10) (.team 16) 2] none) ∧
    (warpOf (after (.copy 5 6 7 0 false) s)).count 0 = 1 ∧ (warpOf (after (.copy 5 6 7 0 true) (richly [(7, 0x400000008)]))).cause = 6 ∧
    (warpOf (after (.copy 5 6 7 0 false) (richly [(5, 65529), (6, 0x10000), (7, 8)]))).cause = 7 ∧
    (after (.copy 5 6 7 0 false) (richly [(6, 0x20000), (7, 8)])).grid 1 = none := by decide +kernel

/-- Rows of a copy2d from team memory to the scratchpad, from and to main memory, and within it, with and without a status word. -/
theorem witness_CopiesIssue_2d :
    let s := filled (richly [(5, 0), (6, 0), (7, 64)]) [(64, 0x200000004), (72, 16), (80, 4), (88, 0)]
    let t := filled (richly [(6, 0x10000), (7, 64)]) [(64, 0x100000010)]
    let v := filled (richly [(5, 0x1F000), (6, 0x10000), (7, 64)]) [(64, 0x200000004), (72, 16), (80, 4), (88, 128)]
    Runs s (.copy2d 5 6 7 5 false) [5, 6, 7] [] ∧ Sound s (.team 3) 64 32 ∧ Sound s (.team 3) 16 4 ∧
    Runs t (.copy2d 5 6 7 0 false) [5, 6, 7] [] ∧ translates t .r none 0x10000 16 = true ∧
    Runs v (.copy2d 5 6 7 2 true) [5, 6, 7] [] ∧ translates v .w (some 0) 0x1F000 8 = true ∧ Sound v (.team 3) 64 32 ∧ 128 + 8 ≤ v.spaceSize (.team 3) ∧
    Runs (richly [(7, 4)]) (.copy2d 5 6 7 5 false) [5, 6, 7] [] ∧ Runs (richly [(7, 65512)]) (.copy2d 5 6 7 5 false) [5, 6, 7] [] ∧
    (encodeScalar (.copy2d 5 6 7 5 false)).isSome = true ∧ Ready s ∧
    opKind (after (.copy2d 5 6 7 5 false) s) = some (.move [piece (.team 0) (.buf 0) 4, piece (.team 16) (.buf 4) 4,
      piece (.buf 0) (.scr 0) 4, piece (.buf 4) (.scr 4) 4] none) ∧
    (match opKind (after (.copy2d 5 6 7 2 true) v) with
      | some (.move _ so) => so == some 128
      | _ => false) = true := by
  unfold Ready Runs ScalarRuns ScalarAt TrapReady Sound; decide +kernel

theorem witness_ScalarAtomicsAndSignals :
    let s := richly [(5, 1), (6, 0x1FFF8), (7, 0xFFFFFFFFFFFFFFFF)]
    Runs s (.satom 5 6 7 4 false 0) [6, 7] [5] ∧ Runs s (.satom 5 6 7 3 true 0) [5, 6, 7] [5] ∧ Runs s (.satom 0 6 7 1 true 0) [6, 7] [] ∧
    translates s .a (some 0) 0x1FFF8 8 = true ∧ s.inDest 0 0x1FFF8 8 = none ∧ (warpOf s).count 2 < 255 ∧
    Runs s (.signalSetInsn 6 7 4) [6, 7] [] ∧ Runs s (.signalAdd 6 7 4) [6, 7] [] ∧ Runs s (.signalWaitInsn 6 7 0 true 4) [6, 7] [] ∧
    (s.touchLine 0 (0x105FFF8 / 64)).2 = false ∧ sealedTier 0x105FFF8 = false ∧ Runs (richly [(6, 4)]) (.signalWaitInsn 6 7 0 false 4) [6, 7] [] ∧
    Runs (richly [(6, 4)]) (.signalSetInsn 6 7 4) [6, 7] [] ∧ Runs (richly [(6, 4)]) (.signalAdd 6 7 4) [6, 7] [] ∧
    (warpOf (richly [(6, 4)])).wait = .none ∧ Ready s := by
  unfold Ready Runs ScalarRuns ScalarAt TrapReady; decide +kernel

/-- R326, R327: one read-modify-write of the word; `signal.add` wraps modulo 2^64; `signal.wait` compares. -/
theorem test_satom_signals : let s := richly [(5, 1), (6, 0x1FFF8), (7, 0xFFFFFFFFFFFFFFFF)]
    let u := { after (.signalSetInsn 6 7 4) s with cur := .scalar 4 }
    opKind (after (.satom 5 6 7 4 true 0) s) = some (.rmws [{ va := 0x1FFF8, len := 4, aop := .add, cmp := 1, opnd := 0xFFFFFFFF, lane := 0 }]) ∧
    memb (warpOf (after (.satom 5 6 7 4 true 0) s)).sPend 5 = true ∧ ofBytes (u.peekN 0 0x105FFF8 8) = 0xFFFFFFFFFFFFFFFF ∧
    ofBytes ((after (.signalAdd 6 7 4) u).peekN 0 0x105FFF8 8) = 0xFFFFFFFFFFFFFFFE ∧ (warpOf (after (.signalWaitInsn 6 7 0 false 4) u)).pc = 8 ∧
    (warpOf (after (.signalWaitInsn 6 7 2 false 4) u)).wait.examined = true := by decide +kernel

theorem witness_NamelessAndDequeCommands :
    let s := richly [(5, 64), (6, 64), (7, 0x1FFC0), (8, 1)]
    let p := (tFind (ctxOf s).pools 0).getD default
    s.roleTarget (gridOf s) (ctxOf s) 2 1 6 = some 0 ∧ p.usz = 64 ∧ Runs s (.nstore 5 6 1) [5, 6] [] ∧ Sound s (.team 3) 64 64 ∧
    Runs s (.namepop 5) [] [5] ∧ (warpOf s).names = [] ∧ (encodeScalar (.namepop 5)).isSome = true ∧ Runs s (.relq 7 8 1) [7, 8] [] ∧
    (0x1FFC0 - p.base) % p.usz = 0 ∧ 0x1FFC0 + 64 ≤ p.base + p.pages * 65536 ∧ Runs s (.dqpush 5 0 0) [5] [] ∧ Runs s (.dqpop 5 0 0) [] [5] ∧
    Runs s (.dqsteal 5 3 0) [] [5] ∧ s.roleTarget (gridOf s) (ctxOf s) 2 0 4 = some 0 ∧ s.roleTarget (gridOf s) (ctxOf s) 2 63 4 = none ∧
    Runs s (.dqpush 5 0 63) [5] [] ∧ Runs (richly [(5, 62), (6, 64)]) (.nstore 5 6 1) [5, 6] [] ∧
    Runs (richly [(6, 65)]) (.nstore 5 6 1) [5, 6] [] ∧ Runs (richly [(7, 0x10000)]) (.relq 7 8 1) [7, 8] [] ∧ Ready s := by
  unfold Ready Runs ScalarRuns ScalarAt TrapReady Sound; decide +kernel

/-- R160, R217: the name queue, and the operations that the commands issue. -/
theorem test_nameless : let s := richly [(5, 64), (6, 8), (7, 0x10040), (8, 2)]
    let u := s.modWarp 4 fun x => { x with names := [{ op := 9, name := some ⟨0x77, 0⟩ }] }
    opKind (after (.nstore 5 6 1) s) = some (.nstore 0 [0, 0, 0, 0, 0, 0, 0, 0] 0) ∧ (warpOf (after (.nstore 5 6 1) s)).names.length = 1 ∧
    sreg (after (.namepop 9) u) 9 = 0x77 ∧ (warpOf (after (.namepop 9) u)).names = [] ∧ (warpOf (after (.namepop 9) s)).cause = 1 ∧
    opKind (after (.relq 7 8 1) s) = some (.relq 0 1 2) ∧ (warpOf (after (.relq 7 0 1) s)).count 3 = 0 ∧ (after (.relq 7 0 1) s).work.ops = [] ∧ opKind (after (.dqpush 5 0 0) s) = some (.dqPush 0 0 ⟨64, 0⟩) ∧
    opKind (after (.dqpop 5 0 0) s) = some (.dqPop 0 0) ∧ opKind (after (.dqsteal 5 0 0) s) = some (.dqSteal 0) := by decide +kernel

theorem witness_FenceAndPlacement :
    let s := richly [(5, 0x10000), (6, 0x4000000), (7, 0x1FFF8)]
    Runs s .vfence [] [] ∧ (warpOf s).count 5 < 255 ∧ Runs s (.placeHint 5 6 0) [5, 6] [] ∧ Runs s (.placeReq 5 6 7 2) [5, 6, 7] [] ∧
    translates s .w (some 0) 0x1FFF8 8 = true ∧ (warpOf s).count 0 < 255 ∧ Runs (richly [(7, 4)]) (.placeReq 5 6 7 2) [5, 6, 7] [] ∧
    Runs (richly [(6, 0x4000001)]) (.placeReq 5 6 7 2) [5, 6, 7] [] ∧ (encodeScalar (.placeReq 5 6 7 2)).isSome = true ∧ Ready s := by
  unfold Ready Runs ScalarRuns ScalarAt TrapReady; decide +kernel

/-- R97: the request names the pages of its range; R156: the fence names the master writes. -/
theorem test_placement : opKind (after (.placeReq 5 6 7 1) (richly [(5, 0x1FFFF), (6, 2), (7, 0x10008)])) = some (.place [1, 2] 1 0x10008 0 0 0) ∧
    opKind (after .vfence rich) = some (.vfence [] []) ∧ (warpOf (after (.placeHint 5 6 0) (richly [(5, 0x10000), (6, 1)]))).pc = 4 := by decide +kernel

/-- A collective descriptor of no peers: OP 0, source and destination of 64 bytes in the data page. -/
theorem witness_CollectivesAndLaunches :
    let s := richly [(5, 128), (6, 0x10000)]
    Runs s (.coll 5) [5] [] ∧ Sound s (.team 3) 128 64 ∧ Runs (richly [(5, 4)]) (.coll 5) [5] [] ∧ Runs (richly [(5, 65536)]) (.coll 5) [5] [] ∧
    (encodeScalar (.coll 5)).isSome = true ∧ (CollDesc.ofWords (List.replicate 8 0)).refused (List.replicate 8 0) = true ∧
    Runs s (.launch 5 6) [5, 6] [] ∧ translates s .w (some 0) 0x10000 8 = true ∧ (ctxOf s).children < 256 ∧
    Runs (richly [(5, 4)]) (.launch 5 6) [5, 6] [] ∧ Runs (richly [(5, 64), (6, 4)]) (.launch 5 6) [5, 6] [] ∧ Ready s := by
  unfold Ready Runs ScalarRuns ScalarAt TrapReady Sound; decide +kernel

theorem witness_CsrsBoundsAndRoles : Runs base (.csrr 5 0x804) [] [5] ∧ (ctxOf base).sys = true ∧ Runs base (.csrr 5 0x001) [] [5] ∧
    Runs base (.csrr 5 0x000) [] [5] ∧ Ready base ∧ (encodeScalar (.csrr 5 0)).isSome = true ∧ Runs base (.csrw 5 0x001) [5] [] ∧
    Runs base (.csrw 5 0x800) [5] [] ∧ Runs base (.csrw 5 0x804) [5] [] ∧ (base.gang 2).isSome = true ∧ Runs base (.bndmin 5) [5] [] ∧
    Runs base (.bndrd 5) [] [5] ∧ Runs base (.role 5 63) [] [5] := by
  unfold Ready Runs ScalarRuns ScalarAt TrapReady; decide +kernel

/-- R334: bit 1 of TRAPVEC reads as 0; unimplemented numbers trap with the word; R333: a role's word. -/
theorem test_csrs : sreg (after (.csrr 5 0x800) base) 5 = 1 ∧ (gridOf (after (.csrw 5 0x800) (regs [(5, 0xFFFFFFFF)]))).trapvec = 0xFFFFFFFD ∧
    (warpOf (after (.csrw 5 0x001) (regs [(5, 0xFFF)]))).fstat = 0x7F ∧ (warpOf (after (.csrr 5 0x000) base)).cause = 1 ∧
    sreg (after (.csrr 5 0x024) base) 5 = 32 ∧ (ctxOf (after (.csrw 5 0x804) (regs [(5, 7)]))).mfctx = true ∧
    sreg (after (.role 5 1) rich) 5 = 0xC600000000000000 ∧ sreg (after (.role 5 3) rich) 5 = 0 := by decide +kernel

/-- R206, R332: the bound falls, and the warp's copy does not until a delivery. -/
theorem test_bounds : let s := { after (.bndmin 5) (regs [(5, 7)]) with cur := .scalar 4 }
    ((s.gang 2).getD default).bound.val = 7 ∧ sreg (after (.bndrd 6) s) 6 = 0xFFFFFFFFFFFFFFFF := by decide +kernel

/-! ### Witnesses: sealed images, privileged instructions -/

/-- `rich` in a protected context. -/
def shielded (l : List (Nat × W64)) : State := (richly l).modCtx 0 fun c => { c with prot := true }

theorem witness_SealedImages :
    let s := shielded [(5, 0x10000), (6, 0x10001027F), (7, 64)]
    let t := shielded [(5, 0x10000), (6, 65472), (7, 64)]
    Runs s (.savev 5 6) [5, 6] [] ∧ Runs s (.restv 5 6) [5, 6] [] ∧ (ctxOf s).prot = true ∧ (warpOf s).queue = [] ∧ 639 + 1 ≤ (warpOf s).c ∧
    (warpOf s).setPending 639 1 true = false ∧ (0x10001027F : Nat) = 639 + 1 * 2 ^ 16 + 2 ^ 32 ∧ (warpOf s).count 0 < 255 ∧
    translates s .w (some 0) 0x10000 (imageLenV 32 1 true) = true ∧ translates s .r none 0x10000 (imageLenV 32 1 true) = true ∧
    Runs t (.savet 5 6 7) [5, 6, 7] [] ∧ Runs t (.restt 5 6 7) [5, 6, 7] [] ∧ 65472 + 64 ≤ t.spaceSize (.team 3) ∧
    translates t .w (some 0) 0x10000 (imageLenT 64) = true ∧ translates t .r none 0x10000 (imageLenT 64) = true ∧
    Runs (shielded [(5, 0x10000), (6, 32), (7, 64)]) (.restt 5 6 7) [5, 6, 7] [] ∧
    Runs (shielded [(5, 0x10000), (6, 65536), (7, 64)]) (.restt 5 6 7) [5, 6, 7] [] ∧ Ready s ∧
    Runs rich (.savev 5 6) [5, 6] [] ∧ (ctxOf rich).prot = false ∧ (encodeScalar (.savet 5 6 7)).isSome = true := by
  unfold Ready Runs ScalarRuns ScalarAt TrapReady; decide +kernel

theorem witness_SealedImages_pending :
    let s := (shielded [(5, 0x10000), (6, 0x10000)]).modWarp 4 fun x => { x with vPend := [31] }
    Runs s (.savev 5 6) [5, 6] [] ∧ (warpOf s).setPending 0 1 false = true := by
  unfold Runs ScalarRuns ScalarAt; decide +kernel

/-- R240, R241, R338: SAVESEQ goes up by one; an image of n v registers of a 32-lane warp; the set of `restv` is pending; without PROT
the four raise ILLEGAL. -/
theorem test_sealed : let s := shielded [(5, 0x10000), (6, 0x10002), (7, 64)]
    (ctxOf (after (.savev 5 6) s)).saveseq = 1 ∧ (warpOf (after (.savev 5 6) s)).count 0 = 1 ∧
    memb (warpOf (after (.restv 5 6) s)).vPend 128 = true ∧ memb (warpOf (after (.restv 5 6) s)).vPend 192 = false ∧
    (ctxOf (after (.savet 5 0 7) s)).saveseq = 1 ∧ opKind (after (.restt 5 0 7) s) = some (.restt 0x10000 0 64) ∧
    (warpOf (after (.savev 5 6) rich)).cause = 1 ∧ (warpOf (after (.restt 5 6 7) rich)).cause = 1 := by decide +kernel

theorem witness_MapAndLabelInstructions :
    let s := richly [(5, 0x20000), (6, 0x106 * 2 ^ 20 + 7), (8, 64)]
    (ctxOf s).sys = true ∧ Runs s (.mapedit 5 6 7) [5, 6, 7] [] ∧ (ctxOf s).invalid = false ∧
    s.editRefused (ctxOf s) 0x20000 (0x106 * 2 ^ 20 + 7) = none ∧ s.editWaits 0 2 = false ∧ s.leafAddr 3 (ctxOf s).root 2 = some (0x103 * 65536 + 16) ∧
    memb s.mem.owed 0x106 = false ∧ Runs s (.mapedit 5 6 8) [5, 6, 8] [] ∧ Ready s ∧ Runs s (.mapsync 5 8 7) [5, 8, 7] [] ∧
    s.oldOps 0 2 64 = [] ∧ Runs s (.refitf 9 7) [7] [9] ∧ (ctxOf s).tickets ≤ (ctxOf s).folded ∧ Runs s (.refitf 9 8) [8] [9] ∧
    (encodeScalar (.mapedit 5 6 8)).isSome = true := by
  unfold Ready Runs ScalarRuns ScalarAt TrapReady; decide +kernel

/-- A WATCH page under the master of view 3, in a system context. -/
def watching : State :=
  let t : VTile := { mv := 5, ft := 5, busy := false, poisoned := false, queued := false }
  let v : View := {
    mva := 0x10000, mld := 64, ct := 1, rt := 1, dld := 64, tfmt := 6, tiled := false, mbf16 := true, policy := 0, clip := false,
    clipp := 0, clipf := 0, shards := [], tiles := [(0, t)], mark := false, revoked := [], live := true }
  ((richly [(5, 0x10000), (6, 0x106 * 2 ^ 20 + 2 ^ 16 + 7)]).remark 0 (setWatch · true) [1]).modCtx 0 fun c => { c with views := [(3, v)], pools := [] }

theorem witness_MapAndLabelInstructions_watch : Runs watching (.mapedit 5 6 7) [5, 6, 7] [] ∧ attrWatch (pteAttr (watching.leaf (ctxOf watching) 1)) = true ∧
    ptePpn (watching.leaf (ctxOf watching) 1) = 0x105 ∧ ((ctxOf watching).views.map fun e => tilesOnPage e.2 1) = [[0]] ∧
    watching.editRefused (ctxOf watching) 0x10000 (0x106 * 2 ^ 20 + 2 ^ 16 + 7) = none ∧ watching.editWaits 0 1 = false ∧ watching.oldSigs 0 1 64 = [] := by
  unfold Runs ScalarRuns ScalarAt; decide +kernel

/-- R149, R156: the version that the edit raises is one the warp's `VFENCE` waits for. -/
theorem test_mapedit_watch : (warpOf (after (.mapedit 5 6 7) watching)).mwTiles = [{ ctx := 0, view := 3, tile := 0, ver := 6 }] := by decide +kernel

/-- R405: the edit writes its leaf and queues its window, for which `refitf` then waits. -/
theorem test_mapedit : let s := { after (.mapedit 5 6 7) (richly [(5, 0x20000), (6, 0x106 * 2 ^ 20 + 7)]) with cur := .scalar 4 }
    ofBytes (s.peekN 0 (0x103 * 65536 + 16) 8) = 0x106 * 2 ^ 20 + 7 ∧ (ctxOf s).tickets = 1 ∧ (warpOf (after (.refitf 9 7) s)).wait.examined = true ∧
    (warpOf (after (.mapsync 5 8 7) s)).pc = 8 ∧ (warpOf (after (.mapedit 5 6 8) (richly [(8, 64)]))).cause = 1 := by decide +kernel

/-- A warp whose registers s5, k15, v7 and p1 carry label 7. -/
def labelled : State := base.modWarp 4 fun x => (((x.writeS 5 ⟨9, 7⟩).writeK 15 ⟨8, 7⟩).setLabV 7 7).setLabP 1 7

theorem witness_MapAndLabelInstructions_labels : Runs labelled (.lbldn 5 0 0) [] [] ∧ Runs labelled (.lbldn 15 0 1) [] [] ∧
    Runs labelled (.lbldn 639 0 2) [] [] ∧ Runs labelled (.lbldn 7 0 3) [] [] ∧ (ctxOf labelled).sys = true ∧ (warpOf labelled).queue = [] ∧
    (warpOf labelled).kPend = [] ∧ (warpOf labelled).vPend = [] ∧ 639 < (warpOf labelled).c := by
  unfold Runs ScalarRuns ScalarAt; decide +kernel

/-- R406: the label falls to the level and never rises; the value stays. -/
theorem test_lbldn : (warpOf (after (.lbldn 5 2 0) labelled)).readS 5 = ⟨9, 2⟩ ∧ (warpOf (after (.lbldn 6 2 0) labelled)).readS 6 = ⟨0, 0⟩ ∧
    (warpOf (after (.lbldn 15 1 1) labelled)).readK 15 = ⟨8, 1⟩ ∧ (warpOf (after (.lbldn 7 3 2) labelled)).labV 7 = 3 ∧
    (warpOf (after (.lbldn 1 0 3) labelled)).labP 1 = 0 := by decide +kernel

/-! ### Lanes -/

/-- What a lane instruction of entry 0 of warp 4 sees in a small state. -/
def lctx (s : State) (i : Instr) (f : LaneFields) : LCtx :=
  let x := warpOf s
  let en := (tFind x.entries 0).getD default
  let p := (laneSpec i).elim (formCtl true true) (·.2)
  let act := lanesOf en.mask x.width
  let k : LCtx := {
    q := scalarCtx i 4 x (teamOf s) (gridOf s) (ctxOf s), e := 0, en := en, ks := (x.queue.headD default).k, f := f, p := p, act := act, part := [] }
  { k with part := act.filter k.pred }

/-- The premises of `LaneRuns` that are decided by evaluation. -/
def laneOk (s : State) (i : Instr) (f : LaneFields) : Bool :=
  let k := lctx s i f
  decide (s.cur = .lane 4 0) && decide (s.warp 4 = some k.q.x) && decide (tFind k.q.x.entries 0 = some k.en) && decide (k.q.x.queue ≠ []) &&
  decide (s.home k.q.x = some (k.q.t, k.q.g, k.q.c)) && decide (laneSpec i = some (f, k.p)) &&
  (k.p.legal f && !k.p.a.beyond k.q.x.c f.a && (f.i || !k.p.b.beyond k.q.x.c f.b) && !k.p.c.beyond k.q.x.c f.c && !k.p.dst.beyond k.q.x.c f.dst) &&
  (k.latches.all fun n => (k.en.latch n).valid) && !k.waits && (k.dstRegs.all fun r => !k.vPending r) && !s.ordered k.q.x k.act i

theorem laneRuns_of {s : State} {i : Instr} {f : LaneFields} (h : laneOk s i f = true) : LaneRuns s (lctx s i f) := by
  simp only [laneOk, Bool.and_eq_true, decide_eq_true_eq, Bool.not_eq_true', Bool.or_eq_true, List.all_eq_true] at h
  obtain ⟨⟨⟨⟨⟨⟨⟨⟨⟨⟨hc, hw⟩, he⟩, hq⟩, hh⟩, hs⟩, ⟨⟨⟨⟨h1, h2⟩, h3⟩, h4⟩, h5⟩⟩, hl⟩, hp⟩, hd⟩, ho⟩ := h
  refine ⟨⟨hc, hw, he, ?_, hh, hs, rfl, rfl⟩, ⟨h1, h2, h3, h4, h5⟩, hl, hp, hd, ho⟩
  cases hx : (lctx s i f).q.x.queue with
  | nil => exact absurd hx hq
  | cons b r => exact ⟨b, r, rfl, by
      have : (lctx s i f).ks = ((lctx s i f).q.x.queue.headD default).k := rfl
      rw [this, hx]; rfl⟩

/-- Several instructions of one shape at once. -/
theorem laneRuns_all {s : State} {l : List (Instr × LaneFields)} (h : (l.all fun p => laneOk s p.1 p.2) = true) :
    ∀ p ∈ l, LaneRuns s (lctx s p.1 p.2) := fun p hp => laneRuns_of (List.all_eq_true.mp h p hp)

/-- One warp of 32 lanes with a running block, whose entry 0 holds every lane. -/
def laneBase : State := { State.reset.placed [] true with cur := .lane 4 0 }

/-- Lane 0 of the pairs v2, v4 and v6. -/
def lanes (a b c : Nat) : State := laneBase.modWarp 4 fun x =>
  [(2, a), (4, b), (6, c)].foldl (fun (x : Warp) e => (x.writeV e.1 0 (BitVec.ofNat 32 e.2)).writeV (e.1 + 1) 0 (BitVec.ofNat 32 (e.2 / 2 ^ 32))) x

/-- The fields of a form with A = v2, B = v4, C = v6 and result v8. -/
def fields (ty : BitVec 4) (md : BitVec 3) (imm : W32) (b c : BitVec 11) : LaneFields :=
  { ty := ty, pred := 0, neg := false, wbs := false, dst := 8, a := 2, b := b, c := c, i := false, md := md, imm := imm }

/-- A form with two sources, one source, three sources. -/
def f2 (ty : BitVec 4) (md : BitVec 3) : LaneFields := fields ty md 0 4 0
def f1 (ty : BitVec 4) (md : BitVec 3) (imm : W32) : LaneFields := fields ty md imm 0 0
def f3 (ty : BitVec 4) (md : BitVec 3) : LaneFields := fields ty md 0 4 6

/-- The fields of a control instruction with a constant. -/
def ctl (imm : W32) : LaneFields := { fields 0 0 imm 0 0 with dst := 0, a := 0 }

/-- Lane 0 of the pair v8 after an instruction. -/
def out (i : Instr) (s : State) : Nat := ((warpOf (after i s)).readV 8 0).toNat + 2 ^ 32 * ((warpOf (after i s)).readV 9 0).toNat

/-- Lane 0 of predicate 1 after an instruction, and the flags. -/
def bit (i : Instr) (s : State) : Bool := ((warpOf (after i s)).predMask 1).getLsbD 0
def flags (i : Instr) (s : State) : Flags := (warpOf (after i s)).fstat

/-- The trap that the warp takes at an instruction: TRAPCAUSE, TRAPVAL, FLMASK. -/
def trapOf (i : Instr) (s : State) : W64 × W64 × W64 := let x := warpOf (after i s)
  (x.cause, x.tval, x.flmask)

theorem witness_LaneOperandsAndMoves : ∀ p ∈ [(Instr.mov (f1 12 0 0), f1 12 0 0), (.mov { f1 2 0 (-1) with i := true, a := 0 }, { f1 2 0 (-1) with i := true, a := 0 }),
    (.laneid { f1 0 0 0 with a := 0 }, { f1 0 0 0 with a := 0 }), (.sel (f3 0 0), f3 0 0), (.pset { f2 0 3 with dst := 1, a := 1, b := 2 }, { f2 0 3 with dst := 1, a := 1, b := 2 }),
    (.pset { f1 0 4 1 with dst := 1, a := 0 }, { f1 0 4 1 with dst := 1, a := 0 })], LaneRuns laneBase (lctx laneBase p.1 p.2) := laneRuns_all (by decide +kernel)

/-- R340: the last lane takes part; the immediate of an s64 form is sign-extended; a k register reads the snapshot. -/
theorem test_operands : (31 ∈ (lctx laneBase (.mov (f1 0 0 0)) (f1 0 0 0)).part) ∧ out (.mov { f1 2 0 0xFFFFFFFE with i := true, a := 0 }) laneBase = 0xFFFFFFFFFFFFFFFE ∧
    out (.mov { f1 3 0 0xFFFFFFFE with i := true, a := 0 }) laneBase = 0xFFFFFFFE ∧ out (.mov (f1 12 0 0)) (lanes 0x1280 0 0) = 0xFFFFFF80 ∧
    out (.mov { f1 0 0 0 with a := 1023 }) (laneBase.modWarp 4 fun x => { x with queue := [{ entry := 0, k := [(15, ⟨0x1234, 0⟩)] }] }) = 0x1234 := by decide +kernel

/-- R36, R37, R39: a false predicate leaves the register and puts 0 into the latch; a latch without a value traps in every lane. -/
theorem test_predicate_and_latches : out (.mov { f1 0 0 0 with neg := true }) (lanes 7 0 0) = 0 ∧
    ((tFind (warpOf (after (.mov (f1 0 0 0)) (lanes 7 0 0))).entries 0).getD default).b0.vals = [(0, 7)] ∧
    trapOf (.mov { f1 0 0 0 with a := 1025 }) laneBase = (0x102, 1, 0xFFFFFFFF) ∧
    ((warpOf (after (.laneid { f1 0 0 0 with a := 0 }) laneBase)).readV 8 31) = 31 ∧ out (.sel (f3 0 0)) (lanes 1 2 0) = 2 ∧
    bit (.pset { f1 0 4 1 with dst := 1, a := 0 }) laneBase = true := by decide +kernel

/-- The integer group with the types of its forms. -/
def intForms : List (Instr × LaneFields) :=
  ([Instr.iadd, .isub, .imul, .imulh, .imin, .imax, .iand, .ior, .ixor, .idiv, .irem, .ishl, .ishr, .isar, .bfe].flatMap fun c =>
    [(c (f2 0 0), f2 0 0), (c (f2 3 0), f2 3 0)]) ++
  [(.imad (f3 2 0), f3 2 0), (.iabs (f1 0 0 0), f1 0 0 0), (.inot (f1 1 0 0), f1 1 0 0), (.icmp { f2 0 5 with dst := 1 }, { f2 0 5 with dst := 1 }),
   (.popc (f1 3 0 0), f1 3 0 0), (.clz (f1 1 0 0), f1 1 0 0), (.brev (f1 3 0 0), f1 3 0 0), (.bfi (f3 1 0), f3 1 0)]

theorem witness_LaneIntegersAndBits : ∀ p ∈ intForms, LaneRuns laneBase (lctx laneBase p.1 p.2) := laneRuns_all (by decide +kernel)

/-- R350, R351, R354: wraps, shift amounts modulo the width, division corners. -/
theorem test_lane_integers : out (.iadd (f2 0 0)) (lanes 0xFFFFFFFF 2 0) = 1 ∧ out (.isub (f2 3 0)) (lanes 0 1 0) = 0xFFFFFFFFFFFFFFFF ∧
    out (.imulh (f2 0 0)) (lanes 0xFFFFFFFF 0xFFFFFFFF 0) = 0 ∧ out (.imulh (f2 1 0)) (lanes 0xFFFFFFFF 0xFFFFFFFF 0) = 0xFFFFFFFE ∧
    out (.imad (f3 0 0)) (lanes 3 4 5) = 17 ∧ out (.imin (f2 0 0)) (lanes 0xFFFFFFFF 1 0) = 0xFFFFFFFF ∧ out (.imax (f2 0 0)) (lanes 0xFFFFFFFF 1 0) = 1 ∧
    out (.imin (f2 1 0)) (lanes 0xFFFFFFFF 1 0) = 1 ∧ out (.iabs (f1 0 0 0)) (lanes 0x80000000 0 0) = 0x80000000 ∧
    out (.ishl (f2 0 0)) (lanes 1 33 0) = 2 ∧ out (.isar (f2 0 0)) (lanes 0x80000000 31 0) = 0xFFFFFFFF ∧ out (.ishr (f2 0 0)) (lanes 0x80000000 31 0) = 1 ∧
    out (.idiv (f2 0 0)) (lanes 0xFFFFFFF9 2 0) = 0xFFFFFFFD ∧ out (.irem (f2 0 0)) (lanes 0xFFFFFFF9 2 0) = 0xFFFFFFFF ∧
    out (.idiv (f2 0 0)) (lanes 7 0 0) = 0xFFFFFFFF ∧ out (.irem (f2 0 0)) (lanes 7 0 0) = 7 ∧ out (.idiv (f2 0 0)) (lanes 0x80000000 0xFFFFFFFF 0) = 0x80000000 ∧
    bit (.icmp { f2 0 2 with dst := 1 }) (lanes 0xFFFFFFFF 0 0) = true ∧ bit (.icmp { f2 1 2 with dst := 1 }) (lanes 0xFFFFFFFF 0 0) = false := by decide +kernel

/-- R352, R353. -/
theorem test_lane_bits : out (.popc (f1 1 0 0)) (lanes 0xF0F0 0 0) = 8 ∧ out (.clz (f1 1 0 0)) (lanes 0 0 0) = 32 ∧ out (.clz (f1 3 0 0)) (lanes 1 0 0) = 63 ∧
    out (.brev (f1 1 0 0)) (lanes 1 0 0) = 0x80000000 ∧ out (.bfe (f2 0 0)) (lanes 0xF0 0x404 0) = 0xFFFFFFFF ∧ out (.bfe (f2 1 0)) (lanes 0xF0 0x404 0) = 0xF ∧
    out (.bfi (f3 1 0)) (lanes 0xFFFFFFFF 0 0x804) = 0xFFFFF00F ∧ out (.iand (f2 0 0)) (lanes 12 10 0) = 8 ∧ out (.ior (f2 0 0)) (lanes 12 10 0) = 14 ∧
    out (.ixor (f2 0 0)) (lanes 12 10 0) = 6 ∧ out (.inot (f1 1 0 0)) (lanes 0 0 0) = 0xFFFFFFFF ∧ out (.imul (f2 0 0)) (lanes 7 6 0) = 42 := by decide +kernel

/-- The lane base enriched, with the tile tokens 0 of the team at the warps. -/
def richLanes (a b c : Nat) : State := (enrich (lanes a b c)).modTeam 3 fun t => { t with tokens := [(0, .warps)] }

/-! ### Witnesses: floating point, conversions -/

def fltForms : List (Instr × LaneFields) :=
  ([Instr.fadd, .fsub, .fmul, .fdiv].map fun c => (c (f2 4 3), f2 4 3)) ++ ([Instr.fmin, .fmax].map fun c => (c (f2 6 0), f2 6 0)) ++
  ([Instr.frcp, .frsq, .fsqrt, .fex2, .flg2].map fun c => (c (f1 5 2 0), f1 5 2 0)) ++
  [(.ffma (f3 4 1), f3 4 1), (.fcmp { f2 4 7 with dst := 1 }, { f2 4 7 with dst := 1 }), (.fclass { f1 4 0 0x3FF with dst := 1 }, { f1 4 0 0x3FF with dst := 1 })]

theorem witness_LaneFloatingPoint : ∀ p ∈ fltForms, LaneRuns laneBase (lctx laneBase p.1 p.2) := laneRuns_all (by decide +kernel)

/-- The special operands of the second clause, each by a code of its class. -/
theorem witness_LaneFloatingPoint_specials : (fmtF32.value 0x7F800001).isSig = true ∧ (fmtF16.value 0x7E00).isNan = true ∧
    fmtBf16.value 0xFF80 = .inf true ∧ fmtF32.value 0x7F800000 = .inf false ∧ (fmtF16.value 0x8000).isZero = true ∧
    (fmtF32.value 0x80000001).sign = true ∧ (fmtF32.value 0x80000001).isZero = false ∧ fmtF32.value 0x3F800000 = .fin false (2 ^ 23) (-23) := by decide +kernel

/-- IEEE single-precision results: 1 + 1, 1 / 3 in the four modes, 2^24 + 1 rounded to even, 0 / 0, 1 / 0, the root of -1, log2 0. -/
theorem test_lane_float : out (.fadd (f2 4 0)) (lanes 0x3F800000 0x3F800000 0) = 0x40000000 ∧ out (.fdiv (f2 4 0)) (lanes 0x3F800000 0x40400000 0) = 0x3EAAAAAB ∧
    out (.fdiv (f2 4 1)) (lanes 0x3F800000 0x40400000 0) = 0x3EAAAAAA ∧ out (.fdiv (f2 4 2)) (lanes 0x3F800000 0x40400000 0) = 0x3EAAAAAA ∧
    out (.fdiv (f2 4 3)) (lanes 0x3F800000 0x40400000 0) = 0x3EAAAAAB ∧ out (.fadd (f2 4 0)) (lanes 0x4B800000 0x3F800000 0) = 0x4B800000 ∧
    flags (.fadd (f2 4 0)) (lanes 0x4B800000 0x3F800000 0) = fNX ∧ out (.fmul (f2 4 0)) (lanes 0x40000000 0x40400000 0) = 0x40C00000 ∧
    out (.fsub (f2 4 0)) (lanes 0x3F800000 0x40000000 0) = 0xBF800000 ∧ out (.ffma (f3 4 0)) (lanes 0x40000000 0x40400000 0x3F800000) = 0x40E00000 := by decide +kernel

theorem test_lane_float_specials : out (.fdiv (f2 4 0)) (lanes 0x3F800000 0 0) = 0x7F800000 ∧
    out (.fsqrt (f1 4 0 0)) (lanes 0x40800000 0 0) = 0x40000000 ∧ out (.fsqrt (f1 4 0 0)) (lanes 0xBF800000 0 0) = 0x7FC00000 ∧
    out (.frcp (f1 4 0 0)) (lanes 0x40000000 0 0) = 0x3F000000 ∧ out (.frsq (f1 4 0 0)) (lanes 0x40800000 0 0) = 0x3F000000 ∧
    out (.fex2 (f1 4 0 0)) (lanes 0x40400000 0 0) = 0x41000000 ∧ out (.flg2 (f1 4 0 0)) (lanes 0x41000000 0 0) = 0x40400000 ∧
    out (.flg2 (f1 4 0 0)) (lanes 0 0 0) = 0xFF800000 ∧ out (.fmin (f2 4 0)) (lanes 0x80000000 0 0) = 0x80000000 ∧ out (.fmax (f2 4 0)) (lanes 0x80000000 0 0) = 0 ∧
    out (.fmin (f2 4 0)) (lanes 0x7FC00000 0x3F800000 0) = 0x3F800000 ∧ bit (.fcmp { f2 4 6 with dst := 1 }) (lanes 0x7FC00000 0 0) = true ∧
    bit (.fcmp { f2 4 2 with dst := 1 }) (lanes 0xBF800000 0 0) = true ∧ bit (.fclass { f1 4 0 0x8 with dst := 1 }) (lanes 0x80000000 0 0) = true := by decide +kernel

theorem witness_RoundingIsCorrect : alignTo false 3 0 (-149) = 3 * 2 ^ 149 ∧ (3 : Nat) ≠ 0 ∧ (-149 : Int) ≤ fmtF32.emin - (fmtF32.mb : Int) ∧
    (fmtF32.round .rne false (.fin false 3 0)).1 = 0x40400000 ∧ (fmtE4m3.round .rne false (.fin false 1 20)).2.getLsbD 2 = true := by decide +kernel

/-- Finite operands of a sum, a product and a quotient, and an odd number of 63 bits with a value beside it. -/
theorem witness_LaneFloatingPoint_exact : (-2 : Int) ≤ 0 ∧ alignTo false 3 (-2) (-2) + alignTo true 5 0 (-2) = -17 ∧
    (Machine.Num.fin false 3 (-2)).add .rne (.fin true 5 0) = (.fin true 17 (-2), 0) ∧ (Machine.Num.fin false 3 (-2)).mul (.fin true 5 0) = (.fin true 15 (-2), 0) ∧
    alignTo false 3 0 0 + alignTo true 3 0 0 = 0 ∧ (Machine.Num.fin false 3 0).add .rdn (.fin true 3 0) = (.fin true 0 0, 0) ∧
    (2 ^ 62 + 1) % 2 = 1 ∧ (2 ^ 62 + 1 - 1) * 2 ^ ((0 : Int) - (-1)).toNat < 2 ^ 63 + 3 ∧ 2 ^ 63 + 3 < (2 ^ 62 + 1 + 1) * 2 ^ ((0 : Int) - (-1)).toNat ∧
    fmtF32.round .rup false (.fin false (2 ^ 63 + 3) (-1)) = (0x5E800001, fNX) := by decide +kernel

def cvtForms : List (Instr × LaneFields) :=
  [(.cvt (f1 0 1 4), f1 0 1 4), (.pack { f1 5 0 1 with b := 4 }, { f1 5 0 1 with b := 4 }), (.unpk (f1 12 0 3), f1 12 0 3), (.mxscale (f2 4 0), f2 4 0),
   (.dqcvt (f1 11 0 0), f1 11 0 0), (.dp4i (f3 0 3), f3 0 3), (.dp8i (f3 0 0), f3 0 0), (.dp4f (f3 7 0), f3 7 0), (.dp8f (f3 11 0), f3 11 0),
   (.qcvt (f1 7 0 0), f1 7 0 0)]

theorem witness_LaneConversionsAndBlocks : ∀ p ∈ cvtForms, LaneRuns laneBase (lctx laneBase p.1 p.2) := laneRuns_all (by decide +kernel)

/-- The worked block of the spec (14, "A block with an outlier"): 1000, fifteen 2^-8, sixteen 2^-10. -/
def outlier : List Machine.Num := (0x447A0000 :: List.replicate 15 0x3B800000 ++ List.replicate 16 0x3A800000).map fmtF32.value

/-- R270, R272: its scale, codes and flags under the main rule and under `.clip 90, 8`; a block with an Inf. -/
theorem test_quant_block : quantBlock 7 none outlier = (0x80, 0x7E :: List.replicate 15 1 ++ List.replicate 16 0, fOF ||| fSAT ||| fNX ||| fUF) ∧
    quantBlock 7 (some (90, 8)) outlier = (0x6F, 0x7E :: List.replicate 15 0x78 ++ List.replicate 16 0x68, fOF ||| fSAT ||| fNX) ∧
    quantBlock 7 none (.inf false :: List.replicate 31 (.fin false 1 0)) = (255, List.replicate 32 0, fNFB) := by decide +kernel

/-- The premises of the block clauses hold of it, the fallback's with v = -8; the greatest exponent is 9. -/
theorem witness_LaneConversionsAndBlocks_blocks :
    let ex := outlier.filterMap fun x => match x with
      | .fin _ m e => if m = 0 then none else some (log2E m e)
      | _ => none
    outlier.length = 32 ∧ (∀ x ∈ outlier, x.isNan = false ∧ x.isInf = false) ∧ ex.length = 32 ∧ (ex.filter fun e => decide (e ≤ 9)).length = 32 ∧ (9 : Int) ∈ ex ∧
    (-8 : Int) ∈ ex ∧ (ex.filter fun e => decide (e < -8)).length < 29 ∧ 29 ≤ (ex.filter fun e => decide (e ≤ -8)).length ∧
    quantBlock 12 none (List.replicate 32 (.fin true 0 0)) = (0, List.replicate 32 0, 0) := by decide +kernel

/-- R271, R274: MX INT8 rounds to even and saturates; NaN before 0 × Inf before Inf - Inf before Inf; a sum and its one rounding. -/
theorem test_sums : quantS8 (.fin true 5 (-1)) = (0xFE, fNX) ∧ quantS8 (.fin true 257 (-1)) = (0x81, fNX ||| fSAT) ∧
    stepSum [(.nan true, .inf false), (.fin false 0 0, .inf false)] = (.nan false, fNV) ∧ stepSum [(.nan false, .fin false 0 0), (.fin false 0 0, .inf false)] = (.nan false, 0) ∧
    stepSum [(.fin false 0 0, .inf false)] = (.nan false, fNV) ∧ stepSum [(.inf true, .inf true), (.inf true, .fin false 1 0)] = (.nan false, fNV) ∧
    stepSum [(.inf true, .fin false 1 0), (.fin false 1 0, .fin false 1 0)] = (.inf true, 0) ∧
    stepSum [(.fin false 3 1, .fin true 5 0), (.fin false 1 (-1), .fin false 1 0)] = (.fin true 59 (-1), 0) ∧
    stepSum [(.fin true 0 0, .fin false 1 0), (.fin false 0 3, .fin true 1 0)] = (.fin true 0 0, 0) ∧
    accF32 .rne 0x4B800000 (.fin false 1 0, 0) = (0x4B800000, fNX) ∧ accF32 .rne 0x7F800000 (.inf true, 0) = (0x7FC00000, fNV) ∧
    accF32 .rne 0xFF800001 (.fin false 1 0, 0) = (0x7FC00000, fNV) ∧ accF32 .rne 0x80000000 (.fin true 0 0, 0) = (0x80000000, 0) ∧
    accumulate true [[(.fin true 7 0, .fin false 3 0)], [], [(.fin false 1 0, .fin false 1 0)]] 5 = (0xFFFFFFF1, 0) ∧
    accumulate false [[(.fin false 1 0, .fin false 1 24)], [(.fin false 1 0, .fin false 1 0)], [(.fin false 1 0, .fin false 1 0)]] 0 = (0x4B800000, fNX) := by decide +kernel

/-- R359 to R365: truncation and saturation, f16 in its place, a signed element, dot products, a scale of 2. -/
theorem test_lane_conversions : out (.cvt (f1 0 1 4)) (lanes 0xBFC00000 0 0) = 0xFFFFFFFF ∧ out (.cvt (f1 4 0 0)) (lanes 5 0 0) = 0x40A00000 ∧
    out (.pack { f1 5 0 1 with b := 4 }) (lanes 0x3F800000 0x1234 0) = 0x3C001234 ∧ out (.unpk (f1 12 0 3)) (lanes 0x80123456 0 0) = 0xFFFFFF80 ∧
    out (.mxscale (f2 4 0)) (lanes 0x3F800000 128 0) = 0x40000000 ∧ out (.mxscale (f2 4 0)) (lanes 0x3F800000 255 0) = 0x7FC00000 ∧
    out (.dp4i (f3 0 0)) (lanes 0xFF020304 0x01010101 10) = 18 ∧ out (.dp4i (f3 0 3)) (lanes 0xFF020304 0x01010101 10) = 274 ∧
    out (.dp8i (f3 0 0)) (lanes 0xF1111111 0x11111111 0) = 6 ∧ out (.dp4f (f3 7 0)) (lanes 0x38383838 0x38383838 0x3F800000) = 0x40A00000 ∧
    out (.dqcvt (f1 7 0 0)) (lanes 0x8038 0 0) = 0x40000000 := by decide +kernel

/-! ### Witnesses: lanes across the warp, on-chip memory -/

def crossForms : List (Instr × LaneFields) :=
  [(.shfl (f2 0 0), f2 0 0), (.shflx (f2 0 2), f2 0 2), (.vred (f1 0 5 0), f1 0 5 0), (.vred (f1 4 2 0), f1 4 2 0), (.vscan (f1 3 1 0), f1 3 1 0),
   (.vvote { f1 0 0 0 with dst := 1 }, { f1 0 0 0 with dst := 1 }), (.vvote { f1 0 1 0 with dst := 1 }, { f1 0 1 0 with dst := 1 }),
   (.vvote (f1 0 2 0), f1 0 2 0), (.vfirst (f1 0 0 0), f1 0 0 0)]

theorem witness_CrossLaneResults : ∀ p ∈ crossForms, LaneRuns laneBase (lctx laneBase p.1 p.2) := laneRuns_all (by decide +kernel)

/-- Lane 0 of v2 holds a, lane 31 holds b. -/
def ends (a b : Nat) : State := laneBase.modWarp 4 fun x => (x.writeV 2 0 (BitVec.ofNat 32 a)).writeV 2 31 (BitVec.ofNat 32 b)

/-- R366 to R369: sources outside the warp give the lane's own value; reductions and prefixes in lane order. -/
theorem test_cross_lane : let s := ends 7 9
    out (.shfl (f2 0 0)) (s.modWarp 4 fun x => x.writeV 4 0 31) = 9 ∧ out (.shfl (f2 0 0)) (s.modWarp 4 fun x => x.writeV 4 0 32) = 7 ∧
    ((warpOf (after (.shflx { f2 0 2 with i := true, b := 0, imm := 1 }) s)).readV 8 31) = 9 ∧ out (.vred (f1 0 0 0)) s = 16 ∧ out (.vscan (f1 0 0 0)) s = 7 ∧
    ((warpOf (after (.vscan (f1 0 0 0)) s)).readV 8 31) = 16 ∧ bit (.vvote { f1 0 0 0 with dst := 1 }) s = true ∧ bit (.vvote { f1 0 1 0 with dst := 1 }) s = false ∧
    out (.vvote (f1 0 2 0)) s = 0x80000001 ∧ ((warpOf (after (.vfirst (f1 0 0 0)) s)).readV 8 31) = 7 := by decide +kernel

/-- A predicate that holds in lane 0 only governs the instruction. -/
def one (f : LaneFields) : LaneFields := { f with pred := 2 }

/-- A state in which p2 holds in lane 0 only. -/
def only0 (s : State) : State := s.modWarp 4 fun x => x.setPred 2 1

/-- A store's fields: no destination. -/
def sf (ty : BitVec 4) (imm : W32) : LaneFields := { one (f2 ty 0) with dst := 0, imm := imm }

theorem witness_LaneLoadsAndStores :
    let s := only0 (richLanes 1016 0x12345678 0)
    (∀ p ∈ ([Instr.ldt, .ldc, .lds].flatMap fun c => [(c (one (f1 3 0 0)), one (f1 3 0 0)), (c (one (f1 12 0 5)), one (f1 12 0 5))]) ++
      ([Instr.stt, .stc, .sts].map fun c => (c (sf 3 0), sf 3 0)), LaneRuns s (lctx s p.1 p.2)) ∧
    Sound s (.team 3) 1016 8 ∧ Sound s (.scr 1 0) 1016 8 ∧ s.spaceSize (.spill 4) = 1024 ∧ Ready s :=
  ⟨laneRuns_all (by decide +kernel), by unfold Ready TrapReady Sound; decide +kernel⟩

/-- R370: bytes in order, sign extension, ALIGN before BOUNDS with the lanes that fault, and the interleaved spill stack. -/
theorem test_lane_memory : let s := only0 (richLanes 8 0x12345680 0)
    let t := after (.stt (sf 0 0)) s
    let u := after (.sts (sf 0 0)) s
    t.chipByte (.team 3) 8 = 0x80 ∧ t.chipByte (.team 3) 11 = 0x12 ∧ t.chipByte (.team 3) 12 = 0 ∧ u.chipByte (.spill 4) 256 = 0x80 ∧
    out (.ldt (one (f1 12 0 0))) t = 0xFFFFFF80 ∧ out (.ldt (one (f1 13 0 0))) t = 0x80 ∧ out (.lds (one (f1 0 0 0))) u = 0x12345680 ∧
    trapOf (.ldt (one (f1 0 0 0))) (only0 (richLanes 65534 0 0)) = (0x106, 65534, 1) ∧ trapOf (.ldt (one (f1 0 0 0))) (only0 (richLanes 65536 0 0)) = (0x107, 65536, 1) ∧
    trapOf (.sts (sf 0 0)) (only0 (richLanes 1024 0 0)) = (0x107, 1024, 1) := by decide +kernel

theorem test_lane_scratch : let s := only0 (richLanes 65532 0x12345680 0)
    let t := after (.stc (sf 0 0)) s
    t.chipByte (.scr 1 0) 65535 = 0x12 ∧ out (.ldc (one (f1 14 0 0))) t = 0x5680 ∧ trapOf (.ldc (one (f1 3 0 0))) s = (0x106, 65532, 1) := by decide +kernel

def atomicForms : List (Instr × LaneFields) :=
  [Instr.att, .atc].flatMap fun c => [(c (one (f2 0 4)), one (f2 0 4)), (c (one (f3 3 3)), one (f3 3 3)), (c (one { f2 4 1 with dst := 0 }), one { f2 4 1 with dst := 0 })]

theorem witness_LaneAtomicsAndTiles :
    let s := only0 (richLanes 4088 3 5)
    (∀ p ∈ atomicForms ++ [(Instr.accrd (one (f1 0 0 7)), one (f1 0 0 7)), (.accwr (sf 0 7), sf 0 7)],
      LaneRuns s (lctx s p.1 p.2)) ∧ Sound s (.team 3) 4088 8 ∧ (teamOf s).seqr.isSome = true ∧ (teamOf s).tok 0 = .warps ∧ (teamOf s).tok 1 = .seq ∧ Ready s :=
  ⟨laneRuns_all (by decide +kernel), by unfold Ready TrapReady Sound; decide +kernel⟩

/-- R371: the old value returns; two lanes at one word apply one after the other. R372: element (63, 63), tokens and bounds. -/
theorem test_lane_atomics : let s := (richLanes 8 3 5).modWarp 4 fun x => x.setPred 2 3 |>.writeV 2 1 8 |>.writeV 4 1 4
    let u := after (.att (one (f2 0 4))) s
    let t := only0 (richLanes 4095 9 0)
    ofBytes (u.chipBytes (.team 3) 8 4) = 7 ∧ (warpOf u).readV 8 0 = 0 ∧ (warpOf u).readV 8 1 = 3 ∧
    ofBytes ((after (.atc (one (f2 0 2))) (only0 (richLanes 8 3 5))).chipBytes (.scr 1 0) 8 4) = 3 ∧
    (teamOf (after (.accwr (sf 0 0)) t)).elem 0 63 63 = 9 ∧ out (.accrd (one (f1 0 0 0))) (after (.accwr (sf 0 0)) t) = 9 ∧
    trapOf (.accrd (one (f1 0 1 0))) t = (0x105, 1, 0xFFFFFFFF) ∧ trapOf (.accrd (one (f1 0 0 1))) t = (0x107, 4096, 1) := by decide +kernel

/-! ### Witnesses: engine commands of lanes, control -/

theorem witness_LaneEngineCommandsIssue :
    let s := only0 (richLanes 0 0 0)
    let t := s.modWarp 4 fun x => { x with queue := [{ entry := 0, k := [(0, ⟨0x400, 0⟩), (1, ⟨0x10000, 0⟩)] }] }
    let rows (md : BitVec 3) (imm : W32) : LaneFields := { one (fields 0 md imm 1009 6) with dst := 0, a := 1008 }
    let m (md : BitVec 3) (imm : W32) : LaneFields := { one (fields 0 md imm 4 0) with a := 2 }
    (∀ p ∈ [(Instr.gath (rows 1 0xFFFFFC00), rows 1 0xFFFFFC00), (.scat (rows 6 0), rows 6 0), (.scatAdd { rows 0 0 with dst := 1 }, { rows 0 0 with dst := 1 })], LaneRuns t (lctx t p.1 p.2)) ∧
    (∀ p ∈ [(Instr.matom (m 4 0x08000000), m 4 0x08000000), (.matom { m 1 0 with dst := 0 }, { m 1 0 with dst := 0 })], LaneRuns s (lctx s p.1 p.2)) ∧
    Sound t (.team 3) 0x400 256 ∧ (warpOf t).count 1 < 255 ∧ (lctx t (.gath (rows 1 0)) (rows 1 0)).part = [0] ∧ Ready t :=
  ⟨laneRuns_all (by decide +kernel), laneRuns_all (by decide +kernel), by unfold Ready TrapReady Sound; decide +kernel⟩

/-- R374, R375, R376: one row per lane that takes part; the bytes of a scatter are those read at issue; RET makes vD pending. -/
theorem test_lane_engine :
    let s := only0 (richLanes 0x10008 5 16)
    let t := s.modWarp 4 fun x => { x with queue := [{ entry := 0, k := [(0, ⟨0x400, 0⟩), (1, ⟨0x10000, 0⟩)] }] }
    let rows (md : BitVec 3) (imm : W32) : LaneFields := { one (fields 0 md imm 1009 6) with dst := 0, a := 1008 }
    let m (md : BitVec 3) (imm : W32) : LaneFields := { one (fields 3 md imm 4 0) with a := 2 }
    let u := after (.matom (m 4 0x08000000)) (only0 (richLanes 0x10008 5 0))
    opKind (after (.gath (rows 1 0)) t) = some (.move [{ src := .main 0x10010, dst := .buf 0, len := 8, lanes := [0] }, { src := .buf 0, dst := .team 0x400, len := 8, lanes := [0] }] none) ∧
    opKind (after (.scatAdd { rows 0 0 with dst := 1 }) (filled t [(0x400, 7)])) = some (.rmws [{ va := 0x10010, len := 4, aop := .add, cmp := 0, opnd := 7, lane := 0 }]) ∧
    opKind u = some (.rmws [{ va := 0x10008, len := 8, aop := .add, cmp := 0, opnd := 5, lane := 0 }]) ∧
    memb (warpOf u).vPend (64 * 9 + 31) = true ∧ memb (warpOf u).vPend (64 * 10) = false ∧ (warpOf u).count 2 = 1 := by decide +kernel

/-- A lane base in which p2 holds in lane 0 and barrier 2 is armed for every lane, v2 holds 9 in lane 0. -/
def forked : State := (only0 (lanes 9 0 0)).modWarp 4 fun x => { x with rcv := [(2, { armed := true, exp := 0xFFFFFFFF, arr := 0, rparent := 0 })] }

theorem witness_LaneBranches : (∀ p ∈ [(Instr.bra (ctl 0xFFFFFFFF), ctl 0xFFFFFFFF), (.bra (one (ctl 5)), one (ctl 5)), (.lcall { ctl 5 with dst := 8 }, { ctl 5 with dst := 8 }),
      (.lret (one { ctl 0 with a := 2 }), one { ctl 0 with a := 2 })], LaneRuns forked (lctx forked p.1 p.2)) ∧ forked.freeEntry 4 = some 1 :=
  ⟨laneRuns_all (by decide +kernel), by decide +kernel⟩

/-- R377, R378: the takers get a new entry at the target, the others keep the old one; a uniform branch splits nothing. -/
theorem test_branch : let s := after (.bra (one (ctl 5))) forked
    (warpOf s).entries.map (fun e => (e.1, e.2.mask, e.2.pc)) = [(0, 0xFFFFFFFE, 1), (1, 1, 5)] ∧
    (warpOf (after (.bra (ctl 0xFFFFFFFF)) forked)).entries.map (fun e => (e.1, e.2.pc)) = [(0, 0xFFFFFFFF)] ∧
    (warpOf (after (.lcall { ctl 5 with dst := 8 }) forked)).readV 8 31 = 1 ∧
    (warpOf (after (.lret (one { ctl 0 with a := 2 })) forked)).entries.map (fun e => (e.1, e.2.mask, e.2.pc)) = [(0, 1, 9), (1, 0xFFFFFFFE, 1)] := by decide +kernel

/-- An `lret` of lanes 0 to 3 to 9, 5, 5 and 1, the lanes from 4 on going on at 1; `n` other entries are in use. -/
def returning (n : Nat) : State := forked.modWarp 4 fun x =>
  let y := (((x.setPred 2 0xF).writeV 2 1 5).writeV 2 2 5).writeV 2 3 1
  { y with entries := y.entries ++ (List.range n).map fun i => (i + 1, newEntry 0 0 0) }

theorem witness_LaneBranches_groups : (∀ n ∈ [0, 62, 63], laneOk (returning n) (.lret (one { ctl 0 with a := 2 })) (one { ctl 0 with a := 2 }) = true) ∧
    (lctx (returning 0) (.lret (one { ctl 0 with a := 2 })) (one { ctl 0 with a := 2 })).part = [0, 1, 2, 3] ∧
    (returning 62).freeEntry 4 = some 63 ∧ (returning 63).freeEntry 4 = none ∧
    ((returning 62).modWarp 4 fun x => { x with entries := tPut x.entries 63 (newEntry 6 5 0) }).freeEntry 4 = none := by decide +kernel

/-- R378, R167: the groups in ascending order of their lowest lane; one that finds no entry waits. -/
theorem test_lret_groups : let go (n : Nat) : List (Nat × Entry) := (warpOf (after (.lret (one { ctl 0 with a := 2 })) (returning n))).entries
    (go 0).map (fun e => (e.1, e.2.mask, e.2.pc)) = [(0, 1, 9), (1, 6, 5), (2, 8, 1), (3, 0xFFFFFFF0, 1)] ∧
    (tFind (go 62) 63).map (fun e => (e.mask, e.pc)) = some (6, 5) ∧ (tFind (go 62) 0).map (fun e => (e.mask, e.pc, e.state)) = some (0xFFFFFFF9, 0, .splitWait) ∧
    (tFind (go 63) 0).map (fun e => (e.mask, e.state)) = some (0xFFFFFFFF, .splitWait) := by decide +kernel

/-- R60, R108: of two lanes whose late stores share a byte, the higher one's value stands. -/
theorem test_late_stores_together : let x : LateStore := { grid := 1, die := 0, parts := [(0, 8, [1, 1]), (1, 9, [2])], lab := 0 }
    let s := richLanes 0 0 0
    ((s.modWarp 4 fun y => { y with late := [x] }).flushLate 4 fun _ => true).chipBytes (.scr 1 0) 8 2 = [1, 2] := by decide +kernel

theorem witness_ReconvergenceAndBlockEnds : (∀ p ∈ [(Instr.rcvMark (ctl 7), ctl 7), (.rcvWait (ctl 8), ctl 8), (.rcvWait (ctl 10), ctl 10), (.lend (ctl 0), ctl 0), (.idle (one (ctl 0)), one (ctl 0)),
      (.ltrap (one (ctl 0xFFFFFFFF)), one (ctl 0xFFFFFFFF))], LaneRuns forked (lctx forked p.1 p.2)) ∧ (warpOf forked).running = true ∧ (warpOf forked).entries.length = 1 ∧ Ready forked :=
  ⟨laneRuns_all (by decide +kernel), by unfold Ready TrapReady; decide +kernel⟩

/-- R169: mark, then wait in the only entry. R380 to R383. -/
theorem test_reconvergence : (warpOf (after (.rcvMark (ctl 7)) forked)).rcvAt 7 = { armed := true, exp := 0xFFFFFFFF, arr := 0, rparent := 0 } ∧
    ((tFind (warpOf (after (.rcvMark (ctl 7)) forked)).entries 0).getD default).parent = 8 ∧
    (warpOf (after (.rcvWait (ctl 10)) forked)).rcvAt 2 = Rcv.none ∧ (warpOf (after (.rcvWait (ctl 8)) forked)).entries.map (fun e => e.2.pc) = [1] ∧
    (warpOf (after (.lend (ctl 0)) forked)).running = false ∧ (warpOf (after (.lend (ctl 0)) forked)).queue = [] ∧
    ((tFind (warpOf (after (.idle (one (ctl 0))) forked)).entries 0).getD default).mask = 0xFFFFFFFE ∧
    trapOf (.ltrap (one (ctl 0xFFFFFFFF))) forked = (0x131, 0xFFFFFFFF, 1) := by decide +kernel

/-- The enriched lane base whose lanes 1 to 31 are idle; deque 0 holds the words 0x11 and 0x22 of team 0. -/
def hungry : State :=
  let s := only0 (richLanes 0 0 0)
  let s : State := { s with deques := [(0, { log2cap := 4, owner := some (1, 0), ctx := 0, base := 0, bottom := 2, top := 0, ring := [(0, ⟨0x11, 0⟩), (1, ⟨0x22, 0⟩)], ce := [], ue := [] })] }
  s.modWarp 4 fun x => x.modEntry 0 fun e => { e with mask := 1 }

theorem witness_ReconvergenceAndBlockEnds_refill : LaneRuns hungry (lctx hungry (.refill { ctl 0 with dst := 8 }) { ctl 0 with dst := 8 }) ∧
    hungry.roleTarget (gridOf hungry) (ctxOf hungry) 2 0 4 = some 0 ∧ (gridOf hungry).gridId = 1 ∧ (warpOf hungry).count 2 < 255 :=
  ⟨laneRuns_of (by decide +kernel), by decide +kernel⟩

/-- R170: the idle lanes get words from the bottom, in ascending order; the participating lane's pair is 0. -/
theorem test_refill : opKind (after (.refill { ctl 0 with dst := 8 }) hungry) = some (.refill 0 [(1, ⟨0x22, 0⟩), (2, ⟨0x11, 0⟩)]) ∧
    memb (warpOf (after (.refill { ctl 0 with dst := 8 }) hungry)).vPend (64 * 8 + 2) = true ∧
    trapOf (.refill { ctl 3 with dst := 8 }) hungry = (0x101, BitVec.ofNat 64 (ofBytes (encode (.refill { ctl 3 with dst := 8 })) / 2 ^ 32), 1) := by decide +kernel

/-! ### Witnesses: the sequencer -/

/-- The sequencer of team 3 executes, with m registers set. -/
def seqs (l : List (Nat × W32)) : State :=
  { base.modTeam 3 fun t => { t with seqr := some { Seqr.start with m := l.map fun e => (e.1, ⟨e.2, 0⟩) } } with cur := .seq 3 }

/-- The sequencer of a small state. -/
def seqOf (s : State) : Seqr := (teamOf s).seqr.getD default

/-- The premises of a statement about a sequencer instruction on a small state. -/
def SeqReady (s : State) (i : Instr) : Prop := SeqRuns s { t := 3, y := teamOf s, q := seqOf s, g := gridOf s, c := ctxOf s } i

/-- A register m. -/
def mreg (s : State) (n : Nat) : W32 := (tGet (seqOf s).m ⟨0, 0⟩ n).val

theorem witness_SequencerControlAndBarriers :
    let s := seqs [(1, 1), (15, 7)]
    SeqReady s (.mset 15 0xFFFFFFFF) ∧ SeqReady s (.madd 1 2 3 true 0) ∧ SeqReady s (.madd 1 2 0 false 5) ∧ SeqReady s (.mloop 1 0xFFFFFFFF) ∧
    SeqReady s (.mjmp 0xFFFFFFFF) ∧ SeqReady s .mfence ∧ SeqReady s .mhalt ∧ SeqReady s (.mwait 15 0) ∧ Sound s (.bar 3) 120 8 ∧
    SeqReady s (.marrive 15 1 true 63) ∧ SeqReady s (.mtrel 7) ∧ SeqReady s (.mtacq 7) ∧ (teamOf s).tok 7 = .seq ∧ s.firstWarp (teamOf s) = some 4 := by
  unfold SeqReady SeqRuns SeqAt Sound; decide +kernel

/-- R399 to R403: the loop ends at 0, targets count 8 bytes; the wait and the arrival on a barrier word; a token released twice stops. -/
theorem test_sequencer : let s := seqs [(1, 1), (2, 9)]
    (seqOf (after (.mloop 1 0xFFFFFFFF) s)).pc = 8 ∧ (seqOf (after (.mloop 2 0xFFFFFFFF) s)).pc = 0xFFFFFFF8 ∧ mreg (after (.mloop 2 1) s) 2 = 8 ∧
    mreg (after (.mset 3 77) s) 3 = 77 ∧ mreg (after (.madd 3 1 2 true 0) s) 3 = 10 ∧ mreg (after (.madd 3 2 0 false 0xFFFFFFFF) s) 3 = 8 ∧
    (seqOf (after (.mjmp 3) s)).pc = 24 ∧ (seqOf (after .mhalt s)).run = .halted ∧ (seqOf (after .mfence s)).pc = 8 ∧
    (seqOf (after (.mwait 0 1) s)).pc = 8 ∧ (seqOf (after (.mwait 0 0) s)).waits = true ∧ ((teamOf (after (.marrive 0 1 true 2) s)).bar 0).count = 1 ∧
    mreg (after (.marrive 0 1 true 2) s) 1 = 0 ∧ (teamOf (after (.mtrel 7) s)).tok 7 = .offered ∧ (seqOf (after (.mtacq 7) s)).pc = 8 := by decide +kernel

theorem test_sequencer_stops : let s := after (.mtrel 0) ({ seqs [] with work := (seqs []).work }.modTeam 3 fun t => { t with tokens := [(0, .warps)] })
    (seqOf s).run = .stopped 5 ∧ (warpOf s).due.map (fun d => (d.rank, d.code, d.val)) = [(3, 5, 0)] := by decide +kernel

theorem witness_TileMoves :
    let s := filled (seqs [(1, 64512)]) [(64512, 0x200000001)]
    SeqReady s (.mzero 30 4) ∧ SeqReady s (.mload 0 7 1 0) ∧ SeqReady s (.mstore 0 7 1 64) ∧ (∀ t ∈ [4, 5, 6, 7], (teamOf s).tok t = .seq) ∧
    64512 + 16 * 64 = s.spaceSize (.team 3) ∧ (∀ i ∈ List.range 16, Sound s (.team 3) (64512 + 64 * i) 64) := by
  unfold SeqReady SeqRuns SeqAt Sound; decide +kernel

/-- R395, R396: rows of N words; the elements of M × N of a tile. -/
theorem test_tile_moves : let s := filled (seqs [(1, 64512), (2, 1024)]) [(64512, 0x200000001), (64576, 3)]
    let u := { after (.mload 0 7 1 0) s with cur := .seq 3 }
    let z := after (.mzero 30 4) u
    (teamOf u).elem 7 0 0 = 1 ∧ (teamOf u).elem 7 0 1 = 2 ∧ (teamOf u).elem 7 1 0 = 3 ∧ (teamOf z).elem 7 1 0 = 0 ∧
    ofBytes ((after (.mstore 0 7 2 128) u).chipBytes (.team 3) (1024 + 128) 4) = 3 ∧
    (seqOf (after (.mzero 0 0) (s.modTeam 3 fun t => { t with tokens := [(0, .warps)] }))).run = .stopped 5 := by decide +kernel

/-- Team memory with a format block of FP32 by FP32 at 64, A at 128 and B at 1024: A(0, 1) = 2, B(0, 1) = 3 (column 0). -/
def matrices : State := filled (seqs [(1, 128), (2, 1024), (3, 64), (4, 4096), (5, 8192)]) [(64, 4), (72, 4), (128, 0x4000000000000000), (1024, 0x4040000000000000)]

theorem witness_QuantisationAndScaling :
    SeqReady matrices (.mquant 2 0 4 5 11 false 0 0 false 0) ∧ SeqReady matrices (.mquant 0 0 4 0 6 false 0 0 true 64) ∧ (4096 : Nat) % 4 = 0 ∧
    (∀ i ∈ List.range 16, 4096 + i * 16 + 16 ≤ matrices.spaceSize (.team 3) ∧ Sound matrices (.team 3) (4096 + i * 16) 16) ∧
    Sound matrices (.team 3) 8192 16 ∧ 4096 + 15 * 16 + 16 ≤ 8192 ∧ SeqReady matrices (.mscale 0 0 4 5 false true true) ∧
    Sound matrices (.team 3) 4096 64 := by
  unfold SeqReady SeqRuns SeqAt Sound; decide +kernel

theorem witness_MatrixMultiply :
    let k : QCtx := { t := 3, y := teamOf matrices, q := seqOf matrices, g := gridOf matrices, c := ctxOf matrices }
    let a : Side := { ty := 4, blk := 8, sc := false }
    SeqReady matrices (.mma 0 0 1 2 3 true false) ∧ SeqReady matrices (.mmas 0 0 1 2 3 3 true true) ∧ Sound matrices (.team 3) 64 32 ∧
    sideOf 4 = some a ∧ baseK a a = 8 ∧ k.q.alatch = none ∧ (∀ t, t < 8 → (teamOf matrices).tok t = .seq) ∧
    (∀ p ∈ [(128, false), (1024, true)], let o : Opnd := { d := a, n := 16, kk := 8, off := p.1, scof := 0, bmof := 0, sp := p.2 }
      (∀ x ∈ o.aligns, x % 4 = 0) ∧ ∀ r ∈ o.ranges matrices (.team 3), r.1 + r.2 ≤ 65536 ∧ Sound matrices (.team 3) r.1 r.2) ∧
    tGet ({ matrices with residue := [(0, 4)] } : State).residue 0 0 ≤ tGet matrices.belv.spares 4 0 ∧
    tGet matrices.residue 0 0 ≤ tGet matrices.belv.spares 4 0 := by
  unfold SeqReady SeqRuns SeqAt Sound; decide +kernel

/-- R391, R273: one product, 2 × 3, onto +0 in a step of K = 8. -/
theorem test_mma : let s := after (.mma 0 0 1 2 3 true false) matrices
    (teamOf s).elem 0 0 0 = 0x40C00000 ∧ (teamOf s).elem 0 0 1 = 0 ∧ (seqOf s).sc = 1 ∧ (seqOf s).pc = 8 ∧ (seqOf s).alatch = none := by decide +kernel

/-- R397, R398: a bf16 code at its place; a factor per row. -/
theorem test_mquant_mscale : let s := (filled (seqs [(4, 4096)]) [(4096, 0x40400000)]).modTeam 3 fun t => { t with tiles := [(0, 0x3F800000)] }
    ofBytes ((after (.mquant 0 0 4 0 6 false 0 0 false 0) s).chipBytes (.team 3) 4096 4) = 0x3F80 ∧
    (teamOf (after (.mscale 0 0 4 0 false false true) s)).elem 0 0 0 = 0x40400000 := by decide +kernel

/-! ### Witnesses: events of issue, engines -/

/-- A lane base with two entries at one PC. -/
def paired : State := laneBase.modWarp 4 fun x => { x with
  entries := [(0, { (tFind x.entries 0).getD default with mask := 1 }), (1, { (tFind x.entries 0).getD default with mask := 2 })] }

theorem witness_IssueEvents : paired.warp 4 = some (warpOf paired) ∧ (warpOf paired).entries.map (fun e => (e.1, e.2.state, e.2.pc, e.2.parent)) =
    [(0, .ready, 0, 0), (1, .ready, 0, 0)] ∧ paired.work.ops = [] ∧
    (let s := base.modWarp 4 fun x => { x with wait := .yieldc 1 0 64 }
     (warpOf s).wait = .yieldc 1 0 64 ∧ (warpOf s).count 1 ≤ 0 ∧ (warpOf (after (.yieldcResume 4) s)).pc = 64) ∧
    (let s := base.modWarp 4 fun x => { x with wait := .yield [9] 64 }
     (warpOf s).wait = .yield [9] 64 ∧ (warpOf (after (.yieldTimeout 4) s)).wait = .none) ∧
    (let d : DueTrap := { rank := 5, code := 0x30, val := 0, lanes := 0, entry := none, pcL := 0 }
     let s := base.modWarp 4 fun x => { x with due := [d] }
     (warpOf s).due = [d] ∧ (warpOf s).inFlight = false ∧ (gridOf s).trapvec.getLsbD 0 = true ∧ (warpOf (after (.preemptNotice 4) s)).cause = 0x30 ∧
     (teamOf (after (.preemptNotice 4) s)).noticed = true) := by decide +kernel

/-- R166, R201: fusion, and the raise at 64 cycles. -/
theorem test_issue_events : (warpOf (after (.entryFuse 4) paired)).entries.map (fun e => (e.1, e.2.mask)) = [(0, 3)] ∧
    (warpOf (after (.candidateRaise 0 0) (base.modWarp 4 fun x => { x with sAge := 64 }))).sRaised = true ∧
    (warpOf (after (.candidateRaise 0 0) (base.modWarp 4 fun x => { x with sAge := 63 }))).sRaised = false ∧
    ((tFind (warpOf (after (.splitRetry 4 0) (({ State.reset.placed (encode (.bra (ctl 5))) true with cur := .none } : State).modWarp 4 fun x =>
      x.modEntry 0 fun e => { e with state := .splitWait }))).entries 0).getD default).pc = 5 := by decide +kernel

/-- A split entry that waits, with the bytes of its branch at its PC. -/
theorem witness_IssueEvents_retry : let s := (State.reset.placed (encode (.bra (ctl 5))) true).modWarp 4 fun x => x.modEntry 0 fun e => { e with state := .splitWait }
    s.home (warpOf s) = some (teamOf s, gridOf s, ctxOf s) ∧ ((tFind (warpOf s).entries 0).map (·.state)) = some .splitWait ∧
    (s.fetchInstr .lane 0 0 0 0 12 id).2.toOption = some (.bra (ctl 5)) := by decide +kernel

/-- A scalar `satom` that has issued. -/
def issued : State := { after (.satom 5 6 7 4 false 0) (richly [(6, 0x10008), (7, 3)]) with cur := .none }

/-- Its one read-modify-write performed. -/
def performed : State := issued.enginePiece 5 0

theorem witness_EnginePiecesAndPlaces :
    let o := (issued.op 5).getD default
    let q := (performed.op 5).getD default
    issued.mgmt.run = .run ∧ issued.warp o.warp = some (warpOf issued) ∧ o.kind = .rmws [{ va := 0x10008, len := 8, aop := .add, cmp := 0, opnd := 3, lane := 0 }] ∧
    o.todo = [0] ∧ ((warpOf issued).pendOf o.cls).head? = some 5 ∧ (tFind o.trans 1).map (fun t => (t.ppn, t.poison, attrWatch t.attr)) = some (0x105, false, false) ∧
    (issued.meetLine 0 0 0x10008 ((tFind o.trans 1).getD default)).2 = false ∧
    q.todo = [] ∧ q.slot = none ∧ q.wrote = [] ∧ q.ret = .s 5 ∧ q.got = [(0, ⟨0, 0⟩)] ∧ (warpOf performed).pendOf q.cls = [5] := by decide +kernel

/-- R24, R216: the word in memory, then the destination and the counter. -/
theorem test_engine : ofBytes (performed.peekN 0 0x1050008 8) = 3 ∧ memb (warpOf performed).sPend 5 = true ∧
    memb (warpOf (after (.counterRetire 5) performed)).sPend 5 = false ∧ (warpOf (after (.counterRetire 5) performed)).count 2 = 0 ∧
    (after (.counterRetire 5) performed).op 5 = none := by decide +kernel

/-- A nameless store of 8 bytes that has issued. -/
def storing : State := { after (.nstore 5 6 1) (filled (richly [(5, 64), (6, 8)]) [(64, 0x1122334455667788)]) with cur := .none }

theorem witness_EnginePiecesAndPlaces_nstore :
    let o := (storing.op 5).getD default
    let c := ctxOf storing
    let p := (tFind c.pools 0).getD default
    o.kind = .nstore 0 [0x88, 0x77, 0x66, 0x55, 0x44, 0x33, 0x22, 0x11] 0 ∧ o.done = false ∧ storing.anyFree 0 c p 0 = true ∧ storing.poolFree 0 c p 0 1023 = true ∧
    (storing.fillUnit o 0x1FFC0 64 [0x88]).2 = false ∧ 0x1FFC0 % 65536 + 64 ≤ 65536 := by decide +kernel

/-- R160: the bytes and zeros of the unit, and its address as the name. -/
theorem test_nstore_place : let s := after (.nstorePlace 5 1023) storing
    ofBytes (s.peekN 0 0x105FFC0 8) = 0x1122334455667788 ∧ (s.op 5).map (fun o => (o.done, o.got)) = some (true, [(0, ⟨0x1FFC0, 0⟩)]) ∧
    ((tFind (ctxOf s).pools 0).getD default).used = [1023] := by decide +kernel

/-! ### Witnesses: queues and packets -/

/-- A packet of the physical function on queue 0, in its context 0. -/
def packet (stage : PStage) (ws : List W64) : Packet :=
  { fn := 16, q := 0, period := 0, words := ws, stage := stage, status := 0, cause := 0, slot := 0, detail := 0, subs := [], tiles := [], ticket := 0,
    syncOps := [], syncAccs := [], syncSigs := [], newView := false, silent := false }

/-- The enriched base with one packet under key 9. -/
def posted (stage : PStage) (ws : List W64) : State :=
  { rich with cur := .none, front := { rich.front with packets := [(9, packet stage ws)] } }

/-- The packet of a small state. -/
def packetOf (s : State) : Packet := (s.packet 9).getD default

theorem packetStarts_of {s : State} {p : Packet} (h1 : s.front.packets = [(9, p)]) (h2 : s.mgmt.run = .run) (h3 : p.stage = .valid) (h4 : p.subs = [])
    (h5 : (s.ctx p.ctx).any (fun c => c.fn == p.fn && !c.invalid) = true) : PacketStarts s 9 p := by
  refine ⟨by simp [State.packet, tFind, h1], h2, h3, h4, ?_, ?_, ?_⟩
  · cases hc : s.ctx p.ctx with
    | none => simp [hc] at h5
    | some c => exact ⟨c, rfl, by simpa [hc] using h5⟩
  · rintro e he hk
    simp only [h1, List.mem_singleton] at he
    subst he
    exact absurd hk (Nat.lt_irrefl 9)
  · rintro _ e he hk
    simp only [h1, List.mem_singleton] at he
    subst he
    exact absurd hk (Nat.lt_irrefl 9)

theorem witness_QueuesAndRegisters : base.mgmt.run = .run ∧ (base.queue 16 15).en = false ∧ (base.queue 16 15).pend = none ∧
    (let s := after (.queueEnable 0 15) base
     (s.queue 0 15).en = true ∧ (s.queue 0 15).head = 0 ∧ (s.queue 0 15).log2n.toNat ≤ 16 ∧ ((tFind s.front.mail 0).getD []).length < 64) := by decide +kernel

/-- R180, R188, R191. -/
theorem test_queues : let s := after (.queueEnable 0 15) base
    let u := after (.doorbell 0 15 1) s
    (s.queue 0 15).period = (base.queue 0 15).period + 1 ∧ (u.queue 0 15).head = 1 ∧ (u.queue 0 15).inflight = 1 ∧ (u.packet 5).map (·.stage) = some .fetched ∧
    ((after (.queueDisable 0 15) u).queue 0 15).en = false ∧ ((after (.registerWrite 0 0x11E8 0x8000000000000000) base).queue 0 15).en = true ∧
    ((after (.registerWrite 0 0x11E0 0x12345FFF) base).queue 0 15).base = 0x12345000 ∧
    (tGet (after (.registerWrite 16 0x100 7) base).mgmt.mcmd 0 0) = 7 := by decide +kernel

/-- R188: the message fires ICT microseconds after PEND was set. -/
theorem test_coalesce : let s := { base with front := { base.front with queues := [(3, { Queue.reset with pend := some 5000, ict := 5, vec := 9 })] } }
    (after (.coalesceTimer 0 3) s).outbox = [.msix 0 9] ∧ ((after (.coalesceTimer 0 3) s).queue 0 3).pend = none := by decide +kernel

/-- A mailbox of the physical function with one request. -/
def mailed (ws : List W64) (ns : Nat) : State :=
  { posted .fetched ws with front := { (posted .fetched ws).front with mail := [(16, [{ packet := 9, bad := false, ns := ns }])] } }

theorem witness_MailboxesAndSimplePackets : (mailed [6, 0, 0, 0, 0, 0, 0, 0] 0).mgmt.run = .run ∧
    (∀ q, q < 16 → ((mailed [6] 0).queue 16 q).en = false) ∧ tFind (mailed [6] 100000000).front.mail 16 = some [{ packet := 9, bad := false, ns := 100000000 }] ∧
    PacketStarts (posted .valid [2, 0, 0, 0, 0, 0, 0, 0]) 9 (packet .valid [2, 0, 0, 0, 0, 0, 0, 0]) ∧
    PacketStarts (posted .valid [3, 0, 0, 0, 0x10000, 0x100, 1, 0]) 9 (packet .valid [3, 0, 0, 0, 0x10000, 0x100, 1, 0]) ∧
    PacketStarts (posted .valid [4, 0, 0, 0, 1, 0, 0x20000, 0]) 9 (packet .valid [4, 0, 0, 0, 1, 0, 0x20000, 0]) :=
  ⟨by decide +kernel, by decide +kernel, by decide +kernel, packetStarts_of (by decide +kernel) (by decide +kernel) (by decide +kernel) (by decide +kernel) (by decide +kernel),
    packetStarts_of (by decide +kernel) (by decide +kernel) (by decide +kernel) (by decide +kernel) (by decide +kernel),
    packetStarts_of (by decide +kernel) (by decide +kernel) (by decide +kernel) (by decide +kernel) (by decide +kernel)⟩

/-- Outcomes of a packet: its stage, status, cause and detail. -/
def outcome (i : Instr) (s : State) : PStage × Nat × BitVec 8 × W64 := let p := packetOf (after i s)
  (p.stage, p.status, p.cause, p.detail)

theorem test_mailbox : outcome (.mailboxRequest 16) (mailed [6, 0, 0, 0, 0, 0, 0, 0] 0) = (.valid, 0, 0, 0) ∧
    outcome (.mailboxRequest 16) (mailed [0x100006, 0, 0, 0, 0, 0, 0, 0] 0) = (.finished, 1, 1, 0) ∧
    outcome (.mailboxRequest 16) (mailed [6, 0, 0, 0, 0, 1, 0, 0] 0) = (.finished, 1, 0x40, 0) ∧
    tFind (after (.mailboxTimeout 16) (mailed [6] 100000000)).front.mail 16 = some [{ packet := 9, bad := false, ns := 0 }] := by decide +kernel

/-- R183: each simple packet. The watched word reads 0. -/
theorem test_packets : outcome (.signalSet 9) (posted .valid [2]) = (.finished, 0, 0, 0) ∧ outcome (.nop 9) (posted .valid [6]) = (.finished, 0, 0, 0) ∧
    outcome (.timestamp 9) { posted .valid [5] with time := 77 } = (.finished, 0, 0, 77) ∧
    outcome (.signalWait 9) (posted .valid [3, 0, 0, 0, 0x10000, 0x100, 1, 0]) = (.started, 0, 0, 0) ∧
    outcome (.signalWait 9) (posted .valid [3, 0, 0, 0, 0x10000, 0x200, 1, 0]) = (.finished, 0, 0, 0) ∧
    outcome (.signalWait 9) (posted .valid [3, 0, 0, 0, 0x20000, 0x200, 1, 0]) = (.finished, 2, 0x12, 0) ∧
    outcome (.signalWordPoll 9 false) (posted .started [3, 0, 0, 0, 0x10000, 0x200, 1, 0]) = (.finished, 0, 0, 0) ∧
    outcome (.mapEdit 9) (posted .valid [4, 0, 0, 0, 1, 0, 0x20000, 0x10600007]) = (.finished, 0, 0, 0) ∧
    outcome (.mapSync 9) (posted .valid [4, 0, 0, 0, 2, 0, 0x20000, 1]) = (.finished, 0, 0, 0) ∧
    outcome (.mapRefit 9) (posted .valid [4, 0, 0, 0, 3, 0, 0, 0]) = (.finished, 0, 0, 0) := by decide +kernel

theorem witness_BundlesAndCopies : PacketStarts (posted .valid [1, 0, 0, 0, 0x10000, 0, 0, 0]) 9 (packet .valid [1, 0, 0, 0, 0x10000, 0, 0, 0]) ∧
    ((posted .valid [1]).readWords 0 0x10000 32 .r).2.toOption = some (List.replicate 32 0) :=
  ⟨packetStarts_of (by decide +kernel) (by decide +kernel) (by decide +kernel) (by decide +kernel) (by decide +kernel), by decide +kernel⟩

/-- Bytes of words in the data page of a small state. -/
def paged (s : State) (l : List (Nat × Nat)) : State := { s with mem := l.foldl (fun m e => m.pokeN 0 (0x1050000 + e.1) (toBytes 8 e.2)) s.mem }

/-- R185, R186: an empty bundle is refused; a COPY slot starts, reads its descriptor, and issues the operation. -/
theorem test_bundle : outcome (.bundle 9) (posted .valid [1, 0, 0, 0, 0x10000, 0, 0, 0]) = (.finished, 1, 1, 0) ∧
    (let s := after (.bundle 9) (paged (posted .valid [1, 0, 0, 0, 0x10000, 0, 0, 0]) [(0, 0x100000002), (8, 0x10100), (0x100, 0x10200), (0x108, 0x10300), (0x110, 8)])
     let u := after (.copyDescriptor 9 0) s
     (packetOf s).subs.map (·.kind) = [.copy 0x10100 1 0, .empty, .empty, .empty] ∧
     opKind u = some (.move [piece (.main 0x10200) (.buf 0) 8, piece (.buf 0) (.main 0x10300) 8] none)) := by decide +kernel

theorem witness_PacketRetirement : let s := posted .finished [0x500004006, 0x10008, 77, 0x10010]
    s.mgmt.run = .run ∧ (packetOf s).silent = false ∧ (s.ctx (packetOf s).ctx).map (·.fn) = some 16 ∧ (packetOf s).word 0 / 65536 % 2 = 0 ∧
    (s.devWrite 0 0x10010 (List.replicate 16 0)).2 = true ∧ (s.devWrite 0 0x10008 (toBytes 8 77)).2 = true := by decide +kernel

/-- R187: the record with TAG, CAUSE, SLOT and STATUS, and the signal; R188: PEND. -/
theorem test_retire : let s := posted .finished [0x500004006, 0x10008, 77, 0x10010]
    let u := after (.packetRetire 9) s
    u.packet 9 = none ∧ ofBytes (u.peekN 0 0x1050010 8) = 0x500000000 ∧ ofBytes (u.peekN 0 0x1050008 8) = 77 := by decide +kernel

/-! ### Witnesses: management commands -/

/-- A state whose command block holds some words, submitted and taken. -/
def commanded (s : State) (ws : List Nat) : State :=
  let block := (ws.zipIdx.filter fun e => e.1 != 0).map fun e => (e.2, BitVec.ofNat 64 e.1)
  s.modMgmt fun m => { m with cmdBusy := true, mcmd := block, cmd := block }

/-- STATUS and CAUSE of a command. -/
def result (i : Instr) (s : State) (ws : List Nat) : Nat × Nat :=
  let r := (after i (commanded s ws)).mgmt.mresult.toNat
  (r % 256, r / 65536 % 256)

theorem namesOnly_of {s : State} {masks : List Nat} (h : (decide (s.cmdWord 0 / 65536 % 65536 = 0) && (List.range 16).all fun i =>
    i == 0 || decide (BitVec.ofNat 64 (s.cmdWord i) &&& ~~~(BitVec.ofNat 64 ((masks[i - 1]?).getD 0)) = 0)) = true) : NamesOnly s masks := by
  simp only [Bool.and_eq_true, decide_eq_true_eq, List.all_eq_true, List.mem_range, Bool.or_eq_true, beq_iff_eq] at h
  refine ⟨h.1, fun i h1 h2 => ?_⟩
  rcases h.2 i (by omega) with h3 | h3
  · omega
  · exact h3

theorem witness_SettingCommands : CommandAt (commanded base [1, 64]) 1 ∧ NamesOnly (commanded base [1, 64]) [0x7F] ∧ CommandAt (commanded base [1, 0x80]) 1 ∧
    CommandAt (commanded base [8, 6, 5, 63]) 8 ∧ NamesOnly (commanded base [8, 6, 5, 63]) [0xFF, 2 ^ 64 - 1, 2 ^ 64 - 1] :=
  ⟨by unfold CommandAt; decide +kernel, namesOnly_of (by decide +kernel), by unfold CommandAt; decide +kernel, by unfold CommandAt; decide +kernel, namesOnly_of (by decide +kernel)⟩

/-- R193, R225: limits, reserved bits, the fields of registers. -/
theorem test_settings : result .setslice base [1, 64] = (0, 0) ∧ result .setslice base [1, 65] = (1, 1) ∧ result .setslice base [1, 0x80] = (1, 1) ∧
    (after .setslice (commanded base [1, 64])).mgmt.slice = 64 ∧ result .setweight base [2, 15, 16] = (0, 0) ∧ result .setweight base [2, 15, 0] = (1, 1) ∧
    (after .regwrite (commanded base [8, 4, 3, 0])).mgmt.ctrctl = 1 ∧ result .regwrite base [8, 7, 0, 0] = (1, 1) ∧
    tGet (after .regread (commanded base [9, 1, 0, 0])).mgmt.mcmd 0 1 = base.mgmt.sched ∧ result .mslextend base [7, 23] = (1, 1) := by decide +kernel

theorem findNat_some {p : Nat → Bool} : ∀ {n b i : Nat}, i < n → p (b + i) = true → (findNat p n b).isSome = true
  | 0, _, _, h, _ => absurd h (Nat.not_lt_zero _)
  | n + 1, b, i, h, hp => by
    unfold findNat
    split
    · rfl
    · cases i with
      | zero => simp_all
      | succ i => exact findNat_some (i := i) (Nat.lt_of_succ_lt_succ h) (by rw [← hp]; congr 1; omega)

/-- With the first frame of HBM free, Lighthouse finds a frame whatever it chooses (log 13). -/
theorem takes_frame (s : State) (h : s.freeNat.2.frameFree 0 = true) : (s.takeFrames 1).2.map List.length = some 1 := by
  have : (s.takeFrame 0).isSome = true := by
    unfold State.takeFrame
    simp only [tierFrames]
    split
    · rfl
    · next hn =>
      simp only [Option.or_eq_none_iff] at hn
      rcases Nat.eq_zero_or_pos (s.freeNat.1 % 0x800000) with h0 | h0
      · have := findNat_some (p := s.freeNat.2.frameFree) (n := 0x800000 - s.freeNat.1 % 0x800000) (b := 0 + s.freeNat.1 % 0x800000) (i := 0) (by omega) (by simpa [h0] using h)
        rw [hn.1] at this
        cases this
      · have := findNat_some (p := s.freeNat.2.frameFree) (n := s.freeNat.1 % 0x800000) (b := 0) (i := 0) h0 h
        rw [hn.2] at this
        cases this
  simp only [State.takeFrames]
  cases ht : s.takeFrame 0 with
  | none => simp [ht] at this
  | some p => rfl

theorem witness_ContextCommands : CommandAt (commanded base [3, 16, 5, 0, 1, 0x01040001]) 3 ∧
    NamesOnly (commanded base [3, 16, 5, 0, 1, 0x01040001]) [0x1F, 7, 7, 0xFFFF, 0x0F0F1FFF] ∧ base.ctx 1 = none ∧ (base.dealDeques [0] 4 1).isSome = true ∧
    (base.takeFrames 1).2.map List.length = some 1 ∧ CommandAt (commanded base [4, 0]) 4 ∧ (ctxOf base).pre = .run :=
  ⟨by unfold CommandAt; decide +kernel, namesOnly_of (by decide +kernel), by decide +kernel, by decide +kernel, takes_frame base (by decide +kernel), by unfold CommandAt; decide +kernel, by decide +kernel⟩

/-- R193, R256: a system context of another function than the physical one, a pool of no frame, an empty slot; the removal of a context with a warp. -/
theorem test_contexts : result .ctxcreate base [3, 3, 4, 0, 1, 0x01040001] = (1, 1) ∧ result .ctxcreate base [3, 3, 0, 0, 0, 0x01040001] = (1, 1) ∧
    result .ctxremove base [4, 5] = (1, 0x45) ∧ ((after .ctxremove (commanded base [4, 0])).ctx 0).map (fun c => (c.pre, c.invalid)) = some (.removing 0x44 0 false, true) ∧
    (after (.removalForceStop 0) (base.modCtx 0 fun c => { c with pre := .removing 0x44 100000 false, invalid := true })).ctx 0 = none := by decide +kernel

/-- R234, R190, R207 to R212. -/
theorem witness_PreemptionSlicesAndWatchdog : CommandAt (commanded base [5, 0]) 5 ∧ NamesOnly (commanded base [5, 0]) [0x3F] ∧ (ctxOf base).pre = .run ∧
    ((ctxOf base).savectr + 1).toNat / 2 ^ 40 = 0 ∧ (let s := base.modCtx 0 fun c => { c with pre := .saved }
      CommandAt (commanded s [6, 0]) 6 ∧ (ctxOf s).pre = .saved) ∧ base.hasWaiting base.mgmt.holder = false :=
  ⟨by unfold CommandAt; decide +kernel, namesOnly_of (by decide +kernel), by decide +kernel, by decide +kernel, ⟨by unfold CommandAt; decide +kernel, by decide +kernel⟩, by decide +kernel⟩

theorem test_preemption : let p := base.modGrid 1 fun g => { g with kernel := { g.kernel with pers := true } }
    ((after .preempt (commanded p [5, 0])).ctx 0).map (fun c => (c.pre, c.savectr)) = some (.drain 5000000, 1) ∧
    (warpOf (after .preempt (commanded p [5, 0]))).due.map (fun d => (d.rank, d.code)) = [(5, 0x30)] ∧ result .resume base [6, 0] = (1, 0x45) ∧
    ((after .resume (commanded (base.modCtx 0 fun c => { c with pre := .saved }) [6, 0])).ctx 0).map (·.pre) = some .run ∧
    ((after (.preemptDeadline 0) (base.modCtx 0 fun c => { c with pre := .drain 0 })).ctx 0).map (·.pre) = some (.removing 0x43 0 false) ∧
    after (.preemptDeadline 0) (base.modCtx 0 fun c => { c with pre := .drain 1 }) = base.modCtx 0 (fun c => { c with pre := .drain 1 }) ∧
    after .sliceEnd base = base := by decide +kernel

theorem test_drain_and_watchdog : let idle : State := { base with work := { base.work with warps := [], teams := [], gangs := [], grids := [] } }
    ((after (.drainComplete 0) (idle.modCtx 0 fun c => { c with pre := .drain 5 })).ctx 0).map (·.pre) = some .saved ∧
    ((after (.watchdogExpiry 0) ((base.modMgmt fun m => { m with sched := 0x000100000000 }).modCtx 0 fun c => { c with wdogNs := 1000000 })).ctx 0).map (·.pre) =
      some (.removing 0x42 0 false) := by decide +kernel

/-- A context with a debugger, whose warp has stopped. -/
def debugged : State := (base.modCtx 0 fun c => { c with dbg := some [] }).modWarp 4 fun x => { x with
  debug := true, frame := some { kind := .boundary, pc := 8, entries := [], rcv := [], wait := .none } }

theorem witness_DebuggerCommands : CommandAt (commanded base [16, 0]) 16 ∧ NamesOnly (commanded base [16, 0]) [0x3F] ∧ base.belv.lc = .production ∧
    (ctxOf base).prot = false ∧ (ctxOf base).dbg = none ∧ CommandAt (commanded debugged [20, 0, 1, 0, 0x1000, 0, 0]) 20 ∧
    NamesOnly (commanded debugged [20, 0, 1, 0, 0x1000, 0, 0]) [0x3F, 2 ^ 64 - 1, 0xFFFFFFFFF, 2 ^ 64 - 1, 0x103, 0x03FF03FF] ∧
    ((commanded debugged [20, 0, 1, 0, 0x1000, 0, 0]).stoppedWarp 0 1 0 0).map (·.1) = some 4 :=
  ⟨by unfold CommandAt; decide +kernel, namesOnly_of (by decide +kernel), by decide +kernel, by decide +kernel, by decide +kernel, by unfold CommandAt; decide +kernel, namesOnly_of (by decide +kernel), by decide +kernel⟩

/-- R193, R195, R233. -/
theorem test_debugger : result .dbgattach base [16, 0] = (0, 0) ∧ result .dbgattach debugged [16, 0] = (1, 0x45) ∧
    result .dbgattach (base.modCtx 0 fun c => { c with prot := true }) [16, 0] = (1, 0x46) ∧ result .dbghalt base [19, 0] = (1, 0x45) ∧
    (warpOf (after .dbghalt (commanded (debugged.modWarp 4 fun x => { x with debug := false }) [19, 0]))).due.map (·.rank) = [6] ∧
    (ctxOf (after .dbgbreak (commanded debugged [18, 0, 0x1A, 0x10000, 7]))).dbg = some [(2, { image := 0x10000, lane := true, pc := 7 })] ∧
    (warpOf (after .dbgresume (commanded debugged [21, 0]))).pc = 8 ∧ (warpOf (after .dbgresume (commanded debugged [21, 0]))).debug = false ∧
    (ctxOf (after .dbgdetach (commanded debugged [17, 0]))).dbg = none ∧ result .dbgframe debugged [20, 0, 1, 0, 0x1000, 3, 0] = (1, 1) ∧
    ofBytes ((after .dbgframe (commanded debugged [20, 0, 1, 0, 0x1000, 0, 0])).peekN 0 (0x8000000001000 + 40) 8) = 8 := by decide +kernel

/-! ### Witnesses: placement, host pages, the event ring -/

/-- A ready grid of one team that no team of is placed. -/
def ready : State :=
  let s := base.modGrid 1 fun g => { g with nextTeam := 0, nGangs := 0, live := 0, started := false }
  { s with cur := .none, work := { s.work with warps := [], teams := [], gangs := [] } }

theorem witness_PlacementAndOperatingPoints : ready.work.order = [1] ∧ (gridOf ready).ready = true ∧ (gridOf ready).leases = [] ∧ (gridOf ready).relaunch = [] ∧
    ((ready.nextGang (gridOf ready) allTeams true).map (fun e => e.2.length)) = some 1 ∧ ready.overPow = false ∧ (∀ f ∈ ready.requests 0, classMhz f ≤ 1100) := by decide +kernel

/-- R197, R59: the gang, its team and its warp at their start states. -/
theorem test_walk : let s := after .distributorWalk ready
    (gridOf s).nextTeam = 1 ∧ (gridOf s).started = true ∧ s.work.gangs.length = 1 ∧ s.work.teams.map (fun e => (e.2.num, e.2.core % 48)) = [(0, 0)] ∧
    s.work.warps.map (fun e => (e.2.pc, e.2.num)) = [(0, 0)] ∧ (gridOf (after (.backfillLimit 1) (base.modGrid 1 fun g => { g with cause := some .room, bfNs := 2 ^ 60 }))).blocks = true := by decide +kernel

theorem test_power : (after (.thermalProtection 2 900) base).point 2 = { base.point 2 with cap := some 900, mhz := 900 } ∧
    (after (.modulePowerOverLimit true) base).overPow = true ∧ ((after (.operatingPointReached 0) base).point 0).mhz = 1100 ∧
    (gridOf (after (.holdTimeout 1) (base.modGrid 1 fun g => { g with cause := some .freq, fcNs := 250000, holdBit := true }))).holdBit = false := by decide +kernel

theorem witness_HostPages : base.mgmt.run = .run ∧ base.leasing 0 0x80000000 = [] ∧ tFind base.xlat.asked 5 = none ∧ (base.ctx 0).isSome = true := by decide +kernel

theorem test_host_pages : memb (after (.atsTranslationCompletion 0 7 true) base).xlat.present 7 = true ∧ (after (.atsInvalidation 3 7) base).outbox = [.atsDone 3 7] ∧
    after (.prgResponse 0 5 0) base = base ∧ memb (after (.priReenable 2) { base with xlat := { base.xlat with priStop := [2] } }).xlat.priStop 2 = false := by decide +kernel

theorem witness_EventRing : let s := base.modMgmt fun m => { m with mevCfg := 0x7FF0100, mevHead := 5 }
    (base.mgmt.mevCfg.getLsbD 8 = false) ∧ s.mgmt.mevCfg.getLsbD 8 = true ∧ (s.mgmt.mevTail.toNat + 1) % 64 ≠ s.mgmt.mevHead.toNat % 64 ∧
    0x8000000000000 + (s.mgmt.mevBase.toNat / 4096 * 4096) % 2 ^ 51 + 32 ≤ 2 ^ 52 := by decide +kernel

/-- R194: the entry's first word, the index and the message. -/
theorem test_event_ring : let s := (base.modMgmt fun m => { m with mevCfg := 0x7FF0100, mevHead := 5 }).postEvent 2 7 0x44 0 0 0 0
    s.mgmt.mevTail = 1 ∧ s.outbox = [.msix 16 0x7FF] ∧ ofBytes (s.peekN 0 0x8000000000000 8) = 0x440702 ∧
    (after .eventRingEnable (base.modMgmt fun m => { m with mevTail := 9, dropped := 3 })).mgmt.mevTail = 0 := by decide +kernel

/-! ### Witnesses: views and pools -/

theorem witness_ViewsAndPoolsRegister : PacketStarts (posted .valid [4, 0, 0, 0, 4, 0xFF00, 0x10000, 0]) 9 (packet .valid [4, 0, 0, 0, 4, 0xFF00, 0x10000, 0]) ∧
    ((posted .valid [4]).readWords 0 0x10000 8 .r).2.toOption = some (List.replicate 8 0) ∧ viewBad (List.replicate 8 0) = true ∧
    ((paged (posted .valid [4]) [(0, 0x10000), (8, 1), (16, 8)]).readWords 0 0x10000 4 .r).2.toOption = some [0x10000, 1, 8, 0] ∧
    (tFind (ctxOf rich).pools 0).isSome = true ∧ rich.units = [] ∧ (rich.ctx 0).isSome = true :=
  ⟨packetStarts_of (by decide +kernel) (by decide +kernel) (by decide +kernel) (by decide +kernel) (by decide +kernel), by decide +kernel, by decide +kernel, by decide +kernel, by decide +kernel, by decide +kernel, by decide +kernel⟩

/-- R146, R159: refusals, and a pool of one page whose units have 64 KiB. -/
theorem test_views_and_pools : outcome (.viewreg 9) (posted .valid [4, 0, 0, 0, 4, 0, 0x10000, 0]) = (.finished, 1, 1, 0) ∧
    outcome (.viewdereg 9) (posted .valid [4, 0, 0, 0, 5, 0, 0, 0]) = (.finished, 1, 1, 0) ∧
    outcome (.poolreg 9) (paged (posted .valid [4, 0, 0, 0, 6, 0, 0x10000, 0]) [(0, 0x10000), (8, 1), (16, 8)]) = (.finished, 1, 1, 0) ∧
    (let s := after (.poolreg 9) (paged (posted .valid [4, 0, 0, 0, 6, 0x500, 0x10000, 0]) [(0, 0x10000), (8, 1), (16, 8)])
     (packetOf s).status = 0 ∧ (tFind (ctxOf s).pools 5).map (fun p => (p.base, p.pages, p.usz)) = some (0x10000, 1, 65536)) ∧
    tFind (ctxOf (after (.pooldereg 9) (posted .valid [4, 0, 0, 0, 7, 0, 0, 0]))).pools 0 = none := by decide +kernel

/-- A view of one tile of 64 × 64 elements, FP32 to e4m3, row by row, with master and destination in the data page. -/
def oneTile (t : VTile) : View :=
  { mva := 0x10000, mld := 256, ct := 1, rt := 1, dld := 64, tfmt := 12, tiled := false, mbf16 := true, policy := 0, clip := false, clipp := 0, clipf := 0,
    shards := [], tiles := [(0, t)], mark := false, revoked := [], live := true }

/-- The enriched base with that view, its tile in the stale queue. -/
def stale (t : VTile) : State := { rich.modCtx 0 fun c => { c with views := [(3, oneTile t)] } with cur := .none, stale := [(0, 3, 0)] }

theorem witness_Rebuilds : let t : VTile := { mv := 2, ft := 1, busy := false, poisoned := false, queued := true }
    (stale t).mgmt.run = .run ∧ tFind (ctxOf (stale t)).views 3 = some (oneTile t) ∧ tFind (oneTile t).tiles 0 = some t ∧ tFind (stale t).units 3 = none ∧
    (stale t).stale = [(0, 3, 0)] := by decide +kernel

/-- R151, R152: a dropped entry, a held one, and the publication of a unit. -/
theorem test_rebuilds : let t : VTile := { mv := 2, ft := 1, busy := false, poisoned := false, queued := true }
    (after (.rebuildSnapshot 0) (stale { t with queued := false })).stale = [] ∧
    (tFind (after (.rebuildSnapshot 3) (stale { t with busy := true })).units 3).map (fun r => (r.tile, r.held)) = some (0, true) ∧
    (let s : State := { stale { t with busy := true, queued := false } with units := [(2, { ctx := 0, view := 3, tile := 0, m := 2, out := [(0x10040, 0x38)], lab := 0, held := false })] }
     let u := after (.rebuildPublish 2) s
     u.tile 0 3 0 = some { mv := 2, ft := 2, busy := false, poisoned := false, queued := false } ∧ u.peek 0 0x1050040 = 0x38 ∧ u.units = []) := by decide +kernel

/-- A row of the master that reads, in one page and across two; a row's bytes. -/
theorem witness_Rebuilds_snapshot :
    let s := stale { mv := 2, ft := 1, busy := false, poisoned := false, queued := true }
    let v : View := { oneTile { mv := 2, ft := 1, busy := false, poisoned := false, queued := true } with shards := [(0x10000, 0x12000)], tfmt := 7, dld := 64 }
    let ok (va n : Nat) : Bool := match s.translate 0 0 none va .r with
      | (u, .ok tr) => !(u.meetLines 3 0 va n tr).2
      | _ => false
    ok 0x10000 128 = true ∧ ok 0x1FFC0 64 = true ∧ 64 * 2 ≤ 65536 - 0x10000 % 65536 ∧ ¬ 64 * 2 ≤ 65536 - 0x1FFC0 % 65536 ∧
    (List.replicate 64 [0x80, 0x3F]).flatten.length = 64 * 2 ∧ 0 < v.ct ∧ 0 < v.shards.length ∧ v.tfmt.toNat = 7 := by decide +kernel

/-- R145, R270: a row of BF16 ones becomes 256 × 2^-8, element by element, with its two scale bytes. -/
theorem test_convert_row :
    let v : View := { oneTile { mv := 2, ft := 1, busy := false, poisoned := false, queued := true } with shards := [(0x10000, 0x12000)], tfmt := 7, dld := 64 }
    let r := v.convertRow 0 1 (List.replicate 64 [0x80, 0x3F]).flatten
    r.1 = (List.range 64).map (fun i => (0x10040 + i, 0x78)) ++ [(0x12002, 119), (0x12003, 119)] ∧ r.2 = 0 ∧
    (v.convertRow 0 0 ([0x80, 0x7F] ++ (List.replicate 63 [0x80, 0x3F]).flatten)).2 = 1 := by decide +kernel

/-! ### Witnesses: memory services -/

theorem witness_PagesMigrate : let s := rich.modMgmt fun m => { m with tide := 0x0000000001000001, decayNs := 1000000 }
    s.mgmt.run = .run ∧ tWf 0 s.mem.hot = true ∧ s.leaf (ctxOf s) 1 = 0x10500007 ∧ s.mem.migs = [] ∧ s.placeOp 0 1 = none ∧ s.placeWaits = false ∧
    s.migOf 0 1 = none ∧ s.movable 0 1 (s.leaf (ctxOf s) 1) = true ∧ s.frameFree 0x205 = true := by decide +kernel

/-- A page that a `PLACE.req` waits for, and the marks that the tide engine keeps. -/
theorem witness_PagesMigrate_request :
    let s : State := { after (.placeReq 5 6 7 1) (richly [(5, 0x10000), (6, 0x20000), (7, 0x10008)]) with cur := .none }
    let on := s.modMgmt fun m => { m with tide := 1 }
    (on.settlePress.placeOp 0 1).map (·.1) = some 5 ∧ (on.grid 1).isSome = true ∧ on.placeWaits = true ∧ on.frameFree 0x1000000 = true ∧
    tierOf (0x1000000 * 65536) = some 1 ∧ on.mem.migs = [] := by decide +kernel

/-- R92, R89: the claim of a `PLACE.req`, a page that is skipped, and the decay of hotness. -/
theorem test_migration : let s : State := { after (.placeReq 5 6 7 1) (richly [(5, 0x10000), (6, 0x20000), (7, 0x10008)]) with cur := .none }
    let on := s.modMgmt fun m => { m with tide := 1 }
    (tFind (after (.migrationClaim 0 2 0x1000000) on).work.ops 5).map (·.kind) = some (.place [1] 1 0x10008 0 1 0) ∧
    (after (.hotnessDecay) ({ rich with mem := { rich.mem with hot := [(7, 9)] } }.modMgmt fun m => { m with decayNs := 2 ^ 60 })).mem.hot = [(7, 4)] := by decide +kernel

/-- A record of a migration whose lines are all copied, with the entries of its page on all four dies. -/
def migrating (c : BitVec 256) (cut : Bool) : State :=
  let e : Exc := { fix := true, state := .inMotion, vpn := 1, ctx := 0, ppn := 0x105, attr := 3, dppn := 0x205 }
  { rich with
    cur := .none
    mem := { rich.mem with migs := [(7, { ctx := 0, vpn := 1, src := 0x105, dst := 0x205, c := c, d := 0, pass := 0, pos := 0, ue := false, cut := cut, tomb := [], op := none })],
                           refs := rich.mem.refs ++ [(0x105, 1), (0x205, 1)] }
    xlat := { rich.xlat with exc := (List.range 4).map fun d => (excKey d (excSet 0 1) 0, e) } }

theorem witness_PagesMigrate_motion : let s := migrating (BitVec.allOnes 256) false
    s.settleMigs = s ∧ tFind s.mem.migs 7 ≠ none ∧ (∀ d, d < 4 → (s.excHit d 0 1).map (·.state) = some .inMotion) ∧ s.leafAddr 3 (ctxOf s).root 1 ≠ none ∧
    (let t := migrating 0 false
     t.settleMigs = t ∧ ((tFind t.mem.migs 7).getD default).next = some 0 ∧ memb t.mem.poison (0x105 * 1024) = false ∧
     tFind t.mem.latent (0x205 * 1024) = none ∧ t.portOf (64 * (0x105 * 1024)) = none) ∧
    (let a := (migrating 0 true).modMem fun m => { m with migs := m.migs.map fun e => (e.1, { e.2 with tomb := [5] }) }
     after (.cutoverAck 7) ({ a with work := { a.work with ops := [(5, { (default : Op) with done := false })] } } : State) =
       { a with work := { a.work with ops := [(5, { (default : Op) with done := false })] } }) := by decide +kernel

theorem test_cutover : let s := migrating (BitVec.allOnes 256) false
    (tFind (after (.cutOver 7) s).mem.migs 7).map (·.cut) = some true ∧ ((after (.cutOver 7) s).excHit 3 0 1).map (fun e => (e.state, e.ppn)) = some (.mapped, 0x205) ∧
    (tFind (after (.migrationCopyLine 7) (migrating 0 false)).mem.migs 7).map (·.c) = some 1 ∧ (after (.cutoverAck 7) (migrating 0 true)).leaf (ctxOf rich) 1 = 0x20500007 := by decide +kernel

/-- The enriched base after an edit of page 2. -/
def edited : State := { after (.mapedit 5 6 7) (richly [(5, 0x20000), (6, 0x106 * 2 ^ 20 + 7)]) with cur := .none }

theorem witness_RefitKeepsTranslations : edited.mgmt.run = .run ∧ (ctxOf edited).refitQ = [(2, 1)] ∧ (ctxOf edited).toFold = [(2, 1)] ∧ (ctxOf edited).segs = [] := by decide +kernel

/-- R137: pages 1 and 2 with equal attributes and frames in step make one segment of two pages. -/
theorem test_refit : let c := ctxOf (after (.refit 0) edited)
    c.segs.map (fun g => (g.vstart, g.count, g.pbase, g.slope)) = [(1, 2, 0x105, 0)] ∧ c.refitQ = [] ∧ c.folded = 1 := by decide +kernel

theorem witness_ScrubbersAndKeyRotation : let s := base.modMgmt fun m => { m with scrub := 0x100001 }
    s.mgmt.scrub.getLsbD 0 = true ∧ (s.scrubber 95).pos < 2 ^ 28 ∧ s.mem.migs = [] ∧
    (let t : State := { base with mem := { base.mem with keys := [(0, { xts := 1, next := none, save := 2, ranges := [(0x10000000000, 0x10000020000)], sweeps := [], epoch := 0 })] } }
     tFind t.mem.keys 0 = some { xts := 1, next := none, save := 2, ranges := [(0x10000000000, 0x10000020000)], sweeps := [], epoch := 0 } ∧ sealedTier (0x1000002 * 65536) = true) := by decide +kernel

/-- R83, R85: the position goes on; a latent correctable error is removed and logged. -/
theorem test_scrub : let s := ({ base with mem := { base.mem with latent := [(0, false)] } } : State).modMgmt fun m => { m with scrub := 0x100001 }
    ((after (.scrubRead 0) s).scrubber 0).pos = 1 ∧ ((tFind (after (.scrubRead 0) s).mem.logs 0).getD []).map (fun e => (e.1, e.2.line)) = [(0, 0)] ∧
    ((after (.scrubStepChange 0) ({ s with time := 2 ^ 50 } : State)).scrubber 0).step = 4 := by decide +kernel

/-- R6, R85: writing 1 to VALID of place 0 clears it and no other; a line behind a CXL port that is down. -/
theorem test_log_places : let e : ErrEntry := { ue := true, src := 1, line := 7, ts := 0, sym := 0x3FF }
    let s : State := { base with mem := { base.mem with logs := [(0, [(0, e), (3, { e with ue := false })])] } }
    let u := s.envTurn (.logFree 0 0)
    u.logWord 0 0 0 = 0 ∧ u.logWord 0 3 0 = s.logWord 0 3 0 ∧ s.logWord 0 3 0 ≠ 0 ∧ u.logWord 0 1 0 = 0 ∧
    ({ base with mem := { base.mem with hdm := [(0x100000000000, 0x10000, some 1)], down := [1] } } : State).lineDown (0x100000000000 / 64) = true := by decide +kernel

/-- R80: a rotation of slot 0 with a sweep over one frame of one line left ends under the new key. -/
theorem test_rotation : let s : State := { base with mem := { base.mem with keys := [(0, { xts := 1, next := some 9, save := 2, ranges := [], sweeps := [{ base := 0x10000000000, limit := 0x10000000080, ptr := 0x10000000040 }], epoch := 0 })] } }
    let t : State := { base with mem := { base.mem with nextKey := 5, keys := [(0, { xts := 1, next := none, save := 2, ranges := [(0x10000000000, 0x10000020000)], sweeps := [], epoch := 0 })] } }
    (tFind (after (.keySweepStep 0 0) s).mem.keys 0).map (fun k => (k.xts, k.next)) = some (9, none) ∧
    (tFind (after (.keyRotationStart 0) t).mem.keys 0).map (fun k => (k.next, k.sweeps.map (·.base))) = some (some 5, [0x10000000000]) ∧
    (tFind (t.joinSlot 0 0x1000002).mem.keys 0).map (·.ranges) = some [(0x10000000000, 0x10000030000)] ∧
    (tFind (after (.saveKeyRenew 0) (t.modCtx 0 fun c => { c with prot := true, savectr := 0x10000000000 })).mem.keys 0).map (fun k => (k.save, k.epoch)) = some (5, 1) := by decide +kernel

/-! ### Witnesses: links, boot, life cycle, attestation -/

theorem witness_LinksAndPeers : base.mgmt.run = .run ∧ base.mem.migs = [] ∧ tFind rich.routes 0 = some { up := true, lab := 7, node := 0, tag := 0 } ∧
    tFind (after .powerOn State.reset).belv.links 104 ≠ none := by decide +kernel

theorem test_links : memb (after (.cxlLinkDown 3) base).mem.down 3 = true ∧ memb (after (.cxlPortReenumeration 3) (after (.cxlLinkDown 3) base)).mem.down 3 = false ∧
    (tFind (after (.peerRouteDown 0) rich).routes 0).map (·.up) = some false ∧ (after (.integrityFault 52) base).mgmt.run = .halt ∧
    (after (.integrityFault 52) base).ctx 0 = none ∧ after (.collAbort 5) base = base := by decide +kernel

theorem test_rekey : let s := after (.linkRekey 52) (after .powerOn State.reset)
    (tFind s.belv.links 104).map (·.1) ≠ (tFind (after .powerOn State.reset).belv.links 104).map (·.1) := by decide +kernel

theorem witness_BootResetsAndLifeCycle : State.reset.mgmt.run = .boot ∧ State.reset.mgmt.bootFail = false ∧ State.reset.belv.lc = .production ∧ State.reset.belv.fault = none ∧ State.reset.belv.flash = [] ∧
    base.mgmt.run ≠ .halt ∧ CommandAt (commanded base [10, 0x1000, 0x20]) 10 ∧ NamesOnly (commanded base [10, 0x1000, 0x20]) [2 ^ 64 - 1, 0x3FFF] :=
  ⟨by decide +kernel, by decide +kernel, by decide +kernel, by decide +kernel, by decide +kernel, by decide +kernel, by unfold CommandAt; decide +kernel, namesOnly_of (by decide +kernel)⟩

/-- R228, R234: boot; a failed step holds the device in reset; resets and a function-level reset. -/
theorem test_boot : (after .powerOn State.reset).mgmt.run = .run ∧ (after .powerOn State.reset).belv.links.length = 106 ∧
    (let f : State := { State.reset with belv := { State.reset.belv with fault := some (5, 2) } }
     let u := after .powerOn f
     u.mgmt.run = .boot ∧ u.mgmt.failStep = 5 ∧ u.mgmt.failDie = 2) ∧
    (let f : State := { State.reset with belv := { State.reset.belv with flash := [(14, ⟨State.reset.belv.vroot + 1, 64, 0⟩)] } }
     let u := after .powerOn f
     u.mgmt.run = .boot ∧ u.mgmt.failStep = 3 ∧ u.mgmt.failDie = 0xFF ∧ u.belv.links = []) ∧
    (after .warmReset base).ctx 0 = none ∧ (after .coldReset base).mgmt.run = .run ∧ (after (.flr 3) base).ctx 0 = base.ctx 0 := by decide +kernel

theorem witness_SpdmAnswers : let s := after .powerOn State.reset
    s.mgmt.run = .run ∧ s.belv.ids.isSome = true ∧ tGet s.belv.spdm 0 16 = 0 := by decide +kernel

/-! ### Witnesses of single clauses -/

/-- Rows and words of lane commands that fault, rows whose main-memory side passes, and a gather of no lane. -/
theorem witness_LaneEngineCommandsIssue_checks :
    let s := only0 (richLanes 0x10008 5 16)
    let t := s.modWarp 4 fun x => { x with queue := [{ entry := 0, k := [(0, ⟨0x400, 0⟩), (1, ⟨0x10000, 0⟩)] }] }
    let rows (imm : W32) : LaneFields := { one (fields 0 1 imm 1009 6) with dst := 0, a := 1008 }
    let f := rows 0
    let k := lctx t (.gath f) f
    (∀ p ∈ [(Instr.gath (rows 2), rows 2), (.gath (rows 0x10000), rows 0x10000), (.gath f, f), (.gath { f with neg := true, pred := 0 }, { f with neg := true, pred := 0 })],
      LaneRuns t (lctx t p.1 p.2)) ∧
    (k.part = [0] ∧ (k.mainCheck t .r 8 8 (fun l => (BitVec.ofNat 64 (k.b 0) + (BitVec.ofNat 32 (k.c l)).signExtend 64).toNat) (fun _ => none) (fun _ _ _ => none)).2.1 = [] ∧
      (lctx t (.gath { f with neg := true, pred := 0 }) { f with neg := true, pred := 0 }).part = [] ∧
      trapOf (.gath (rows 2)) t = (0x106, 0x402, 1) ∧ trapOf (.gath (rows 0x10000)) t = (0x107, 0x10400, 1)) :=
  ⟨laneRuns_all (by decide +kernel), by decide +kernel⟩

/-- A `refill` with WBS = 1, whose result goes to the latch alone; a wait that completes, and one with another running entry. -/
theorem witness_ReconvergenceAndBlockEnds_more :
    let f : LaneFields := { ctl 0 with wbs := true }
    LaneRuns hungry (lctx hungry (.refill f) f) ∧
    ((after (.refill f) hungry).op 5).map (·.ret) = some .none ∧ (warpOf (after (.refill f) hungry)).vPend = [] ∧
    (let other : Entry := { mask := 2, state := .ready, parent := 0, rcvn := 0, pc := 9, b0 := .none, b1 := .none, b2 := .none, b3 := .none }
     let s := forked.modWarp 4 fun x => { x with
       rcv := [(2, { armed := true, exp := 3, arr := 0, rparent := 0 })], entries := x.entries.map (fun e => (e.1, { e.2 with mask := 1 })) ++ [(1, other)] }
     laneOk s (.rcvWait (ctl 10)) (ctl 10) = true ∧ ((tFind (warpOf (after (.rcvWait (ctl 10)) s)).entries 0).map (·.state)) = some .rcvWait) :=
  ⟨laneRuns_of (by decide +kernel), by decide +kernel⟩

/-- A command block that a write of MDOOR takes, and a doorbell of a virtual function's queue that fetches. -/
theorem witness_QueuesAndRegisters_door : let s := base.modMgmt fun m => { m with mcmd := [(0, 9)] }
    s.mgmt.cmdBusy = false ∧ (tGet s.mgmt.mcmd 0 0).toNat % 65536 ∈ [1, 9] ∧ (after (.registerWrite 16 0x180 1) s).mgmt.cmd = [(0, 9)] ∧
    (after (.registerWrite 16 0x180 1) s).mgmt.cmdBusy = true := by decide +kernel

/-- A SYNC of no page, where nothing holds a replaced translation, and a packet behind an open SIGNAL_WAIT. -/
theorem witness_MailboxesAndSimplePackets_more : (posted .valid [4, 0, 0, 0, 2, 0, 0x20000, 1]).oldOps 0 2 1 = [] ∧
    (posted .valid [4, 0, 0, 0, 2, 0, 0x20000, 1]).oldSigs 0 2 1 = [] ∧
    (let s : State := { posted .valid [2] with front := { (posted .valid [2]).front with packets := [(8, packet .started [3]), (9, packet .valid [2])] } }
     outcome (.signalSet 9) s = (.valid, 0, 0, 0)) := by decide +kernel

/-- A slice whose function has nothing waiting, while the next one's ready grid waits. -/
theorem witness_PreemptionSlicesAndWatchdog_slice : let s := ready.modCtx 0 fun c => { c with fn := 5 }
    s.hasWaiting 0 = false ∧ s.hasWaiting 5 = true ∧ ((List.range 5).all fun j => !s.hasWaiting j) = true ∧ (after .sliceEnd s).mgmt.holder = 5 := by decide +kernel

/-- A ready launch whose scratchpad no die holds. -/
def tooWide : State := ready.modGrid 1 fun g => { g with scrUnits := 2000 }

/-- A start that has been held for its clock for 250 µs. -/
def heldFreq : State := ready.modGrid 1 fun g => { g with cause := some .freq, fcNs := 250000 }

theorem witness_PlacementAndOperatingPoints_held : (tooWide.nextGang (gridOf tooWide) allTeams true).isNone = true ∧
    (gridOf (after .distributorWalk tooWide)).cause.isSome = true ∧ (gridOf heldFreq).cause = some .freq ∧ heldFreq.waiting (gridOf heldFreq) = true := by
  decide +kernel

/-- Outside RUN nothing is answered; a group that was asked for. -/
theorem witness_HostPages_asked : State.reset.mgmt.run ≠ .run ∧ after (.atsInvalidation 3 7) State.reset = State.reset ∧
    (let s : State := { ready with xlat := { ready.xlat with asked := [(5, (1, [1]))] } }
     tFind s.xlat.asked (65536 * 0 + 5) = some (1, [1]) ∧ (gridOf s).started = false ∧ (after (.prgResponse 0 5 0) s).xlat.asked = [] ∧
     memb (after (.prgResponse 0 5 2) s).xlat.priStop 0 = true) := by decide +kernel

/-- The descriptor of a view of one tile, FP32 to e4m3, accepted; the registration waits for a write without WATCH. -/
theorem witness_ViewsAndPoolsRegister_waits : PacketStarts (posted .valid [4, 0, 0, 0, 5, 0x300, 0, 0]) 9 (packet .valid [4, 0, 0, 0, 5, 0x300, 0, 0]) ∧
    (oneTile { mv := 1, ft := 0, busy := false, poisoned := false, queued := true }).live = true ∧
    (let s := (posted .valid [4, 0, 0, 0, 5, 0x300, 0, 0]).modCtx 0 fun c => { c with views := [(3, oneTile { mv := 1, ft := 0, busy := false, poisoned := false, queued := true })] }
     (packetOf (after (.viewdereg 9) s)).stage = .finished ∧ (ctxOf (after (.viewdereg 9) s)).views = []) :=
  ⟨packetStarts_of (by decide +kernel) (by decide +kernel) (by decide +kernel) (by decide +kernel) (by decide +kernel), by decide +kernel⟩

/-- An image below FWSVN does not pass, one of the maker's does. -/
theorem witness_BootResetsAndLifeCycle_images : let b : Belv := { State.reset.belv with fwsvn := 7, flash := [(0, ⟨State.reset.belv.vroot, 2, 0⟩)] }
    b.verifies 0 = false ∧ b.verifies 14 = true ∧ (∀ n, n < 16 → State.reset.belv.verifies n = true ∧ State.reset.belv.authentic n = true) := by decide +kernel

/-! ### Witnesses: further clauses -/

/-- Tiles that are not with the sequencer, a misaligned offset, rows beyond team memory, and a pitch below a row. -/
theorem witness_TileMoves_stops : let s := seqs [(1, 64512), (2, 2), (3, 64516)]
    let o := s.modTeam 3 fun t => { t with tokens := [(7, .warps)] }
    let code (i : Instr) (s : State) : SeqRun := (seqOf (after i s)).run
    SeqReady o (.mzero 0 7) ∧ SeqReady o (.mload 0 7 1 0) ∧ SeqReady o (.mstore 0 7 1 64) ∧ (teamOf o).tok 7 ≠ .seq ∧
    SeqReady s (.mload 0 7 2 0) ∧ SeqReady s (.mstore 0 7 1 66) ∧ SeqReady s (.mload 0 7 3 0) ∧ s.spaceSize (.team 3) < 64516 + 16 * 64 ∧
    code (.mload 0 7 1 0) o = .stopped 5 ∧ code (.mstore 0 7 1 64) o = .stopped 5 ∧ code (.mload 0 7 2 0) s = .stopped 6 ∧
    code (.mstore 0 7 1 66) s = .stopped 6 ∧ code (.mload 0 7 3 0) s = .stopped 7 ∧ code (.mstore 0 7 1 60) s = .stopped 1 := by
  unfold SeqReady SeqRuns SeqAt; decide +kernel

/-- R378, R37: an `lcall` that every lane takes leaves PC + 1 in b0. -/
theorem test_lcall_latch : let z := (tFind (warpOf (after (.lcall { ctl 5 with dst := 8 }) forked)).entries 0).getD default
    z.pc = 5 ∧ z.b0.valid = true ∧ tGet z.b0.vals 0 31 = 1 ∧ tGet z.b0.vals 0 32 = 0 := by decide +kernel

/-- A `rcv.wait` at barrier 2, which expects lanes 0 and 1 (`exp` 3) or lane 0 alone of the lanes that the entry holds. -/
def partlyExpected (mask exp : W64) (others : List (Nat × Entry)) : State := forked.modWarp 4 fun x => { x with
  rcv := [(2, { armed := true, exp := exp, arr := 0, rparent := 5 })], entries := x.entries.map (fun e => (e.1, { e.2 with mask := mask })) ++ others }

/-- R169: the entry waits while lane 1 runs elsewhere; alone, it merges at once; with no free entry it waits whole. In each case lane 2 is
not expected. -/
theorem witness_ReconvergenceAndBlockEnds_partly :
    let away := partlyExpected 5 3 [(1, newEntry 2 9 0)]
    let alone := partlyExpected 5 1 []
    let crowded := partlyExpected 5 3 ((List.range 63).map fun i => (i + 1, newEntry 0 0 0))
    let go (s : State) : List (Nat × W64 × EState × W32 × BitVec 4) :=
      (warpOf (after (.rcvWait (ctl 10)) s)).entries.map fun e => (e.1, e.2.mask, e.2.state, e.2.pc, e.2.parent)
    (∀ s ∈ [away, alone, crowded], laneOk s (.rcvWait (ctl 10)) (ctl 10) = true) ∧ away.freeEntry 4 = some 2 ∧ alone.freeEntry 4 = some 1 ∧
    crowded.freeEntry 4 = none ∧ go away = [(0, 1, .rcvWait, 0, 0), (1, 2, .ready, 9, 0), (2, 4, .ready, 1, 0)] ∧
    (warpOf (after (.rcvWait (ctl 10)) away)).rcvAt 2 = { armed := true, exp := 3, arr := 1, rparent := 5 } ∧
    go alone = [(0, 1, .ready, 1, 5), (1, 4, .ready, 1, 0)] ∧
    (warpOf (after (.rcvWait (ctl 10)) alone)).rcvAt 2 = { armed := false, exp := 0, arr := 0, rparent := 5 } ∧
    (go crowded).take 1 = [(0, 5, .splitWait, 0, 0)] ∧ ((warpOf (after (.rcvWait (ctl 10)) crowded)).rcvAt 2).arr = 0 := by decide +kernel

/-- R381, R204: the words below BOTTOM in order; a deque of another team keeps its words and the trap is noted. -/
theorem witness_ReconvergenceAndBlockEnds_pops : let f := { ctl 0 with dst := 8 }
    let d := (tFind hungry.deques 0).getD default
    let s : State := { hungry with deques := [(0, { d with owner := some (1, 7) })] }
    refillPops 1 0 d [1, 2, 3] = some ({ d with bottom := 0 }, [(1, ⟨0x22, 0⟩), (2, ⟨0x11, 0⟩)]) ∧
    refillPops 1 0 { d with owner := none } [1] = some ({ d with bottom := 1 }, [(1, ⟨0x22, 0⟩)]) ∧
    laneOk s (.refill f) f = true ∧ opKind (after (.refill f) s) = some (.refill 0 []) ∧
    ((after (.refill f) s).op 5).map (·.trap) = some (some (0x09, 0)) ∧ (after (.refill f) s).deques = s.deques ∧
    (warpOf (after (.refill f) s)).vPend = [] := by decide +kernel

/-- R63: the return of an atomic carries the label of the word's granule and those of its sources. -/
theorem test_atomic_label : let s := (only0 (richLanes 8 3 5)).modWarp 4 fun x => { x with vLab := [(4, 2)] }
    let t := s.modTeam 3 fun t => { t with mem := { t.mem with labs := [(0, 5)] } }
    let lab (t : State) : Label := (((tFind (warpOf (after (.att (one (f2 0 4))) t)).entries 0).getD default).b0).lab
    lab t = 5 ∧ lab s = 2 := by decide +kernel

/-- A launch under HOLD of class FC2, whose die's clock is below it. -/
def slow : State := ready.modGrid 1 fun g => { g with holdBit := true, fc := 2 }

/-- A launch whose team no core has room for. -/
def tooBig : State := ready.modGrid 1 fun g => { g with kernel := { g.kernel with teammem := 0x100000 } }

/-- A gang of one team goes to core 0 of die 0 where no core holds teams and no die has fewer. -/
theorem gangAt_of {s : State} {g : Grid} {p : Spot} (hp : p.core = 0) (h1 : g.kernel.gpref = 1) (hl : g.kernel.gpref ≤ g.teams - g.nextTeam)
    (hs : s.scratchFits g 0 = true) (hn : ∀ j, j < 48 → coreSuits g.kernel g.ctx (s.dieUse allTeams 0) false j = false)
    (he : coreSuits g.kernel g.ctx (s.dieUse allTeams 0) true 0 = true) (ht : (tryCore g.kernel g.ctx (s.dieUse allTeams 0) 0).map (·.2) = some p)
    (hd : ∀ e, e < 4 → s.dieTeams 0 = s.dieTeams e) : s.GangAt g 0 [p] := by
  obtain ⟨⟨vs, q⟩, hv, rfl⟩ := Option.map_eq_some_iff.1 ht
  replace hp : q.core = 0 := hp
  have hu : 0 < (s.dieUse allTeams 0).length := by simp [State.dieUse]
  have room : s.Room g allTeams true g.kernel.gpref 0 [q] := by
    refine ⟨by decide, fun _ => hs, by simp [h1], vs, .inr ⟨fun j hj => ?_, ?_, fun j hj => absurd (hp ▸ hj) (Nat.not_lt_zero j)⟩, hp ▸ hv, trivial⟩
    · exact absurd (hn j hj.1 ▸ hj.2.1) Bool.false_ne_true
    · exact hp.symm ▸ ⟨hu, he, by rw [hv]; rfl⟩
  exact .inl ⟨⟨hl, 0, _, room⟩, room, fun e qs h => .inr ⟨hd e h.1, Nat.zero_le e⟩⟩

theorem witness_PlacementAndOperatingPoints_place : ready.GangAt (gridOf ready) 0 [{ core := 0, slot := 0, even := [0], odd := [] }] ∧
    slow.GangAt (gridOf slow) 0 [{ core := 0, slot := 0, even := [0], odd := [] }] ∧ (slow.point 0).mhz < classMhz (gridOf slow).fc :=
  ⟨gangAt_of rfl (by decide +kernel) (by decide +kernel) (by decide +kernel) (by decide +kernel) (by decide +kernel) (by decide +kernel) (by decide +kernel),
    gangAt_of rfl (by decide +kernel) (by decide +kernel) (by decide +kernel) (by decide +kernel) (by decide +kernel) (by decide +kernel) (by decide +kernel),
    by decide +kernel⟩

/-- Where no core takes a team, no gang has a place. -/
theorem witness_PlacementAndOperatingPoints_none : ∀ d ps, ¬ tooBig.GangAt (gridOf tooBig) d ps := by
  have none_ : ∀ d ps n, n ≠ 0 → ¬ tooBig.Room (gridOf tooBig) allTeams true n d ps := by
    rintro d (_ | ⟨p, ps⟩) n hn ⟨hd, -, rfl, hf⟩
    · exact hn rfl
    · obtain ⟨vs, hc, ht, -⟩ := hf
      have hj : p.core < 48 := by
        have : (tooBig.dieUse allTeams d).length = 48 := by simp [State.dieUse]
        rcases hc with ⟨h, -⟩ | ⟨-, h, -⟩ <;> exact this ▸ h.1
      have : ∀ d, d < 4 → ∀ j, j < 48 → (tryCore (gridOf tooBig).kernel (gridOf tooBig).ctx (tooBig.dieUse allTeams d) j).isNone = true := by decide +kernel
      exact absurd (this d hd p.core hj) (by simp [ht])
  rintro d ps (⟨-, h, -⟩ | ⟨-, h, -⟩)
  · exact none_ d ps _ (by decide +kernel) h
  · exact none_ d ps _ (by decide +kernel) h

/-- R198: FREQ, ROOM and SCRATCH. -/
theorem test_hold_causes : (gridOf (after .distributorWalk slow)).cause = some .freq ∧ (gridOf (after .distributorWalk slow)).fcDie = some 0 ∧
    (gridOf (after .distributorWalk tooBig)).cause = some .room ∧ (gridOf (after .distributorWalk tooWide)).cause = some .scratch := by decide +kernel

/-- R256: an open SIGNAL_WAIT of a context whose removal has begun ends FAILED with TRANSLATE, although its word meets the condition. -/
theorem witness_MailboxesAndSimplePackets_removed :
    let s := (posted .started [3, 0, 0, 0, 0x10000, 0x200, 1, 0]).modCtx 0 fun c => { c with invalid := true }
    s.mgmt.run = .run ∧ (packetOf s).stage = .started ∧ (packetOf s).kind = 3 ∧ (ctxOf s).invalid = true ∧
    outcome (.signalWordPoll 9 false) s = (.finished, 2, 0x12, 0) ∧ outcome (.signalWait 9) s = (.finished, 2, 0x12, 0) ∧
    outcome (.signalWordPoll 9 false) (posted .started [3, 0, 0, 0, 0x10000, 0x200, 1, 0]) = (.finished, 0, 0, 0) := by decide +kernel

/-- R85, R86, R222: what a scrub read counts: a corrected error, an uncorrectable one, and each into a full log, where the uncorrectable one
takes the place of the oldest corrected error. -/
theorem witness_ScrubbersAndKeyRotation_counts :
    let e : ErrEntry := { ue := true, src := 1, line := 7, ts := 0, sym := 0x3FF }
    let log : List (Nat × ErrEntry) := (List.range 64).map fun i => (i, if i = 5 ∨ i = 9 then { e with ue := false } else e)
    let s (ue : Bool) (l : List (Nat × ErrEntry)) : State := ({ base with mem := { base.mem with latent := [(0, ue)], logs := [(0, l)] } } : State).modMgmt fun m => { m with scrub := 1 }
    let n (ue : Bool) (l : List (Nat × ErrEntry)) : List W64 := [0x22, 0x23, 0x24].map fun c => tGet (after (.scrubRead 0) (s ue l)).ctrs 0 (ctrIx c 0)
    n false [] = [1, 0, 0] ∧ n true [] = [0, 1, 0] ∧ n false log = [1, 0, 1] ∧ n true log = [0, 1, 1] ∧
    (s true log).mgmt.scrub.getLsbD 0 = true ∧ (log.map (·.1)) = List.range 64 ∧
    ((tFind (after (.scrubRead 0) (s true log)).mem.logs 0).getD []).getLast?.map (fun x => (x.1, x.2.ue, x.2.line)) = some (5, true, 0) ∧
    memb (after (.scrubRead 0) (s true log)).mem.poison 0 = true := by decide +kernel

/-- R97: a hint of tier 0 raises the hotness of its page's frame to WARM and leaves that of another frame; a range above 64 MiB. -/
theorem witness_FenceAndPlacement_hint :
    let s := (richly [(5, 0x10000), (6, 1)]).modMem fun m => { m with hot := [(0x105, 3), (0x106, 4)] }
    let t := s.modMgmt fun m => { m with tide := 0x0000800000000000 }
    Runs t (.placeHint 5 6 0) [5, 6] [] ∧ t.movable 0 1 (t.leaf (ctxOf t) 1) = true ∧ ptePpn (t.leaf (ctxOf t) 1) = 0x105 ∧
    (scalarCtx (.placeHint 5 6 0) 4 (warpOf t) (teamOf t) (gridOf t) (ctxOf t)).leased 1 = true ∧
    (after (.placeHint 5 6 0) t).mem.hot = [(0x105, 0x80), (0x106, 4)] ∧ (after (.placeHint 5 6 1) t).mem.hot = [(0x106, 4)] ∧
    Runs (richly [(6, 0x4000001)]) (.placeHint 5 6 0) [5, 6] [] ∧ Ready (richly [(6, 0x4000001)]) ∧ (encodeScalar (.placeHint 5 6 0)).isSome = true := by
  unfold Ready Runs ScalarRuns ScalarAt TrapReady; decide +kernel

/-- R267: overflow in each column of the table, at its threshold, from an Inf and with `.sat`; a NaN. -/
theorem test_overflow : fmtF32.round .rne false (.fin false (2 ^ 25 - 1) 103) = (0x7F800000, fOF ||| fNX) ∧
    fmtF32.round .rne false (.fin false (2 ^ 26 - 3) 102) = (0x7F7FFFFF, fNX) ∧ fmtF32.round .rtz false (.fin true 1 128) = (0xFF7FFFFF, fOF ||| fNX) ∧
    fmtF32.round .rdn false (.fin true (2 ^ 26 - 3) 102) = (0xFF800000, fOF ||| fNX) ∧ fmtE4m3.round .rne false (.fin false 1 9) = (0x7F, fOF ||| fNX ||| fNV) ∧
    fmtE4m3.round .rne true (.fin true 1 9) = (0xFE, fOF ||| fNX ||| fSAT) ∧ fmtE2m1.round .rtz false (.fin false 1 3) = (7, fOF ||| fNX ||| fSAT) ∧
    fmtE2m1.round .rne false (.inf true) = (0xF, fSAT ||| fNV) ∧ fmtF16.round .rtz false (.inf true) = (0xFC00, 0) ∧
    fmtF16.round .rne true (.inf false) = (0x7BFF, fSAT) ∧ fmtE3m2.round .rne false (.nan false) = (0, fNV) ∧ fmtE5m2.round .rne false (.nan true) = (0x7E, fNV) := by decide +kernel

/-- The terms of the statement's overflow clauses: the largest finite values of e4m3. -/
theorem witness_RoundingIsCorrect_overflow : fmtE4m3.value fmtE4m3.top = .fin false 14 5 ∧ fmtE4m3.value (fmtE4m3.top - 1) = .fin false 13 5 ∧
    (fmtE4m3.round .rne false (.fin false 1 9)).2.getLsbD 2 = true ∧ (1 : Nat) ≠ 0 ∧ (-9 : Int) ≤ 9 ∧ (-9 : Int) ≤ fmtE4m3.emin - (fmtE4m3.mb : Int) := by decide +kernel

/-- R355: the roots of 2 and of 3 lie between the squares of their neighbours. -/
theorem witness_LaneFloatingPoint_roots : (match (Machine.Num.fin false 2 0).sqrt with
      | (.fin _ k g, 0) => decide (k % 2 = 1 ∧ 2 ^ 62 ≤ k ∧ (k - 1) * (k - 1) * 2 ^ (2 * g + 400).toNat < 2 * 2 ^ 400 ∧
          2 * 2 ^ 400 < (k + 1) * (k + 1) * 2 ^ (2 * g + 400).toNat)
      | _ => false) = true ∧
    (match (Machine.Num.fin false 3 0).rsqrt with
      | (.fin _ k g, 0) => decide (k % 2 = 1 ∧ 2 ^ 62 ≤ k ∧ 3 * (k - 1) * (k - 1) * 2 ^ (2 * g + 400).toNat < 2 ^ 400 ∧
          2 ^ 400 < 3 * (k + 1) * (k + 1) * 2 ^ (2 * g + 400).toNat)
      | _ => false) = true := by decide +kernel

/-- A small state with a view whose scale bytes begin at 0x1F003. -/
def scaled (s : State) : State := s.modCtx 0 fun c => { c with
  views := [(3, { oneTile { mv := 1, ft := 1, busy := false, poisoned := false, queued := false } with shards := [(0x18000, 0x1F003)], tfmt := 7 })] }

/-- R326, R376, R251: an atomic read whose last byte lies on a view destination raises PROTECT with that byte, which fails the grid. -/
theorem witness_ScalarAtomicsAndSignals_protect : let s := scaled (richly [(6, 0x1F000)])
    let t := only0 (richLanes 0x1F000 0 0)
    let m : LaneFields := { one (fields 0 0 0x08000000 0 0) with a := 2 }
    Runs s (.satom 5 6 0 0 true 0) [6, 0] [5] ∧ translates s .r none 0x1F000 4 = true ∧ s.inDest 0 0x1F000 4 = some 0x1F003 ∧
    (ctxOf s).viewAt 0x1F000 = none ∧ Ready s ∧ (ctxOf s).mfctx = false ∧ (ctxOf s).draining = false ∧ (ctxOf s).removing = false ∧
    (match exec (.satom 5 6 0 0 true 0) s with
      | .next u => u == ((s.rangeFor (warpOf s) (teamOf s) (gridOf s) (ctxOf s) .r none 0x1F000 4).1.modWarp 4 fun x =>
          { x with cause := 0x13, tval := 0x1F003 }).failGrid 1 0x13
      | _ => false) = true ∧
    (after (.matom m) (scaled t)).grid 1 = none ∧ (after (.matom m) t).grid 1 ≠ none ∧ (after (.matom m) t).op 5 ≠ none := by
  unfold Ready Runs ScalarRuns ScalarAt TrapReady; decide +kernel

/-- R85, R86, R125, R136: a node line with an uncorrectable error is found by the walk and by the refitter, listed and counted; no segment is
made of pages behind it. -/
theorem witness_RefitKeepsTranslations_error : let r := (ctxOf edited).root
    let s : State := { edited with mem := { edited.mem with latent := [(1024 * r, true)] } }
    let u := after (.refit 0) s
    let v := s.translate 0 0 none 0x10000 .r
    tFind s.mem.latent (1024 * r) = some true ∧ s.lineDown (1024 * r) = false ∧ s.excHit 0 0 1 = none ∧ (ctxOf s).segs = [] ∧
    (s.readPath 3 r 1).2 = true ∧ (ctxOf u).segs = [] ∧ u.mem.poison = [1024 * r] ∧ u.mem.listed = [r] ∧ tGet u.ctrs 0 (ctrIx 0x23 0) = 1 ∧
    v.2 = .poison ∧ v.1.mem.listed = [r] := by decide +kernel

/-- R106 note 6: a late chip-scratchpad atomic leaves its word until its turn, and its result is then the word's value. -/
theorem test_late_atomic : let s := (only0 (richLanes 8 3 5)).modWarp 4 fun x => { x with lateNext := true }
    let i : Instr := .atc (one (f2 0 4))
    let t := s.execWeak i (.lane 4 0)
    let u := ({ t with cur := .none }.chipStore (.scr 1 0) 8 [9, 0, 0, 0] 0).reloadTurn 4 0
    ofBytes (t.chipBytes (.scr 1 0) 8 4) = 0 ∧ (warpOf t).lateLd.length = 1 ∧ ofBytes (u.chipBytes (.scr 1 0) 8 4) = 12 ∧
    (warpOf u).readV 8 0 = 9 ∧ (warpOf u).lateLd = [] := by decide +kernel

/-- A launch that has not started, with one leased page on a host frame that nobody has confirmed. -/
def leasing : State :=
  let s := ready.modGrid 1 fun g => { g with ready := false, leases := [{ base := 0x20000, len := 0x10000, r := true, w := false, x := false, span := 1 }] }
  { s with mem := s.mem.pokeN 0 (0x103 * 65536 + 16) (toBytes 8 (0x800000005 * 2 ^ 20 + 3 * 2 ^ 7 + 3)) }

/-- R140: the walk asks for the page, once. -/
theorem witness_HostPages_anew : let c := ctxOf leasing
    let u := after .distributorWalk leasing
    leasing.work.order = [1] ∧ (gridOf leasing).started = false ∧ c.fn = 16 ∧ leasing.leaf c 2 % 2 = 1 ∧ attrTier (pteAttr (leasing.leaf c 2)) = 3 ∧
    ptePpn (leasing.leaf c 2) = 0x800000005 ∧ (leasing.leaseCheck c 0 (gridOf leasing).leases).toOption = some false ∧
    memb leasing.xlat.present 0x800000005 = false ∧ leasing.xlat.ats = [] ∧ leasing.xlat.asked = [] ∧ (gridOf leasing).absent = [] ∧
    u.outbox = [.atsRequest 16 0x800000005] ∧ u.xlat.ats = [(16, 0x800000005)] ∧ (after .distributorWalk u).outbox = u.outbox := by decide +kernel

/-- R134: what a copy has still to do on the page that it reads: nothing once its two pieces of that page have been read. -/
theorem test_mapsync_accesses : let o := ((after (.copy 5 6 7 0 false) (richly [(5, 6), (6, 0x10000), (7, 12)])).op 5).getD default
    o.reaches 1 = true ∧ { o with todo := [1, 2, 3, 4] }.reaches 1 = true ∧ { o with todo := [2, 3, 4] }.reaches 1 = false ∧ o.reaches 2 = false := by decide +kernel

/-! ### Decoding: a word of every constructor, laid out from the spec's formats -/

/-- R281 to R285. Every scalar row, its word laid out from the opcode table. -/
theorem decodes_scalar_1 : ∀ p ∈ [
    (0x04518700, Instr.add 5 6 7),
    (0x04518701, Instr.sub 5 6 7),
    (0x04518702, Instr.and 5 6 7),
    (0x04518703, Instr.or 5 6 7),
    (0x04518704, Instr.xor 5 6 7),
    (0x04518705, Instr.shl 5 6 7),
    (0x04518706, Instr.shr 5 6 7),
    (0x04518707, Instr.sar 5 6 7),
    (0x04518708, Instr.mul 5 6 7),
    (0x04518709, Instr.mulhn 5 6 7),
    (0x0451870A, Instr.mulh 5 6 7),
    (0x0451870B, Instr.divn 5 6 7),
    (0x0451870C, Instr.remn 5 6 7),
    (0x0451870D, Instr.min 5 6 7),
    (0x0451870E, Instr.max 5 6 7)], decodeTableWord 32 p.1 = some p.2 := by decide +kernel

theorem decodes_scalar_2 : ∀ p ∈ [
    (0x0451870F, Instr.minn 5 6 7),
    (0x04518710, Instr.maxn 5 6 7),
    (0x04518711, Instr.seq 5 6 7),
    (0x04518712, Instr.sne 5 6 7),
    (0x04518713, Instr.slt 5 6 7),
    (0x04518714, Instr.sltn 5 6 7),
    (0x0851A345, Instr.addi 5 6 0x2345),
    (0x0C51A345, Instr.andi 5 6 0x2345),
    (0x1051A345, Instr.ori 5 6 0x2345),
    (0x1451A345, Instr.xori 5 6 0x2345),
    (0x18518007, Instr.shli 5 6 7),
    (0x1C518007, Instr.shri 5 6 7),
    (0x20518007, Instr.sari 5 6 7),
    (0x2451A345, Instr.slti 5 6 0x2345),
    (0x2851A345, Instr.sltni 5 6 0x2345)], decodeTableWord 32 p.1 = some p.2 := by decide +kernel

theorem decodes_scalar_3 : ∀ p ∈ [
    (0x2C581234, Instr.lui 5 0x81234),
    (0x30581234, Instr.bz 5 0x81234),
    (0x34581234, Instr.bnz 5 0x81234),
    (0x38581234, Instr.bltz 5 0x81234),
    (0x3C581234, Instr.bgez 5 0x81234),
    (0x42345678, Instr.jmp 0x2345678),
    (0x44581234, Instr.call 5 0x81234),
    (0x48014000, Instr.jr 5),
    (0x4C518770, Instr.sld 5 6 7 1 true true),
    (0x50518750, Instr.sst 5 6 7 1 true),
    (0x5451A345, Instr.argld 5 6 0x2345),
    (0x58518000, Instr.kmov 5 6),
    (0x5C081234, Instr.lrun 0x81234),
    (0x60000000, Instr.lsync),
    (0x64000000, Instr.yield)], decodeTableWord 32 p.1 = some p.2 := by decide +kernel

theorem decodes_scalar_4 : ∀ p ∈ [
    (0x682A5345, Instr.yieldc 2 165 837),
    (0x6C0010A5, Instr.waitc 2 165),
    (0x70000000, Instr.exit),
    (0x74500921, Instr.barArrive 5 9 33),
    (0x74015900, Instr.barWait 5 9),
    (0x74502921, Instr.barSync 5 9 33),
    (0x7800000A, Instr.fence 1 2),
    (0x7C000002, Instr.tokacq 2),
    (0x80000002, Instr.tokrel 2),
    (0x84518750, Instr.copy 5 6 7 2 true),
    (0x88518750, Instr.copy2d 5 6 7 2 true),
    (0x8C518007, Instr.nstore 5 6 7),
    (0x90500000, Instr.namepop 5),
    (0x94518007, Instr.relq 5 6 7),
    (0x98000000, Instr.vfence)], decodeTableWord 32 p.1 = some p.2 := by decide +kernel

theorem decodes_scalar_5 : ∀ p ∈ [
    (0x9C500000, Instr.coll 5),
    (0xA0518000, Instr.launch 5 6),
    (0xA4014602, Instr.signalSetInsn 5 6 2),
    (0xA4014642, Instr.signalAdd 5 6 2),
    (0xA401469A, Instr.signalWaitInsn 5 6 1 true 2),
    (0xA851879E, Instr.satom 5 6 7 4 true 14),
    (0xAC500047, Instr.dqpush 5 1 7),
    (0xB0500047, Instr.dqpop 5 1 7),
    (0xB4500047, Instr.dqsteal 5 1 7),
    (0xB8500000, Instr.bndmin 5),
    (0xBC500000, Instr.bndrd 5),
    (0xC0500006, Instr.role 5 6),
    (0xC4500804, Instr.csrr 5 0x804),
    (0xC8014804, Instr.csrw 5 0x804),
    (0xCC081234, Instr.trap 0x81234)], decodeTableWord 32 p.1 = some p.2 := by decide +kernel

theorem decodes_scalar_6 : ∀ p ∈ [
    (0xD0518002, Instr.placeHint 5 6 1),
    (0xD0518703, Instr.placeReq 5 6 7 1),
    (0xD4518000, Instr.savev 5 6),
    (0xD8518000, Instr.restv 5 6),
    (0xDC518700, Instr.savet 5 6 7),
    (0xE0518700, Instr.restt 5 6 7),
    (0xE4000000, Instr.tret),
    (0xE4000001, Instr.tretSkip),
    (0xE8518700, Instr.mapedit 5 6 7),
    (0xEC518700, Instr.mapsync 5 6 7),
    (0xF0500600, Instr.refitf 5 6),
    (0xF4034548, Instr.lbldn 837 2 1)], decodeTableWord 32 p.1 = some p.2 := by decide +kernel

/-- R286 to R288. Every lane row, its fields laid out as R286 gives them. -/
theorem decodes_lane_1 : ∀ p ∈ [
    (0x01D78000000000080000007F, Instr.mov { ty := 13, pred := 3, neg := true, wbs := true, dst := 0, a := 0, b := 0, c := 0, i := true, md := 0, imm := 0x7F }),
    (0x02074FE00000000000000000, Instr.laneid { ty := 0, pred := 3, neg := true, wbs := false, dst := 639, a := 0, b := 0, c := 0, i := false, md := 0, imm := 0x0 }),
    (0x034700801A01008000000000, Instr.sel { ty := 4, pred := 3, neg := true, wbs := false, dst := 4, a := 6, b := 1026, c := 8, i := false, md := 0, imm := 0x0 }),
    (0x040700E01403000300000000, Instr.pset { ty := 0, pred := 3, neg := true, wbs := false, dst := 7, a := 5, b := 6, c := 0, i := false, md := 3, imm := 0x0 }),
    (0x100700801A01000000000000, Instr.iadd { ty := 0, pred := 3, neg := true, wbs := false, dst := 4, a := 6, b := 1026, c := 0, i := false, md := 0, imm := 0x0 }),
    (0x110700801A01000000000000, Instr.isub { ty := 0, pred := 3, neg := true, wbs := false, dst := 4, a := 6, b := 1026, c := 0, i := false, md := 0, imm := 0x0 }),
    (0x120700801A01000000000000, Instr.imul { ty := 0, pred := 3, neg := true, wbs := false, dst := 4, a := 6, b := 1026, c := 0, i := false, md := 0, imm := 0x0 }),
    (0x130700801A01000000000000, Instr.imulh { ty := 0, pred := 3, neg := true, wbs := false, dst := 4, a := 6, b := 1026, c := 0, i := false, md := 0, imm := 0x0 }),
    (0x142700801A01008000000000, Instr.imad { ty := 2, pred := 3, neg := true, wbs := false, dst := 4, a := 6, b := 1026, c := 8, i := false, md := 0, imm := 0x0 }),
    (0x150700801A01000000000000, Instr.imin { ty := 0, pred := 3, neg := true, wbs := false, dst := 4, a := 6, b := 1026, c := 0, i := false, md := 0, imm := 0x0 }),
    (0x160700801A01000000000000, Instr.imax { ty := 0, pred := 3, neg := true, wbs := false, dst := 4, a := 6, b := 1026, c := 0, i := false, md := 0, imm := 0x0 }),
    (0x170700801800000000000000, Instr.iabs { ty := 0, pred := 3, neg := true, wbs := false, dst := 4, a := 6, b := 0, c := 0, i := false, md := 0, imm := 0x0 }),
    (0x180700801A01000000000000, Instr.iand { ty := 0, pred := 3, neg := true, wbs := false, dst := 4, a := 6, b := 1026, c := 0, i := false, md := 0, imm := 0x0 }),
    (0x190700801A01000000000000, Instr.ior { ty := 0, pred := 3, neg := true, wbs := false, dst := 4, a := 6, b := 1026, c := 0, i := false, md := 0, imm := 0x0 }),
    (0x1A0700801A01000000000000, Instr.ixor { ty := 0, pred := 3, neg := true, wbs := false, dst := 4, a := 6, b := 1026, c := 0, i := false, md := 0, imm := 0x0 })], decodeTableWord 96 p.1 = some p.2 := by decide +kernel

theorem decodes_lane_2 : ∀ p ∈ [
    (0x1B0700801800000000000000, Instr.inot { ty := 0, pred := 3, neg := true, wbs := false, dst := 4, a := 6, b := 0, c := 0, i := false, md := 0, imm := 0x0 }),
    (0x1C0700801A01000000000000, Instr.ishl { ty := 0, pred := 3, neg := true, wbs := false, dst := 4, a := 6, b := 1026, c := 0, i := false, md := 0, imm := 0x0 }),
    (0x1D0700801A01000000000000, Instr.ishr { ty := 0, pred := 3, neg := true, wbs := false, dst := 4, a := 6, b := 1026, c := 0, i := false, md := 0, imm := 0x0 }),
    (0x1E0700801A01000000000000, Instr.isar { ty := 0, pred := 3, neg := true, wbs := false, dst := 4, a := 6, b := 1026, c := 0, i := false, md := 0, imm := 0x0 }),
    (0x1F3700E01804000500000000, Instr.icmp { ty := 3, pred := 3, neg := true, wbs := false, dst := 7, a := 6, b := 8, c := 0, i := false, md := 5, imm := 0x0 }),
    (0x201700801800000000000000, Instr.popc { ty := 1, pred := 3, neg := true, wbs := false, dst := 4, a := 6, b := 0, c := 0, i := false, md := 0, imm := 0x0 }),
    (0x211700801800000000000000, Instr.clz { ty := 1, pred := 3, neg := true, wbs := false, dst := 4, a := 6, b := 0, c := 0, i := false, md := 0, imm := 0x0 }),
    (0x221700801800000000000000, Instr.brev { ty := 1, pred := 3, neg := true, wbs := false, dst := 4, a := 6, b := 0, c := 0, i := false, md := 0, imm := 0x0 }),
    (0x233700801A01000000000000, Instr.bfe { ty := 3, pred := 3, neg := true, wbs := false, dst := 4, a := 6, b := 1026, c := 0, i := false, md := 0, imm := 0x0 }),
    (0x241700801A01008000000000, Instr.bfi { ty := 1, pred := 3, neg := true, wbs := false, dst := 4, a := 6, b := 1026, c := 8, i := false, md := 0, imm := 0x0 }),
    (0x250700801A01000000000000, Instr.idiv { ty := 0, pred := 3, neg := true, wbs := false, dst := 4, a := 6, b := 1026, c := 0, i := false, md := 0, imm := 0x0 }),
    (0x260700801A01000000000000, Instr.irem { ty := 0, pred := 3, neg := true, wbs := false, dst := 4, a := 6, b := 1026, c := 0, i := false, md := 0, imm := 0x0 }),
    (0x304700801A01000000000000, Instr.fadd { ty := 4, pred := 3, neg := true, wbs := false, dst := 4, a := 6, b := 1026, c := 0, i := false, md := 0, imm := 0x0 }),
    (0x314700801A01000000000000, Instr.fsub { ty := 4, pred := 3, neg := true, wbs := false, dst := 4, a := 6, b := 1026, c := 0, i := false, md := 0, imm := 0x0 }),
    (0x324700801A01000000000000, Instr.fmul { ty := 4, pred := 3, neg := true, wbs := false, dst := 4, a := 6, b := 1026, c := 0, i := false, md := 0, imm := 0x0 })], decodeTableWord 96 p.1 = some p.2 := by decide +kernel

theorem decodes_lane_3 : ∀ p ∈ [
    (0x334700801A013FF300000000, Instr.ffma { ty := 4, pred := 3, neg := true, wbs := false, dst := 4, a := 6, b := 1026, c := 1023, i := false, md := 3, imm := 0x0 }),
    (0x344700801A01000000000000, Instr.fmin { ty := 4, pred := 3, neg := true, wbs := false, dst := 4, a := 6, b := 1026, c := 0, i := false, md := 0, imm := 0x0 }),
    (0x354700801A01000000000000, Instr.fmax { ty := 4, pred := 3, neg := true, wbs := false, dst := 4, a := 6, b := 1026, c := 0, i := false, md := 0, imm := 0x0 }),
    (0x365700E01804000700000000, Instr.fcmp { ty := 5, pred := 3, neg := true, wbs := false, dst := 7, a := 6, b := 8, c := 0, i := false, md := 7, imm := 0x0 }),
    (0x376700E018000000000003FF, Instr.fclass { ty := 6, pred := 3, neg := true, wbs := false, dst := 7, a := 6, b := 0, c := 0, i := false, md := 0, imm := 0x3FF }),
    (0x385700801800000300000000, Instr.frcp { ty := 5, pred := 3, neg := true, wbs := false, dst := 4, a := 6, b := 0, c := 0, i := false, md := 3, imm := 0x0 }),
    (0x395700801800000300000000, Instr.frsq { ty := 5, pred := 3, neg := true, wbs := false, dst := 4, a := 6, b := 0, c := 0, i := false, md := 3, imm := 0x0 }),
    (0x3A5700801800000300000000, Instr.fsqrt { ty := 5, pred := 3, neg := true, wbs := false, dst := 4, a := 6, b := 0, c := 0, i := false, md := 3, imm := 0x0 }),
    (0x3B5700801800000300000000, Instr.fex2 { ty := 5, pred := 3, neg := true, wbs := false, dst := 4, a := 6, b := 0, c := 0, i := false, md := 3, imm := 0x0 }),
    (0x3C5700801800000300000000, Instr.flg2 { ty := 5, pred := 3, neg := true, wbs := false, dst := 4, a := 6, b := 0, c := 0, i := false, md := 3, imm := 0x0 }),
    (0x3D4700801A01000000000000, Instr.fdiv { ty := 4, pred := 3, neg := true, wbs := false, dst := 4, a := 6, b := 1026, c := 0, i := false, md := 0, imm := 0x0 }),
    (0x404700801800000100000013, Instr.cvt { ty := 4, pred := 3, neg := true, wbs := false, dst := 4, a := 6, b := 0, c := 0, i := false, md := 1, imm := 0x13 }),
    (0x415700801A01000100000009, Instr.pack { ty := 5, pred := 3, neg := true, wbs := false, dst := 4, a := 6, b := 1026, c := 0, i := false, md := 1, imm := 0x9 }),
    (0x42C700801800000000000003, Instr.unpk { ty := 12, pred := 3, neg := true, wbs := false, dst := 4, a := 6, b := 0, c := 0, i := false, md := 0, imm := 0x3 }),
    (0x430700801A01008300000000, Instr.dp4i { ty := 0, pred := 3, neg := true, wbs := false, dst := 4, a := 6, b := 1026, c := 8, i := false, md := 3, imm := 0x0 })], decodeTableWord 96 p.1 = some p.2 := by decide +kernel

theorem decodes_lane_4 : ∀ p ∈ [
    (0x440700801A01008100000000, Instr.dp8i { ty := 0, pred := 3, neg := true, wbs := false, dst := 4, a := 6, b := 1026, c := 8, i := false, md := 1, imm := 0x0 }),
    (0x457700801A01008200000000, Instr.dp4f { ty := 7, pred := 3, neg := true, wbs := false, dst := 4, a := 6, b := 1026, c := 8, i := false, md := 2, imm := 0x0 }),
    (0x46B700801A01008200000000, Instr.dp8f { ty := 11, pred := 3, neg := true, wbs := false, dst := 4, a := 6, b := 1026, c := 8, i := false, md := 2, imm := 0x0 }),
    (0x476700801A01000300000000, Instr.mxscale { ty := 6, pred := 3, neg := true, wbs := false, dst := 4, a := 6, b := 1026, c := 0, i := false, md := 3, imm := 0x0 }),
    (0x48C70080180000000000245A, Instr.qcvt { ty := 12, pred := 3, neg := true, wbs := false, dst := 4, a := 6, b := 0, c := 0, i := false, md := 0, imm := 0x245A }),
    (0x49B700801800000200000000, Instr.dqcvt { ty := 11, pred := 3, neg := true, wbs := false, dst := 4, a := 6, b := 0, c := 0, i := false, md := 2, imm := 0x0 }),
    (0x500700801A01000000000000, Instr.shfl { ty := 0, pred := 3, neg := true, wbs := false, dst := 4, a := 6, b := 1026, c := 0, i := false, md := 0, imm := 0x0 }),
    (0x510700801A01000200000000, Instr.shflx { ty := 0, pred := 3, neg := true, wbs := false, dst := 4, a := 6, b := 1026, c := 0, i := false, md := 2, imm := 0x0 }),
    (0x520700801800000500000000, Instr.vred { ty := 0, pred := 3, neg := true, wbs := false, dst := 4, a := 6, b := 0, c := 0, i := false, md := 5, imm := 0x0 }),
    (0x532700801800000300000000, Instr.vscan { ty := 2, pred := 3, neg := true, wbs := false, dst := 4, a := 6, b := 0, c := 0, i := false, md := 3, imm := 0x0 }),
    (0x540700801800000200000000, Instr.vvote { ty := 0, pred := 3, neg := true, wbs := false, dst := 4, a := 6, b := 0, c := 0, i := false, md := 2, imm := 0x0 }),
    (0x550700801800000000000000, Instr.vfirst { ty := 0, pred := 3, neg := true, wbs := false, dst := 4, a := 6, b := 0, c := 0, i := false, md := 0, imm := 0x0 }),
    (0x60C7008018000000FFFFFFF0, Instr.ldt { ty := 12, pred := 3, neg := true, wbs := false, dst := 4, a := 6, b := 0, c := 0, i := false, md := 0, imm := 0xFFFFFFF0 }),
    (0x61C7000018040000FFFFFFF0, Instr.stt { ty := 12, pred := 3, neg := true, wbs := false, dst := 0, a := 6, b := 8, c := 0, i := false, md := 0, imm := 0xFFFFFFF0 }),
    (0x623700801800000000000010, Instr.ldc { ty := 3, pred := 3, neg := true, wbs := false, dst := 4, a := 6, b := 0, c := 0, i := false, md := 0, imm := 0x10 })], decodeTableWord 96 p.1 = some p.2 := by decide +kernel

theorem decodes_lane_5 : ∀ p ∈ [
    (0x633700001804000000000010, Instr.stc { ty := 3, pred := 3, neg := true, wbs := false, dst := 0, a := 6, b := 8, c := 0, i := false, md := 0, imm := 0x10 }),
    (0x640700801800000000000004, Instr.lds { ty := 0, pred := 3, neg := true, wbs := false, dst := 4, a := 6, b := 0, c := 0, i := false, md := 0, imm := 0x4 }),
    (0x650700001804000000000004, Instr.sts { ty := 0, pred := 3, neg := true, wbs := false, dst := 0, a := 6, b := 8, c := 0, i := false, md := 0, imm := 0x4 }),
    (0x663700801A010083E0FFFFFC, Instr.att { ty := 3, pred := 3, neg := true, wbs := false, dst := 4, a := 6, b := 1026, c := 8, i := false, md := 3, imm := 0xE0FFFFFC }),
    (0x674700801A01000410000008, Instr.atc { ty := 4, pred := 3, neg := true, wbs := false, dst := 4, a := 6, b := 1026, c := 0, i := false, md := 4, imm := 0x10000008 }),
    (0x684700801800000700000040, Instr.accrd { ty := 4, pred := 3, neg := true, wbs := false, dst := 4, a := 6, b := 0, c := 0, i := false, md := 7, imm := 0x40 }),
    (0x6907000018040003FFFFFFFF, Instr.accwr { ty := 0, pred := 3, neg := true, wbs := false, dst := 0, a := 6, b := 8, c := 0, i := false, md := 3, imm := 0xFFFFFFFF }),
    (0x7017000FC1FF808600000020, Instr.gath { ty := 1, pred := 3, neg := true, wbs := false, dst := 0, a := 1008, b := 1023, c := 8, i := false, md := 6, imm := 0x20 }),
    (0x7107000FC9F8808300000004, Instr.scat { ty := 0, pred := 3, neg := true, wbs := false, dst := 0, a := 1010, b := 1009, c := 8, i := false, md := 3, imm := 0x4 }),
    (0x7137002FC9F8808200000004, Instr.scatAdd { ty := 3, pred := 3, neg := true, wbs := false, dst := 1, a := 1010, b := 1009, c := 8, i := false, md := 2, imm := 0x4 }),
    (0x721700801A01000418000000, Instr.matom { ty := 1, pred := 3, neg := true, wbs := false, dst := 4, a := 6, b := 1026, c := 0, i := false, md := 4, imm := 0x18000000 }),
    (0x8007000000000000FFFFFFFA, Instr.bra { ty := 0, pred := 3, neg := true, wbs := false, dst := 0, a := 0, b := 0, c := 0, i := false, md := 0, imm := 0xFFFFFFFA }),
    (0x810700A00000000000012345, Instr.lcall { ty := 0, pred := 3, neg := true, wbs := false, dst := 5, a := 0, b := 0, c := 0, i := false, md := 0, imm := 0x12345 }),
    (0x820700001800000000000000, Instr.lret { ty := 0, pred := 3, neg := true, wbs := false, dst := 0, a := 6, b := 0, c := 0, i := false, md := 0, imm := 0x0 }),
    (0x830000000000000000000007, Instr.rcvMark { ty := 0, pred := 0, neg := false, wbs := false, dst := 0, a := 0, b := 0, c := 0, i := false, md := 0, imm := 0x7 })], decodeTableWord 96 p.1 = some p.2 := by decide +kernel

theorem decodes_lane_6 : ∀ p ∈ [
    (0x830000000000000000000009, Instr.rcvWait { ty := 0, pred := 0, neg := false, wbs := false, dst := 0, a := 0, b := 0, c := 0, i := false, md := 0, imm := 0x9 }),
    (0x840000000000000000000000, Instr.lend { ty := 0, pred := 0, neg := false, wbs := false, dst := 0, a := 0, b := 0, c := 0, i := false, md := 0, imm := 0x0 }),
    (0x850700C000000000000000C5, Instr.refill { ty := 0, pred := 3, neg := true, wbs := false, dst := 6, a := 0, b := 0, c := 0, i := false, md := 0, imm := 0xC5 }),
    (0x860700000000000000000000, Instr.idle { ty := 0, pred := 3, neg := true, wbs := false, dst := 0, a := 0, b := 0, c := 0, i := false, md := 0, imm := 0x0 }),
    (0x870700000000000089ABCDEF, Instr.ltrap { ty := 0, pred := 3, neg := true, wbs := false, dst := 0, a := 0, b := 0, c := 0, i := false, md := 0, imm := 0x89ABCDEF })], decodeTableWord 96 p.1 = some p.2 := by decide +kernel

/-- R289 to R291. Every sequencer row, its fields laid out as R289 and the tables of 19 give them. -/
theorem decodes_sequencer_1 : ∀ p ∈ [
    (0x01AD123200000000, Instr.mma 21 5 1 2 3 true false),
    (0x02F412FD00000000, Instr.mmas 30 4 1 2 15 3 false true),
    (0x03F4000000000000, Instr.mzero 30 4),
    (0x0487900000081234, Instr.mload 16 7 9 0x81234),
    (0x0517900000000100, Instr.mstore 2 7 9 0x100),
    (0x06A34500BDA22104, Instr.mquant 20 3 4 5 11 true 90 8 true 0x104),
    (0x07A3400000000005, Instr.mscale 20 3 4 0 true false true),
    (0x10006000FFFFFFFF, Instr.mset 6 0xFFFFFFFF),
    (0x1100120000000009, Instr.madd 1 2 0 false 9),
    (0x1100123100000000, Instr.madd 1 2 3 true 0),
    (0x1200F000FFFFFFFE, Instr.mloop 15 0xFFFFFFFE),
    (0x1300000080000001, Instr.mjmp 0x80000001),
    (0x1400000000000000, Instr.mhalt),
    (0x2000500000000003, Instr.mwait 3 5),
    (0x2100700000012109, Instr.marrive 9 7 true 33)], decodeTableWord 64 p.1 = some p.2 := by decide +kernel

theorem decodes_sequencer_2 : ∀ p ∈ [
    (0x2205000000000000, Instr.mtrel 5),
    (0x2306000000000000, Instr.mtacq 6),
    (0x2400000000000000, Instr.mfence)], decodeTableWord 64 p.1 = some p.2 := by decide +kernel

/-! ### Well-formedness: an ill-formed term for each check -/

theorem illFormed_scalar : ∀ i ∈ [Instr.fence 0 0, .fence 1 5, .barArrive 1 2 0, .barSync 1 2 0, .kmov 16 0, .waitc 6 0, .yieldc 6 0 0, .copy 1 2 3 7 false,
    .copy2d 1 2 3 7 true, .sld 1 2 3 3 true false, .signalSetInsn 1 2 5, .signalAdd 1 2 5, .signalWaitInsn 1 2 3 false 0, .signalWaitInsn 1 2 0 false 5,
    .satom 1 2 0 0 false 6, .satom 0 2 3 1 false 1, .satom 1 2 3 0 false 0, .satom 1 2 3 1 false 0, .placeHint 1 2 3, .placeReq 1 2 3 3,
    .lbldn 64 0 0, .lbldn 16 0 1, .lbldn 640 0 2, .lbldn 8 0 3], i.wf = false := by decide +kernel

/-- R30, R36, R286, R287: types, modes, odd pairs, register gaps, immediates beside srcB or beyond their type, WBS with a destination, predicated forms. -/
theorem illFormed_lane : ∀ i ∈ [Instr.iadd { f2 4 0 with b := 4 }, .iadd (f2 0 1), .iadd { f2 2 0 with dst := 9 }, .iadd { f2 2 0 with a := 3 }, .iadd { f2 0 0 with a := 640 },
    .iadd { f2 0 0 with a := 1028 }, .iadd { f2 0 0 with dst := 640 }, .iadd { f2 0 0 with i := true }, .iadd { f2 0 0 with imm := 1 }, .iadd { f2 0 0 with c := 1 },
    .iadd { f2 0 0 with wbs := true }, .mov { f1 12 0 0x80 with i := true, a := 0 }, .mov { f1 5 0 0x10000 with i := true, a := 0 }, .inot { f1 0 0 0 with i := true },
    .icmp { f2 0 6 with dst := 1 }, .icmp { f2 0 0 with dst := 8 }, .fadd (f2 4 4), .fclass { f1 4 0 0x400 with dst := 1 }, .cvt (f1 0 0 16), .cvt (f1 4 0 32), .pack { f1 5 0 2 with b := 4 },
    .unpk (f1 11 0 8), .dp4i (f3 0 4), .dp4f (f3 11 0), .qcvt (f1 7 0 1), .qcvt (f1 7 0 0x2065), .vred (f1 4 3 0), .shflx (f2 0 3), .vvote { f1 0 3 0 with dst := 1 }, .ldt (f1 4 1 0),
    .att { f2 4 5 with dst := 8 }, .att { f2 0 4 with imm := 0x01000000 }, .gath { fields 0 0 0 1009 6 with dst := 0, a := 2 }, .scatAdd { fields 0 0 0 1009 6 with dst := 0, a := 1008 },
    .matom (fields 0 0 0 4 0), .rcvMark (ctl 8), .rcvWait (ctl 7), .rcvMark { ctl 1 with pred := 1 }, .lend { ctl 0 with neg := true }, .refill { ctl 256 with dst := 8 },
    .pset { f2 0 5 with dst := 1 }, .ltrap { ctl 0 with ty := 1 }], i.wf = false := by decide +kernel

theorem illFormed_sequencer : ∀ i ∈ [Instr.mma 24 1 1 2 3 false false, .mma 30 2 1 2 3 false false, .mmas 6 1 1 2 3 0 false false, .mzero 1 0, .mload 1 0 1 0, .mstore 0 0 1 60,
    .mquant 0 0 1 2 11 false 0 0 false 0, .mquant 2 0 1 2 5 false 0 0 false 0, .mquant 2 0 1 2 6 false 0 0 false 0, .mquant 2 0 1 2 7 true 101 0 false 0, .mquant 2 0 1 2 7 true 0 33 false 0,
    .mquant 2 0 1 2 7 false 1 0 false 0, .mquant 2 0 1 2 7 false 0 0 false 28, .mscale 0 0 1 0 false false false, .mscale 0 0 0 1 false false true, .madd 1 2 3 false 0, .madd 1 2 3 true 1,
    .marrive 1 0 false 0, .marrive 1 2 false 3], i.wf = false := by decide +kernel

/-- R292: words that no decoder takes: unassigned codes and nonzero reserved fields. -/
theorem refuses_words : (∀ w ∈ [0x00000000, 0x04000015, 0x70000001, 0x7400F000, 0xF8000000, 0xE4000002, 0x5C100000], decodeTableWord 32 w = none) ∧
    (∀ w ∈ [0x00 * 2 ^ 88, 0x05 * 2 ^ 88, 0x4A * 2 ^ 88, 0x73 * 2 ^ 88, 0xFF * 2 ^ 88], decodeTableWord 96 w = none) ∧
    (∀ w ∈ [0x08 * 2 ^ 56, 0x15 * 2 ^ 56, 0x2400000000000001, 0x1000000100000000], decodeTableWord 64 w = none) := by decide +kernel

end Sys2Proof.Tests
end

section
/-!
SUPPORT. Laws of the scalar frame that the statements about registers and CSRs share: what a scalar instruction that waits, faults or
completes leaves of the device, whatever its own effect is.
-/
namespace Sys2Proof.Machine

variable {s : State} {w : Nat} {x y : Warp} {t : Team} {g : Grid} {c : Ctx} {i : Instr} {srcs dl : List (BitVec 6)}
  {dst : Option (BitVec 6)} {d : BitVec 6} {ill : SCtx → Bool} {f : SCtx → State}

/-! ### The operations of a scalar context -/

theorem becomes_done : s.Becomes ((scalarCtx i w x t g c).done s y) [(w, y.next)] [] := becomes_putWarp s w y.next

theorem becomes_wait (hw : s.warp w = some x) (ext : Bool) :
    s.Becomes ((scalarCtx i w x t g c).wait s ext) [(w, { x with wait := .hold ext })] [] := becomes_modWarp _ hw

theorem warp_done_self (s : State) : ((scalarCtx i w x t g c).done s y).warp w = some y.next :=
  (warp_putWarp s w w y.next).trans (if_pos rfl)

theorem warp_done_ne (s : State) {v : Nat} (hv : v ≠ w) : ((scalarCtx i w x t g c).done s y).warp v = s.warp v :=
  (warp_putWarp s w v y.next).trans (if_neg hv)

/-- The home of a warp is its team, the grid of the team and the context of the grid. -/
theorem home_eq_some_iff : s.home x = some (t, g, c) ↔ s.team x.team = some t ∧ s.grid t.grid = some g ∧ s.ctx g.ctx = some c := by
  constructor
  · intro h
    unfold State.home at h
    split at h <;> try contradiction
    next ht =>
      split at h <;> try contradiction
      next hg =>
        split at h <;> try contradiction
        next hc => cases h; exact ⟨ht, hg, hc⟩
  · rintro ⟨ht, hg, hc⟩
    simp only [State.home, ht, hg, hc]

theorem home_of_runs (h : ScalarRuns s w x t g c i srcs dl) :
    s.team x.team = some t ∧ s.grid t.grid = some g ∧ s.ctx g.ctx = some c := by
  obtain ⟨⟨-, -, hh⟩, -⟩ := h
  exact home_eq_some_iff.1 hh

/-- An instruction whose meaning is the scalar frame has its own effect once the frame lets it through. -/
theorem exec_of_runs (he : exec i s = runScalar i ill srcs dst s f) (h : ScalarRuns s w x t g c i srcs dl)
    (hd : ∀ d, dst = some d → d ∈ dl) (hi : ill (scalarCtx i w x t g c) = false) : exec i s = .next (f (scalarCtx i w x t g c)) :=
  he.trans (runScalar_runs h hd hi)

/-! ### A trap that becomes due while a return is in flight -/

/-- With a return in flight no trap is taken (R247). -/
theorem serveTrap_inFlight (hw : s.warp w = some x) (hf : x.inFlight = true) : s.serveTrap w = s := by
  simp [State.serveTrap, hw, hf]

/-- A pending scalar register is a return in flight (R31). -/
theorem inFlight_of_sPend {r : Nat} (h : memb x.sPend r = true) : x.inFlight = true := by
  have hne : x.sPend.isEmpty = false := by
    cases hs : x.sPend with
    | nil => simp [hs, memb] at h
    | cons _ _ => rfl
  simp [Warp.inFlight, hne]

/-- A scalar fault of a warp with a return in flight becomes due and is not taken yet (R245). -/
theorem becomes_fault_inFlight (hw : s.warp w = some x) (hf : x.inFlight = true) (code : BitVec 8) (val : W64) :
    s.Becomes ((scalarCtx i w x t g c).fault s code val) [(w, { x with wait := .none, due := x.due ++
      [{ rank := 1, code := code, val := val, lanes := 0, entry := none, pcL := 0 }] })] [] := by
  have hidle := becomes_modWarp (fun x => { x with wait := .none }) hw
  have hdue := becomes_modWarp (fun x => { x with due := x.due ++
    [{ rank := 1, code := code, val := val, lanes := 0, entry := none, pcL := 0 }] }) (becomes_warp hidle)
  have hb := becomes_warp_trans hidle hdue
  simp only [SCtx.fault, State.faultS, State.raise, scalarCtx]
  rw [if_pos (by decide), serveTrap_inFlight (becomes_warp hb) hf]
  exact hb

/-! ### ILLEGAL -/

/-- The number of the low n bytes of a number (R2). -/
theorem ofBytes_toBytes (n : Nat) : ∀ v, ofBytes (toBytes n v) = v % 256 ^ n := by
  induction n with
  | zero => intro v; simp [toBytes, ofBytes, Nat.mod_one]
  | succ n ih =>
    intro v
    rw [toBytes, ofBytes, ih, BitVec.toNat_ofNat, show 2 ^ 8 = 256 from rfl, Nat.pow_succ', Nat.mod_mul]

/-- TRAPVAL of an illegal scalar instruction is its zero-extended word (R251). -/
theorem illegal_word {word : BitVec 32} (h : encodeScalar i = some word) :
    BitVec.ofNat 64 (ofBytes (encode i)) = word.setWidth 64 := by
  have he : encode i = toBytes 4 word.toNat := by simp [encode, h]
  have hv : ofBytes (encode i) = word.toNat := by rw [he, ofBytes_toBytes]; exact Nat.mod_eq_of_lt word.isLt
  rw [hv]
  exact BitVec.ofNat_toNat 64 word

/-- A scalar instruction that its frame refuses enters the handler with ILLEGAL and its word (R251, R292). -/
theorem completes_illegal {word : BitVec 32} (he : exec i s = runScalar i ill srcs dst s f) (h : ScalarAt s w x t g c)
    (hr : TrapReady s w x g) (hi : legalStatic i = false ∨ ill (scalarCtx i w x t g c) = true) (hw : encodeScalar i = some word) :
    Completes i s [(w, Warp.inHandler { x with wait := .none } g 0x01 (word.setWidth 64) 0 0 .scalarFault)] [] := by
  refine ⟨_, he.trans (runScalar_illegal h hi), ?_⟩
  rw [SCtx.illegal, illegal_word hw]
  exact fault_handler h hr (by decide) (by decide) (by decide) (by decide) (by decide)

end Sys2Proof.Machine
end

section
/-!
SUPPORT and PROOFS. Pending registers (R31, R304) and s0 (R33).
-/
namespace Sys2Proof.Machine

/-- Nothing but its registers keeps the instruction from its effect: its fields are legal, it is no `BAR.SYNC`, which may have arrived,
and its meaning is the scalar frame with these sources and this destination. -/
structure NamesRegs (i : Instr) (srcs : List (BitVec 6)) (d : BitVec 6) : Prop where
  legalFields : legalStatic i = true
  notArrived : ∀ w x t g c, (scalarCtx i w x t g c).arrived = false
  frame : ∀ s, ∃ f, exec i s = runScalar i legal srcs (some d) s f

variable {s : State} {w : Nat} {x : Warp} {t : Team} {g : Grid} {c : Ctx} {i : Instr} {srcs : List (BitVec 6)} {d : BitVec 6}

theorem NamesRegs.source_waits (hn : NamesRegs i srcs d) (h : ScalarAt s w x t g c) (hs : ∃ r ∈ srcs, memb x.sPend r.toNat = true) :
    Completes i s [(w, { x with wait := .hold true })] [] := by
  obtain ⟨f, hf⟩ := hn.frame s
  have ⟨_, hw, _⟩ := h
  exact ⟨_, hf.trans (runScalar_waits h hn.legalFields rfl hs), becomes_wait hw true⟩

theorem NamesRegs.destination_inflight (hn : NamesRegs i srcs d) (h : ScalarAt s w x t g c)
    (hs : ∀ r ∈ srcs, memb x.sPend r.toNat = false) (hd : memb x.sPend d.toNat = true) :
    Completes i s [(w, { x with wait := .none, due := x.due ++
      [{ rank := 1, code := 0x03, val := BitVec.ofNat 64 (0x400 + d.toNat), lanes := 0, entry := none, pcL := 0 }] })] [] := by
  obtain ⟨f, hf⟩ := hn.frame s
  have ⟨_, hw, _⟩ := h
  refine ⟨_, hf.trans (runScalar_inflight h hn.legalFields rfl hs hd), ?_⟩
  rw [hn.notArrived]
  exact becomes_fault_inFlight hw (inFlight_of_sPend hd) _ _

/-- An instruction whose meaning is the scalar frame; its fields and its name decide the rest. -/
theorem namesRegs_of_frame {f : State → SCtx → State} (he : ∀ s, exec i s = runScalar i legal srcs (some d) s (f s))
    (hl : legalStatic i = true := by rfl) (hb : ∀ w x t g c, (scalarCtx i w x t g c).arrived = false := by intros; rfl) :
    NamesRegs i srcs d := ⟨hl, hb, fun s => ⟨f s, he s⟩⟩

/-- The ALU group reads sa and sb and writes sd (R306). -/
theorem namesRegs_alu {a b : BitVec 6} {f : W64 → W64 → W64} (he : ∀ s, exec i s = runAlu i f d a b s)
    (hl : legalStatic i = true := by rfl) (hb : ∀ w x t g c, (scalarCtx i w x t g c).arrived = false := by intros; rfl) :
    NamesRegs i [a, b] d := namesRegs_of_frame he hl hb

/-- The immediate forms read sa and write sd (R307). -/
theorem namesRegs_aluImm {a : BitVec 6} {f : W64 → W64} (he : ∀ s, exec i s = runAluImm i f d a s)
    (hl : legalStatic i = true := by rfl) (hb : ∀ w x t g c, (scalarCtx i w x t g c).arrived = false := by intros; rfl) :
    NamesRegs i [a] d := namesRegs_of_frame he hl hb

/-- An instruction of the ALU group whose destination is s0 changes only the PC (R33). -/
theorem alu_to_s0 {a b : BitVec 6} {f : W64 → W64 → W64} (he : ∀ s, exec i s = runAlu i f 0 a b s)
    (h : ScalarRuns s w x t g c i [a, b] [0]) : Completes i s [(w, x.next)] [] :=
  ⟨_, exec_of_runs (he s) h (by simp) rfl, becomes_done⟩

/-- Settles O10: each listed form is the scalar frame with its registers, and the frame decides on them before the effect. -/
theorem pendingAndZeroRegisters : Obligations.PendingAndZeroRegisters := by
  refine ⟨?_, ?_, fun _ _ _ _ _ _ a b => alu_to_s0 (exec_add 0 a b)⟩
  · intro s w x t g c d a b sh imm up sz sp h p hp
    suffices hn : NamesRegs p.1 p.2 d from ⟨hn.source_waits h, hn.destination_inflight h⟩
    revert p
    simp only [List.forall_mem_cons, List.not_mem_nil, false_implies, implies_true, and_true]
    exact ⟨namesRegs_alu (exec_add d a b), namesRegs_alu (exec_sub d a b), namesRegs_alu (exec_and d a b),
      namesRegs_alu (exec_or d a b), namesRegs_alu (exec_xor d a b), namesRegs_alu (exec_shl d a b), namesRegs_alu (exec_shr d a b),
      namesRegs_alu (exec_sar d a b), namesRegs_alu (exec_mul d a b), namesRegs_alu (exec_mulhn d a b),
      namesRegs_alu (exec_mulh d a b), namesRegs_alu (exec_divn d a b), namesRegs_alu (exec_remn d a b),
      namesRegs_alu (exec_min d a b), namesRegs_alu (exec_max d a b), namesRegs_alu (exec_minn d a b), namesRegs_alu (exec_maxn d a b),
      namesRegs_alu (exec_seq d a b), namesRegs_alu (exec_sne d a b), namesRegs_alu (exec_slt d a b), namesRegs_alu (exec_sltn d a b),
      namesRegs_aluImm (exec_addi d a imm), namesRegs_aluImm (exec_andi d a imm), namesRegs_aluImm (exec_ori d a imm),
      namesRegs_aluImm (exec_xori d a imm), namesRegs_aluImm (exec_shli d a sh), namesRegs_aluImm (exec_shri d a sh),
      namesRegs_aluImm (exec_sari d a sh), namesRegs_aluImm (exec_slti d a imm), namesRegs_aluImm (exec_sltni d a imm),
      namesRegs_of_frame (exec_lui d up), namesRegs_of_frame (exec_argld d a imm), namesRegs_of_frame (exec_sld d a b sz false sp)⟩
  · intro x v r q
    refine ⟨rfl, fun hq => by simp [readS_writeS, hq], fun hr => ?_⟩
    by_cases hq : q = 0
    · subst hq; rfl
    · simp [readS_writeS, hq, hr]

end Sys2Proof.Machine
end

section
/-!
SUPPORT and PROOFS. CSRs (R44 to R49, R334), the gang's bound (R206, R332) and role words (R333).
-/
namespace Sys2Proof.Machine

variable {s : State} {w : Nat} {x : Warp} {t : Team} {g : Grid} {c : Ctx} {i : Instr} {d a : BitVec 6} {n : BitVec 12}

/-! ### Which CSRs there are -/

/-- The numbers of the implemented CSRs (R44, R46 to R49). -/
def csrNumbers : List (BitVec 12) :=
  [0x001, 0x002, 0x010, 0x011, 0x012, 0x013, 0x014, 0x020, 0x021, 0x022, 0x023, 0x024, 0x030, 0x031, 0x040, 0x041, 0x800, 0x801, 0x802,
    0x803, 0x804]

/-- A CSR has a value just where its number is listed. -/
theorem csr_isSome_iff (k : SCtx) (s : State) (n : BitVec 12) : (k.csr s n.toNat).isSome = true ↔ n ∈ csrNumbers := by
  have hlist : n ∈ csrNumbers ↔ n.toNat ∈ csrNumbers.map BitVec.toNat :=
    ⟨List.mem_map_of_mem, fun h => by
      obtain ⟨m, hm, he⟩ := List.mem_map.1 h
      exact BitVec.eq_of_toNat_eq he ▸ hm⟩
  rw [hlist]
  generalize n.toNat = m
  unfold SCtx.csr
  split <;> simp_all [csrNumbers]

/-- What makes an access to a CSR legal (R45). -/
theorem csrBad_eq_false_iff (n : BitVec 12) (k : SCtx) :
    csrBad n k = false ↔ n ∈ csrNumbers ∧ (n.getLsbD 11 = true → k.c.sys = true) := by
  rw [← csr_isSome_iff k default, csrBad, Bool.or_eq_false_iff, Bool.and_eq_false_imp, Bool.not_eq_false', Option.isNone_eq_false_iff]

theorem csrBad_of_unimplemented (k : SCtx) (h : n ∉ csrNumbers) : csrBad n k = true :=
  Bool.of_not_eq_false fun hb => h ((csrBad_eq_false_iff n k).1 hb).1

/-- The numbers of the CSRs that a write changes (R45, R49, R334). -/
def csrWritable : List (BitVec 12) := [0x001, 0x002, 0x800, 0x804]

/-! ### Reads -/

theorem csr_gang (k : SCtx) (s : State) :
    k.csr s (0x022 : BitVec 12).toNat = some (BitVec.ofNat 64 ((s.gang k.t.gang).elim 0 (·.num))) := by
  show some _ = some _
  cases s.gang k.t.gang <;> rfl

theorem csr_ctxctl (k : SCtx) (s : State) : k.csr s (0x804 : BitVec 12).toNat =
    some (BitVec.ofNat 64 ((if k.c.sys then 4 else 0) + (if k.c.mfctx then 2 else 0) + if k.c.prot then 1 else 0)) := by
  show some _ = some _
  cases k.c.sys <;> cases k.c.mfctx <;> cases k.c.prot <;> rfl

/-- `csrr` writes the CSR's value with the context's label (R334). -/
theorem csrr_completes {v : W64} (h : ScalarRuns s w x t g c (.csrr d n) [] [d]) (hp : n.getLsbD 11 = true → c.sys = true)
    (hv : (scalarCtx (.csrr d n) w x t g c).csr s n.toNat = some v) :
    Completes (.csrr d n) s [(w, (x.writeS d.toNat ⟨v, c.label⟩).next)] [] := by
  have hn : n ∈ csrNumbers := (csr_isSome_iff _ s n).1 (by rw [hv]; rfl)
  refine ⟨_, exec_of_runs (exec_csrr d n s) h (by simp) ((csrBad_eq_false_iff n _).2 ⟨hn, hp⟩), ?_⟩
  rw [hv]
  exact becomes_done

/-! ### Writes -/

/-- The device after a write of TRAPVEC by a warp of grid `g`: every grid of its context that runs its kernel image holds `v`
(R49, log 78). -/
def State.setTrapvec (s : State) (g : Grid) (v : W32) : State :=
  { s with work := { s.work with grids := tMap s.work.grids fun _ h =>
    if h.ctx = g.ctx ∧ h.kernel.image = g.kernel.image then { h with trapvec := v } else h } }

theorem grid_setTrapvec (s : State) (g : Grid) (v : W32) (k : Nat) : (s.setTrapvec g v).grid k = (s.grid k).map fun h =>
    if h.ctx = g.ctx ∧ h.kernel.image = g.kernel.image then { h with trapvec := v } else h := by
  simp only [State.grid, State.setTrapvec, tFind_tMap]

theorem exec_csrw_fstat (a : BitVec 6) (s : State) : exec (.csrw a 0x001) s = runScalar (.csrw a 0x001) (csrBad 0x001) [a] none s
    fun k => k.done s { k.x with fstat := (k.rd a).val.setWidth 7 } := rfl

theorem exec_csrw_mfstat (a : BitVec 6) (s : State) : exec (.csrw a 0x002) s = runScalar (.csrw a 0x002) (csrBad 0x002) [a] none s
    fun k => k.done (s.modTeam k.x.team fun t => { t with mfstat := (k.rd a).val.setWidth 7 }) k.x := rfl

theorem exec_csrw_trapvec (a : BitVec 6) (s : State) : exec (.csrw a 0x800) s = runScalar (.csrw a 0x800) (csrBad 0x800) [a] none s
    fun k => k.done (s.setTrapvec k.g ((k.rd a).val.setWidth 32 &&& 0xFFFFFFFD)) k.x := rfl

theorem exec_csrw_ctxctl (a : BitVec 6) (s : State) : exec (.csrw a 0x804) s = runScalar (.csrw a 0x804) (csrBad 0x804) [a] none s
    fun k => k.done (s.modCtx k.g.ctx fun c => { c with mfctx := (k.rd a).val.getLsbD 1 }) k.x := rfl

/-- The write of a CSR that no rule makes writable is ignored (R45). -/
theorem exec_csrw_ignored (a : BitVec 6) (s : State) (h : n ∉ csrWritable) :
    exec (.csrw a n) s = runScalar (.csrw a n) (csrBad n) [a] none s fun k => k.done s k.x := by
  obtain ⟨h1, h2, h3, h4⟩ : n.toNat ≠ 0x001 ∧ n.toNat ≠ 0x002 ∧ n.toNat ≠ 0x800 ∧ n.toNat ≠ 0x804 := by
    simpa [csrWritable, ← BitVec.toNat_inj] using h
  rw [exec_csrw, execCsrw]
  congr 1
  funext k
  split <;> try contradiction
  rfl

theorem csrw_ignored_completes (h : ScalarRuns s w x t g c (.csrw a n) [a] []) (hn : n ∈ csrNumbers)
    (hw : n ∉ csrWritable) (hp : n.getLsbD 11 = true → c.sys = true) :
    Completes (.csrw a n) s [(w, x.next)] [] :=
  ⟨_, exec_of_runs (exec_csrw_ignored a s hw) h (by simp) ((csrBad_eq_false_iff n _).2 ⟨hn, hp⟩), becomes_done⟩

/-- The read-only CSRs that every warp may access (R46 to R48). -/
theorem user_readOnly : ∀ n ∈ [(0x010 : BitVec 12), 0x011, 0x012, 0x013, 0x014, 0x020, 0x021, 0x022, 0x023, 0x024, 0x030, 0x031, 0x040,
    0x041], n ∈ csrNumbers ∧ n ∉ csrWritable ∧ n.getLsbD 11 = false := by
  simp [csrNumbers, csrWritable]

/-- The read-only CSRs of system warps (R49). -/
theorem system_readOnly : ∀ n ∈ [(0x801 : BitVec 12), 0x802, 0x803], n ∈ csrNumbers ∧ n ∉ csrWritable := by
  simp [csrNumbers, csrWritable]

theorem csrw_fstat (h : ScalarRuns s w x t g c (.csrw a 0x001) [a] []) :
    Completes (.csrw a 0x001) s [(w, Warp.next { x with fstat := (x.readS a.toNat).val.setWidth 7 })] [] :=
  ⟨_, exec_of_runs (exec_csrw_fstat a s) h (by simp) ((csrBad_eq_false_iff _ _).2 ⟨by simp [csrNumbers], by simp⟩), becomes_done⟩

theorem csrw_mfstat (h : ScalarRuns s w x t g c (.csrw a 0x002) [a] []) :
    Completes (.csrw a 0x002) s [(w, x.next)] [(x.team, { t with mfstat := (x.readS a.toNat).val.setWidth 7 })] :=
  have ⟨ht, _⟩ := home_of_runs h
  ⟨_, exec_of_runs (exec_csrw_mfstat a s) h (by simp) ((csrBad_eq_false_iff _ _).2 ⟨by simp [csrNumbers], by simp⟩),
    becomes_team_warp (becomes_modTeam _ ht) becomes_done⟩

/-- A write of TRAPVEC reaches every grid of the context that runs the same kernel image, with bit 1 as 0 (R49). -/
theorem csrw_trapvec (h : ScalarRuns s w x t g c (.csrw a 0x800) [a] []) (hsys : c.sys = true) :
    ∃ u, exec (.csrw a 0x800) s = .next u ∧ u.warp w = some x.next ∧ (∀ z, z ≠ w → u.warp z = s.warp z) ∧ SameMain s u ∧
      ∀ k h, s.grid k = some h → u.grid k = some (if h.ctx = g.ctx ∧ h.kernel.image = g.kernel.image
        then { h with trapvec := (x.readS a.toNat).val.setWidth 32 &&& 0xFFFFFFFD } else h) := by
  refine ⟨_, exec_of_runs (exec_csrw_trapvec a s) h (by simp) ((csrBad_eq_false_iff _ _).2 ⟨by simp [csrNumbers], fun _ => hsys⟩),
    ?_, ?_, ?_, ?_⟩
  · exact warp_done_self _
  · exact fun _ => warp_done_ne _
  · exact SameMain.of_mem rfl
  · intro k h hk
    exact (grid_setTrapvec s g _ k).trans (congrArg _ hk)

theorem csrw_ctxctl (h : ScalarRuns s w x t g c (.csrw a 0x804) [a] []) (hsys : c.sys = true) :
    ∃ u, exec (.csrw a 0x804) s = .next u ∧ u.warp w = some x.next ∧ (∀ z, z ≠ w → u.warp z = s.warp z) ∧ SameMain s u ∧
      ∀ k, u.ctx k = if k = g.ctx then some { c with mfctx := (x.readS a.toNat).val.getLsbD 1 } else s.ctx k := by
  refine ⟨_, exec_of_runs (exec_csrw_ctxctl a s) h (by simp) ((csrBad_eq_false_iff _ _).2 ⟨by simp [csrNumbers], fun _ => hsys⟩),
    ?_, ?_, ?_, ?_⟩
  · exact warp_done_self _
  · exact fun _ => warp_done_ne _
  · exact SameMain.of_mem rfl
  · intro k
    refine (ctx_modCtx s g.ctx k _).trans ?_
    obtain ⟨-, -, hc⟩ := home_of_runs h
    rw [hc]
    rfl

/-! ### The bound and the roles -/

theorem mem_gangCores {y : Gang} {core : Nat} :
    core ∈ s.gangCores y ↔ ∃ n z, (n, z) ∈ s.work.warps ∧ memb y.teams z.team = true ∧ z.core = core := by
  simp [State.gangCores, List.mem_eraseDups, and_assoc]

theorem bndmin_lowers {y : Gang} (hy : s.gang t.gang = some y) (h : ScalarRuns s w x t g c (.bndmin a) [a] []) :
    ∃ u z, exec (.bndmin a) s = .next u ∧ u.warp w = some x.next ∧ (∀ v, v ≠ w → u.warp v = s.warp v) ∧ SameMain s u ∧
      u.gang t.gang = some z ∧ z = { y with bound := z.bound, flying := z.flying } ∧
      z.bound.val.toNat = min y.bound.val.toNat (x.readS a.toNat).val.toNat ∧
      z.bound.lab = Label.join y.bound.lab (x.readS a.toNat).lab ∧
      (∀ e, e ∈ z.flying ↔ e ∈ y.flying ∨ (e.2 = x.readS a.toNat ∧
        ∃ n z, (n, z) ∈ s.work.warps ∧ memb y.teams z.team = true ∧ z.core = e.1)) := by
  let v := x.readS a.toNat
  let z : Gang := { y with
    bound := { val := if v.val.toNat < y.bound.val.toNat then v.val else y.bound.val, lab := Label.join y.bound.lab v.lab }
    flying := y.flying ++ (s.gangCores y).map fun c => (c, v) }
  have he : exec (.bndmin a) s = .next ((scalarCtx (.bndmin a) w x t g c).done (s.putGang t.gang z) x) := by
    rw [exec_of_runs (exec_bndmin a s) h (by simp) rfl]
    simp only [scalarCtx, hy]
    rfl
  refine ⟨_, z, he, warp_done_self _, fun _ => warp_done_ne _, SameMain.of_mem rfl,
    (gang_putGang s t.gang t.gang z).trans (if_pos rfl), rfl, ?_, rfl, ?_⟩
  · show (if v.val.toNat < y.bound.val.toNat then v.val else y.bound.val).toNat = min y.bound.val.toNat v.val.toNat
    split <;> omega
  · rintro ⟨core, l⟩
    simp only [z, v, List.mem_append, List.mem_map, Prod.mk.injEq, ← mem_gangCores]
    constructor
    · rintro (hf | ⟨_, hc, rfl, rfl⟩)
      · exact .inl hf
      · exact .inr ⟨rfl, hc⟩
    · rintro (hf | ⟨rfl, hc⟩)
      · exact .inl hf
      · exact .inr ⟨core, hc, rfl, rfl⟩

theorem bndrd_reads {y : Gang} (hy : s.gang t.gang = some y) (h : ScalarRuns s w x t g c (.bndrd d) [] [d]) :
    Completes (.bndrd d) s [(w, (x.writeS d.toNat ((tFind y.copies x.core).getD ⟨BitVec.allOnes 64, 0⟩)).next)] [] := by
  refine ⟨_, exec_of_runs (exec_bndrd d s) h (by simp) rfl, ?_⟩
  simp only [scalarCtx, hy]
  exact becomes_done

theorem bitAt_toNat {n : Nat} (b : BitVec n) (j : Nat) : bitAt b.toNat j = b.getLsbD j := by
  rw [bitAt, BitVec.getLsbD, Nat.testBit_eq_decide_div_mod_eq]
  rfl

theorem b2n_mul (b : Bool) (m : Nat) : b2n b * m = if b = true then m else 0 := by cases b <;> simp [b2n]

theorem role_reads {role : BitVec 6} {y : Gang} (hy : s.gang t.gang = some y) (h : ScalarRuns s w x t g c (.role d role) [] [d]) :
    let b : W64 := (g.roles[role.toNat]?).getD 0
    Completes (.role d role) s [(w, (x.writeS d.toNat ⟨if g.roles.length ≤ role.toNat then 0
      else BitVec.ofNat 64 ((if b.getLsbD 63 = true ∧ (tFind y.ptgt role.toNat).isSome = true then 2 ^ 63 else 0) +
        (if b.getLsbD 63 = true then 2 ^ 62 else 0) + b.toNat / 2 ^ 56 % 8 * 2 ^ 56 + b.toNat % 2 ^ 56), c.label⟩).next)] [] := by
  intro b
  have hrole : g.role role.toNat = b.toNat := rfl
  refine ⟨_, exec_of_runs (exec_role d role s) h (by simp) rfl, ?_⟩
  simp only [scalarCtx, hy, hrole, bitAt_toNat, b2n_mul, Bool.and_eq_true, fld, ge_iff_le, apply_ite (BitVec.ofNat 64)]
  exact becomes_done

/-- Settles O22: the laws of `csrr`, `csrw`, `bndmin`, `bndrd` and `role` above, one per clause. -/
theorem csrsBoundsAndRoles : Obligations.CsrsBoundsAndRoles := by
  refine ⟨fun s w x t g c d word => ⟨?_, ?_⟩, ?_, ?_⟩
  · intro p hp h hsys
    refine csrr_completes h hsys ?_
    clear h hsys
    revert p
    simp only [List.forall_mem_cons, List.not_mem_nil, false_implies, implies_true, and_true]
    exact ⟨rfl, rfl, rfl, rfl, rfl, rfl, rfl, rfl, rfl, csr_gang _ s, rfl, rfl, rfl, rfl, rfl, rfl, rfl, rfl, rfl, rfl, csr_ctxctl _ s⟩
  · intro n hn h hr hw
    exact completes_illegal (exec_csrr d n s) h hr (.inr (csrBad_of_unimplemented _ hn)) hw
  · intro s w x t g c a n v h
    refine ⟨?_, ?_, ?_, ?_, ?_, ?_⟩
    · rintro rfl; exact csrw_fstat h
    · rintro rfl; exact csrw_mfstat h
    · intro hn
      obtain ⟨himpl, hignored, huser⟩ := user_readOnly n hn
      exact csrw_ignored_completes h himpl hignored fun hb => absurd (huser.symm.trans hb) Bool.false_ne_true
    · intro hn hsys
      obtain ⟨himpl, hignored⟩ := system_readOnly n hn
      exact csrw_ignored_completes h himpl hignored fun _ => hsys
    · rintro rfl hsys; exact csrw_trapvec h hsys
    · rintro rfl hsys; exact csrw_ctxctl h hsys
  · intro s w x t g c d a role y hy
    exact ⟨bndmin_lowers hy, bndrd_reads hy, role_reads hy⟩

end Sys2Proof.Machine
end
